-- ==== Sys2Proof/Word.lean ====
section
/-! DEFINITION. Words and the numbers of the fixed places: entries, segments, nodes. -/

namespace Sys2Proof

/-- One byte of a message (11_message_formats_and_connections.md). -/
abbrev Byte := BitVec 8

/-- A 16-bit parameter of a message (11.1). -/
abbrev Half := BitVec 16

/-- The number of a rack entry, E0 to E127 (R2). -/
abbrev EntryNo := Fin 128

/-- The number of a segment, 0 to 31 (R27). -/
abbrev SegNo := Fin 32

/-- The number of a field line of one group, EYE0 to EYE31 and the like (11.4). -/
abbrev LineNo := Fin 32

/-- A node, by its address LESS 1 (node address 1 is place 0), as link frames carry it (11.1). -/
abbrev NodeNo := Fin 16

end Sys2Proof
end

