-- ==== Sys2Proof/Config.lean ====
section
/-! DEFINITION. What the part fixes: sizes, limits and the figures of its timing. The spec leaves no result
open, so there is no free value here. -/

namespace Sys2Proof.Config

/-- Entries of the rack table (R2). -/
def entryCount : Nat := 128
/-- Items the demand queue holds (R166). -/
def demandCapacity : Nat := 32
/-- Answers one header carries (R123). -/
def answersPerHeader : Nat := 4
/-- Rounds a sighting window waits (R61). -/
def windowRounds : Nat := 2
/-- Errors in a row that make a node ABSENT (R130). -/
def errorRunLimit : Nat := 3
/-- Rounds that carry a restart mark (R124). -/
def restartRounds : Nat := 3
/-- The limit of the 16-bit counters that saturate: passes, stale age, dwell, dropout timer, pitch count. -/
def counterLimit : Nat := 65535
/-- The limit of the idle timer (R199). -/
def idleLimitSeconds : Nat := 7200
/-- Where the rewash count saturates (R8). -/
def rewashLimitMax : Nat := 3
/-- Where the count of the tunnel fault latch saturates (R95). -/
def faultCountLimit : Nat := 255
/-- The longest answer of the port, check included (R209). -/
def answerBytes : Nat := 64
/-- Bytes of an answer outside its body: length, number, echo, result, check (R209). -/
def answerFrameBytes : Nat := 5
/-- What a body may hold. -/
def bodyBytes : Nat := answerBytes - answerFrameBytes
/-- The PENDING marker (R209). -/
def pendingMarker : Byte := 0xFF#8
/-- The filler byte (R209). -/
def fillerByte : Byte := 0x00#8
/-- The code of TUNNEL where a segment number may stand (R209, R210). -/
def tunnelCode : Nat := 0x20
/-- Default pace base (Table 4-1). -/
def paceBaseDefault : Nat := 36
/-- Milliseconds of one pace tick (R85). -/
def paceTickMs : Nat := 100
/-- Header time of a round in ms (R121). -/
def headerMs : Nat := 6
/-- Length of one reply window in ms (R121). -/
def windowMs : Nat := 2
/-- Bits of a character on a branch: the start bit and 16 data bits (R208). -/
def characterBits : Nat := 17
/-- Microseconds of a bit on a branch (R117). -/
def bitMicroseconds : Nat := 16

end Sys2Proof.Config
end

