-- ==== Sys2Proof/Syntax.lean ====
section
/-! DEFINITION. The commands of the block: one constructor of `Instr` for each row of spec/opcode_table.json,
with the operands its rule names (the table gives none; notes/assumptions/33.md). Codes that a sender may get
wrong stay raw bytes, so that the refusal of a bad one is part of the command's meaning. -/

namespace Sys2Proof

/-- The four rack kinds (R1). -/
inductive Kind where
  | plate | cup | cutlery | tray
  deriving DecidableEq, Repr

/-- A tag: kind and serial (R1). Every combination is valid. -/
structure Tag where
  kind : Kind
  serial : BitVec 22
  deriving DecidableEq, Repr

/-- The three branches of the station link (R117). -/
inductive Branch where
  | a | b | c
  deriving DecidableEq, Repr

/-- Who sends a rack request: the supervisor's port, in a transaction that clocks the bytes `more` beyond the message (R185), or
a station (R146, R164). -/
inductive Source where
  | supervisor (more : List Byte := [])
  | station (node : NodeNo)
  deriving DecidableEq, Repr

/-- The argument of a station request, by its argument form (R208). -/
inductive Argument where
  | none
  | tag (t : Tag)
  | segment (n : Byte)
  deriving DecidableEq, Repr

/-- A rack request as received, before R147 judges whether it is malformed. `kind` is the station request
kind code of 11.1; an absent field is `none`. -/
structure RackRequest where
  kind : Byte
  argument : Argument
  expected : Option Byte
  reason : Option Byte
  deriving DecidableEq, Repr

/-- A demand set: one flag for each kind (R120). -/
structure DemandSet where
  plate : Bool
  cup : Bool
  cutlery : Bool
  tray : Bool
  deriving DecidableEq, Repr

/-- A valid reply of a node (R127, R208): what its frame carried. `sightings` holds the tag at the pawl first. -/
structure Reply where
  node : NodeNo
  ready : Bool
  demand : Option DemandSet
  sightings : List Tag
  request : Option RackRequest
  deriving DecidableEq, Repr

/-- What the controller saw on a branch on which activity began in a reply window (R127). -/
inductive WindowActivity where
  /-- the active level from the start of the window to its end, no character framed -/
  | heldActive
  /-- a reply still being received at the end of the window -/
  | unfinished
  /-- a reply that ended in the window: its bytes, in whole characters -/
  | frame (bytes : List Byte)
  deriving DecidableEq, Repr

/-- The filtered machine lines (R83). -/
inductive MachineLine where
  | machineRun | washOk | machineFault
  deriving DecidableEq, Repr

/-- READ_ENTRY names an entry by number or by tag (R189). -/
inductive EntrySelector where
  | number (n : Byte)
  | tag (t : Tag)
  deriving DecidableEq, Repr

/-- The fields of DEFINE_SEGMENT after its number, as the message carries them (R210). -/
structure RawSegment where
  kind : Byte
  capacity : Byte
  successor : Option Byte
  alternate : Option Byte
  eye : Byte
  drive : Byte
  diverter : Option Byte
  reader : Option Byte
  storeKind : Option Byte
  owner : Option Byte
  reach : Option Byte
  deriving DecidableEq, Repr

/-- The fields of DEFINE_TUNNEL, as the message carries them (R79, R210). -/
structure RawTunnel where
  capacity : Byte
  pitch : Half
  finalStart : Half
  finalEnd : Half
  exitDistance : Half
  exitTolerance : Half
  haltMargin : Half
  paceBase : Option Byte
  trim : Option Byte
  deriving DecidableEq, Repr

/-- The fields of DEFINE_NODE after its address, as the message carries them (R118, R210). -/
structure RawNode where
  role : Byte
  chain : Option Byte
  gate : Option Byte
  deriving DecidableEq, Repr

/-- The commands: one constructor for each row of spec/opcode_table.json. A request of the port carries the bytes `more` that its
transaction clocks beyond the message's length, none where it ends with the message: the request buffer collects them, the
taking disregards them (R185). WINDOW_END names the branches on which activity began in the window, in the order in which it
began; a branch that is not named stayed idle. -/
inductive Instr where
  | powerOn (stopAsserted : Bool)
  | nop (more : List Byte := [])
  | mode (code : Byte) (more : List Byte := [])
  | setParam (id : Byte) (value : Half) (more : List Byte := [])
  | readCounts (more : List Byte := [])
  | readEntry (sel : EntrySelector) (more : List Byte := [])
  | readSegment (seg : Byte) (start : Byte) (more : List Byte := [])
  | readTunnel (start : Byte) (more : List Byte := [])
  | readNode (address : Byte) (more : List Byte := [])
  | readDemand (start : Byte) (more : List Byte := [])
  | readAttention (more : List Byte := [])
  | setAttention (settings : List Byte) (more : List Byte := [])
  | ack (sources : Half) (more : List Byte := [])
  | ackNode (address : Byte) (more : List Byte := [])
  | admitRack (tag : Tag) (seg : Byte) (more : List Byte := [])
  | retire (tag : Tag) (more : List Byte := [])
  | restore (tag : Tag) (seg : Byte) (clean : Byte) (more : List Byte := [])
  | clearTable (more : List Byte := [])
  | defineSegment (number : Byte) (fields : Option RawSegment) (more : List Byte := [])
  | segmentHold (seg : Byte) (more : List Byte := [])
  | segmentRelease (seg : Byte) (more : List Byte := [])
  | clearJam (src : Source) (seg : Byte)
  | stepGate (seg : Byte) (more : List Byte := [])
  | resume (src : Source)
  | clearStranger (seg : Byte) (more : List Byte := [])
  | defineTunnel (fields : RawTunnel) (more : List Byte := [])
  | clearTunnelFault (more : List Byte := [])
  | defineNode (address : Byte) (fields : Option RawNode) (more : List Byte := [])
  | linkReset (more : List Byte := [])
  | steer (on : Byte) (more : List Byte := [])
  | lookup (src : Source) (tag : Tag)
  | send (src : Source) (tag : Option Tag) (expected : Option Byte)
  | claim (src : Source) (tag : Tag) (expected : Option Byte)
  | unloadDone (src : Source) (tag : Tag) (expected : Option Byte)
  | rewash (src : Source) (tag : Tag) (expected : Option Byte)
  | release (src : Source) (tag : Tag) (expected : Option Byte)
  | hold (src : Source) (tag : Tag) (expected : Option Byte) (reason : Option Byte)
  | unhold (src : Source) (tag : Tag) (expected : Option Byte) (reason : Option Byte)
  | forceRelease (src : Source) (tag : Tag) (expected : Option Byte)
  | badCheckMessage (bytes : List Byte)
  | unknownRequest (bytes : List Byte)
  | tooSoonTransaction (bytes : List Byte)
  | turnaroundEnd
  | roundStart
  | headerSent
  | roundEnd
  | sightingWindowRunOut (seg : SegNo)
  | windowEnd (node : NodeNo) (seen : List (Branch × WindowActivity))
  | validReply (window : Nat) (branch : Branch) (reply : Reply)
  | branchWake (branch : Branch)
  | resetPulseEnd
  | eyeBlock (input : LineNo)
  | eyeClear (input : LineNo)
  | gateOpen (seg : SegNo)
  | jam (seg : SegNo)
  | safeStop (asserted : Bool)
  | secondsTick
  | stale (entry : EntryNo)
  | promotion (node : NodeNo) (kind : Kind)
  | autoQuiet
  | paceTick
  | paceCounterZero
  | encoderCount
  | pitchReached
  | exitEyeBlock
  | exitEyeClear
  | machineLineChange (line : MachineLine) (asserted : Bool)
  | rinseOkAssert
  | rinseOkDeassert
  | dropout (entry : EntryNo)
  | dwellMillisecond
  deriving DecidableEq, Repr

end Sys2Proof
end

