-- ==== Sys2Proof/Machine/State.lean ====
section
/-! DEFINITION. The state of the SX-60 as plain data, and its value after power-on. INVENTORY.md lists every
field with its rule; what is computed from others and held nowhere is named there too. -/

namespace Sys2Proof.Machine

/-! ### The rack table (R1 to R26) -/

/-- The eleven entry states (Table 1-1). -/
inductive RackState where
  | staged | loaded | queued | washing | cleared | rewashDue | unloading | returning | stored | setAside | missing
  deriving DecidableEq, Repr

/-- A place of a rack, or a destination: a segment or TUNNEL (R5, R27). -/
inductive Place where
  | segment (n : SegNo)
  | tunnel
  deriving DecidableEq, Repr

/-- The reasons of an entry's hold (R6). -/
inductive HoldReason where
  | inspect | supervisor
  deriving DecidableEq, Repr

/-- The causes of a FAIL verdict (R9). -/
inductive VerdictCause where
  | rinse | mistrack
  deriving DecidableEq, Repr

/-- The last verdict with what is present beside it: last dwell and dropout mark with PASS and FAIL, the cause
with FAIL (R9). -/
inductive Verdict where
  | none
  | pass (dwell : Nat) (dropout : Bool)
  | fail (cause : VerdictCause) (dwell : Nat) (dropout : Bool)
  | manual
  deriving DecidableEq, Repr

/-- Whether the verdict of a pass is fixed, and which (R101). -/
inductive VerdictFixed where
  | no | pass | fail
  deriving DecidableEq, Repr

/-- The tunnel mark and the rinse record of a pass (R11, R101). -/
structure PassRecord where
  mark : BitVec 24
  dwell : Nat
  dropoutTimer : Nat
  dropoutMark : Bool
  overLimit : Bool
  fixed : VerdictFixed
  deriving DecidableEq, Repr

/-- The causes of a declaration as MISSING (section 1.6). -/
inductive MissingCause where
  | lifted | jamCleared | overtaken | stale | overdue | overrun
  deriving DecidableEq, Repr

/-- The missing record (R16). -/
structure MissingRecord where
  cause : MissingCause
  prior : RackState
  last : Place
  deriving DecidableEq, Repr

/-- An in-use entry (Table 1-1). `placed` says that R13 put it into its present segment (notes/assumptions/6.md). -/
structure Entry where
  tag : Tag
  state : RackState
  location : Option Place
  hold : Option HoldReason
  claim : Option NodeNo
  assignment : Option NodeNo
  passes : Nat
  verdict : Verdict
  rewashes : Nat
  confirmed : Bool
  overtaken : Nat
  lastConfirmed : BitVec 32
  staleAge : Nat
  pass : Option PassRecord
  missing : Option MissingRecord
  placed : Bool
  deriving DecidableEq, Repr

/-! ### The track (R27 to R58) and the sighting reconciler (R59 to R78) -/

/-- The nine segment kinds (Table 2-2). -/
inductive SegKind where
  | park | collect | entry | outfeed | exit | rewash | aside | clean | store
  deriving DecidableEq, Repr

/-- The configured fields of a segment (Table 2-1). -/
structure SegConfig where
  kind : SegKind
  capacity : Nat
  successor : Option Place
  alternate : Option SegNo
  eye : LineNo
  drive : LineNo
  diverter : Option LineNo
  reader : Option NodeNo
  storeKind : Option Kind
  owner : Option NodeNo
  reach : Nat
  deriving DecidableEq, Repr

/-- The transfer record (R28): the gate is OPEN exactly while it is present. -/
structure Transfer where
  dest : Place
  carried : Bool
  remaining : Nat
  deriving DecidableEq, Repr

/-- The sighting window record (R61). `fresh`: the round in progress when it opened has not ended yet (R62). -/
inductive Window where
  | closed
  | head (rounds : Nat) (awaited : EntryNo) (fresh : Bool)
  | untracked (rounds : Nat) (fresh : Bool)
  deriving DecidableEq, Repr

/-- The stranger record (R72): the segment holds the reason STRANGER exactly while it is present. The vouched entry is
withdrawn when it ceases to be the head (notes/assumptions/37.md). `given`: the unknown tags that have given the segment the
reason, which stay strangers until CLEAR_STRANGER (R76, notes/assumptions/39.md). -/
structure StrangerRecord where
  seen : Option Tag
  vouched : Option EntryNo
  given : List Tag
  deriving DecidableEq, Repr

/-- A defined segment: configured and running fields (R27, R28). `unresolved`: a blocking of the eye on an empty
queue with an inbound transfer is held unresolved (R32). -/
structure Segment where
  config : SegConfig
  queue : List EntryNo
  reservedTransfer : Nat
  reservedDispatch : Nat
  transfer : Option Transfer
  headArrived : Bool
  jammed : Bool
  heldBySupervisor : Bool
  stranger : Option StrangerRecord
  mergePointer : SegNo
  window : Window
  unresolved : Bool
  deriving DecidableEq, Repr

/-! ### The tunnel (R79 to R99) -/

/-- The tunnel definition (Table 4-1). -/
structure TunnelConfig where
  capacity : Nat
  pitch : Nat
  finalStart : Nat
  finalEnd : Nat
  exitDistance : Nat
  exitTolerance : Nat
  haltMargin : Nat
  paceBase : Nat
  trim : Nat
  deriving DecidableEq, Repr

/-- The causes of a tunnel fault (R95). -/
inductive FaultCause where
  | phantom | overdue | overrun
  deriving DecidableEq, Repr

/-- The tunnel fault latch while set (R95). -/
structure FaultLatch where
  first : FaultCause
  latest : FaultCause
  count : Nat
  deriving DecidableEq, Repr

/-- The state of the tunnel tracker, with RINSE_OK of the rinse monitor (R80, R83, R85, R92, R100). -/
structure Tunnel where
  config : Option TunnelConfig
  list : List EntryNo
  encoder : BitVec 24
  pitchCount : Nat
  pace : Nat
  tickMs : Nat
  trimPosition : Nat
  fault : Option FaultLatch
  machineRun : Bool
  washOk : Bool
  machineFault : Bool
  exitEye : Bool
  rinseOk : Bool
  deriving DecidableEq, Repr

/-! ### The link (R117 to R140) and the request engine (R141 to R165) -/

/-- HIGH and LOW (R118, R166). -/
inductive Chain where
  | high | low
  deriving DecidableEq, Repr

/-- A node's role with the fields it alone has (R118). -/
inductive Role where
  | load (chain : Chain)
  | unload
  | reader (gate : SegNo)
  | floor
  deriving DecidableEq, Repr

/-- Presence (Table 6-1). -/
inductive Presence where
  | unknown | present | notReady | absent
  deriving DecidableEq, Repr

/-- Link errors (R127). -/
inductive LinkError where
  | check | silence | break | long
  deriving DecidableEq, Repr

/-- A defined node (R118, R120). -/
structure Node where
  role : Role
  presence : Presence
  branch : Option Branch
  errorRun : Nat
  lastError : Option LinkError
  overrun : Bool
  badRequest : Bool
  request : Option RackRequest
  lastDemand : DemandSet
  deriving DecidableEq, Repr

/-- The results of 11.1. -/
inductive Result where
  | done | mismatch | notFound | notHere | claimed | notAllowed | inPass | mode | stopActive | badRequest
  | badCheck | duplicate | tableFull | full | busy | occupied | badLayout | incomplete | notClear | notArrived
  | held | noRoute | noSpace | tunnelClosed | stopped | jammed
  deriving DecidableEq, Repr

/-- An entry summary as sent: the tag, the 32 bits of 11.1 and the confirmation (R145). -/
structure Summary where
  tag : Tag
  bits : BitVec 32
  confirmed : Bool
  deriving DecidableEq, Repr

/-- An answer of the answer queue (R145). `badMark`: the bad-request flag as it stood when the answer was made (R192). -/
structure StationAnswer where
  node : NodeNo
  kind : Byte
  argument : Argument
  result : Result
  badMark : Bool
  summary : Option Summary
  deriving DecidableEq, Repr

/-- The round in progress (R121, R123, R125, R126). `map`: the nodes with a window, by ascending address, with
their branch in a steered round. `carried`: the header's answers with the overrun flag they carry (R142).
`heard`: nodes whose valid reply was taken; `judged`: nodes whose window is judged or not to be judged;
`removed`: nodes removed during the round (R119). `steady`: RUN or SERVICE throughout (R62). -/
structure Round where
  steered : Bool
  map : List (NodeNo × Option Branch)
  length : Nat
  carried : List (StationAnswer × Bool)
  heard : List NodeNo
  judged : List NodeNo
  removed : List NodeNo
  steady : Bool
  deriving DecidableEq, Repr

/-- Where the link stands: the reset pulse is driven; a round is in progress, its header being sent or its
windows running; between two rounds; silent in QUIET (R121, R122, R135, R137). -/
inductive LinkPhase where
  | pulse
  | header (r : Round)
  | windows (r : Round)
  | between
  | silent
  deriving DecidableEq, Repr

/-- The restart mark (R124). -/
inductive RestartMark where
  | none | cold | warm
  deriving DecidableEq, Repr

/-- The state of the link master beside the node table. `steering` is what the next round takes (R133);
`restart` and `restartLeft` are the mark of the rounds to come and how many of them; `coldDue`: no round has begun
since power-on or the last LINK_RESET (R136, R139). -/
structure Link where
  phase : LinkPhase
  steering : Bool
  roundCount : BitVec 8
  nextCount : BitVec 8
  mark : RestartMark
  restart : RestartMark
  restartLeft : Nat
  coldDue : Bool
  header : List Byte
  deriving DecidableEq, Repr

/-! ### The dispatcher (R166 to R182) -/

/-- A demand item (R166). `order`: its place in the order of admission (R169). -/
structure DemandItem where
  station : NodeNo
  kind : Kind
  chain : Chain
  entryTime : BitVec 32
  promoted : Bool
  order : Nat
  deriving DecidableEq, Repr

/-! ### The port and the attention unit (R183 to R198) -/

/-- The content of the answer buffer (R184, R209). -/
structure PortAnswer where
  number : BitVec 8
  echo : Byte
  start : Bool
  result : Result
  body : List Byte
  deriving DecidableEq, Repr

/-- The supervisor port. `shown`: the bytes PORT_DO shows from the first of the latest transaction on; every further
byte is the filler (R184). -/
structure Port where
  request : List Byte
  answer : PortAnswer
  shown : List Byte
  turnaround : Bool
  deriving DecidableEq, Repr

/-- The fourteen attention sources in the order of Table 9-2. -/
inductive Source14 where
  | jam | stranger | missing | tunnelFault | rinseFail | asideReached | holdReached | nodeAbsent | branchFault
  | badRequest | starvation | safetyStop | modeChange | tableFull
  deriving DecidableEq, Repr

/-- One attention source (R193). -/
structure Attention where
  flag : Bool
  enable : Bool
  chain : Chain
  deriving DecidableEq, Repr

/-! ### Modes, parameters, outputs -/

/-- The operating modes (R199). -/
inductive Mode where
  | configure | run | service | quiet
  deriving DecidableEq, Repr

/-- The parameters of R188. -/
structure Params where
  clearLimit : Nat
  autoAdmission : Bool
  staleLimit : Nat
  minDwell : Nat
  grace : Nat
  rewashLimit : Nat
  roundPeriod : Nat
  promotionLimit : Nat
  idleLimit : Nat
  deriving DecidableEq, Repr

/-- What the last step of the seconds counter left to be taken: STALE declarations, promotions, auto-quiet, with the
stale limit and the promotion limit as that step found them (R76, R171; notes/assumptions/3.md). -/
structure Due where
  stale : List EntryNo
  staleLimit : Nat
  promote : List (NodeNo × Kind)
  promotionLimit : Nat
  autoQuiet : Bool
  deriving DecidableEq, Repr

/-- The output lines (11.4) but for the link and PORT_DO. -/
structure Outputs where
  drives : Vector Bool 32
  gates : Vector Bool 32
  diverters : Vector Bool 32
  entryRelease : Bool
  haltRequest : Bool
  attnHi : Bool
  attnLo : Bool
  deriving DecidableEq, Repr

/-- The state of the SX-60, and the queue of waiting commands. -/
structure State where
  entries : Vector (Option Entry) 128
  freeList : List EntryNo
  seconds : BitVec 32
  segments : Vector (Option Segment) 32
  eyes : Vector Bool 32
  stopLatch : Bool
  safeStop : Bool
  tunnel : Tunnel
  nodes : Vector (Option Node) 16
  link : Link
  answers : List StationAnswer
  demand : List DemandItem
  nextOrder : Nat
  port : Port
  attention : Vector Attention 14
  mode : Mode
  idle : Nat
  params : Params
  due : Due
  out : Outputs
  pending : List Instr
  deriving DecidableEq, Repr

/-- Why a step could stop with a fault. -/
inductive Fault where
  /-- Raised by no command: the spec names no condition that stops the controller (notes/assumptions/30.md).
  Safe, because nothing answers with it. -/
  | neverRaised
  deriving DecidableEq, Repr

/-- Why a step could be refused. -/
inductive Refusal where
  /-- Raised by an arm of `exec` whose command has no meaning yet. Safe: the model stops where the hardware goes on. -/
  | notModelled (mnemonic : String)
  deriving DecidableEq, Repr

/-- The tunnel tracker and RINSE_OK at power-on (R80, R100). -/
def Tunnel.reset : Tunnel where
  config := none
  list := []
  encoder := 0
  pitchCount := 65535
  pace := 0
  tickMs := 0
  trimPosition := 1
  fault := none
  machineRun := false
  washOk := false
  machineFault := false
  exitEye := false
  rinseOk := false

/-- The link at power-on: the reset pulse is driven, three COLD rounds follow from count 0 (R117, R122, R124). -/
def Link.reset : Link where
  phase := .pulse
  steering := false
  roundCount := 0
  nextCount := 0
  mark := .none
  restart := .cold
  restartLeft := 3
  coldDue := true
  header := []

/-- The port at power-on: the start answer (R184, R187). -/
def Port.reset : Port where
  request := []
  answer := { number := 0, echo := 0x01, start := true, result := .done, body := [] }
  shown := []
  turnaround := false

/-- The chain of each source at power-on: HIGH for JAM, TUNNEL_FAULT and SAFETY_STOP (R193). -/
def Attention.reset : Vector Attention 14 :=
  #v[⟨false, false, .high⟩, ⟨false, false, .low⟩, ⟨false, false, .low⟩, ⟨false, false, .high⟩,
     ⟨false, false, .low⟩, ⟨false, false, .low⟩, ⟨false, false, .low⟩, ⟨false, false, .low⟩,
     ⟨false, false, .low⟩, ⟨false, false, .low⟩, ⟨false, false, .low⟩, ⟨false, false, .high⟩,
     ⟨false, false, .low⟩, ⟨false, false, .low⟩]

/-- The parameters at power-on (R188). -/
def Params.reset : Params where
  clearLimit := 4000
  autoAdmission := false
  staleLimit := 900
  minDwell := 12000
  grace := 500
  rewashLimit := 2
  roundPeriod := 20
  promotionLimit := 120
  idleLimit := 20

/-- Every output off or deasserted (R35, R36, R80, R195). -/
def Outputs.reset : Outputs where
  drives := Vector.replicate 32 false
  gates := Vector.replicate 32 false
  diverters := Vector.replicate 32 false
  entryRelease := false
  haltRequest := false
  attnHi := false
  attnLo := false

/-- The machine right after power-on with SAFE_STOP deasserted (R26, R58, R78, R80, R116, R140, R165, R182,
R193, R199). -/
def State.reset : State where
  entries := Vector.replicate 128 none
  freeList := List.finRange 128
  seconds := 0
  segments := Vector.replicate 32 none
  eyes := Vector.replicate 32 false
  stopLatch := false
  safeStop := false
  tunnel := Tunnel.reset
  nodes := Vector.replicate 16 none
  link := Link.reset
  answers := []
  demand := []
  nextOrder := 0
  port := Port.reset
  attention := Attention.reset
  mode := .configure
  idle := 0
  params := Params.reset
  due := { stale := [], staleLimit := 0, promote := [], promotionLimit := 0, autoQuiet := false }
  out := Outputs.reset
  pending := []

end Sys2Proof.Machine
end

