-- ==== Sys2Proof/Machine/Flags.lean ====
section
/-! DEFINITION. The attention unit: sources, raising, the two lines (R193 to R195). -/

namespace Sys2Proof.Machine

/-- The place of a source in Table 9-2, counted from 0. -/
def Source14.index : Source14 → Fin 14
  | .jam => 0
  | .stranger => 1
  | .missing => 2
  | .tunnelFault => 3
  | .rinseFail => 4
  | .asideReached => 5
  | .holdReached => 6
  | .nodeAbsent => 7
  | .branchFault => 8
  | .badRequest => 9
  | .starvation => 10
  | .safetyStop => 11
  | .modeChange => 12
  | .tableFull => 13

/-- The attention source as it stands. -/
def State.source (s : State) (a : Source14) : Attention := s.attention.get a.index

/-- Raising sets the flag, whatever the enable (R194). -/
def State.raise (s : State) (a : Source14) : State :=
  { s with attention := s.attention.set a.index { s.source a with flag := true } }

/-- Raising under a condition. -/
def State.raiseIf (s : State) (b : Bool) (a : Source14) : State := if b then s.raise a else s

/-- A line is asserted while an enabled source of its chain has its flag set (R195). -/
def attentionLine (chain : Chain) (sources : Vector Attention 14) : Bool :=
  sources.toList.any fun a => a.flag && a.enable && a.chain == chain

end Sys2Proof.Machine
end

