-- ==== Sys2Proof/WellFormed.lean ====
section
/-! DEFINITION. Well-formed commands: the operands fit the message or reply that carries them. An ill-formed
command is one no sender can form; `exec` is total on it all the same. -/

namespace Sys2Proof

/-- An optional code fits a field of `width` bits whose 0 means absent (R208). -/
def codeFits (width : Nat) (code : Option Byte) : Bool :=
  match code with
  | none => true
  | some c => decide (0 < c.toNat) && decide (c.toNat < 2 ^ width)

/-- A station's request fits its reply: a kind of 1 to 15, an expected state of 4 bits, a reason of 2 (R208). -/
def RackRequest.wf (r : RackRequest) : Bool :=
  decide (0 < r.kind.toNat) && decide (r.kind.toNat < 16) && codeFits 4 r.expected && codeFits 2 r.reason

/-- A valid reply carries at most two sightings (R59), and a request that fits it. -/
def Reply.wf (r : Reply) : Bool :=
  decide (r.sightings.length ≤ 2) &&
    match r.request with
    | none => true
    | some q => q.wf

/-- The codes of a rack request fit what its source can send: a port message carries any byte, a reply 4 and
2 bits (R208, R210). -/
def sourceFits (src : Source) (expected reason : Option Byte) : Bool :=
  match src with
  | .supervisor _ => true
  | .station _ => codeFits 4 expected && codeFits 2 reason

/-- What was seen on a branch: a frame is a number of whole characters, at least one (R208). -/
def WindowActivity.wf : WindowActivity → Bool
  | .frame bytes => decide (0 < bytes.length) && decide (bytes.length % 2 = 0)
  | _ => true

/-- Well-formed commands. -/
def Instr.wf : Instr → Bool
  | .setAttention settings _ => decide (settings.length = 14)
  | .defineSegment _ (some f) _ => decide (f.kind ≠ 0)
  | .defineNode _ (some f) _ => decide (f.role ≠ 0)
  | .send src _ expected | .claim src _ expected | .unloadDone src _ expected
  | .rewash src _ expected | .release src _ expected | .forceRelease src _ expected =>
    sourceFits src expected none
  | .hold src _ expected reason | .unhold src _ expected reason => sourceFits src expected reason
  | .validReply window _ reply => decide (window < 16) && reply.wf
  | .windowEnd _ seen => decide (seen.map Prod.fst).Nodup && seen.all fun p => p.2.wf
  | _ => true

end Sys2Proof
end

