-- ==== Sys2Proof/Decode.lean ====
section
/-! DEFINITION. No row of the table gives bits, so `decodeTableWord` reads none. What the spec does give is the
byte layout of the port's messages (R209, R210) and of a reply frame (R208): both are read here, and the port
messages written too. Decoding is total: bytes that are no request are named as what R185 and R127 call them. -/

namespace Sys2Proof

/-- No row of spec/opcode_table.json gives bits. -/
def decodeTableWord (_nbits _w : Nat) : Option Instr := none

/-- The kind coded by two bits (11.1). -/
def kindOfCode (n : Nat) : Option Kind :=
  match n with
  | 0 => some .plate
  | 1 => some .cup
  | 2 => some .cutlery
  | 3 => some .tray
  | _ => none

/-- The two bits of a kind (11.1). -/
def Kind.code : Kind → Nat
  | .plate => 0
  | .cup => 1
  | .cutlery => 2
  | .tray => 3

/-- The 24 bits of a tag: kind in bits 23 and 22, serial below (11.1). -/
def Tag.bits (t : Tag) : BitVec 24 := BitVec.ofNat 24 (t.kind.code * 2 ^ 22 + t.serial.toNat)

/-- The tag of 24 bits. Every value is a tag (R1). -/
def Tag.ofBits (w : BitVec 24) : Tag :=
  { kind := (kindOfCode (w.toNat / 2 ^ 22)).getD .plate, serial := BitVec.ofNat 22 w.toNat }

/-- A number as `n` bytes, most significant first (11). -/
def bigEndian : Nat → Nat → List Byte
  | 0, _ => []
  | n + 1, v => BitVec.ofNat 8 (v / 256 ^ n) :: bigEndian n v

/-- The number of bytes, most significant first. -/
def ofBigEndian (bytes : List Byte) : Nat := bytes.foldl (fun acc b => acc * 256 + b.toNat) 0

/-- The three bytes of a tag. -/
def Tag.bytes (t : Tag) : List Byte := bigEndian 3 t.bits.toNat

/-- The tag of three bytes. -/
def Tag.ofBytes (x y z : Byte) : Tag := Tag.ofBits (BitVec.ofNat 24 (ofBigEndian [x, y, z]))

/-- A 16-bit value of two bytes. -/
def halfOf (x y : Byte) : Half := BitVec.ofNat 16 (ofBigEndian [x, y])

/-- The two bytes of a 16-bit value. -/
def halfBytes (h : Half) : List Byte := bigEndian 2 h.toNat

/-- The sum of the bytes modulo 256 (R185). -/
def byteSum (bytes : List Byte) : Byte := bytes.foldl (· + ·) 0

/-- The check byte that brings the sum to 0 (R185). -/
def checkByte (bytes : List Byte) : Byte := 0 - byteSum bytes

/-! ### Port messages -/

/-- An optional field: its presence byte, then its byte (R209). -/
def optBytes : Option Byte → List Byte
  | none => [0]
  | some b => [1, b]

/-- Reads an optional field. A presence byte other than 0 and 1 is no encoding. -/
def takeOpt : List Byte → Option (Option Byte × List Byte)
  | [] => none
  | p :: rest =>
    if p = 0 then some (none, rest)
    else if p = 1 then
      match rest with
      | [] => none
      | b :: rest' => some (some b, rest')
    else none

/-- Reads an optional tag (SEND, R210). -/
def takeOptTag : List Byte → Option (Option Tag × List Byte)
  | [] => none
  | p :: rest =>
    if p = 0 then some (none, rest)
    else if p = 1 then
      match rest with
      | x :: y :: z :: rest' => some (some (Tag.ofBytes x y z), rest')
      | _ => none
    else none

/-- Reads one optional field that ends the body. -/
def lastOpt (body : List Byte) : Option (Option Byte) :=
  match takeOpt body with
  | some (o, []) => some o
  | _ => none

/-- Reads two optional fields that end the body. -/
def lastOpts (body : List Byte) : Option (Option Byte × Option Byte) :=
  match takeOpt body with
  | some (o, rest) =>
    match lastOpt rest with
    | some o' => some (o, o')
    | none => none
  | none => none

/-- The body of DEFINE_SEGMENT after its number (R210). Kind 0 removes, and nothing follows it. -/
def readSegmentBody (body : List Byte) : Option (Option RawSegment) :=
  match body with
  | [] => none
  | kind :: rest =>
    if kind = 0 then (if rest = [] then some none else none)
    else
      match rest with
      | capacity :: rest => do
        let (successor, rest) ← takeOpt rest
        let (alternate, rest) ← takeOpt rest
        match rest with
        | eye :: drive :: rest =>
          let (diverter, rest) ← takeOpt rest
          let (reader, rest) ← takeOpt rest
          let (storeKind, rest) ← takeOpt rest
          let (owner, reach) ← lastOpts rest
          some (some { kind, capacity, successor, alternate, eye, drive, diverter, reader, storeKind, owner, reach })
        | _ => none
      | [] => none

/-- The body of DEFINE_SEGMENT after its number, written. -/
def segmentBody : Option RawSegment → List Byte
  | none => [0]
  | some f =>
    f.kind :: f.capacity :: (optBytes f.successor ++ (optBytes f.alternate ++
      (f.eye :: f.drive :: (optBytes f.diverter ++ (optBytes f.reader ++
        (optBytes f.storeKind ++ (optBytes f.owner ++ optBytes f.reach)))))))

/-- The body of DEFINE_TUNNEL (R210). -/
def readTunnelBody : List Byte → Option RawTunnel
  | c :: p1 :: p0 :: s1 :: s0 :: e1 :: e0 :: d1 :: d0 :: t1 :: t0 :: h1 :: h0 :: rest =>
    match lastOpts rest with
    | some (paceBase, trim) =>
      some { capacity := c, pitch := halfOf p1 p0, finalStart := halfOf s1 s0, finalEnd := halfOf e1 e0,
             exitDistance := halfOf d1 d0, exitTolerance := halfOf t1 t0, haltMargin := halfOf h1 h0, paceBase, trim }
    | none => none
  | _ => none

/-- The body of DEFINE_TUNNEL, written. -/
def tunnelBody (f : RawTunnel) : List Byte :=
  f.capacity :: (halfBytes f.pitch ++ (halfBytes f.finalStart ++ (halfBytes f.finalEnd ++
    (halfBytes f.exitDistance ++ (halfBytes f.exitTolerance ++ (halfBytes f.haltMargin ++
      (optBytes f.paceBase ++ optBytes f.trim)))))))

/-- The body of DEFINE_NODE after its address (R210). Role 0 removes, and nothing follows it. -/
def readNodeBody : List Byte → Option (Option RawNode)
  | [] => none
  | role :: rest =>
    if role = 0 then (if rest = [] then some none else none)
    else
      match lastOpts rest with
      | some (chain, gate) => some (some { role, chain, gate })
      | none => none

/-- The body of DEFINE_NODE after its address, written. -/
def nodeBody : Option RawNode → List Byte
  | none => [0]
  | some f => f.role :: (optBytes f.chain ++ optBytes f.gate)

/-- The kind code and the body of a port command (Table 11-1). `none` for a command that is no port request. -/
def Instr.portBody : Instr → Option (Byte × List Byte)
  | .nop _ => some (0x01, [])
  | .mode code _ => some (0x02, [code])
  | .setParam id value _ => some (0x03, id :: halfBytes value)
  | .readCounts _ => some (0x04, [])
  | .readEntry (.number n) _ => some (0x05, [0, n])
  | .readEntry (.tag t) _ => some (0x05, 1 :: t.bytes)
  | .readSegment seg start _ => some (0x06, [seg, start])
  | .readTunnel start _ => some (0x07, [start])
  | .readNode address _ => some (0x08, [address])
  | .readDemand start _ => some (0x09, [start])
  | .readAttention _ => some (0x0A, [])
  | .setAttention settings _ => some (0x0B, settings)
  | .ack sources _ => some (0x0C, halfBytes sources)
  | .ackNode address _ => some (0x0D, [address])
  | .admitRack t seg _ => some (0x10, t.bytes ++ [seg])
  | .retire t _ => some (0x11, t.bytes)
  | .restore t seg clean _ => some (0x12, t.bytes ++ [seg, clean])
  | .clearTable _ => some (0x13, [])
  | .defineSegment number fields _ => some (0x14, number :: segmentBody fields)
  | .segmentHold seg _ => some (0x15, [seg])
  | .segmentRelease seg _ => some (0x16, [seg])
  | .clearJam (.supervisor _) seg => some (0x17, [seg])
  | .stepGate seg _ => some (0x18, [seg])
  | .resume (.supervisor _) => some (0x19, [])
  | .clearStranger seg _ => some (0x1A, [seg])
  | .defineTunnel fields _ => some (0x20, tunnelBody fields)
  | .clearTunnelFault _ => some (0x21, [])
  | .defineNode address fields _ => some (0x28, address :: nodeBody fields)
  | .linkReset _ => some (0x29, [])
  | .steer on _ => some (0x2A, [on])
  | .lookup (.supervisor _) t => some (0x30, t.bytes)
  | .hold (.supervisor _) t expected reason => some (0x31, t.bytes ++ (optBytes expected ++ optBytes reason))
  | .unhold (.supervisor _) t expected reason => some (0x32, t.bytes ++ (optBytes expected ++ optBytes reason))
  | .forceRelease (.supervisor _) t expected => some (0x33, t.bytes ++ optBytes expected)
  | .send (.supervisor _) none expected => some (0x34, 0 :: optBytes expected)
  | .send (.supervisor _) (some t) expected => some (0x34, 1 :: (t.bytes ++ optBytes expected))
  | .claim (.supervisor _) t expected => some (0x35, t.bytes ++ optBytes expected)
  | .unloadDone (.supervisor _) t expected => some (0x36, t.bytes ++ optBytes expected)
  | .rewash (.supervisor _) t expected => some (0x37, t.bytes ++ optBytes expected)
  | .release (.supervisor _) t expected => some (0x38, t.bytes ++ optBytes expected)
  | _ => none

/-- A body of three tag bytes and one optional field. -/
def readTagOpt (make : Tag → Option Byte → Instr) : List Byte → Option Instr
  | x :: y :: z :: rest => (lastOpt rest).map (make (Tag.ofBytes x y z))
  | _ => none

/-- A body of three tag bytes and two optional fields. -/
def readTagOpts (make : Tag → Option Byte → Option Byte → Instr) : List Byte → Option Instr
  | x :: y :: z :: rest => (lastOpts rest).map fun (o, o') => make (Tag.ofBytes x y z) o o'
  | _ => none

/-- The request of a kind code and a body (Table 11-1), with the bytes clocked beyond its message. `none`: an unknown kind, or a
body of the wrong length. -/
def decodePort (kind : Nat) (body more : List Byte) : Option Instr :=
  match kind, body with
  | 0x01, [] => some (.nop more)
  | 0x02, [code] => some (.mode code more)
  | 0x03, [id, x, y] => some (.setParam id (halfOf x y) more)
  | 0x04, [] => some (.readCounts more)
  | 0x05, sel :: rest =>
    if sel = 0 then
      match rest with
      | [n] => some (.readEntry (.number n) more)
      | _ => none
    else if sel = 1 then
      match rest with
      | [x, y, z] => some (.readEntry (.tag (Tag.ofBytes x y z)) more)
      | _ => none
    else none
  | 0x06, [seg, start] => some (.readSegment seg start more)
  | 0x07, [start] => some (.readTunnel start more)
  | 0x08, [address] => some (.readNode address more)
  | 0x09, [start] => some (.readDemand start more)
  | 0x0A, [] => some (.readAttention more)
  | 0x0B, settings => if settings.length = 14 then some (.setAttention settings more) else none
  | 0x0C, [x, y] => some (.ack (halfOf x y) more)
  | 0x0D, [address] => some (.ackNode address more)
  | 0x10, [x, y, z, seg] => some (.admitRack (Tag.ofBytes x y z) seg more)
  | 0x11, [x, y, z] => some (.retire (Tag.ofBytes x y z) more)
  | 0x12, [x, y, z, seg, clean] => some (.restore (Tag.ofBytes x y z) seg clean more)
  | 0x13, [] => some (.clearTable more)
  | 0x14, number :: rest => (readSegmentBody rest).map fun f => .defineSegment number f more
  | 0x15, [seg] => some (.segmentHold seg more)
  | 0x16, [seg] => some (.segmentRelease seg more)
  | 0x17, [seg] => some (.clearJam (.supervisor more) seg)
  | 0x18, [seg] => some (.stepGate seg more)
  | 0x19, [] => some (.resume (.supervisor more))
  | 0x1A, [seg] => some (.clearStranger seg more)
  | 0x20, body => (readTunnelBody body).map fun f => .defineTunnel f more
  | 0x21, [] => some (.clearTunnelFault more)
  | 0x28, address :: rest => (readNodeBody rest).map fun f => .defineNode address f more
  | 0x29, [] => some (.linkReset more)
  | 0x2A, [on] => some (.steer on more)
  | 0x30, [x, y, z] => some (.lookup (.supervisor more) (Tag.ofBytes x y z))
  | 0x31, body => readTagOpts (.hold (.supervisor more)) body
  | 0x32, body => readTagOpts (.unhold (.supervisor more)) body
  | 0x33, body => readTagOpt (.forceRelease (.supervisor more)) body
  | 0x34, body =>
    match takeOptTag body with
    | some (t, rest) => (lastOpt rest).map (.send (.supervisor more) t)
    | none => none
  | 0x35, body => readTagOpt (.claim (.supervisor more)) body
  | 0x36, body => readTagOpt (.unloadDone (.supervisor more)) body
  | 0x37, body => readTagOpt (.rewash (.supervisor more)) body
  | 0x38, body => readTagOpt (.release (.supervisor more)) body
  | _, _ => none

/-- A message: length, kind, body and check (R185, R209). -/
def frameMessage (kind : Byte) (body : List Byte) : List Byte :=
  let start := BitVec.ofNat 8 (body.length + 3) :: kind :: body
  start ++ [checkByte start]

/-- The bytes clocked beyond the message of a port command (R185). -/
def Instr.more : Instr → List Byte
  | .nop m | .mode _ m | .setParam _ _ m | .readCounts m | .readEntry _ m | .readSegment _ _ m | .readTunnel _ m
  | .readNode _ m | .readDemand _ m | .readAttention m | .setAttention _ m | .ack _ m | .ackNode _ m | .admitRack _ _ m
  | .retire _ m | .restore _ _ _ m | .clearTable m | .defineSegment _ _ m | .segmentHold _ m | .segmentRelease _ m
  | .clearJam (.supervisor m) _ | .stepGate _ m | .resume (.supervisor m) | .clearStranger _ m | .defineTunnel _ m
  | .clearTunnelFault m | .defineNode _ _ m | .linkReset m | .steer _ m | .lookup (.supervisor m) _
  | .send (.supervisor m) _ _ | .claim (.supervisor m) _ _ | .unloadDone (.supervisor m) _ _ | .rewash (.supervisor m) _ _
  | .release (.supervisor m) _ _ | .hold (.supervisor m) _ _ _ | .unhold (.supervisor m) _ _ _
  | .forceRelease (.supervisor m) _ _ => m
  | _ => []

/-- The whole bytes that the transaction of a port command shifts in: its message and what is clocked beyond it (R185); no
bytes for a command that is no port request. -/
def portBytes (c : Instr) : List Byte :=
  match c.portBody with
  | some (kind, body) => frameMessage kind body ++ c.more
  | none => []

/-- What a transaction's bytes are taken as (R185). -/
inductive PortTake where
  /-- a framing failure or a bad check -/
  | badCheck
  /-- a good message whose kind or body no request has -/
  | unknown (kind : Byte)
  /-- a request -/
  | request (c : Instr)
  deriving DecidableEq, Repr

/-- R185: framing, check, taking. Bytes beyond the length are disregarded. -/
def takeMessage (bytes : List Byte) : PortTake :=
  match bytes with
  | [] => .badCheck
  | len :: _ =>
    if len.toNat < 3 ∨ 64 < len.toNat ∨ bytes.length < len.toNat then .badCheck
    else
      let message := bytes.take len.toNat
      if byteSum message ≠ 0 then .badCheck
      else
        match message.tail.dropLast with
        | kind :: body =>
          match decodePort kind.toNat body (bytes.drop len.toNat) with
          | some c => .request c
          | none => .unknown kind
        | [] => .badCheck

/-- The command that a not too soon transaction of these bytes is (R185). -/
def transactionCommand (bytes : List Byte) : Instr :=
  match takeMessage bytes with
  | .badCheck => .badCheckMessage bytes
  | .unknown _ => .unknownRequest bytes
  | .request c => c

/-! ### What the lines carry -/

/-- The whole bytes of the bits clocked in a transaction, most significant bit first; a last byte of fewer than eight bits
is discarded (R183). -/
def wholeBytes : List Bool → List Byte
  | b7 :: b6 :: b5 :: b4 :: b3 :: b2 :: b1 :: b0 :: rest =>
    BitVec.ofNat 8 ([b7, b6, b5, b4, b3, b2, b1, b0].foldl (fun acc b => 2 * acc + b.toNat) 0) :: wholeBytes rest
  | _ => []

/-- The characters of a frame on a branch: two bytes each, an odd one completed with the pad byte (R208). -/
def frameCharacters : List Byte → List (Byte × Byte)
  | x :: y :: rest => (x, y) :: frameCharacters rest
  | [x] => [(x, 0x00)]
  | [] => []

/-- How long a frame takes on its branch, in microseconds (R117, R208). -/
def frameMicroseconds (frame : List Byte) : Nat :=
  (frameCharacters frame).length * (Config.characterBits * Config.bitMicroseconds)

/-! ### Reply frames -/

/-- How a frame that ended in its window is judged (R127, R208). -/
inductive FrameJudgement where
  | long
  | check
  | good (reply : Reply)
  deriving DecidableEq, Repr

/-- The bytes an argument form takes (R208); form 3 declares no length. -/
def argumentLength (form : Nat) : Option Nat :=
  match form with
  | 0 => some 0
  | 1 => some 3
  | 2 => some 1
  | _ => none

/-- The length a reply's first bytes declare, check included and pad not (R208). -/
def declaredLength (b0 b1 b2 : Byte) : Option Nat :=
  let sightings := b0.toNat % 4
  if sightings = 3 then none
  else if b1.toNat / 16 = 0 then some (2 + 3 * sightings + 1)
  else (argumentLength (b2.toNat % 4)).map fun n => 3 + n + 3 * sightings + 1

/-- A code of a field whose 0 means absent. -/
def presentCode (n : Nat) : Option Byte := if n = 0 then none else some (BitVec.ofNat 8 n)

/-- The tags of a run of bytes, three each. -/
def tagsOf : Nat → List Byte → List Tag
  | n + 1, x :: y :: z :: rest => Tag.ofBytes x y z :: tagsOf n rest
  | _, _ => []

/-- Bits 3 to 0 as a demand set, PLATE, CUP, CUTLERY, TRAY from bit 3 down (R208). -/
def DemandSet.ofBits (n : Nat) : DemandSet :=
  { plate := n.testBit 3, cup := n.testBit 2, cutlery := n.testBit 1, tray := n.testBit 0 }

/-- The argument of a request and the bytes behind it. -/
def takeArgument (form : Nat) (rest : List Byte) : Argument × List Byte :=
  match form, rest with
  | 1, x :: y :: z :: rest' => (.tag (Tag.ofBytes x y z), rest')
  | 2, n :: rest' => (.segment n, rest')
  | _, rest => (.none, rest)

/-- The reply of a frame whose length and check are good (R208). -/
def replyOf (b0 b1 : Byte) (rest : List Byte) : Reply :=
  let demand := if b0.toNat.testBit 2 then some (DemandSet.ofBits (b1.toNat % 16)) else none
  let count := b0.toNat % 4
  let node : NodeNo := Fin.ofNat 16 (b0.toNat / 16)
  let kind := b1.toNat / 16
  if kind = 0 then
    { node, ready := b0.toNat.testBit 3, demand, sightings := tagsOf count rest, request := none }
  else
    let b2 := (rest.head?.getD 0).toNat
    let (argument, rest) := takeArgument (b2 % 4) rest.tail
    { node, ready := b0.toNat.testBit 3, demand, sightings := tagsOf count rest,
      request := some { kind := BitVec.ofNat 8 kind, argument, expected := presentCode (b2 / 16),
                        reason := presentCode (b2 / 4 % 4) } }

/-- Judges a frame received in whole characters: a sighting count or argument form of 3, a frame shorter than
declared and a wrong sum are CHECK; one that goes on beyond the declared whole characters is LONG (R208). -/
def judgeFrame (bytes : List Byte) : FrameJudgement :=
  match bytes with
  | b0 :: b1 :: rest =>
    match declaredLength b0 b1 (rest.head?.getD 0) with
    | none => .check
    | some len =>
      let whole := len + len % 2
      if bytes.length < whole then .check
      else if whole < bytes.length then .long
      else if byteSum (bytes.take len) ≠ 0 then .check
      else .good (replyOf b0 b1 rest)
  | _ => .check

end Sys2Proof
end

