-- ==== Sys2Proof/Machine/Operands.lean ====
section
/-! DEFINITION. Operand forms: the codes of 11.1 and R210 both ways, the ranges a port message's arguments must
lie in (R185, R209), and the fields an answer body is made of (R210). -/

namespace Sys2Proof.Machine

/-! ### Codes -/

/-- Entry state codes (11.1). -/
def RackState.code : RackState → Nat
  | .staged => 1
  | .loaded => 2
  | .queued => 3
  | .washing => 4
  | .cleared => 5
  | .rewashDue => 6
  | .unloading => 7
  | .returning => 8
  | .stored => 9
  | .setAside => 10
  | .missing => 11

/-- The entry state of a code. -/
def RackState.ofCode (n : Nat) : Option RackState :=
  match n with
  | 1 => some .staged
  | 2 => some .loaded
  | 3 => some .queued
  | 4 => some .washing
  | 5 => some .cleared
  | 6 => some .rewashDue
  | 7 => some .unloading
  | 8 => some .returning
  | 9 => some .stored
  | 10 => some .setAside
  | 11 => some .missing
  | _ => none

/-- Hold codes, 0 for none (11.1). -/
def holdCode : Option HoldReason → Nat
  | none => 0
  | some .inspect => 1
  | some .supervisor => 2

/-- The hold reason of a code. -/
def HoldReason.ofCode (n : Nat) : Option HoldReason :=
  match n with
  | 1 => some .inspect
  | 2 => some .supervisor
  | _ => none

/-- Verdict codes (11.1). -/
def Verdict.code : Verdict → Nat
  | .none => 0
  | .pass _ _ => 1
  | .fail .rinse _ _ => 2
  | .fail .mistrack _ _ => 3
  | .manual => 4

/-- Missing cause codes (11.1). -/
def MissingCause.code : MissingCause → Nat
  | .lifted => 1
  | .jamCleared => 2
  | .overtaken => 3
  | .stale => 4
  | .overdue => 5
  | .overrun => 6

/-- Result codes (11.1). -/
def Result.code : Result → Nat
  | .done => 1
  | .mismatch => 2
  | .notFound => 3
  | .notHere => 4
  | .claimed => 5
  | .notAllowed => 6
  | .inPass => 7
  | .mode => 8
  | .stopActive => 9
  | .badRequest => 10
  | .badCheck => 11
  | .duplicate => 12
  | .tableFull => 13
  | .full => 14
  | .busy => 15
  | .occupied => 16
  | .badLayout => 17
  | .incomplete => 18
  | .notClear => 19
  | .notArrived => 20
  | .held => 21
  | .noRoute => 22
  | .noSpace => 23
  | .tunnelClosed => 24
  | .stopped => 25
  | .jammed => 26

/-- Mode codes (11.1). -/
def Mode.code : Mode → Nat
  | .configure => 0
  | .run => 1
  | .service => 2
  | .quiet => 3

/-- The mode of a code. -/
def Mode.ofCode (n : Nat) : Option Mode :=
  match n with
  | 0 => some .configure
  | 1 => some .run
  | 2 => some .service
  | 3 => some .quiet
  | _ => none

/-- Restart mark codes (11.1). -/
def RestartMark.code : RestartMark → Nat
  | .none => 0
  | .cold => 1
  | .warm => 2

/-- Segment kind codes (R210). -/
def SegKind.code : SegKind → Nat
  | .park => 1
  | .collect => 2
  | .entry => 3
  | .outfeed => 4
  | .exit => 5
  | .rewash => 6
  | .aside => 7
  | .clean => 8
  | .store => 9

/-- The segment kind of a code. -/
def SegKind.ofCode (n : Nat) : Option SegKind :=
  match n with
  | 1 => some .park
  | 2 => some .collect
  | 3 => some .entry
  | 4 => some .outfeed
  | 5 => some .exit
  | 6 => some .rewash
  | 7 => some .aside
  | 8 => some .clean
  | 9 => some .store
  | _ => none

/-- Chain codes (R210). -/
def Chain.code : Chain → Nat
  | .low => 0
  | .high => 1

/-- Role codes (R210). -/
def Role.code : Role → Nat
  | .load _ => 1
  | .unload => 2
  | .reader _ => 3
  | .floor => 4

/-- Presence codes (R210). -/
def Presence.code : Presence → Nat
  | .unknown => 0
  | .present => 1
  | .notReady => 2
  | .absent => 3

/-- Branch codes, 0 for none (R210). -/
def branchCode : Option Branch → Nat
  | none => 0
  | some .a => 1
  | some .b => 2
  | some .c => 3

/-- Link error codes, 0 for none (R210). -/
def linkErrorCode : Option LinkError → Nat
  | none => 0
  | some .check => 1
  | some .silence => 2
  | some .break => 3
  | some .long => 4

/-- Tunnel fault cause codes (R210). -/
def FaultCause.code : FaultCause → Nat
  | .phantom => 1
  | .overdue => 2
  | .overrun => 3

/-- How a rinse record's "verdict fixed" is written: no, PASS, FAIL in that order. The spec gives no codes; these are the
model's choice (notes/assumptions/11.md). -/
def VerdictFixed.code : VerdictFixed → Nat
  | .no => 0
  | .pass => 1
  | .fail => 2

/-- A flag or level as a number (R210). -/
def flagCode (b : Bool) : Nat := if b then 1 else 0

/-- A place as a segment number or 20h for TUNNEL (R209). -/
def Place.code : Place → Nat
  | .segment n => n.val
  | .tunnel => Config.tunnelCode

/-! ### Ranges of arguments -/

/-- A segment number, 0 to 31. -/
def segOfByte (b : Byte) : Option SegNo := if h : b.toNat < 32 then some ⟨b.toNat, h⟩ else none

/-- A line number, 0 to 31. -/
def lineOfByte (b : Byte) : Option LineNo := segOfByte b

/-- A segment number, or TUNNEL as 20h (R210). -/
def placeOfByte (b : Byte) : Option Place :=
  if b.toNat = Config.tunnelCode then some .tunnel else (segOfByte b).map .segment

/-- A node address, 1 to 16. -/
def nodeOfByte (b : Byte) : Option NodeNo :=
  if h : 1 ≤ b.toNat ∧ b.toNat ≤ 16 then some ⟨b.toNat - 1, by omega⟩ else none

/-- The address of a node. -/
def nodeAddress (n : NodeNo) : Nat := n.val + 1

/-- A flag argument, 0 or 1. -/
def flagOfByte (b : Byte) : Option Bool :=
  match b.toNat with
  | 0 => some false
  | 1 => some true
  | _ => none

/-- An optional argument: absent stays absent, a present one must be in range. -/
def inRange {α : Type} (read : Byte → Option α) : Option Byte → Option (Option α)
  | none => some none
  | some b => (read b).map some

/-- A byte in an inclusive range. -/
def within (low high : Nat) (b : Byte) : Option Nat :=
  if low ≤ b.toNat ∧ b.toNat ≤ high then some b.toNat else none

/-- The configured fields of DEFINE_SEGMENT where every field lies in its range (Table 2-1); `reach` is given only
where the message gave it. -/
structure SegFields where
  kind : SegKind
  capacity : Nat
  successor : Option Place
  alternate : Option SegNo
  eye : LineNo
  drive : LineNo
  diverter : Option LineNo
  reader : Option NodeNo
  storeKind : Option Kind
  owner : Option NodeNo
  reach : Option Nat
  deriving DecidableEq, Repr

/-- Range test of DEFINE_SEGMENT (R53, R209). -/
def segFields (f : RawSegment) : Option SegFields := do
  let kind ← SegKind.ofCode f.kind.toNat
  let capacity ← within 1 16 f.capacity
  let successor ← inRange placeOfByte f.successor
  let alternate ← inRange segOfByte f.alternate
  let eye ← lineOfByte f.eye
  let drive ← lineOfByte f.drive
  let diverter ← inRange lineOfByte f.diverter
  let reader ← inRange nodeOfByte f.reader
  let storeKind ← inRange (fun b => kindOfCode b.toNat) f.storeKind
  let owner ← inRange nodeOfByte f.owner
  let reach ← inRange (within 1 4) f.reach
  some { kind, capacity, successor, alternate, eye, drive, diverter, reader, storeKind, owner, reach }

/-- The fields the kind requires are given and the fields it does not have are not; a diverter output stands
exactly with an alternate; TUNNEL succeeds ENTRY alone; no segment names itself (R53). -/
def SegFields.consistent (f : SegFields) (n : SegNo) : Bool :=
  (f.successor.isSome == (f.kind != .aside)) &&
  (f.storeKind.isSome == (f.kind == .store)) &&
  (f.owner.isSome == (f.kind == .park)) &&
  (!f.reach.isSome || f.kind == .exit) &&
  (f.diverter.isSome == f.alternate.isSome) &&
  (f.successor != some .tunnel || f.kind == .entry) &&
  (f.successor != some (.segment n)) && (f.alternate != some n)

/-- The configured fields a segment takes (R27): an unload reach not given is 1. -/
def SegFields.config (f : SegFields) : SegConfig :=
  { kind := f.kind, capacity := f.capacity, successor := f.successor, alternate := f.alternate, eye := f.eye,
    drive := f.drive, diverter := f.diverter, reader := f.reader, storeKind := f.storeKind, owner := f.owner,
    reach := f.reach.getD 1 }

/-- Range test of DEFINE_TUNNEL (Table 4-1); pace base and trim take their defaults where omitted. -/
def tunnelFields (f : RawTunnel) : Option TunnelConfig := do
  let capacity ← within 1 24 f.capacity
  let paceBase ← inRange (within 1 255) f.paceBase
  let trim ← inRange (within 0 15) f.trim
  if 1 ≤ f.pitch.toNat ∧ 1 ≤ f.finalStart.toNat ∧ 1 ≤ f.finalEnd.toNat ∧ 1 ≤ f.exitDistance.toNat then
    some { capacity, pitch := f.pitch.toNat, finalStart := f.finalStart.toNat, finalEnd := f.finalEnd.toNat,
           exitDistance := f.exitDistance.toNat, exitTolerance := f.exitTolerance.toNat,
           haltMargin := f.haltMargin.toNat, paceBase := paceBase.getD Config.paceBaseDefault, trim := trim.getD 0 }
  else none

/-- The four relations of R79 between the fields. -/
def TunnelConfig.consistent (c : TunnelConfig) : Bool :=
  decide (c.finalStart < c.finalEnd) && decide (c.finalEnd < c.exitDistance) &&
  decide (c.exitDistance + c.exitTolerance ≤ 65535) &&
  decide (c.exitTolerance < c.exitDistance - c.finalEnd) &&
  decide (c.haltMargin ≤ c.exitDistance - c.exitTolerance)

/-- Range test of DEFINE_NODE: the role code and the fields given (R118). -/
structure NodeFields where
  role : Nat
  chain : Option Chain
  gate : Option SegNo
  deriving DecidableEq, Repr

/-- Range test of DEFINE_NODE (R118, R209). -/
def nodeFields (f : RawNode) : Option NodeFields := do
  let role ← within 1 4 f.role
  let chain ← inRange (fun b => (flagOfByte b).map fun on => if on then Chain.high else .low) f.chain
  let gate ← inRange segOfByte f.gate
  some { role, chain, gate }

/-- The role with exactly the fields it has (R118). -/
def NodeFields.role? (f : NodeFields) : Option Role :=
  match f.role, f.chain, f.gate with
  | 1, some chain, none => some (.load chain)
  | 2, none, none => some .unload
  | 3, none, some gate => some (.reader gate)
  | 4, none, none => some .floor
  | _, _, _ => none

/-! ### Rack requests (R147) -/

/-- The rack requests that name an entry and may carry an expected state (R149). -/
inductive RackOp where
  | send | claim | unloadDone | rewash | release
  | hold (reason : Option HoldReason)
  | unhold (reason : Option HoldReason)
  | forceRelease
  deriving DecidableEq, Repr

/-- A request that is not malformed. Only SEND may name no tag. -/
inductive Request where
  | lookup (t : Tag)
  | onRack (op : RackOp) (t : Option Tag) (expected : Option RackState)
  | clearJam (n : SegNo)
  | resume
  deriving DecidableEq, Repr

/-- The operation of a kind code, with its hold reason. A reason given for another kind is malformed (R208). -/
def rackOp (kind : Nat) (reason : Option HoldReason) : Option RackOp :=
  match kind, reason with
  | 2, none => some .send
  | 3, none => some .claim
  | 4, none => some .unloadDone
  | 5, none => some .rewash
  | 6, none => some .release
  | 7, reason => some (.hold reason)
  | 8, reason => some (.unhold reason)
  | 11, none => some .forceRelease
  | _, _ => none

/-- R147 and R208: `none` where the request is malformed. -/
def RackRequest.parse (r : RackRequest) : Option Request := do
  let expected ← inRange (fun b => RackState.ofCode b.toNat) r.expected
  let reason ← inRange (fun b => HoldReason.ofCode b.toNat) r.reason
  match r.kind.toNat, r.argument, expected, reason with
  | 1, .tag t, none, none => some (.lookup t)
  | 9, .segment n, none, none => (segOfByte n).map .clearJam
  | 10, .none, none, none => some .resume
  | kind, .tag t, expected, reason => (rackOp kind reason).map fun op => .onRack op (some t) expected
  | 2, .none, expected, none => some (.onRack .send none expected)
  | _, _, _, _ => none

/-- The station request kind code of an operation (11.1). -/
def RackOp.code : RackOp → Nat
  | .send => 2
  | .claim => 3
  | .unloadDone => 4
  | .rewash => 5
  | .release => 6
  | .hold _ => 7
  | .unhold _ => 8
  | .forceRelease => 11

/-! ### Fields of answer bodies (R210) -/

/-- A value of one byte. -/
def byteField (n : Nat) : List Byte := bigEndian 1 n
/-- A value of two bytes. -/
def halfField (n : Nat) : List Byte := bigEndian 2 n
/-- An encoder count or tunnel mark. -/
def markField (w : BitVec 24) : List Byte := bigEndian 3 w.toNat
/-- A seconds-counter value. -/
def secondsField (w : BitVec 32) : List Byte := bigEndian 4 w.toNat
/-- A mark, flag or level. -/
def flagField (b : Bool) : List Byte := byteField (flagCode b)
/-- A field that may be absent: its presence byte, then its bytes (R209; notes/assumptions/11.md). -/
def optField {α : Type} (write : α → List Byte) : Option α → List Byte
  | none => [0]
  | some x => 1 :: write x

/-- The 8 bytes of a summary in an answer body (R209). -/
def Summary.bytes (m : Summary) : List Byte :=
  m.tag.bytes ++ bigEndian 4 m.bits.toNat ++ flagField m.confirmed

/-- As many whole items as fit behind `used` bytes of body (R190). -/
def fitItems (used : Nat) : List (List Byte) → List Byte
  | [] => []
  | item :: rest => if used + item.length ≤ Config.bodyBytes then item ++ fitItems (used + item.length) rest else []

/-- The bytes of an answer: length, number, echo, start mark and result, body, check (R209). -/
def PortAnswer.bytes (a : PortAnswer) : List Byte :=
  let start := BitVec.ofNat 8 (a.body.length + Config.answerFrameBytes) :: a.number :: a.echo ::
    BitVec.ofNat 8 (flagCode a.start * 128 + a.result.code) :: a.body
  start ++ [checkByte start]

end Sys2Proof.Machine
end

