-- ==== Sys2Proof/Machine/Ops.lean ====
section
/-! DEFINITION. Named operations over the state: reading and changing the tables, removal and placement (R12 to
R15), declaration as MISSING (R16), windows and strangers, arrival at a gate (R32), reservations (R30),
assignment and its clearing (R172, R178), and what every command ends with. -/

namespace Sys2Proof.Machine

/-! ### Reading the tables -/

/-- The entry in place `e`; `none` where it is free (R2). -/
def State.entry? (s : State) (e : EntryNo) : Option Entry := s.entries.get e

/-- Segment `n`; `none` where it is not defined. -/
def State.seg? (s : State) (n : SegNo) : Option Segment := s.segments.get n

/-- Node `n`; `none` where it is not defined. -/
def State.node? (s : State) (n : NodeNo) : Option Node := s.nodes.get n

/-- The tag index (R3): the entry that carries a tag. -/
def State.find (s : State) (t : Tag) : Option EntryNo :=
  (List.finRange 128).find? fun e => (s.entry? e).any fun x => decide (x.tag = t)

/-- The in-use entries that meet a condition, by ascending number. -/
def State.entriesWhere (s : State) (p : Entry → Bool) : List EntryNo :=
  (List.finRange 128).filter fun e => (s.entry? e).any p

/-- The defined segments that meet a condition, by ascending number. -/
def State.segsWhere (s : State) (p : Segment → Bool) : List SegNo :=
  (List.finRange 32).filter fun n => (s.seg? n).any p

/-- The role is LOAD. -/
def Role.isLoad : Role → Bool
  | .load _ => true
  | _ => false

/-- The defined nodes, by ascending address. -/
def State.nodesWhere (s : State) (p : Node → Bool) : List NodeNo :=
  (List.finRange 16).filter fun n => (s.node? n).any p

/-- The lowest-numbered segment that meets a condition. -/
def State.findSeg (s : State) (p : Segment → Bool) : Option SegNo := (s.segsWhere p).head?

/-- The gate is OPEN (R28). -/
def Segment.isOpen (g : Segment) : Bool := g.transfer.isSome

/-- Capacity less queue length less reserved count (R29). -/
def Segment.freeSpace (g : Segment) : Nat :=
  g.config.capacity - (g.queue.length + (g.reservedTransfer + g.reservedDispatch))

/-- The segment holds a hold reason (R49). -/
def Segment.isHeld (g : Segment) : Bool := g.heldBySupervisor || g.stranger.isSome

/-- A segment exempt from the stale check (R74). -/
def Segment.exempt (g : Segment) : Bool := g.headArrived || g.isHeld || g.jammed

/-- Free space by number; an undefined segment has none. -/
def State.freeSpace (s : State) (n : SegNo) : Nat :=
  match s.seg? n with
  | some g => g.freeSpace
  | none => 0

/-- The eye of a segment as last taken is blocked (R31). -/
def State.eyeBlocked (s : State) (n : SegNo) : Bool :=
  match s.seg? n with
  | some g => s.eyes.get g.config.eye
  | none => false

/-- Some gate is OPEN. -/
def State.anyOpen (s : State) : Bool := !(s.segsWhere Segment.isOpen).isEmpty

/-- The segment has an inbound transfer (R30). -/
def State.inbound (s : State) (n : SegNo) : Bool :=
  !(s.segsWhere fun g => g.transfer.any fun t => t.dest == .segment n).isEmpty

/-- The PARK a node owns. -/
def State.parkOf (s : State) (n : NodeNo) : Option SegNo :=
  s.findSeg fun g => g.config.kind == .park && g.config.owner == some n

/-- The OUTFEED segment. -/
def State.outfeed (s : State) : Option SegNo := s.findSeg fun g => g.config.kind == .outfeed

/-- The segment bound to a reader (R59). -/
def State.gateOfReader (s : State) (n : NodeNo) : Option SegNo := s.findSeg fun g => g.config.reader == some n

/-- The round in progress. -/
def State.round? (s : State) : Option Round :=
  match s.link.phase with
  | .header r => some r
  | .windows r => some r
  | _ => none

/-! ### Changing the tables -/

/-- Writes one place of the rack table. -/
def State.putEntry (s : State) (e : EntryNo) (x : Option Entry) : State := { s with entries := s.entries.set e x }

/-- Changes an in-use entry. -/
def State.updEntry (s : State) (e : EntryNo) (f : Entry → Entry) : State := s.putEntry e ((s.entry? e).map f)

/-- Writes one place of the segment table. -/
def State.putSeg (s : State) (n : SegNo) (g : Option Segment) : State := { s with segments := s.segments.set n g }

/-- How many in-use entries meet a condition. -/
def State.count (s : State) (p : Entry → Bool) : Nat := (s.entriesWhere p).length

/-- Entries of a kind in STORED (R25). -/
def State.storedCount (s : State) (k : Kind) : Nat := s.count fun x => x.tag.kind == k && x.state == .stored

/-- Changes a defined segment. -/
def State.updSeg (s : State) (n : SegNo) (f : Segment → Segment) : State := s.putSeg n ((s.seg? n).map f)

/-- Writes one place of the node table. -/
def State.putNode (s : State) (n : NodeNo) (x : Option Node) : State := { s with nodes := s.nodes.set n x }

/-- Changes a defined node. -/
def State.updNode (s : State) (n : NodeNo) (f : Node → Node) : State := s.putNode n ((s.node? n).map f)

/-- Does a change to each of a list in turn. -/
def State.forEach {α : Type} (s : State) (f : State → α → State) (xs : List α) : State := xs.foldl f s

/-! ### Entry fields -/

/-- The states the stale check applies to (R74). -/
def RackState.checked : RackState → Bool
  | .loaded | .queued | .rewashDue | .returning => true
  | _ => false

/-- A change of state; one that brings the entry into the stale check starts its stale age at 0 (R75). -/
def Entry.withState (x : Entry) (st : RackState) : Entry :=
  { x with state := st, staleAge := if !x.state.checked && st.checked then 0 else x.staleAge }

/-- Confirmation of an entry (R10, R64). -/
def Entry.confirm (x : Entry) (now : BitVec 32) : Entry :=
  { x with confirmed := true, overtaken := 0, lastConfirmed := now, staleAge := 0 }

/-- The refresh of a departure (R10). -/
def Entry.refresh (x : Entry) (now : BitVec 32) : Entry := { x with lastConfirmed := now, staleAge := 0 }

/-- The verdict is FAIL. -/
def Verdict.isFail : Verdict → Bool
  | .fail _ _ _ => true
  | _ => false

/-- The verdict is clean: PASS or MANUAL (R109). -/
def Verdict.isClean : Verdict → Bool
  | .pass _ _ => true
  | .manual => true
  | _ => false

/-- A rise of the rewash count, saturating at 3 (R8, R110). -/
def raiseRewash (count : Nat) : Nat := min Config.rewashLimitMax (count + 1)

/-- The rise is over the limit: the count before it, plus 1, exceeds the limit (R110). -/
def overLimit (limit count : Nat) : Bool := decide (limit < count + 1)

/-- The fields a new entry takes (R19). -/
def Entry.new (t : Tag) : Entry where
  tag := t
  state := .missing
  location := none
  hold := none
  claim := none
  assignment := none
  passes := 0
  verdict := .none
  rewashes := 0
  confirmed := false
  overtaken := 0
  lastConfirmed := 0
  staleAge := 0
  pass := none
  missing := none
  placed := false

/-! ### The idle timer (R205) -/

/-- An event that sets the idle timer to 0 outside QUIET. -/
def State.touchIdle (s : State) : State := if s.mode = .quiet then s else { s with idle := 0 }

/-- The conditions under which the idle timer counts (R205). -/
def State.idleCounts (s : State) : Bool :=
  s.mode == .run && s.params.idleLimit != 0 && s.tunnel.list.isEmpty && s.demand.isEmpty && !s.anyOpen && !s.stopLatch

/-- Held at 0 while a condition fails in a mode other than QUIET. -/
def State.holdIdle (s : State) : State :=
  if s.mode ≠ .quiet ∧ s.idleCounts = false then { s with idle := 0 } else s

/-! ### Windows, strangers, untracked arrivals -/

/-- The window of a segment closes without effect on an entry (R63). -/
def State.closeWindow (s : State) (n : SegNo) : State := s.updSeg n fun g => { g with window := .closed }

/-- The unknown tags that have given the segment the reason STRANGER it holds (R76). -/
def Segment.strangerTags (g : Segment) : List Tag := (g.stranger.map (·.given)).getD []

/-- The segment is given the reason STRANGER with the tag seen, if one was: a record without a vouched entry; the tag joins
those that gave the reason before (R70, R72, R76). -/
def Segment.giveStranger (g : Segment) (seen : Option Tag) : Segment :=
  { g with
    stranger := some
      { seen := seen, vouched := none
        given := match seen with | some t => g.strangerTags.insert t | none => g.strangerTags }
    headArrived := false
    window := .closed }

/-- R70: the segment is given the reason STRANGER with the tag seen, if one was. STRANGER is raised where the reason
is added. -/
def State.addStranger (s : State) (n : SegNo) (seen : Option Tag) : State :=
  match s.seg? n with
  | none => s
  | some g =>
    (s.updSeg n fun g => g.giveStranger seen).raiseIf (!g.stranger.isSome) .stranger

/-- R71: an untracked arrival. At a JAMMED segment and in CONFIGURE it is recorded without effect. -/
def State.untrackedArrival (s : State) (n : SegNo) : State :=
  match s.seg? n with
  | none => s
  | some g =>
    if g.jammed ∨ s.mode = .configure then s
    else if g.config.reader.isSome then
      s.updSeg n fun g =>
        { g with window := .untracked Config.windowRounds s.round?.isSome, unresolved := false }
    else s.addStranger n none

/-- R32: once the last inbound transfer of an empty segment has ended without a departure, a blocking held
unresolved is taken as an untracked arrival. -/
def State.resolveBlocking (s : State) (n : SegNo) : State :=
  match s.seg? n with
  | none => s
  | some g =>
    if g.unresolved && g.queue.isEmpty && s.eyeBlocked n && !s.inbound n then
      (s.updSeg n fun g => { g with unresolved := false }).untrackedArrival n
    else s

/-! ### Arrival at a gate -/

/-- Routing holds a SET_ASIDE head at a gate of this kind (R39). -/
def SegKind.holdsAside : SegKind → Bool
  | .outfeed | .exit | .rewash => false
  | _ => true

/-- R39: the reports of an arrived head, made where its stay begins. -/
def State.reportHead (s : State) (begins : Bool) (kind : SegKind) (x : Entry) : State :=
  (s.raiseIf (begins && x.hold.isSome) .holdReached).raiseIf (begins && x.state == .setAside && kind.holdsAside)
    .asideReached

/-- The head-arrived flag is set with the head of the queue (R32, R61): the HEAD window opens at a reader-bound gate
unless the head was placed there confirmed or the mode is CONFIGURE, and R39 reports where a stay begins, that is, where
the flag was clear. -/
def State.setHeadArrived (s : State) (n : SegNo) : State :=
  match s.seg? n with
  | none => s
  | some g =>
    match g.queue.head? with
    | none => s
    | some e =>
      let placed := (s.entry? e).any (·.placed)
      let opens := g.config.reader.isSome && s.mode != .configure && !placed
      let s := s.updSeg n fun g =>
        { g with headArrived := true, unresolved := false,
                 window := if opens then .head Config.windowRounds e s.round?.isSome else g.window }
      match s.entry? e with
      | some x => s.reportHead (!g.headArrived) g.config.kind x
      | none => s

/-! ### Transfers and reservations -/

/-- The end of a transfer without departure, by jam or abandonment: the gate closes, the transfer reservation is
released (a carried dispatch reservation stays with the assignment), and a blocking that waited for this transfer
is resolved (R12, R30, R32, R47). -/
def State.endTransfer (s : State) (n : SegNo) : State :=
  match (s.seg? n).bind (·.transfer) with
  | none => s
  | some t =>
    let s := s.updSeg n fun g => { g with transfer := none }
    match t.dest with
    | .tunnel => s
    | .segment d =>
      (s.updSeg d fun g =>
        { g with reservedTransfer := if t.carried then g.reservedTransfer else g.reservedTransfer - 1 }).resolveBlocking d

/-- The transfer in flight that carries an entry's dispatch reservation: the entry heads an OPEN gate (R45). -/
def State.carrier (s : State) (e : EntryNo) : Option SegNo :=
  s.findSeg fun g => g.transfer.any (·.carried) && g.queue.head? == some e

/-- The assignment of an entry is cleared and its dispatch reservation released (R7, R30). -/
def State.releaseAssignment (s : State) (e : EntryNo) : State :=
  match (s.entry? e).bind (·.assignment) with
  | none => s
  | some n =>
    let s := s.updEntry e fun x => { x with assignment := none }
    match s.parkOf n with
    | some p => s.updSeg p fun g => { g with reservedDispatch := g.reservedDispatch - 1 }
    | none => s

/-- The entry stands in a STORE as RETURNING and the gate is not OPEN for it (R41). -/
def State.waitsInStore (s : State) (e : EntryNo) : Bool :=
  match s.entry? e with
  | some x =>
    match x.location with
    | some (.segment n) =>
      (s.seg? n).any fun g =>
        g.config.kind == .store && x.state == .returning && !(g.isOpen && g.queue.head? == some e)
    | _ => false
  | none => false

/-- R45: the dispatch reservation that the transfer of `c` carried becomes a transfer reservation of that transfer. -/
def State.convertCarried (s : State) (c : SegNo) : State :=
  match (s.seg? c).bind (·.transfer) with
  | some ⟨.segment d, _, _⟩ =>
    (s.updSeg c fun g => { g with transfer := g.transfer.map fun t => { t with carried := false } }).updSeg d
      fun g => { g with reservedTransfer := g.reservedTransfer + 1 }
  | _ => s

/-- R178 at absence, LINK_RESET and entry to CONFIGURE: the assignment is cleared. A reservation carried by a transfer
in flight becomes a transfer reservation of that transfer (R45); an entry waiting in a store becomes STORED again
(R41). -/
def State.cancelAssignment (s : State) (e : EntryNo) : State :=
  match (s.entry? e).bind (·.assignment) with
  | none => s
  | some _ =>
    let waits := s.waitsInStore e
    let carrier := s.carrier e
    let s := s.releaseAssignment e
    let s := match carrier with
      | some c => s.convertCarried c
      | none => s
    if waits then s.updEntry e (·.withState .stored) else s

/-! ### Removal (R12) -/

/-- The vouched entry of a stranger record loses its force (R72). -/
def Segment.unvouch (g : Segment) : Segment := { g with stranger := g.stranger.map fun r => { r with vouched := none } }

/-- Removal from a segment queue other than by departure. Of the head: the head-arrived flag is cleared, the window
closes, a vouched entry is withdrawn (R72), and a transfer in flight is abandoned. -/
def State.removeFromSegment (s : State) (n : SegNo) (e : EntryNo) : State :=
  match s.seg? n with
  | none => s
  | some g =>
    if g.queue.head? = some e then
      (s.updSeg n fun g =>
        { g.unvouch with queue := g.queue.erase e, headArrived := false, window := .closed }).endTransfer n
    else s.updSeg n fun g => { g with queue := g.queue.erase e }

/-- Removal from the tunnel list; the tunnel fields are discarded (R11). -/
def State.removeFromTunnel (s : State) (e : EntryNo) : State :=
  { s with tunnel := { s.tunnel with list := s.tunnel.list.erase e } }.updEntry e fun x => { x with pass := none }

/-- Removal from the location the record holds (R12). -/
def State.removeEntry (s : State) (e : EntryNo) : State :=
  match (s.entry? e).bind (·.location) with
  | some (.segment n) => s.removeFromSegment n e
  | some .tunnel => s.removeFromTunnel e
  | none => s

/-! ### Declaration as MISSING (R16) -/

/-- R16, in one step. An entry already MISSING, or free, is left as it is. -/
def State.declareMissing (s : State) (e : EntryNo) (cause : MissingCause) : State :=
  match s.entry? e with
  | none => s
  | some x =>
    match x.location with
    | none => s
    | some last =>
      let s := (s.removeEntry e).releaseAssignment e
      let s := s.updEntry e fun y =>
        { y with location := none, state := .missing, claim := none, hold := none, confirmed := false,
                 overtaken := 0, staleAge := 0, placed := false, missing := some ⟨cause, x.state, last⟩ }
      s.raise .missing

/-! ### Placement (R13 to R15) -/

/-- The found table (R14): the state, and whether a verdict NONE becomes FAIL with cause MISTRACK. -/
def foundState (kind : SegKind) (storeKind : Option Kind) (x : Entry) (prior : Option RackState) :
    RackState × Bool :=
  let cleanPrior := prior == none || prior == some .returning || prior == some .stored || prior == some .staged
  let cleanSide := cleanPrior && !x.verdict.isFail
  match kind with
  | .collect => (.loaded, false)
  | .entry => (.queued, false)
  | .rewash => (.rewashDue, false)
  | .outfeed | .exit =>
    if (prior == some .cleared || prior == some .unloading) && x.verdict.isClean then (.cleared, false)
    else (.rewashDue, x.verdict == .none)
  | .clean => (if cleanSide then .returning else .setAside, false)
  | .store => (if cleanSide && storeKind == some x.tag.kind then .stored else .setAside, false)
  | .park => (if cleanSide then .staged else .setAside, false)
  | .aside => (.setAside, false)

/-- The entry as placement leaves it (R13, with R14 and the adjustments of R15). `exceeded`: the relocation out of the
tunnel made a rise over the limit (R110). -/
def Entry.place (x : Entry) (n : SegNo) (kind : SegKind) (storeKind : Option Kind) (prior : Option RackState)
    (exceeded : Bool) (limit : Nat) (now : BitVec 32) : Entry :=
  let found := foundState kind storeKind x prior
  let rewashes := if found.2 then raiseRewash x.rewashes else x.rewashes
  let aside := exceeded || (found.2 && overLimit limit x.rewashes) || decide (limit < rewashes)
  { x with
    location := some (.segment n)
    state := if aside then .setAside else found.1
    verdict := if found.2 then .fail .mistrack 0 false else x.verdict
    rewashes := rewashes
    claim := none
    missing := none
    pass := none
    confirmed := true
    overtaken := 0
    staleAge := 0
    lastConfirmed := now
    placed := true }

/-- Placement of an entry's record in segment `n`, its queue apart (R13). -/
def State.placeEntry (s : State) (e : EntryNo) (n : SegNo) (prior : Option RackState) (exceeded : Bool) : State :=
  match s.seg? n with
  | none => s
  | some g => s.updEntry e fun x => x.place n g.config.kind g.config.storeKind prior exceeded s.params.rewashLimit s.seconds

/-- Placement at the tail, by ADMIT and RESTORE (R13). Into an empty segment it closes an UNTRACKED window (R63), and
where the eye is blocked the entry is the arrived head at once and a stranger's vouched entry (R72). -/
def State.placeAtTail (s : State) (e : EntryNo) (n : SegNo) (prior : Option RackState) : State :=
  match s.seg? n with
  | none => s
  | some g =>
    let s := (s.updSeg n fun g => { g with queue := g.queue ++ [e] }).placeEntry e n prior false
    if g.queue.isEmpty then
      let s := s.closeWindow n
      if s.eyeBlocked n then
        (s.setHeadArrived n).updSeg n fun g =>
          { g with stranger := g.stranger.map fun r => { r with vouched := some e } }
      else s
    else s

/-- The entry at the head of the free list comes into use with a tag (R4, R19). -/
def State.takeFree (s : State) (e : EntryNo) (t : Tag) : State :=
  { s with freeList := s.freeList.tail }.putEntry e (some (Entry.new t))

/-! ### Appending by departure or exit -/

/-- An entry joins the tail of a segment by departure or exit (R44, R90): an UNTRACKED window closes (R63), and where
the queue was empty and the eye is blocked the head-arrived flag is set at once. The record is the caller's. -/
def State.appendTo (s : State) (n : SegNo) (e : EntryNo) : State :=
  match s.seg? n with
  | none => s
  | some g =>
    let s := s.updSeg n fun g =>
      { g with queue := g.queue ++ [e], window := if g.queue.isEmpty then .closed else g.window }
    if g.queue.isEmpty && s.eyeBlocked n then s.setHeadArrived n else s

/-! ### The dispatcher's assignment (R172 to R175) -/

/-- The free space of the item's park is at least 1 (R175). -/
def State.servable (s : State) (i : DemandItem) : Bool :=
  match s.parkOf i.station with
  | some p => decide (1 ≤ s.freeSpace p)
  | none => false

/-- The best servable item of a kind (R169, R175). -/
def State.bestItem (s : State) (k : Kind) : Option DemandItem :=
  s.demand.find? fun i => i.kind == k && s.servable i

/-- The queue without the item of a node and kind. -/
def dropItem (q : List DemandItem) (n : NodeNo) (k : Kind) : List DemandItem :=
  q.filter fun i => !(i.station == n && i.kind == k)

/-- Assignment of a rack to an item (R172). -/
def State.assign (s : State) (e : EntryNo) (i : DemandItem) : State :=
  let s := s.updEntry e fun x =>
    { x with assignment := some i.station, state := .returning, staleAge := 0 }
  let s := { s with demand := dropItem s.demand i.station i.kind }.touchIdle
  match s.parkOf i.station with
  | some p => s.updSeg p fun g => { g with reservedDispatch := g.reservedDispatch + 1 }
  | none => s

/-- The head a STORE offers, if it offers one (R173). -/
def State.offeredHead (s : State) (g : Segment) : Option EntryNo :=
  if g.config.kind == .store && g.headArrived && !g.jammed && !g.isHeld then
    g.queue.head?.bind fun e =>
      if (s.entry? e).any fun x => x.state == .stored && !x.hold.isSome then some e else none
  else none

/-- The offered head of the store of a kind; none is examined while no entry of the kind is STORED (R173). -/
def State.offerOf (s : State) (k : Kind) : Option EntryNo :=
  if 1 ≤ s.storedCount k then
    (List.finRange 32).findSome? fun n =>
      (s.seg? n).bind fun g => if g.config.storeKind = some k then s.offeredHead g else none
  else none

/-- The assignment to make next: the first servable item, in the order of the queue, whose kind's store offers its
head (R173). That the order of the stores left is found afresh after each assignment, and not kept as it was at the event, is
the model's choice (notes/assumptions/48.md). -/
def State.nextOffer (s : State) : Option (EntryNo × DemandItem) :=
  s.demand.findSome? fun i => if s.servable i then (s.offerOf i.kind).map fun e => (e, i) else none

/-- Stores are served one assignment at a time, each judged on what the earlier ones left (R173). Every assignment
takes an item off the queue, so its length bounds them. -/
def State.offerStores : Nat → State → State
  | 0, s => s
  | fuel + 1, s =>
    match s.nextOffer with
    | some (e, i) => (s.assign e i).offerStores fuel
    | none => s

/-! ### Output lines -/

/-- Zone codes of R82. -/
inductive Zone where
  | wash | final | dry
  deriving DecidableEq, Repr

/-- The position of an entry in the tunnel, in pulses (R82). -/
def State.position (s : State) (p : PassRecord) : Nat := (s.tunnel.encoder - p.mark).toNat

/-- The zone of a position (R82). -/
def TunnelConfig.zone (c : TunnelConfig) (pos : Nat) : Zone :=
  if pos < c.finalStart then .wash else if pos < c.finalEnd then .final else .dry

/-- The early exit limit: exit distance less exit tolerance (R79). -/
def TunnelConfig.earlyExit (c : TunnelConfig) : Nat := c.exitDistance - c.exitTolerance

/-- The position of the head of the tunnel list. -/
def State.headPosition (s : State) : Option Nat :=
  s.tunnel.list.head?.bind fun e => (s.entry? e).bind fun x => x.pass.map s.position

/-- The third condition of R97: OUTFEED without free space and a head at or beyond the halt point. -/
def State.outfeedHalt (s : State) : Bool :=
  match s.tunnel.config, s.headPosition, s.outfeed with
  | some c, some pos, some o => decide (s.freeSpace o = 0) && decide (c.earlyExit - c.haltMargin ≤ pos)
  | _, _, _ => false

/-- TUNNEL_HALT_REQ (R97). -/
def State.haltRequest (s : State) : Bool := s.stopLatch || s.tunnel.fault.isSome || s.outfeedHalt

/-- A segment's drive is on (R35). -/
def State.driveOn (s : State) (g : Segment) : Bool :=
  (s.mode == .run || s.mode == .service) && !s.stopLatch && !g.jammed

/-- The transfer names the alternate as destination (R36). -/
def Segment.diverting (g : Segment) : Bool :=
  g.transfer.any fun t => g.config.alternate.any fun a => t.dest == .segment a

/-- One line of a group: some defined segment owns it and asserts it. -/
def State.line (s : State) (owns : Segment → LineNo → Bool) (k : LineNo) : Bool :=
  !(s.segsWhere fun g => owns g k).isEmpty

/-- Every output line as the state gives it (R35, R36, R97, R195). -/
def State.outputs (s : State) : Outputs where
  drives := Vector.ofFn fun k => s.line (fun g k => g.config.drive == k && s.driveOn g) k
  gates := Vector.ofFn fun k => s.line (fun g k => g.config.drive == k && g.config.kind != .entry && g.isOpen) k
  diverters := Vector.ofFn fun k => s.line (fun g k => g.config.diverter == some k && g.diverting) k
  entryRelease := !(s.segsWhere fun g => g.config.kind == .entry && g.isOpen).isEmpty
  haltRequest := s.haltRequest
  attnHi := attentionLine .high s.attention
  attnLo := attentionLine .low s.attention

/-- Every output line brought to its level. -/
def State.refreshOutputs (s : State) : State := { s with out := s.outputs }

/-! ### What a command ends with -/

/-- The stale age of every entry in a queue becomes 0. -/
def State.freshenQueue (s : State) (q : List EntryNo) : State :=
  s.forEach (fun s e => s.updEntry e fun x => { x with staleAge := 0 }) q

/-- R75, end of an exemption: the queue of every segment that was exempt before and is not now. -/
def State.endExemptions (before s : State) : State :=
  s.forEach (fun s n =>
    match before.seg? n, s.seg? n with
    | some g, some h => if g.exempt && !h.exempt then s.freshenQueue h.queue else s
    | _, _ => s) (List.finRange 32)

/-- What follows a change in the same step: stores are offered (R173), exemptions that ended are taken (R75), the
idle timer is held (R205). -/
def State.settle (before s : State) : State :=
  (State.endExemptions before (s.offerStores s.demand.length)).holdIdle

/-- The outcome of a command that changed the state from `before` to `s`. -/
def done (before s : State) : Host.Outcome State Fault Refusal := .next (State.settle before s).refreshOutputs

/-! ### Entry summaries (R145, 11.1) -/

/-- The place of an entry in a queue, counted from the head, beginning at 1; 0 where it is not in it. -/
def positionIn (q : List EntryNo) (e : EntryNo) : Nat := if e ∈ q then q.idxOf e + 1 else 0

/-- Zone codes (R210). -/
def Zone.code : Zone → Nat
  | .wash => 0
  | .final => 1
  | .dry => 2

/-- The zone of an entry in the tunnel. -/
def State.zoneOf (s : State) (x : Entry) : Option Zone :=
  match s.tunnel.config, x.pass with
  | some c, some p => some (c.zone (s.position p))
  | _, _ => none

/-- The five fields of the summary that depend on where the entry is: bits 20-19, 13-9, 8-5, 4-0. -/
def State.summaryPlace (s : State) (e : EntryNo) (x : Entry) : Nat × Nat × Nat :=
  match x.missing with
  | some m =>
    (match m.last with | .segment n => n.val | .tunnel => 0, m.prior.code, m.cause.code)
  | none =>
    let who :=
      match x.state with
      | .unloading => (x.claim.map nodeAddress).getD 0
      | .returning => (x.assignment.map nodeAddress).getD 0
      | _ => 0
    match x.location with
    | some (.segment n) => (n.val, ((s.seg? n).map fun g => positionIn g.queue e - 1).getD 0, who)
    | _ => (0, ((s.zoneOf x).map Zone.code).getD 0, who)

/-- The summary of an entry as it stands (R145). -/
def State.summary (s : State) (e : EntryNo) (x : Entry) : Summary :=
  let (seg, low, who) := s.summaryPlace e x
  { tag := x.tag, confirmed := x.confirmed,
    bits := BitVec.ofNat 32 (e.val * 2 ^ 25 + x.state.code * 2 ^ 21 + holdCode x.hold * 2 ^ 19 +
      x.verdict.code * 2 ^ 16 + x.rewashes * 2 ^ 14 + seg * 2 ^ 9 + low * 2 ^ 5 + who) }

/-- The summary of an entry, where there is one. -/
def State.summary? (s : State) (e : Option EntryNo) : Option Summary :=
  e.bind fun e => (s.entry? e).map (s.summary e)

/-- The summary as bytes of a port answer. That nothing, no presence byte either, stands there where there is none is the model's
choice (notes/assumptions/11.md). -/
def State.summaryBytes (s : State) (e : Option EntryNo) : List Byte :=
  match s.summary? e with
  | some m => m.bytes
  | none => []

end Sys2Proof.Machine
end

