-- ==== Sys2Proof/Machine/Layout.lean ====
section
/-! DEFINITION. Layout validation (R56, R57). Each check answers with the first that offends it: the lowest-numbered
segment, the node for check 9, a missing kind for check 1 (notes/assumptions/15.md). -/

namespace Sys2Proof.Machine

/-- What offends a check (R57). -/
inductive Offender where
  | segment (n : SegNo)
  | tunnel
  | node (n : NodeNo)
  | missingKind (k : SegKind)
  deriving DecidableEq, Repr

/-- An offender as one byte of an answer (R209): a segment number, an address, 20h, or a segment kind code. -/
def Offender.code : Offender → Nat
  | .segment n => n.val
  | .tunnel => Config.tunnelCode
  | .node n => nodeAddress n
  | .missingKind k => k.code

/-- The segments of a kind. -/
def State.ofKind (s : State) (k : SegKind) : List SegNo := s.segsWhere fun g => g.config.kind == k

/-- The segment is of a kind. -/
def State.isKind (s : State) (k : SegKind) (n : SegNo) : Bool := (s.seg? n).any fun g => g.config.kind == k

/-- A place is a segment of a kind. -/
def State.placeIs (s : State) (k : SegKind) (p : Option Place) : Bool :=
  match p with
  | some (.segment n) => s.isKind k n
  | _ => false

/-- An alternate is a segment of a kind. -/
def State.alternateIs (s : State) (k : SegKind) (a : Option SegNo) : Bool :=
  match a with
  | some n => s.isKind k n
  | none => false

/-- The lowest-numbered segment that fails a test. -/
def State.failing (s : State) (test : SegNo → Segment → Bool) : Option Offender :=
  ((List.finRange 32).find? fun n => (s.seg? n).any fun g => !test n g).map .segment

/-- Check 1: exactly one segment of each of five kinds. Absent kinds come first. -/
def State.check1 (s : State) : Option Offender :=
  let kinds := [SegKind.entry, .outfeed, .exit, .rewash, .aside]
  match kinds.find? fun k => (s.ofKind k).isEmpty with
  | some k => some (.missingKind k)
  | none =>
    ((List.finRange 32).find? fun n =>
      kinds.any fun k => s.isKind k n && (s.ofKind k).head? != some n).map .segment

/-- A successor names a defined segment; TUNNEL for ENTRY. That an ENTRY whose successor is a defined segment passes check 2
and is left to check 3 is the model's choice (notes/assumptions/15.md). -/
def State.successorDefined (s : State) (g : Segment) : Bool :=
  match g.config.successor with
  | none => g.config.kind == .aside
  | some .tunnel => g.config.kind == .entry
  | some (.segment m) => g.config.kind != .aside && (s.seg? m).isSome

/-- Check 2: every successor and alternate names a defined segment; ASIDE has no successor. -/
def State.check2 (s : State) : Option Offender :=
  s.failing fun _ g => s.successorDefined g && g.config.alternate.all fun a => (s.seg? a).isSome

/-- Check 3: the tunnel defined; ENTRY's successor TUNNEL and no alternate. -/
def State.check3 (s : State) : Option Offender :=
  if s.tunnel.config.isNone then some .tunnel
  else s.failing fun _ g => g.config.kind != .entry || (g.config.successor == some .tunnel && g.config.alternate.isNone)

/-- Check 4: OUTFEED to EXIT and REWASH. -/
def State.check4 (s : State) : Option Offender :=
  s.failing fun _ g =>
    g.config.kind != .outfeed || (s.placeIs .exit g.config.successor && s.alternateIs .rewash g.config.alternate)

/-- Check 5: EXIT to a CLEAN segment and REWASH. -/
def State.check5 (s : State) : Option Offender :=
  s.failing fun _ g =>
    g.config.kind != .exit || (s.placeIs .clean g.config.successor && s.alternateIs .rewash g.config.alternate)

/-- Check 6: REWASH to ENTRY and ASIDE. -/
def State.check6 (s : State) : Option Offender :=
  s.failing fun _ g =>
    g.config.kind != .rewash || (s.placeIs .entry g.config.successor && s.alternateIs .aside g.config.alternate)

/-- A chain of successors through COLLECT segments reaches ENTRY. Without a segment met twice it is at most as long as
the table. -/
def State.reachesEntry (s : State) : Nat → SegNo → Bool
  | 0, _ => false
  | fuel + 1, n =>
    match s.seg? n with
    | none => false
    | some g =>
      match g.config.kind, g.config.successor with
      | .entry, _ => true
      | .collect, some (.segment m) => s.reachesEntry fuel m
      | _, _ => false

/-- Check 7: every COLLECT without an alternate, its successors leading through COLLECT to ENTRY. -/
def State.check7 (s : State) : Option Offender :=
  s.failing fun n g => g.config.kind != .collect || (g.config.alternate.isNone && s.reachesEntry 33 n)

/-- How many CLEAN segments name a segment as alternate. -/
def State.namedByClean (s : State) (n : SegNo) : Nat :=
  (s.segsWhere fun g => g.config.kind == .clean && g.config.alternate == some n).length

/-- The owner is a defined LOAD node. -/
def State.ownedByLoad (s : State) (owner : Option NodeNo) : Bool := (owner.bind s.node?).any (·.role.isLoad)

/-- Check 8: every PARK owned by a defined LOAD node of its own, with a COLLECT successor, no alternate, and named by
exactly one CLEAN segment. -/
def State.check8 (s : State) : Option Offender :=
  s.failing fun n g =>
    g.config.kind != .park ||
      (s.ownedByLoad g.config.owner &&
        (s.segsWhere fun h => h.config.kind == .park && h.config.owner == g.config.owner).head? == some n &&
        s.placeIs .collect g.config.successor && g.config.alternate.isNone && s.namedByClean n == 1)

/-- Check 9: every defined LOAD node the owner of a PARK. -/
def State.check9 (s : State) : Option Offender :=
  ((s.nodesWhere (·.role.isLoad)).find? fun n => (s.parkOf n).isNone).map .node

/-- The segments met by following successors, the start first. -/
def State.successorPath (s : State) : Nat → SegNo → List SegNo
  | 0, _ => []
  | fuel + 1, n =>
    n :: match (s.seg? n).bind (·.config.successor) with
      | some (.segment m) => s.successorPath fuel m
      | _ => []

/-- The CLEAN segments form one ring by successor: as many steps as there are of them, taken from the lowest, visit
each of them and lead back. -/
def State.oneRing (s : State) : Bool :=
  match s.ofKind .clean with
  | [] => true
  | first :: rest =>
    let path := s.successorPath (rest.length + 2) first
    (path[rest.length + 1]? == some first) && (first :: rest).all fun n => (path.take (rest.length + 1)).contains n

/-- Check 10: every CLEAN with a CLEAN successor, one ring, each CLEAN alternate a PARK or a STORE. -/
def State.check10 (s : State) : Option Offender :=
  match s.failing fun _ g =>
      g.config.kind != .clean ||
        (s.placeIs .clean g.config.successor &&
          g.config.alternate.all fun a => s.isKind .park a || s.isKind .store a) with
  | some o => some o
  | none => if s.oneRing then none else (s.ofKind .clean).head?.map .segment

/-- Check 11: every STORE with a CLEAN successor and no alternate, alone of its store kind, named by exactly one CLEAN
segment. -/
def State.check11 (s : State) : Option Offender :=
  s.failing fun n g =>
    g.config.kind != .store ||
      (s.placeIs .clean g.config.successor && g.config.alternate.isNone &&
        (s.segsWhere fun h => h.config.kind == .store && h.config.storeKind == g.config.storeKind).head? == some n &&
        s.namedByClean n == 1)

/-- A line is not shared with a lower-numbered segment. -/
def State.firstWith (s : State) (line : Segment → Option LineNo) (n : SegNo) (g : Segment) : Bool :=
  (line g).isNone || (s.segsWhere fun h => line h == line g).head? == some n

/-- Check 12: eye inputs, drive outputs and diverter outputs distinct. -/
def State.check12 (s : State) : Option Offender :=
  s.failing fun n g =>
    s.firstWith (fun h => some h.config.eye) n g && s.firstWith (fun h => some h.config.drive) n g &&
      s.firstWith (fun h => h.config.diverter) n g

/-- The reader gate of a READER node. -/
def Role.gate? : Role → Option SegNo
  | .reader g => some g
  | _ => none

/-- Check 13 for one segment number, its first half: the reader node it names is a READER whose gate it is. A READER named
by a segment that is not its gate fails here too. -/
def State.readerAgrees (s : State) (n : SegNo) : Bool :=
  (s.seg? n).all fun g => g.config.reader.all fun r => (s.node? r).any fun x => x.role.gate? == some n

/-- Check 13 for one segment number, its second half: every READER that gives it as its reader gate is named by it. -/
def State.readersNamed (s : State) (n : SegNo) : Bool :=
  (s.nodesWhere fun x => x.role.gate? == some n).all fun r => (s.seg? n).any fun g => g.config.reader == some r

/-- Check 13: readers and gates name each other. A reader whose gate does not name it offends as its gate. -/
def State.check13 (s : State) : Option Offender :=
  ((List.finRange 32).find? fun n => !(s.readerAgrees n && s.readersNamed n)).map .segment

/-- The first check that fails, with what offends it (R56, R57). -/
def State.validate (s : State) : Option (Nat × Offender) :=
  [(1, s.check1), (2, s.check2), (3, s.check3), (4, s.check4), (5, s.check5), (6, s.check6), (7, s.check7),
   (8, s.check8), (9, s.check9), (10, s.check10), (11, s.check11), (12, s.check12), (13, s.check13)].findSome?
    fun c => c.2.map fun o => (c.1, o)

end Sys2Proof.Machine
end

