-- ==== Sys2Proof/Machine/ModeOps.lean ====
section
/-! DEFINITION. The transitions between modes (R199 to R206), but for layout validation and the request itself. -/

namespace Sys2Proof.Machine

/-- The round in progress is changed. -/
def LinkPhase.mapRound (p : LinkPhase) (f : Round → Round) : LinkPhase :=
  match p with
  | .header r => .header (f r)
  | .windows r => .windows (f r)
  | p => p

/-- The round in progress, if any, is changed. -/
def State.updRound (s : State) (f : Round → Round) : State :=
  { s with link := { s.link with phase := s.link.phase.mapRound f } }

/-- The new mode stands. A round that has seen CONFIGURE or QUIET counts for no window (R62). -/
def State.setMode (s : State) (m : Mode) : State :=
  { s with mode := m }.updRound fun r => { r with steady := r.steady && (m == Mode.run || m == Mode.service) }

/-- The rounds begin again after QUIET where they had stopped: WARM, or COLD where a link reset is still to be followed
by its first round (R136, R139). That WARM replaces COLD marks still to come is the model's choice
(notes/assumptions/42.md). -/
def State.restartLink (s : State) : State :=
  if s.link.phase = .silent then
    if s.link.coldDue then { s with link := { s.link with phase := .between } }
    else { s with link := { s.link with phase := .between, restart := .warm, restartLeft := Config.restartRounds } }
  else s

/-- R206: after a wake taken during the closing round the next round has the restart mark NONE, whatever marks R124 had
still to come (notes/assumptions/42.md). -/
def State.endMarks (s : State) : State :=
  if s.round?.isSome then { s with link := { s.link with restartLeft := 0 } } else s

/-- R206: a wake event. Outside QUIET it is none. `announce`: the wake is not made by a MODE request (R207). -/
def State.wake (s : State) (announce : Bool) : State :=
  if s.mode = .quiet then ({ s.setMode .run with idle := 0 }.endMarks.restartLink).raiseIf announce .modeChange else s

/-- R204: the mode becomes QUIET. The round in progress becomes the closing round; between two rounds no further
one begins (R137). -/
def State.enterQuiet (s : State) : State :=
  let s := s.setMode .quiet
  if s.link.phase = .between then { s with link := { s.link with phase := .silent } } else s

/-- What refuses CONFIGURE and QUIET: the lowest-numbered OPEN gate, or TUNNEL where the list holds an entry (R202). -/
def State.busyWith (s : State) : Option Place :=
  match s.findSeg Segment.isOpen with
  | some n => some (.segment n)
  | none => if s.tunnel.list.isEmpty then none else some .tunnel

/-- Every assignment is cancelled (R178). -/
def State.cancelAll (s : State) : State :=
  s.forEach State.cancelAssignment (s.entriesWhere fun x => x.assignment.isSome)

/-- R202: the mode becomes CONFIGURE. -/
def State.enterConfigure (s : State) : State :=
  let s := { s.setMode .configure with demand := [], idle := 0 }.cancelAll
  (s.forEach State.closeWindow (List.finRange 32)).restartLink

/-- R78, R201: a segment whose eye is blocked is examined at the return to RUN. -/
def State.examine (s : State) (n : SegNo) : State :=
  match s.seg? n with
  | none => s
  | some g =>
    if !s.eyeBlocked n then s
    else if g.queue.isEmpty then
      if !s.inbound n && !g.stranger.isSome then s.untrackedArrival n else s
    else
      match g.queue.head? with
      | some e =>
        if g.config.reader.isSome && g.headArrived && !(s.entry? e).any (·.placed) then
          s.updSeg n fun g => { g with window := .head Config.windowRounds e s.round?.isSome }
        else s
      | none => s

/-- R201: the mode becomes RUN on a valid layout. -/
def State.leaveConfigure (s : State) : State :=
  { s.setMode .run with idle := 0 }.forEach State.examine (List.finRange 32)

/-- R203: between RUN and SERVICE. -/
def State.switchService (s : State) (m : Mode) : State := { s.setMode m with idle := 0 }

end Sys2Proof.Machine
end

