-- ==== Sys2Proof/Machine/PortOps.lean ====
section
/-! DEFINITION. The SPI transaction around a port request: what is shown, too-soon transactions, the answer buffer,
request activity (R184 to R187, R205). -/

namespace Sys2Proof.Machine

/-- What the rule that owns a request makes of it: an answer alone, or a change with the answer DONE. A body is
read off the state that the step leaves. -/
inductive Taken where
  | told (r : Result) (body : State → List Byte)
  | did (s : State) (body : State → List Byte)

/-- No body. -/
def noBody : State → List Byte := fun _ => []

/-- A refusal or an answer without body. -/
def tell (r : Result) : Taken := .told r noBody

/-- The transaction is not too soon: the request buffer takes its bytes, the answer buffer is shown, and the turnaround
follows its release (R184 to R186). -/
def State.beginTransaction (s : State) (bytes : List Byte) : State :=
  { s with port := { s.port with request := bytes, shown := s.port.answer.bytes, turnaround := true } }

/-- A too-soon transaction: PENDING is shown, nothing is taken, a new turnaround starts (R186). -/
def State.tooSoon (s : State) (bytes : List Byte) : State :=
  { s with port := { s.port with request := bytes, shown := [Config.pendingMarker], turnaround := true } }

/-- The byte PORT_DO shows at a place of the transaction: behind what is shown, the filler (R184, R186). -/
def Port.outByte (p : Port) (place : Nat) : Byte := p.shown[place]?.getD Config.fillerByte

/-- PORT_DO after so many clocks of a transaction: the bits of what is shown, most significant first (R183). While PORT_SEL
is released (`none`) it is not driven. Every command is a whole transaction, so between two commands it is released. -/
def Port.doLine (p : Port) (clocks : Option Nat) : Option Bool :=
  clocks.map fun k => (p.outByte (k / 8)).getLsbD (7 - k % 8)

/-- The answer buffer takes a new answer, with the next number (R184). -/
def State.answer (s : State) (echo : Byte) (r : Result) (body : List Byte) : State :=
  { s with port := { s.port with answer := { number := s.port.answer.number + 1, echo, start := false, result := r, body } } }

/-- The request kind code a command's answer echoes. -/
def echoOf (c : Instr) : Byte := (c.portBody.map (·.1)).getD 0

/-- A request of the port that may change the state (R185, R187). Taken, it is request activity, unless it is
answered BAD_REQUEST. -/
def portDo (c : Instr) (act : State → Taken) (s : State) : Host.Outcome State Fault Refusal :=
  if s.port.turnaround then .next (s.tooSoon (portBytes c))
  else
    let quietly := s.beginTransaction (portBytes c)
    let active := quietly.touchIdle
    match act active with
    | .told .badRequest body => .next (quietly.answer (echoOf c) .badRequest (body quietly))
    | .told r body => .next (active.answer (echoOf c) r (body active))
    | .did s' body =>
      let settled := (State.settle active s').refreshOutputs
      .next (settled.answer (echoOf c) .done (body settled))

/-- A read request: it changes nothing and is no request activity (R185, R189). -/
def portRead (c : Instr) (read : State → Result × List Byte) (s : State) : Host.Outcome State Fault Refusal :=
  if s.port.turnaround then .next (s.tooSoon (portBytes c))
  else
    let s' := s.beginTransaction (portBytes c)
    .next (s'.answer (echoOf c) (read s').1 (read s').2)

/-- A request on a segment named by a byte: out of range BAD_REQUEST, not defined NOT_FOUND. -/
def onSegment (seg : Byte) (act : State → SegNo → Segment → Taken) (s : State) : Taken :=
  match segOfByte seg with
  | none => tell .badRequest
  | some n =>
    match s.seg? n with
    | none => tell .notFound
    | some g => act s n g

end Sys2Proof.Machine
end

