-- ==== Sys2Proof/Machine/Modes.lean ====
section
/-! DEFINITION. POWER_ON (R26, R50, R193, R199) and the MODE request (R200 to R204, R206). -/

namespace Sys2Proof.Machine

/-- POWER_ON: every piece of state at its value after power-on; where SAFE_STOP is asserted the stop latch is set and
SAFETY_STOP is flagged (R50, R193). The commands still waiting are the model's own and stay. -/
def execPowerOn (stopAsserted : Bool) (s : State) : Host.Outcome State Fault Refusal :=
  let fresh := { State.reset with pending := s.pending }
  if stopAsserted then
    .next ({ fresh with safeStop := true, stopLatch := true }.raise .safetyStop).refreshOutputs
  else .next fresh

/-- Mode and idle timer, which every answer to MODE carries (R200). -/
def State.modeBytes (s : State) : List Byte := byteField s.mode.code ++ halfField s.idle

/-- A change of mode answered DONE. -/
def State.changed (s : State) : Taken := .did s State.modeBytes

/-- An answer to MODE without a change, with what it adds. -/
def modeTold (r : Result) (extra : List Byte) : Taken := .told r fun s => s.modeBytes ++ extra

/-- A change that is refused BUSY while a gate is OPEN or the tunnel list holds an entry (R202, R204). -/
def unlessBusy (s : State) (change : State) : Taken :=
  match s.busyWith with
  | some place => modeTold .busy (byteField place.code)
  | none => change.changed

/-- MODE RUN in CONFIGURE (R57, R201). -/
def runTaken (s : State) : Taken :=
  match s.validate with
  | some (check, offender) => modeTold .badLayout (byteField check ++ byteField offender.code)
  | none => s.leaveConfigure.changed

/-- R200: the present mode and the mode asked for. -/
def modeTo (s : State) (m : Mode) : Taken :=
  if s.mode = m then modeTold .done []
  else
    match s.mode, m with
    | .configure, .run => runTaken s
    | .run, .service => (s.switchService .service).changed
    | .service, .run => (s.switchService .run).changed
    | .run, .quiet => unlessBusy s s.enterQuiet
    | .quiet, .run => (s.wake false).changed
    | .run, .configure => unlessBusy s s.enterConfigure
    | .service, .configure => unlessBusy s s.enterConfigure
    | .quiet, .configure => unlessBusy s s.enterConfigure
    | _, _ => modeTold .notAllowed []

/-- MODE (R200). -/
def modeTaken (s : State) (code : Byte) : Taken :=
  match Mode.ofCode code.toNat with
  | none => modeTold .badRequest []
  | some m => modeTo s m

/-- MODE (R200). -/
def execMode (code : Byte) (s : State) (more : List Byte := []) : Host.Outcome State Fault Refusal :=
  portDo (.mode code more) (fun s => modeTaken s code) s

end Sys2Proof.Machine
end

