-- ==== Sys2Proof/Machine/Demand.lean ====
section
/-! DEFINITION. The dispatcher's demand queue: admission and removal by a reply's demand set (R167, R168), its order
(R169), promotion (R170), and the step of the seconds counter with what it makes due (R10, R74, R170, R205). -/

namespace Sys2Proof.Machine

/-! ### The queue -/

/-- The items of a chain, in their order. -/
def chainOf (q : List DemandItem) (c : Chain) : List DemandItem := q.filter fun i => i.chain == c

/-- A new item joins its chain after every item of that chain (R169). -/
def joinQueue (q : List DemandItem) (i : DemandItem) : List DemandItem :=
  match i.chain with
  | .high => chainOf q .high ++ i :: chainOf q .low
  | .low => q ++ [i]

/-- `a` stands before `b` in one chain (R169). Entry times are compared as plain numbers, also across a wrap of the seconds
counter: the model's choice (notes/assumptions/51.md). -/
def DemandItem.before (a b : DemandItem) : Bool :=
  decide (a.entryTime < b.entryTime) || (a.entryTime == b.entryTime && decide (a.order < b.order))

/-- A promoted item takes its place among the HIGH items by its entry time (R169). -/
def placePromoted (q : List DemandItem) (i : DemandItem) : List DemandItem :=
  let high := chainOf q .high
  high.takeWhile (·.before i) ++ i :: (high.dropWhile (·.before i) ++ chainOf q .low)

/-- The flag of a kind (R120). -/
def DemandSet.flag (d : DemandSet) : Kind → Bool
  | .plate => d.plate
  | .cup => d.cup
  | .cutlery => d.cutlery
  | .tray => d.tray

/-- No flag set. -/
def DemandSet.none : DemandSet := ⟨false, false, false, false⟩

/-- The age of an item: the seconds counter less its entry time (R170). -/
def State.age (s : State) (i : DemandItem) : Nat := (s.seconds - i.entryTime).toNat

/-! ### Admission and removal -/

/-- The node's park has room for one more item of it (R167, third condition). -/
def State.roomForItem (s : State) (n : NodeNo) : Bool :=
  match (s.parkOf n).bind s.seg? with
  | some g =>
    decide (g.queue.length + (g.reservedTransfer + g.reservedDispatch) + (s.demand.filter fun i => i.station == n).length
      < g.config.capacity)
  | none => false

/-- The four conditions of R167. -/
def State.admits (s : State) (n : NodeNo) (k : Kind) : Bool :=
  s.mode != .configure && !(s.demand.any fun i => i.station == n && i.kind == k) && s.roomForItem n &&
    decide (s.demand.length < Config.demandCapacity)

/-- Admission of an item (R167). -/
def State.admitItem (s : State) (n : NodeNo) (chain : Chain) (k : Kind) : State :=
  { s with demand := joinQueue s.demand ⟨n, k, chain, s.seconds, false, s.nextOrder⟩,
           nextOrder := s.nextOrder + 1 }.touchIdle

/-- One kind of a demand set: a clear flag removes the item, a set one may admit it (R167, R168). -/
def State.takeFlag (s : State) (n : NodeNo) (chain : Chain) (d : DemandSet) (k : Kind) : State :=
  if DemandSet.flag d k then (if s.admits n k then s.admitItem n chain k else s)
  else { s with demand := dropItem s.demand n k }

/-- A demand set handed on from a LOAD node (R167). -/
def State.takeDemand (s : State) (n : NodeNo) (chain : Chain) (d : DemandSet) : State :=
  s.forEach (fun s k => s.takeFlag n chain d k) [.plate, .cup, .cutlery, .tray]

/-- Every item of a node is removed (R168). -/
def State.dropItemsOf (s : State) (n : NodeNo) : State :=
  { s with demand := s.demand.filter fun i => !(i.station == n) }

/-! ### Promotion -/

/-- R170: the item is to be promoted by a promotion limit. -/
def State.starves (s : State) (limit : Nat) (i : DemandItem) : Bool :=
  (s.mode == .run || s.mode == .service) && limit != 0 && i.chain == .low && decide (limit < s.age i)

/-- R170: promotion of one item. -/
def State.promote (s : State) (i : DemandItem) : State :=
  { s with demand := placePromoted (dropItem s.demand i.station i.kind) { i with chain := .high, promoted := true } }.raise
    .starvation

/-- PROMOTION: an item that the last step of the seconds counter found starving, if it still is by the limit of that
step (R170, R171). -/
def execPromotion (n : NodeNo) (k : Kind) (s : State) : Host.Outcome State Fault Refusal :=
  if (n, k) ∈ s.due.promote then
    let s' := { s with due := { s.due with promote := s.due.promote.erase (n, k) } }
    match s.demand.find? fun i => i.station == n && i.kind == k && s.starves s.due.promotionLimit i with
    | some i => done s (s'.promote i)
    | none => .next s'
  else .next s

/-! ### The seconds counter -/

/-- In RUN every stale age advances (R10). -/
def State.advanceAges (s : State) : State :=
  if s.mode = .run then
    { s with entries := s.entries.map fun o => o.map fun x =>
               { x with staleAge := min Config.counterLimit (x.staleAge + 1) } }
  else s

/-- The idle timer at a step of the seconds counter (R205). -/
def State.advanceIdle (s : State) : State :=
  if s.idleCounts then { s with idle := min Config.idleLimitSeconds (s.idle + 1) } else s.holdIdle

/-- The idle timer has reached the idle limit (R205). -/
def State.idleOut (s : State) : Bool := s.idleCounts && decide (s.params.idleLimit * 60 ≤ s.idle)

/-- The entry stands in a segment that is not exempt (R74). -/
def State.unexempt (s : State) (x : Entry) : Bool :=
  match x.location with
  | some (.segment n) => (s.seg? n).any fun g => !g.exempt
  | _ => false

/-- R74: the check finds the entry stale by a stale limit. -/
def State.isStale (s : State) (limit : Nat) (x : Entry) : Bool :=
  s.mode == .run && !s.stopLatch && limit != 0 && x.state.checked && decide (limit < x.staleAge) && s.unexempt x

/-- What a step of the seconds counter leaves to be taken (R74, R170, R205; notes/assumptions/3.md). R74 gives no order to several
stale entries: that they are listed, and taken, by ascending entry number is the model's choice (notes/assumptions/50.md). -/
def State.dueNow (s : State) : Due where
  stale := s.entriesWhere (s.isStale s.params.staleLimit)
  staleLimit := s.params.staleLimit
  promote := (s.demand.filter (s.starves s.params.promotionLimit)).map fun i => (i.station, i.kind)
  promotionLimit := s.params.promotionLimit
  autoQuiet := s.idleOut

/-- SECONDS_TICK (R10, R74, R170, R205). -/
def execSecondsTick (s : State) : Host.Outcome State Fault Refusal :=
  let s := { s with seconds := s.seconds + 1 }.advanceAges.advanceIdle
  .next { s with due := s.dueNow }.refreshOutputs

/-- AUTO_QUIET: the idle timer has reached the idle limit (R204, R205, R207). -/
def execAutoQuiet (s : State) : Host.Outcome State Fault Refusal :=
  if s.due.autoQuiet then
    let s' := { s with due := { s.due with autoQuiet := false } }
    if s.idleOut then done s (s'.enterQuiet.raise .modeChange) else .next s'
  else .next s

end Sys2Proof.Machine
end

