-- ==== Sys2Proof/Machine/Track.lean ====
section
/-! DEFINITION. The track controller: routing (R37, R38), the gate cycle (R42 to R46), eyes (R31 to R34), jams (R47,
R48), segment holds (R49), the safety stop (R50, R51), the service step (R52), segment definition (R53, R54). -/

namespace Sys2Proof.Machine

/-! ### Routing -/

/-- The segment is the PARK a node owns. -/
def State.isParkOf (s : State) (p : SegNo) (n : NodeNo) : Bool :=
  (s.seg? p).any fun h => h.config.kind == .park && h.config.owner == some n

/-- R38: a RETURNING head in a CLEAN segment. -/
def State.routeClean (s : State) (g : Segment) (x : Entry) : Option Place :=
  match g.config.alternate with
  | none => g.config.successor
  | some a =>
    match s.seg? a with
    | none => g.config.successor
    | some h =>
      match x.assignment with
      | some n =>
        if h.config.kind = .park ∧ h.config.owner = some n ∧ h.jammed = false then some (.segment a)
        else g.config.successor
      | none =>
        if h.config.kind = .store ∧ h.config.storeKind = some x.tag.kind ∧ 1 ≤ h.freeSpace ∧ h.jammed = false then
          some (.segment a)
        else g.config.successor

/-- R37: the destination of a head; `none` holds the gate. -/
def State.route (s : State) (g : Segment) (x : Entry) : Option Place :=
  match g.config.kind, x.state with
  | .park, .loaded => g.config.successor
  | .collect, .loaded => g.config.successor
  | .entry, .queued => some .tunnel
  | .outfeed, .cleared => g.config.successor
  | .outfeed, .rewashDue => g.config.alternate.map .segment
  | .outfeed, .setAside => g.config.alternate.map .segment
  | .exit, .returning => g.config.successor
  | .exit, .rewashDue => g.config.alternate.map .segment
  | .exit, .setAside => g.config.alternate.map .segment
  | .clean, .returning => s.routeClean g x
  | .store, .returning => if x.assignment.isSome then g.config.successor else none
  | .rewash, .rewashDue => g.config.successor
  | .rewash, .setAside => g.config.alternate.map .segment
  | _, _ => none

/-- The move carries the entry's dispatch reservation: an assigned rack into its own PARK (R38, R43). -/
def State.carries (s : State) (x : Entry) (dest : Place) : Bool :=
  match dest, x.assignment with
  | .segment d, some n => s.isParkOf d n
  | _, _ => false

/-! ### Release and opening -/

/-- The tunnel entry conditions (R84). -/
def State.tunnelReady (s : State) : Bool :=
  match s.tunnel.config with
  | none => false
  | some c =>
    s.tunnel.machineRun && s.tunnel.washOk && !s.tunnel.machineFault && !s.tunnel.fault.isSome &&
    decide (s.tunnel.list.length < c.capacity) && decide (c.pitch ≤ s.tunnel.pitchCount) && s.tunnel.pace == 0

/-- The head of a segment with its record. -/
def State.headEntry (s : State) (g : Segment) : Option (EntryNo × Entry) :=
  g.queue.head?.bind fun e => (s.entry? e).map fun x => (e, x)

/-- The destination's own condition (R42, conditions 8 and 9). -/
def State.roomFor (s : State) (x : Entry) (dest : Place) : Except Result Place :=
  match dest with
  | .tunnel => if s.tunnelReady then .ok .tunnel else .error .tunnelClosed
  | .segment d =>
    match s.seg? d with
    | none => .error .noSpace
    | some h =>
      if h.jammed || (h.freeSpace == 0 && !s.carries x dest) then .error .noSpace else .ok dest

/-- The release conditions 2 to 9 of R42 for a segment's head, in the order of R52: the destination, or the result
that names the first that fails. -/
def State.releaseTest (s : State) (g : Segment) : Except Result Place :=
  if s.stopLatch then .error .stopped
  else if g.jammed then .error .jammed
  else
    match s.headEntry g with
    | none => .error .notArrived
    | some (_, x) =>
      if !g.headArrived || g.window != .closed then .error .notArrived
      else if g.isHeld || x.hold.isSome then .error .held
      else
        match s.route g x with
        | none => .error .noRoute
        | some dest => s.roomFor x dest

/-- A gate ready for a segment (R46): CLOSED, with every release condition met for that destination. -/
def State.readyFor (s : State) (n d : SegNo) : Bool :=
  match s.seg? n with
  | none => false
  | some g =>
    !g.isOpen &&
      match s.releaseTest g with
      | .ok dest => dest == .segment d
      | .error _ => false

/-- The upstream numbers in the arbiter's order: from the number after the merge pointer, wrapping from 31 to 0. -/
def mergeOrder (pointer : SegNo) : List SegNo := (List.finRange 32).map fun i => pointer + 1 + i

/-- The gate the arbiter of `d` grants next (R46). -/
def State.arbiterPick (s : State) (d : SegNo) : Option SegNo :=
  match s.seg? d with
  | none => none
  | some h => (mergeOrder h.mergePointer).find? fun n => s.readyFor n d

/-- The extra tick of the trim pattern at a position (R86). -/
def trimTick (trim position : Nat) : Nat := if (position - 1) * trim / 16 < position * trim / 16 then 1 else 0

/-- The reload of the pace counter at an ENTRY opening (R86). -/
def Tunnel.reloadPace (t : Tunnel) : Tunnel :=
  match t.config with
  | none => t
  | some c =>
    { t with pace := c.paceBase + trimTick c.trim t.trimPosition, tickMs := 0,
             trimPosition := if t.trimPosition < 16 then t.trimPosition + 1 else 1 }

/-- R43: the gate of `n` opens toward `dest`. -/
def State.openGate (s : State) (n : SegNo) (dest : Place) : State :=
  match s.seg? n with
  | none => s
  | some g =>
    let carried := (s.headEntry g).any fun (_, x) => s.carries x dest
    let s := s.updSeg n fun g => { g with transfer := some ⟨dest, carried, s.params.clearLimit⟩ }
    let s :=
      match dest with
      | .tunnel => s
      | .segment d =>
        s.updSeg d fun h =>
          { h with reservedTransfer := if carried then h.reservedTransfer else h.reservedTransfer + 1,
                   mergePointer := n }
    let s := if g.config.kind = .entry then { s with tunnel := s.tunnel.reloadPace } else s
    s.touchIdle

/-! ### Departure -/

/-- State on arrival by departure (R40). -/
def arrivalState (kind : SegKind) (st : RackState) : RackState :=
  match kind with
  | .entry => .queued
  | .store => .stored
  | .park => .staged
  | .clean => .returning
  | .aside => .setAside
  | .collect | .rewash | .outfeed | .exit => st

/-- The record of an entry that arrives in a segment by departure (R40, R44). -/
def Entry.arrive (x : Entry) (n : SegNo) (kind : SegKind) (now : BitVec 32) : Entry :=
  ({ x.withState (arrivalState kind x.state) with
      location := some (.segment n), placed := false,
      assignment := if kind = SegKind.park then none else x.assignment }).refresh now

/-- The record of an entry that departs into the tunnel (R87). -/
def Entry.enterTunnel (x : Entry) (encoder : BitVec 24) (now : BitVec 32) : Entry :=
  { x with
    location := some .tunnel
    state := .washing
    passes := min Config.counterLimit (x.passes + 1)
    verdict := .none
    pass := some { mark := encoder, dwell := 0, dropoutTimer := 0, dropoutMark := false, overLimit := false, fixed := .no }
    placed := false
    lastConfirmed := now
    staleAge := 0 }

/-- R87: the tunnel tracker takes the departing entry. -/
def State.enterTunnel (s : State) (e : EntryNo) : State :=
  { s with tunnel := { s.tunnel with list := s.tunnel.list ++ [e], pitchCount := 0 } }.updEntry e
    fun x => x.enterTunnel s.tunnel.encoder s.seconds

/-- The entry joins the segment it departed to (R40, R44). -/
def State.arriveAt (s : State) (e : EntryNo) (d : SegNo) : State :=
  match s.seg? d with
  | none => s
  | some h =>
    ((s.updEntry e fun x => x.arrive d h.config.kind s.seconds).raiseIf (h.config.kind == .aside) .asideReached).appendTo
      d e

/-- R44: the head of an OPEN gate departs. -/
def State.depart (s : State) (n : SegNo) : State :=
  match s.seg? n with
  | none => s
  | some g =>
    match g.transfer, g.queue.head? with
    | some t, some e =>
      let s := s.updSeg n fun g =>
        { g.unvouch with queue := g.queue.tail, transfer := none, headArrived := false, window := .closed }
      match t.dest with
      | .tunnel => s.enterTunnel e
      | .segment d =>
        (s.updSeg d fun h =>
          if t.carried then { h with reservedDispatch := h.reservedDispatch - 1 }
          else { h with reservedTransfer := h.reservedTransfer - 1 }).arriveAt e d
    | _, _ => s

/-! ### Eye events -/

/-- R32: the eye of segment `n` blocks. -/
def State.eyeBlocks (s : State) (n : SegNo) : State :=
  match s.seg? n with
  | none => s
  | some g =>
    if g.jammed then s
    else if !g.queue.isEmpty then s.setHeadArrived n
    else if s.inbound n then s.updSeg n fun g => { g with unresolved := true }
    else s.untrackedArrival n

/-- The clearing of an eye closes an UNTRACKED window (R63) and ends a blocking held unresolved. -/
def Segment.eyeCleared (g : Segment) : Segment :=
  { g with unresolved := false, window := match g.window with | .untracked _ _ => .closed | w => w }

/-- R33: the eye of segment `n` clears. -/
def State.eyeClears (s : State) (n : SegNo) : State :=
  match s.seg? n with
  | none => s
  | some g =>
    let s := s.updSeg n Segment.eyeCleared
    if g.isOpen then s.depart n
    else if g.jammed then s
    else if g.headArrived then
      match g.queue.head? with
      | some e => s.declareMissing e .lifted
      | none => s
    else s

/-- The segments that read an eye input. -/
def State.readersOf (s : State) (input : LineNo) : List SegNo := s.segsWhere fun g => g.config.eye == input

/-- An eye event on a COLLECT or PARK segment is a wake event (R31, R206). -/
def State.wakesBy (s : State) (input : LineNo) : Bool :=
  !(s.segsWhere fun g => g.config.eye == input && (g.config.kind == .collect || g.config.kind == .park)).isEmpty

/-- EYE_BLOCK (R31, R32, R206). An input already taken as blocked gives no event. -/
def execEyeBlock (input : LineNo) (s : State) : Host.Outcome State Fault Refusal :=
  if s.eyes.get input then .next s
  else
    let s' := { s with eyes := s.eyes.set input true }.forEach State.eyeBlocks (s.readersOf input)
    done s (if s.wakesBy input then s'.wake true else s')

/-- EYE_CLEAR (R31, R33, R206). An input already taken as clear gives no event. -/
def execEyeClear (input : LineNo) (s : State) : Host.Outcome State Fault Refusal :=
  if s.eyes.get input then
    let s' := { s with eyes := s.eyes.set input false }.forEach State.eyeClears (s.readersOf input)
    done s (if s.wakesBy input then s'.wake true else s')
  else .next s

/-! ### Gates -/

/-- The destination toward which the gate of `n` may open in RUN: every release condition holds and the destination's
arbiter grants it; the tunnel has no arbiter (R42, R46). -/
def State.mayOpen (s : State) (n : SegNo) : Option Place :=
  match s.seg? n with
  | none => none
  | some g =>
    if s.mode = .run ∧ g.isOpen = false then
      match s.releaseTest g with
      | .ok (.segment d) => if s.arbiterPick d = some n then some (.segment d) else none
      | .ok .tunnel => some .tunnel
      | .error _ => none
    else none

/-- GATE_OPEN (R42, R43, R46). -/
def execGateOpen (n : SegNo) (s : State) : Host.Outcome State Fault Refusal :=
  match s.mayOpen n with
  | some dest => done s (s.openGate n dest)
  | none => .next s

/-- The transfer of `n` jams, or its segment is jammed by an overrun (R47, R91). -/
def State.jamSegment (s : State) (n : SegNo) : State :=
  ((s.updSeg n fun g => { g with jammed := true }).endTransfer n).raise .jam

/-- A transfer can jam: its gate is OPEN with the eye blocked, and its timer runs (R47, R50). -/
def State.canJam (s : State) (n : SegNo) : Bool := (s.seg? n).any Segment.isOpen && s.eyeBlocked n && !s.stopLatch

/-- JAM: the transfer timer runs out (R47). -/
def execJam (n : SegNo) (s : State) : Host.Outcome State Fault Refusal :=
  if s.canJam n then done s (s.jamSegment n) else .next s

/-- STEP (R52). -/
def stepTaken (s : State) (n : SegNo) (g : Segment) : Taken :=
  if g.isOpen then tell .busy
  else
    match s.releaseTest g with
    | .error r => tell r
    | .ok dest => .did (s.openGate n dest) noBody

/-- STEP in its order: the range, the mode, the segment, the gate, the release conditions (R52). -/
def execStep (seg : Byte) (s : State) (more : List Byte := []) : Host.Outcome State Fault Refusal :=
  portDo (.stepGate seg more)
    (fun s =>
      if (segOfByte seg).isSome ∧ s.mode ≠ .service then tell .mode else onSegment seg stepTaken s) s

/-! ### CLEAR_JAM and RESUME, for both sources (R48, R51, R160) -/

/-- R48 on a JAMMED segment. -/
def State.clearJam (s : State) (n : SegNo) (g : Segment) : State :=
  let s' := s.updSeg n fun g => { g with jammed := false }
  if s.eyeBlocked n then
    if !g.queue.isEmpty && !g.headArrived && !g.stranger.isSome then s'.setHeadArrived n else s'
  else
    match g.headArrived, g.queue.head? with
    | true, some e => s'.declareMissing e .jamCleared
    | _, _ => s'

/-- RESUME's clearing of the stop latch: every in-use entry's stale age becomes 0 (R51, R75). -/
def State.resume (s : State) : State :=
  { s with stopLatch := false }.forEach (fun s e => s.updEntry e fun x => { x with staleAge := 0 })
    (List.finRange 128)

/-! ### Segment holds and the safety stop -/

/-- SEGMENT_HOLD (R49). -/
def execSegmentHold (seg : Byte) (s : State) (more : List Byte := []) : Host.Outcome State Fault Refusal :=
  portDo (.segmentHold seg more)
    (onSegment seg fun s n _ => .did (s.updSeg n fun g => { g with heldBySupervisor := true }) noBody) s

/-- SEGMENT_RELEASE (R49). -/
def execSegmentRelease (seg : Byte) (s : State) (more : List Byte := []) : Host.Outcome State Fault Refusal :=
  portDo (.segmentRelease seg more)
    (onSegment seg fun s n _ => .did (s.updSeg n fun g => { g with heldBySupervisor := false }) noBody) s

/-- SAFE_STOP: an assertion sets the stop latch and raises SAFETY_STOP each time; a deassertion is recorded and clears
nothing (R50). -/
def execSafeStop (asserted : Bool) (s : State) : Host.Outcome State Fault Refusal :=
  if asserted then done s ({ s with safeStop := true, stopLatch := true }.raise .safetyStop)
  else .next { s with safeStop := false }

/-! ### Defining segments -/

/-- The running fields at definition (R28, R61). -/
def Segment.new (c : SegConfig) : Segment where
  config := c
  queue := []
  reservedTransfer := 0
  reservedDispatch := 0
  transfer := none
  headArrived := false
  jammed := false
  heldBySupervisor := false
  stranger := none
  mergePointer := 31
  window := .closed
  unresolved := false

/-- A definition or redefinition (R53, R54, R78). -/
def defineTaken (s : State) (n : SegNo) (f : SegFields) : Taken :=
  if s.mode ≠ .configure then tell .mode
  else if f.consistent n = false then tell .badRequest
  else
    match s.seg? n with
    | none => .did (s.putSeg n (some (Segment.new f.config))) noBody
    | some g =>
      if (!g.queue.isEmpty && g.config.kind != f.kind) || decide (f.capacity < g.queue.length) then tell .occupied
      else .did (s.putSeg n (some { g with config := f.config, mergePointer := 31, window := .closed })) noBody

/-- A removal (R54). -/
def undefineTaken (s : State) (n : SegNo) : Taken :=
  if s.mode ≠ .configure then tell .mode
  else if (s.seg? n).any fun g => !g.queue.isEmpty then tell .occupied
  else .did (s.putSeg n none) noBody

/-- DEFINE_SEGMENT (R53, R54). -/
def execDefineSegment (number : Byte) (fields : Option RawSegment) (s : State) (more : List Byte := []) :
    Host.Outcome State Fault Refusal :=
  portDo (.defineSegment number fields more)
    (fun s =>
      match segOfByte number, fields with
      | none, _ => tell .badRequest
      | some n, none => undefineTaken s n
      | some n, some raw =>
        match segFields raw with
        | none => tell .badRequest
        | some f => defineTaken s n f) s

end Sys2Proof.Machine
end

