-- ==== Sys2Proof/Machine/Requests.lean ====
section
/-! DEFINITION. The request engine: the tests of R146, each rack request (R151 to R160), stations (R141 to R147) and
the supervisor (R164). -/

namespace Sys2Proof.Machine

/-! ### Judging -/

/-- What a request comes to: an answer without a change, or a change answered DONE. A summary is read off the state
at the end of the step (R145). -/
inductive Judged where
  | told (r : Result) (summary : Option Summary)
  | did (s : State) (summary : State → Option Summary)

/-- An answer without summary. -/
def plain (r : Result) : Judged := .told r none

/-- An answer that names an entry, unchanged. -/
def State.about (s : State) (r : Result) (e : EntryNo) : Judged := .told r (s.summary? (some e))

/-- A change to the record of an entry, answered DONE with its summary. -/
def State.change (s : State) (e : EntryNo) (f : Entry → Entry) : Judged :=
  .did (s.updEntry e f) fun s => s.summary? (some e)

/-! ### Rights (Table 7-1) -/

/-- A hold reason a station may use: INSPECT, or none given (R157, R158). -/
def stationReason (r : Option HoldReason) : Bool := r != some .supervisor

/-- The role holds the right to the request (R146, third test). -/
def Role.may (role : Role) (q : Request) : Bool :=
  match role, q with
  | _, .lookup _ => true
  | .load _, .onRack .send _ _ => true
  | .unload, .onRack .claim _ _ => true
  | .unload, .onRack .unloadDone _ _ => true
  | .unload, .onRack .rewash _ _ => true
  | .unload, .onRack .release _ _ => true
  | .unload, .onRack (.hold r) _ _ => stationReason r
  | .unload, .onRack (.unhold r) _ _ => stationReason r
  | .floor, .onRack (.hold r) _ _ => stationReason r
  | .floor, .onRack (.unhold r) _ _ => stationReason r
  | .floor, .clearJam _ => true
  | .floor, .resume => true
  | _, _ => false

/-- The supervisor's rights (R164). -/
def supervisorMay : Request → Bool
  | .lookup _ => true
  | .onRack (.hold _) _ _ => true
  | .onRack (.unhold _) _ _ => true
  | .onRack .forceRelease _ _ => true
  | .clearJam _ => true
  | .resume => true
  | _ => false

/-! ### SEND and CLAIM -/

/-- R152: the rack stands in the node's own park as STAGED. -/
def State.mayBeSent (s : State) (n : NodeNo) (x : Entry) : Bool :=
  x.state == .staged && match s.parkOf n, x.location with
    | some p, some (.segment m) => p == m
    | _, _ => false

/-- R152. -/
def doSend (s : State) (n : NodeNo) (e : EntryNo) (x : Entry) : Judged :=
  if s.mayBeSent n x then s.change e fun y => y.withState .loaded else s.about .notHere e

/-- The entry stands in EXIT within the unload reach (R153). -/
def State.withinReach (s : State) (e : EntryNo) (x : Entry) : Bool :=
  match x.location with
  | some (.segment m) =>
    (s.seg? m).any fun g =>
      g.config.kind == .exit && g.queue.contains e && decide (positionIn g.queue e ≤ g.config.reach)
  | _ => false

/-- R153. -/
def doClaim (s : State) (n : NodeNo) (e : EntryNo) (x : Entry) : Judged :=
  if x.state = .unloading then (if x.claim = some n then s.about .done e else s.about .claimed e)
  else if x.state = .cleared ∧ s.withinReach e x = true then
    s.change e fun y => { y with state := .unloading, claim := some n }
  else s.about .notHere e

/-! ### The claim holder's requests -/

/-- R154 to R156: the request is the claim holder's, else CLAIMED or NOT_HERE. -/
def holderOnly (s : State) (n : NodeNo) (e : EntryNo) (x : Entry) (act : Judged) : Judged :=
  if x.state ≠ .unloading then s.about .notHere e
  else if x.claim = some n then act
  else s.about .claimed e

/-- The record as UNLOAD_DONE leaves it (R154). -/
def Entry.unloaded (x : Entry) : Entry :=
  { x with claim := none, state := .returning, assignment := none, rewashes := 0, staleAge := 0 }

/-- R174: the newly returned rack is offered to the dispatcher. -/
def State.offerReturned (s : State) (e : EntryNo) (x : Entry) : State :=
  if x.hold.isSome then s
  else
    match s.bestItem x.tag.kind with
    | some i => s.assign e i
    | none => s

/-- R154, R174. The summary shows the rack before the dispatcher's assignment. -/
def doUnloadDone (s : State) (e : EntryNo) (x : Entry) : Judged :=
  let s' := s.updEntry e Entry.unloaded
  .did (s'.offerReturned e x) fun _ => s'.summary? (some e)

/-- The rewash step (R112). -/
def Entry.rewashStep (x : Entry) (limit : Nat) : Entry :=
  { x.withState (if overLimit limit x.rewashes then .setAside else .rewashDue) with
      claim := none, rewashes := raiseRewash x.rewashes }

/-- R155. -/
def doRewash (s : State) (e : EntryNo) : Judged := s.change e fun y => y.rewashStep s.params.rewashLimit

/-- The claim is dropped and the state becomes CLEARED (R156, R159). -/
def Entry.unclaim (x : Entry) : Entry := { x with claim := none, state := .cleared }

/-! ### HOLD, UNHOLD, FORCE_RELEASE -/

/-- The ranking of R6 and R157. -/
def rankHold (held : Option HoldReason) (asked : HoldReason) : HoldReason :=
  match held with
  | some .supervisor => .supervisor
  | _ => asked

/-- The entry is the arrived head of a CLOSED gate (R39, R45). -/
def State.arrivedHead (s : State) (e : EntryNo) (x : Entry) : Bool :=
  match x.location with
  | some (.segment m) => (s.seg? m).any fun g => g.headArrived && !g.isOpen && g.queue.head? == some e
  | _ => false

/-- R157. No reason given is taken as INSPECT (notes/assumptions/36.md). -/
def doHold (s : State) (e : EntryNo) (x : Entry) (reason : Option HoldReason) : Judged :=
  if x.state = .missing then s.about .notHere e
  else
    .did ((s.updEntry e fun y => { y with hold := some (rankHold y.hold (reason.getD .inspect)) }).raiseIf
      (!x.hold.isSome && s.arrivedHead e x) .holdReached) fun s => s.summary? (some e)

/-- The request comes from a station. -/
def fromStation (src : Source) : Bool :=
  match src with
  | .supervisor _ => false
  | .station _ => true

/-- R158. -/
def doUnhold (s : State) (src : Source) (e : EntryNo) (x : Entry) : Judged :=
  if x.state = .missing then s.about .notHere e
  else if x.hold = none then s.about .done e
  else if x.hold = some .supervisor ∧ fromStation src = true then s.about .notAllowed e
  else s.change e fun y => { y with hold := none }

/-- R159. -/
def doForceRelease (s : State) (e : EntryNo) (x : Entry) : Judged :=
  if x.state = .unloading then s.change e Entry.unclaim else s.about .done e

/-! ### The order of tests -/

/-- R150: SEND, CLAIM, UNLOAD_DONE, REWASH and RELEASE refuse an entry in the tunnel and a MISSING one. -/
def refusePassOrMissing (s : State) (e : EntryNo) (x : Entry) (act : Judged) : Judged :=
  if x.state = .washing then s.about .inPass e
  else if x.state = .missing then s.about .notHere e
  else act

/-- The request's own rule for the entry it names (R146, sixth test). -/
def onEntry (s : State) (src : Source) (op : RackOp) (e : EntryNo) (x : Entry) : Judged :=
  match op, src with
  | .hold reason, _ => doHold s e x reason
  | .unhold _, src => doUnhold s src e x
  | .forceRelease, _ => doForceRelease s e x
  | .send, .station n => refusePassOrMissing s e x (doSend s n e x)
  | .claim, .station n => refusePassOrMissing s e x (doClaim s n e x)
  | .unloadDone, .station n => refusePassOrMissing s e x (holderOnly s n e x (doUnloadDone s e x))
  | .rewash, .station n => refusePassOrMissing s e x (holderOnly s n e x (doRewash s e))
  | .release, .station n => refusePassOrMissing s e x (holderOnly s n e x (s.change e Entry.unclaim))
  | _, .supervisor _ => plain .notAllowed

/-- The fifth test and what follows it (R149). -/
def testExpected (s : State) (src : Source) (op : RackOp) (expected : Option RackState) (e : EntryNo) : Judged :=
  match s.entry? e with
  | none => plain .notFound
  | some x =>
    if expected.any fun st => st != x.state then s.about .mismatch e else onEntry s src op e x

/-- SEND without a tag names the head of the node's own park (R152). -/
def State.sendHead (s : State) (src : Source) : Option EntryNo :=
  match src with
  | .supervisor _ => none
  | .station n => ((s.parkOf n).bind s.seg?).bind fun g => g.queue.head?

/-- The fourth test of R146 and what follows it. -/
def carryOut (s : State) (src : Source) (q : Request) : Judged :=
  match q with
  | .lookup t =>
    match s.find t with
    | none => plain .notFound
    | some e => s.about .done e
  | .onRack op (some t) expected =>
    match s.find t with
    | none => plain .notFound
    | some e => testExpected s src op expected e
  | .onRack op none expected =>
    match s.sendHead src with
    | none => plain .notHere
    | some e => testExpected s src op expected e
  | .clearJam n =>
    match s.seg? n with
    | none => plain .notFound
    | some g => if g.jammed then .did (s.clearJam n g) fun _ => none else plain .done
  | .resume =>
    if s.safeStop then plain .stopActive
    else if s.stopLatch then .did s.resume fun _ => none
    else plain .done

/-- The request is LOOKUP. -/
def Request.isLookup : Request → Bool
  | .lookup _ => true
  | _ => false

/-- Tests 2 and 3 of R146 for a station of a role, and what follows them. -/
def judgeStation (s : State) (n : NodeNo) (role : Role) (q : Request) : Judged :=
  if s.mode = .configure ∧ q.isLookup = false then plain .mode
  else if role.may q then carryOut s (.station n) q
  else plain .notAllowed

/-- The supervisor's tests (R164). The bytes clocked beyond a message play no part in them (R185). -/
def judgeSupervisor (s : State) (q : Request) : Judged :=
  if supervisorMay q then carryOut s (.supervisor []) q else plain .notAllowed

/-! ### Requests of stations -/

/-- An answer joins the tail of the answer queue (R144). -/
def State.queueAnswer (s : State) (n : NodeNo) (q : RackRequest) (r : Result) (m : Option Summary) : State :=
  { s with answers := s.answers ++
      [{ node := n, kind := q.kind, argument := q.argument, result := r,
         badMark := (s.node? n).any (·.badRequest), summary := m }] }

/-- R147: a malformed request. -/
def State.takeMalformed (s : State) (n : NodeNo) (q : RackRequest) : State :=
  ((s.updNode n fun x => { x with badRequest := true }).raise .badRequest).queueAnswer n q .badRequest none

/-- The request is carried out and answered (R141, R145). -/
def State.carryStation (s : State) (n : NodeNo) (role : Role) (q : RackRequest) : State :=
  match RackRequest.parse q with
  | none => s.takeMalformed n q
  | some r =>
    match judgeStation s n role r with
    | .told result m => s.queueAnswer n q result m
    | .did s' m =>
      let s'' := State.settle s s'
      s''.queueAnswer n q .done (m s'')

/-- R141, R142: a request of a node is taken. -/
def State.takeRequest (s : State) (n : NodeNo) (q : RackRequest) : State :=
  match s.node? n with
  | none => s
  | some x =>
    if x.request.isSome then s.updNode n fun y => { y with overrun := true }
    else ((s.updNode n fun y => { y with request := some q }).touchIdle).carryStation n x.role q

/-- The reply windows of a round run: only then are replies received (R117, R142). -/
def State.listens (s : State) : Bool :=
  match s.link.phase with
  | .windows _ => true
  | _ => false

/-- A station's request can be taken: its node is PRESENT and the reply windows of a round run (R117, R141, R142), in QUIET
those of the closing round (R148). -/
def State.hears (s : State) (n : NodeNo) : Bool := (s.node? n).any (fun x => x.presence == .present) && s.listens

/-! ### One request of either source -/

/-- The argument of a request, as the echo of a port answer repeats it (R145, R164). -/
def argumentBytes : Argument → List Byte
  | .none => []
  | .tag t => t.bytes
  | .segment n => [n]

/-- The body of the answer to a supervisor's request: the argument of the echo, then the summary (R145, R164;
notes/assumptions/29.md). -/
def echoBody (q : RackRequest) (m : Option Summary) : List Byte := argumentBytes q.argument ++ (m.map Summary.bytes).getD []

/-- The supervisor's request as the port takes it (R164). -/
def supervisorTaken (q : RackRequest) (s : State) : Taken :=
  match RackRequest.parse q with
  | none => .told .badRequest fun _ => echoBody q none
  | some r =>
    match judgeSupervisor s r with
    | .told result m => .told result fun _ => echoBody q m
    | .did s' m => .did s' fun s => echoBody q (m s)

/-- A rack request from its source (R141, R164). A station's, taken in the closing round, wakes (R206). -/
def rackCommand (c : Instr) (src : Source) (q : RackRequest) (s : State) : Host.Outcome State Fault Refusal :=
  match src with
  | .supervisor _ => portDo c (supervisorTaken q) s
  | .station n => if s.hears n then .next ((s.takeRequest n q).wake true).refreshOutputs else .next s

/-- LOOKUP (R151). -/
def execLookup (src : Source) (t : Tag) (s : State) : Host.Outcome State Fault Refusal :=
  rackCommand (.lookup src t) src ⟨1, .tag t, none, none⟩ s

/-- SEND (R152). -/
def execSend (src : Source) (t : Option Tag) (expected : Option Byte) (s : State) : Host.Outcome State Fault Refusal :=
  rackCommand (.send src t expected) src ⟨2, (t.map Argument.tag).getD .none, expected, none⟩ s

/-- CLAIM (R153). -/
def execClaim (src : Source) (t : Tag) (expected : Option Byte) (s : State) : Host.Outcome State Fault Refusal :=
  rackCommand (.claim src t expected) src ⟨3, .tag t, expected, none⟩ s

/-- UNLOAD_DONE (R154). -/
def execUnloadDone (src : Source) (t : Tag) (expected : Option Byte) (s : State) : Host.Outcome State Fault Refusal :=
  rackCommand (.unloadDone src t expected) src ⟨4, .tag t, expected, none⟩ s

/-- REWASH (R155). -/
def execRewash (src : Source) (t : Tag) (expected : Option Byte) (s : State) : Host.Outcome State Fault Refusal :=
  rackCommand (.rewash src t expected) src ⟨5, .tag t, expected, none⟩ s

/-- RELEASE (R156). -/
def execRelease (src : Source) (t : Tag) (expected : Option Byte) (s : State) : Host.Outcome State Fault Refusal :=
  rackCommand (.release src t expected) src ⟨6, .tag t, expected, none⟩ s

/-- HOLD (R157). -/
def execHold (src : Source) (t : Tag) (expected reason : Option Byte) (s : State) : Host.Outcome State Fault Refusal :=
  rackCommand (.hold src t expected reason) src ⟨7, .tag t, expected, reason⟩ s

/-- UNHOLD (R158). -/
def execUnhold (src : Source) (t : Tag) (expected reason : Option Byte) (s : State) :
    Host.Outcome State Fault Refusal :=
  rackCommand (.unhold src t expected reason) src ⟨8, .tag t, expected, reason⟩ s

/-- FORCE_RELEASE (R159). -/
def execForceRelease (src : Source) (t : Tag) (expected : Option Byte) (s : State) :
    Host.Outcome State Fault Refusal :=
  rackCommand (.forceRelease src t expected) src ⟨11, .tag t, expected, none⟩ s

/-- CLEAR_JAM (R48, R160). -/
def execClearJam (src : Source) (seg : Byte) (s : State) : Host.Outcome State Fault Refusal :=
  rackCommand (.clearJam src seg) src ⟨9, .segment seg, none, none⟩ s

/-- RESUME (R51, R160). -/
def execResume (src : Source) (s : State) : Host.Outcome State Fault Refusal :=
  rackCommand (.resume src) src ⟨10, .none, none, none⟩ s

end Sys2Proof.Machine
end

