-- ==== Sys2Proof/Machine/Sightings.lean ====
section
/-! DEFINITION. The sighting reconciler: reports (R59, R60), confirmation (R64), relocation (R65 to R68), unknown
tags (R69, R70), windows that run out (R62), CLEAR_STRANGER (R73), stale records (R74). -/

namespace Sys2Proof.Machine

/-- A report at the gate of `n` is acted on (R60). -/
def State.reportActs (s : State) (n : SegNo) : Bool :=
  match s.seg? n with
  | none => false
  | some g => s.eyeBlocked n && !g.isOpen && !(g.queue.isEmpty && s.inbound n)

/-! ### Confirmation -/

/-- The window is a HEAD window that awaits the entry. -/
def Window.awaits (w : Window) (e : EntryNo) : Bool :=
  match w with
  | .head _ awaited _ => awaited == e
  | _ => false

/-- The entry becomes the vouched entry of a stranger record (R72). -/
def Segment.vouch (g : Segment) (e : EntryNo) : Segment :=
  { g with stranger := g.stranger.map fun r => { r with vouched := some e } }

/-- R64: the first tag names the head. -/
def State.confirmHead (s : State) (n : SegNo) (e : EntryNo) : State :=
  (s.updEntry e fun x => x.confirm s.seconds).updSeg n fun g =>
    { g.vouch e with window := if g.window.awaits e then .closed else g.window }

/-! ### Relocation -/

/-- The verdict FAIL with cause MISTRACK at relocation out of the tunnel, unless PASS was fixed (R65). -/
def Entry.mistrack (x : Entry) : Entry :=
  match x.pass with
  | none => x
  | some p =>
    if p.fixed = .pass then x
    else { x with verdict := .fail .mistrack p.dwell p.dropoutMark, rewashes := raiseRewash x.rewashes }

/-- The rise at relocation out of the tunnel is over the limit (R110). -/
def Entry.mistrackExceeds (x : Entry) (limit : Nat) : Bool :=
  x.location == some .tunnel && x.pass.any fun p => p.fixed != .pass && overLimit limit x.rewashes

/-- R65, X in a segment other than the one it was sighted at, or deeper in it: removal, and the new head taken as
arrived at once where the rack at the pawl is not X's. -/
def State.pullFrom (s : State) (m : SegNo) (e : EntryNo) : State :=
  match s.seg? m with
  | none => s
  | some g =>
    let s' := s.removeFromSegment m e
    if g.queue.head? == some e && g.headArrived && !g.isOpen && !g.stranger.isSome && s.eyeBlocked m then
      s'.setHeadArrived m
    else s'

/-- R65: X leaves the place the record held it in. -/
def State.takeOut (s : State) (e : EntryNo) (x : Entry) : State :=
  match x.location with
  | some (.segment m) => s.pullFrom m e
  | some .tunnel => (s.updEntry e Entry.mistrack).removeFromTunnel e
  | none => s

/-- R65: X leaves the place the record held it in; its assignment is cleared with the reservation. -/
def State.pull (s : State) (e : EntryNo) (x : Entry) : State := (s.takeOut e x).releaseAssignment e

/-- R66: the entry is inserted at the head of `n`, placed, arrived and, at a stranger, vouched for. The former head is no
longer the arrived head. -/
def State.insertHead (s : State) (e : EntryNo) (n : SegNo) (prior : Option RackState) (exceeded : Bool) : State :=
  ((s.updSeg n fun g => { g.vouch e with queue := e :: g.queue, window := .closed, headArrived := false }).placeEntry e n
    prior exceeded).setHeadArrived n

/-- R67: a passed entry gains 1, or is declared MISSING. -/
def State.passEntry (s : State) (e : EntryNo) : State :=
  match s.entry? e with
  | none => s
  | some x =>
    if x.overtaken = 0 then s.updEntry e fun y => { y with overtaken := 1 } else s.declareMissing e .overtaken

/-- R68: displacement of the tail of a segment carried over its capacity. In a queue of one, carried over by dispatch
reservations alone, the tail is the sighted entry itself (notes/assumptions/38.md). -/
def State.displace (s : State) (n : SegNo) : State :=
  match s.seg? n with
  | none => s
  | some g =>
    if g.config.capacity < g.queue.length + (g.reservedTransfer + g.reservedDispatch) then
      match g.queue.getLast? with
      | some e => s.declareMissing e .overtaken
      | none => s
    else s

/-- The entries expected at the gate of `n` before `e` (R67). -/
def State.passedBy (s : State) (n : SegNo) (e : EntryNo) : List EntryNo :=
  match s.seg? n with
  | none => []
  | some g => g.queue.takeWhile (· != e)

/-- R65 to R68, in this order. -/
def State.relocate (s : State) (n : SegNo) (e : EntryNo) : State :=
  match s.entry? e with
  | none => s
  | some x =>
    let prior := (x.missing.map (·.prior)).getD x.state
    let exceeded := x.mistrackExceeds s.params.rewashLimit
    (((s.pull e x).insertHead e n (some prior) exceeded).forEach State.passEntry (s.passedBy n e)).displace n

/-! ### Unknown tags -/

/-- R76: the tag has given `n` the reason STRANGER that it holds, and stays a stranger there until CLEAR_STRANGER
(notes/assumptions/39.md). -/
def State.strangerTag (s : State) (n : SegNo) (t : Tag) : Bool := (s.seg? n).any fun g => g.strangerTags.contains t

/-- R69, R76: the tag may be auto-admitted at `n`, as this entry. -/
def State.autoEntry (s : State) (n : SegNo) (t : Tag) : Option EntryNo :=
  if s.params.autoAdmission && (s.seg? n).any (fun g => g.config.kind == .collect || g.config.kind == .park) &&
      !s.strangerTag n t then
    s.freeList.head?
  else none

/-- R69. -/
def State.autoAdmit (s : State) (n : SegNo) (e : EntryNo) (t : Tag) : State :=
  (((s.takeFree e t).insertHead e n none false).forEach State.passEntry (s.passedBy n e)).displace n

/-- R70: an unknown tag makes the segment a stranger's. -/
def State.strangerSeen (s : State) (n : SegNo) (t : Tag) : State :=
  let first := !(s.seg? n).any (·.stranger.isSome)
  (s.addStranger n (some t)).raiseIf (first && s.params.autoAdmission && s.freeList.isEmpty) .tableFull

/-! ### Reports -/

/-- The first tag of a report acted on, reconciled in full (R60). -/
def State.firstTag (s : State) (n : SegNo) (t : Tag) : State :=
  match s.find t with
  | some e => if (s.seg? n).any (·.queue.head? == some e) then s.confirmHead n e else s.relocate n e
  | none =>
    match s.autoEntry n t with
    | some e => s.autoAdmit n e t
    | none => s.strangerSeen n t

/-- The second tag, taken after the first (R60): it confirms the entry at position 2. -/
def State.secondTag (s : State) (n : SegNo) (first t : Tag) : State :=
  if t = first ∨ s.find first = none then s
  else
    match s.find t with
    | none => s
    | some e => if (s.seg? n).any (·.queue[1]? == some e) then s.updEntry e fun x => x.confirm s.seconds else s

/-- One report of the reader bound to a segment (R59, R60). -/
def State.report (s : State) (node : NodeNo) (tags : List Tag) : State :=
  match s.gateOfReader node with
  | none => s
  | some n =>
    if s.reportActs n then
      match tags with
      | [] => s
      | [t] => s.firstTag n t
      | t :: t' :: _ => (s.firstTag n t).secondTag n t t'
    else s

/-! ### Windows that run out -/

/-- R62, R71: the window of `n` has counted its rounds. -/
def State.windowRunsOut (s : State) (n : SegNo) : Option State :=
  match (s.seg? n).map Segment.window with
  | some (Window.head 0 e _) => some ((s.updEntry e fun x => { x with confirmed := false }).closeWindow n)
  | some (Window.untracked 0 _) => some (s.addStranger n none)
  | _ => none

/-- SIGHTING_WINDOW_RUN_OUT (R62, R71). -/
def execSightingWindowRunOut (n : SegNo) (s : State) : Host.Outcome State Fault Refusal :=
  match s.windowRunsOut n with
  | some s' => done s s'
  | none => .next s

/-! ### Clearing a stranger -/

/-- R73: the rack at the pawl is gone, or known to the record. -/
def State.strangerMayGo (s : State) (n : SegNo) (g : Segment) (r : StrangerRecord) : Bool :=
  !s.eyeBlocked n || (g.headArrived && r.vouched.isSome && g.queue.head? == r.vouched)

/-- R73. -/
def clearStrangerTaken (s : State) (n : SegNo) (g : Segment) : Taken :=
  match g.stranger with
  | none => tell .done
  | some r =>
    if s.strangerMayGo n g r then .did (s.updSeg n fun g => { g with stranger := none }) noBody else tell .notClear

/-- CLEAR_STRANGER (R73). -/
def execClearStranger (seg : Byte) (s : State) (more : List Byte := []) : Host.Outcome State Fault Refusal :=
  portDo (.clearStranger seg more) (onSegment seg clearStrangerTaken) s

/-! ### Stale records -/

/-- STALE: an entry the last step of the seconds counter found stale is declared MISSING, if it still is by the limit of
that step (R74, R76, R77). -/
def execStale (e : EntryNo) (s : State) : Host.Outcome State Fault Refusal :=
  if e ∈ s.due.stale then
    let s' := { s with due := { s.due with stale := s.due.stale.erase e } }
    if (s.entry? e).any (s.isStale s.due.staleLimit) then done s (s'.declareMissing e .stale) else .next s'
  else .next s

end Sys2Proof.Machine
end

