-- ==== Sys2Proof/Machine/Link.lean ====
section
/-! DEFINITION. The link master: the node table (R118 to R120), rounds and headers (R121 to R126, R208), replies
and judgements (R127 to R132), steering (R133, R134), link reset (R135, R136), wake (R138). -/

namespace Sys2Proof.Machine

/-! ### The node table -/

/-- The running fields at definition (R120). -/
def Node.new (role : Role) : Node where
  role := role
  presence := .unknown
  branch := none
  errorRun := 0
  lastError := none
  overrun := false
  badRequest := false
  request := none
  lastDemand := DemandSet.none

/-- Any answer to a node leaves the answer queue (R143). -/
def State.dropAnswers (s : State) (n : NodeNo) : State := { s with answers := s.answers.filter fun a => a.node != n }

/-- Steering is off from the next round (R119, R133). -/
def State.steerOff (s : State) : State := { s with link := { s.link with steering := false } }

/-- The node holds a claim on some entry. -/
def State.holdsClaim (s : State) (n : NodeNo) : Bool := !(s.entriesWhere fun x => x.claim == some n).isEmpty

/-- A definition or redefinition (R118, R119). -/
def defineNodeTaken (s : State) (n : NodeNo) (role : Role) : Taken :=
  match s.node? n with
  | none => .did (s.putNode n (some (Node.new role))).steerOff noBody
  | some x =>
    if x.role.code = role.code then .did (s.putNode n (some { x with role := role })).steerOff noBody
    else if s.holdsClaim n then tell .occupied
    else .did ((s.putNode n (some { Node.new role with branch := x.branch })).dropAnswers n).steerOff noBody

/-- A removal (R119). -/
def undefineNodeTaken (s : State) (n : NodeNo) : Taken :=
  if s.holdsClaim n then tell .occupied
  else
    .did (((s.putNode n none).dropAnswers n).updRound fun r => { r with removed := n :: r.removed }).steerOff noBody

/-- R118, R119 in the order of notes/assumptions/10.md. -/
def nodeTaken (s : State) (address : Byte) (fields : Option RawNode) : Taken :=
  match nodeOfByte address, fields with
  | none, _ => tell .badRequest
  | some n, none => if s.mode ≠ .configure then tell .mode else undefineNodeTaken s n
  | some n, some raw =>
    match nodeFields raw with
    | none => tell .badRequest
    | some f =>
      if s.mode ≠ .configure then tell .mode
      else
        match f.role? with
        | none => tell .badRequest
        | some role => defineNodeTaken s n role

/-- DEFINE_NODE (R118, R119). -/
def execDefineNode (address : Byte) (fields : Option RawNode) (s : State) (more : List Byte := []) :
    Host.Outcome State Fault Refusal :=
  portDo (.defineNode address fields more) (fun s => nodeTaken s address fields) s

/-! ### Claims and assignments that the link drops -/

/-- Every claim that meets a condition is dropped with the state returning to CLEARED (R7). -/
def State.dropClaims (s : State) (p : NodeNo → Bool) : State :=
  s.forEach (fun s e => s.updEntry e Entry.unclaim) (s.entriesWhere fun x => x.claim.any p)

/-- R131. -/
def State.absent (s : State) (n : NodeNo) : State :=
  let s := (s.updNode n fun x =>
    { x with presence := .absent, request := none, overrun := false, lastDemand := DemandSet.none }).dropAnswers n
  let s := (s.dropItemsOf n).forEach State.cancelAssignment (s.entriesWhere fun x => x.assignment == some n)
  (s.dropClaims fun m => m == n).raise .nodeAbsent

/-- R130: an error is charged to a node. -/
def State.chargeError (s : State) (n : NodeNo) (kind : LinkError) : State :=
  match s.node? n with
  | none => s
  | some x =>
    let run := min Config.errorRunLimit (x.errorRun + 1)
    let s := s.updNode n fun y => { y with lastError := some kind, errorRun := run }
    if run = Config.errorRunLimit ∧ x.presence ≠ .absent then s.absent n else s

/-! ### Rounds -/

/-- The window list of the round that begins (R125, R126). -/
def State.windowMap (s : State) : List (NodeNo × Option Branch) :=
  if s.link.steering then
    (s.nodesWhere fun x => x.branch.isSome).map fun n => (n, (s.node? n).bind (·.branch))
  else (s.nodesWhere fun _ => true).map fun n => (n, none)

/-- The owners of the windows of one branch, by window (R126); of all of them in an unsteered round (R125). -/
def Round.owners (r : Round) (br : Branch) : List NodeNo :=
  if r.steered then (r.map.filter fun p => p.2 == some br).map (·.1) else r.map.map (·.1)

/-- W (R125, R126). -/
def Round.windowCount (r : Round) : Nat :=
  max (r.owners .a).length (max (r.owners .b).length (r.owners .c).length)

/-- The length of a round (R121). -/
def roundLength (period windows : Nat) : Nat := max period (Config.headerMs + Config.windowMs * windows)

/-- The tag field of an answer in a header (R208). What it holds for an argument that does not fit the kind is the model's
choice (notes/assumptions/41.md). -/
def StationAnswer.tagField (a : StationAnswer) : List Byte :=
  match a.argument with
  | .tag t => t.bytes
  | .segment n => if a.kind = 9 then [n, 0, 0] else [0, 0, 0]
  | .none =>
    match a.summary with
    | some m => m.tag.bytes
    | none => [0, 0, 0]

/-- The 9 bytes of an answer in a header (R208). -/
def StationAnswer.bytes (a : StationAnswer) (overrun : Bool) : List Byte :=
  byteField (a.node.val * 16 + a.kind.toNat % 16) ++
    byteField (a.result.code * 16 + flagCode overrun * 8 + flagCode a.badMark * 4 + flagCode a.summary.isSome * 2 +
      flagCode (a.summary.any (·.confirmed))) ++
    a.tagField ++ bigEndian 4 ((a.summary.map fun m => m.bits.toNat).getD 0)

/-- The branch map: 2 bits for each address, address 1 first (R208). -/
def branchMap (r : Round) : List Byte :=
  bigEndian 4 ((List.finRange 16).foldl
    (fun acc n => acc * 4 + branchCode ((r.map.find? fun p => p.1 == n).bind (·.2))) 0)

/-- The header of a round (R123, R208). -/
def State.headerBytes (s : State) (r : Round) (count : BitVec 8) (mark : RestartMark) : List Byte :=
  let start := count :: byteField (mark.code * 64 + flagCode r.steered * 32 + s.mode.code * 8 + flagCode s.stopLatch * 4) ++
    byteField r.carried.length ++ (if r.steered then branchMap r else []) ++
    r.carried.flatMap fun p => p.1.bytes p.2
  start ++ [checkByte start]

/-- The round that begins, as it stands at its start (R121, R123). -/
def State.newRound (s : State) : Round :=
  let r : Round :=
    { steered := s.link.steering, map := s.windowMap, length := 0,
      carried := (s.answers.take Config.answersPerHeader).map fun a => (a, (s.node? a.node).any (·.overrun)),
      heard := [], judged := [], removed := [], steady := s.mode == .run || s.mode == .service }
  { r with length := roundLength s.params.roundPeriod r.windowCount }

/-- The link as the start of a round leaves it (R122 to R124). -/
def State.startRound (s : State) : State :=
  let r := s.newRound
  let mark := if s.link.restartLeft = 0 then .none else s.link.restart
  { s with link := { s.link with
      phase := .header r
      roundCount := s.link.nextCount
      nextCount := s.link.nextCount + 1
      mark := mark
      restartLeft := s.link.restartLeft - 1
      coldDue := false
      header := s.headerBytes r s.link.nextCount mark } }

/-- ROUND_START (R121 to R126). -/
def execRoundStart (s : State) : Host.Outcome State Fault Refusal :=
  if s.link.phase = .between ∧ s.mode ≠ .quiet then .next s.startRound else .next s

/-- Delivery of one answer (R123, R142, R143). An answer discarded while the header was being sent changes nothing
(R119). -/
def State.deliver (s : State) (a : StationAnswer) : State :=
  if a ∈ s.answers then
    { s with answers := s.answers.erase a }.updNode a.node fun x => { x with request := none, overrun := false }
  else s

/-- HEADER_SENT (R123, R142, R143). -/
def execHeaderSent (s : State) : Host.Outcome State Fault Refusal :=
  match s.link.phase with
  | .header r =>
    .next ({ s with link := { s.link with phase := .windows r } }.forEach (fun (s : State) (p : StationAnswer × Bool) => s.deliver p.1) r.carried).refreshOutputs
  | _ => .next s

/-- A round that ends, for one sighting window (R62). -/
def Window.countRound (w : Window) (steady : Bool) : Window :=
  match w with
  | .closed => .closed
  | .head n e fresh => .head (if fresh || !steady then n else n - 1) e false
  | .untracked n fresh => .untracked (if fresh || !steady then n else n - 1) false

/-- Every sighting window is changed. -/
def State.mapWindows (s : State) (f : Window → Window) : State :=
  { s with segments := s.segments.map fun o => o.map fun g => { g with window := f g.window } }

/-- ROUND_END (R62, R121, R137, R204). -/
def execRoundEnd (s : State) : Host.Outcome State Fault Refusal :=
  match s.link.phase with
  | .windows r =>
    .next ({ s with link := { s.link with phase := if s.mode = Mode.quiet then LinkPhase.silent else LinkPhase.between } }.mapWindows
      fun w => w.countRound r.steady).refreshOutputs
  | _ => .next s

/-- The milliseconds of a round in which window `j` runs (R121). -/
def windowSpan (j : Nat) : Nat × Nat := (Config.headerMs + Config.windowMs * j, Config.headerMs + Config.windowMs * (j + 1))

/-- What the controller drives on the three branches, the same on each (R117, R121, R135, R137). -/
inductive LinkDrive where
  /-- the active level of the reset pulse -/
  | pulse
  /-- the header's bytes -/
  | header (bytes : List Byte)
  /-- nothing: the branches rest at the idle level or carry replies -/
  | released
  deriving DecidableEq, Repr

/-- What the controller drives on the branches now. -/
def State.linkDrive (s : State) : LinkDrive :=
  match s.link.phase with
  | .pulse => .pulse
  | .header _ => .header s.link.header
  | _ => .released

/-! ### Judging a window -/

/-- The window's owner can still be judged: its window is in the round, no valid reply of it was taken, and it is
neither judged nor removed (R119, R128). -/
def Round.toJudge (r : Round) (n : NodeNo) : Bool :=
  r.map.any (fun p => p.1 == n) && !r.heard.contains n && !r.judged.contains n && !r.removed.contains n

/-- The branch of a node in the round's window list; `none` in an unsteered round (R125, R126). -/
def Round.branchOf (r : Round) (n : NodeNo) : Option Branch := (r.map.find? fun p => p.1 == n).bind (·.2)

/-- A reply that names another node than the window's owner (R127, R128): CHECK, but for a defined node learned on
another branch in a steered round, which is a branch fault and leaves the owner unjudged. That the owner is left unjudged
also where the node named was removed and defined again in this round, so that its reply is disregarded (R119), is the
model's choice (notes/assumptions/46.md); that a node without a learned branch counts as learned on another is its reading
(notes/assumptions/18.md). -/
def State.misnamed (s : State) (r : Round) (owner named : NodeNo) : Option LinkError :=
  match s.node? named with
  | some x => if r.steered ∧ x.branch ≠ r.branchOf owner then none else some .check
  | none => some .check

/-- The activity a window's owner is judged by: in an unsteered round that of the branch on which activity began first
(R127), in a steered one that of the owner's branch alone (R128); `none` where there was none. -/
def Round.judgedActivity (r : Round) (owner : NodeNo) (seen : List (Branch × WindowActivity)) : Option WindowActivity :=
  (if r.steered then seen.find? fun p => some p.1 == r.branchOf owner else seen.head?).map (·.2)

/-- The activity is a good frame that names the node. -/
def repliesAs (a : WindowActivity) (n : NodeNo) : Bool :=
  match a with
  | .frame bytes =>
    match judgeFrame bytes with
    | .good reply => reply.node == n
    | _ => false
  | _ => false

/-- The error that activity on one branch gives (R127, R208). That a reply still being received at the end of the window is
LONG also where its sighting count or argument form is 3 is the model's choice (notes/assumptions/47.md). -/
def State.errorBy (s : State) (r : Round) (owner : NodeNo) : WindowActivity → Option LinkError
  | .heldActive => some .break
  | .unfinished => some .long
  | .frame bytes =>
    match judgeFrame bytes with
    | .long => some .long
    | .check => some .check
    | .good reply => s.misnamed r owner reply.node

/-- The error that what was seen in a window gives (R127, R128); `none` where the owner is not charged: a valid reply of it
came on some branch, or a branch fault. -/
def State.errorOf (s : State) (r : Round) (owner : NodeNo) (seen : List (Branch × WindowActivity)) : Option LinkError :=
  if seen.any fun p => repliesAs p.2 owner then none
  else
    match r.judgedActivity owner seen with
    | none => some .silence
    | some a => s.errorBy r owner a

/-- WINDOW_END (R127, R128, R130, R131). A good frame of the owner is a valid reply and no error: VALID_REPLY is its
command. -/
def execWindowEnd (n : NodeNo) (seen : List (Branch × WindowActivity)) (s : State) : Host.Outcome State Fault Refusal :=
  match s.link.phase with
  | .windows r =>
    if r.toJudge n && (s.node? n).isSome then
      match s.errorOf r n seen with
      | some kind => done s ((s.updRound fun r => { r with judged := n :: r.judged }).chargeError n kind)
      | none => .next s
    else .next s
  | _ => .next s

/-! ### Valid replies -/

/-- How a reply that is valid but for its address stands in its window (R127, R128). -/
inductive ReplyPlace where
  | own
  /-- a branch fault, in a window with this owner -/
  | fault (owner : Option NodeNo)
  | disregarded
  deriving DecidableEq, Repr

/-- R127, R128, R134. That a defined node without a learned branch counts as learned on another one is the model's reading
(notes/assumptions/18.md). That the owner of a window in which a branch fault came is judged by it, so that its own reply
later in that window is disregarded, is the model's choice (notes/assumptions/45.md). -/
def State.placeOfReply (s : State) (r : Round) (window : Nat) (br : Branch) (n : NodeNo) : ReplyPlace :=
  match s.node? n with
  | none => .disregarded
  | some x =>
    if r.heard.contains n || r.removed.contains n || decide (r.windowCount ≤ window) then .disregarded
    else if (r.owners br)[window]? = some n then (if r.judged.contains n then .disregarded else .own)
    else if r.steered ∧ x.branch ≠ some br then .fault (r.owners br)[window]?
    else .disregarded

/-- R129: branch, error run and presence. -/
def Node.heardOn (x : Node) (br : Branch) (ready : Bool) : Node :=
  { x with branch := some br, errorRun := 0, presence := if ready then .present else .notReady }

/-- R134: what a branch fault does beside the reply. The owner of the window is not judged any more in this round, not by its
own reply either (R128; the latter is the model's choice, notes/assumptions/45.md). -/
def State.branchFault (s : State) (owner : Option NodeNo) : State :=
  ((s.updRound fun r => { r with judged := owner.toList ++ r.judged }).steerOff).raise .branchFault

/-- The sightings of a READER go to the reconciler (R59, R129). -/
def State.handSightings (s : State) (role : Role) (reply : Reply) : State :=
  match role with
  | .reader _ => if s.mode = .configure then s else s.report reply.node reply.sightings
  | _ => s

/-- The demand set of a LOAD node goes to the dispatcher and is kept as the last (R129, R167). -/
def State.handDemand (s : State) (role : Role) (reply : Reply) : State :=
  match role, s.node? reply.node with
  | .load chain, some x =>
    let d := reply.demand.getD x.lastDemand
    (s.updNode reply.node fun y => { y with lastDemand := d }).takeDemand reply.node chain d
  | _, _ => s

/-- The request goes to the request engine (R129, R141). -/
def State.handRequest (s : State) (reply : Reply) : State :=
  match reply.request with
  | none => s
  | some q => s.takeRequest reply.node q

/-- The contents of a reply that leaves its node PRESENT, in their order (R129); in the closing round of QUIET a request
taken and an item admitted wake (R204, R206). Stores are offered once after the whole demand set, the model's choice
(notes/assumptions/40.md). -/
def State.handOn (s : State) (role : Role) (reply : Reply) : State :=
  let s1 := State.settle s (s.handSightings role reply)
  let s2 := State.settle s1 (s1.handDemand role reply)
  let s3 := s2.handRequest reply
  if reply.request.isSome || s1.nextOrder != s2.nextOrder then s3.wake true else s3

/-- R129: a valid reply is taken. -/
def State.takeReply (s : State) (br : Branch) (role : Role) (reply : Reply) : State :=
  let s := (s.updNode reply.node fun x => x.heardOn br reply.ready).updRound
    fun r => { r with heard := reply.node :: r.heard }
  if reply.ready then s.handOn role reply else State.settle s (s.dropItemsOf reply.node)

/-- VALID_REPLY (R127 to R129, R134). -/
def execValidReply (window : Nat) (br : Branch) (reply : Reply) (s : State) : Host.Outcome State Fault Refusal :=
  match s.link.phase, s.node? reply.node with
  | .windows r, some x =>
    match s.placeOfReply r window br reply.node with
    | .own => .next (s.takeReply br x.role reply).refreshOutputs
    | .fault owner => .next ((s.branchFault owner).takeReply br x.role reply).refreshOutputs
    | .disregarded => .next s
  | _, _ => .next s

/-! ### Steering, link reset, wake -/

/-- The lowest-numbered defined node without a learned branch (R133). -/
def State.unlearned (s : State) : Option NodeNo := (s.nodesWhere fun x => !x.branch.isSome).head?

/-- R133. -/
def steerTaken (s : State) (on : Byte) : Taken :=
  match flagOfByte on with
  | none => tell .badRequest
  | some false => .did s.steerOff noBody
  | some true =>
    match s.unlearned with
    | some n => .told .incomplete fun _ => byteField (nodeAddress n)
    | none => .did { s with link := { s.link with steering := true } } noBody

/-- STEER (R133). -/
def execSteer (on : Byte) (s : State) (more : List Byte := []) : Host.Outcome State Fault Refusal :=
  portDo (.steer on more) (fun s => steerTaken s on) s

/-- The running fields of a node after a link reset (R135). -/
def Node.afterReset (x : Node) : Node := Node.new x.role

/-- The link at the taking of a link reset: the pulse is driven, three COLD rounds follow from count 0 (R135). That the round
count and restart mark which the reads give stay those of the round cut off until the next round begins is the model's
choice (notes/assumptions/44.md). -/
def Link.afterReset (l : Link) : Link :=
  { l with phase := .pulse, steering := false, nextCount := 0, restart := .cold, restartLeft := Config.restartRounds,
           coldDue := true }

/-- The cut round does not reach its end, so no window has it in progress any more (R62). -/
def Window.cutRound : Window → Window
  | .closed => .closed
  | .head n e _ => .head n e false
  | .untracked n _ => .untracked n false

/-- R135. -/
def State.linkReset (s : State) : State :=
  let s := { s with nodes := s.nodes.map (Option.map Node.afterReset), link := s.link.afterReset, answers := [],
                    demand := [] }
  (s.cancelAll.dropClaims fun _ => true).mapWindows Window.cutRound

/-- LINK_RESET (R135, R136). -/
def execLinkReset (s : State) (more : List Byte := []) : Host.Outcome State Fault Refusal :=
  portDo (.linkReset more) (fun s => .did s.linkReset noBody) s

/-- RESET_PULSE_END (R117, R136). -/
def execResetPulseEnd (s : State) : Host.Outcome State Fault Refusal :=
  if s.link.phase = .pulse then
    .next { s with link := { s.link with phase := if s.mode = Mode.quiet then LinkPhase.silent else LinkPhase.between } }
  else .next s

/-- BRANCH_WAKE (R138, R206). It acts in QUIET while the controller does not drive the reset pulse. -/
def execBranchWake (_branch : Branch) (s : State) : Host.Outcome State Fault Refusal :=
  if s.mode = .quiet ∧ s.link.phase ≠ .pulse then done s (s.wake true) else .next s

end Sys2Proof.Machine
end

