-- ==== Sys2Proof/Machine/RackTable.lean ====
section
/-! DEFINITION. The rack table's own requests: ADMIT, RETIRE, RESTORE, CLEAR_TABLE (R18 to R24), and the circulation
counts (R25). -/

namespace Sys2Proof.Machine

/-- The summary of an entry as the step leaves it. -/
def summaryOf (e : EntryNo) : State → List Byte := fun s => s.summaryBytes (some e)

/-- The entry is the head of a segment whose gate is OPEN (R20, R22). -/
def State.inTransfer (s : State) (e : EntryNo) : Bool :=
  !(s.segsWhere fun g => g.isOpen && g.queue.head? == some e).isEmpty

/-! ### Admission -/

/-- R19: the entry at the head of the free list becomes rack `t` at the tail of segment `n`. -/
def State.admitAt (s : State) (e : EntryNo) (t : Tag) (n : SegNo) : State := (s.takeFree e t).placeAtTail e n none

/-- Tests 3 to 5 of R18 and the admission. -/
def admitInto (s : State) (t : Tag) (n : SegNo) : Taken :=
  match s.seg? n, s.freeList.head? with
  | none, _ => tell .notFound
  | some _, none => tell .tableFull
  | some g, some e => if g.freeSpace = 0 then tell .full else .did (s.admitAt e t n) (summaryOf e)

/-- R18 in its order, behind the range of the segment. -/
def admitTaken (s : State) (t : Tag) (seg : Byte) : Taken :=
  match placeOfByte seg, s.find t with
  | none, _ => tell .badRequest
  | some _, some e => .told .duplicate (summaryOf e)
  | some .tunnel, none => tell .notAllowed
  | some (.segment n), none => admitInto s t n

/-- ADMIT (R18, R19). -/
def execAdmit (t : Tag) (seg : Byte) (s : State) (more : List Byte := []) : Host.Outcome State Fault Refusal :=
  portDo (.admitRack t seg more) (fun s => admitTaken s t seg) s

/-! ### Retirement -/

/-- The states in which RETIRE is taken (R20, test 3). -/
def mayRetire (m : Mode) (st : RackState) : Bool :=
  match st with
  | .missing | .setAside => true
  | .staged | .stored => m == .configure
  | _ => false

/-- The entry leaves the table (R20). -/
def State.freeEntry (s : State) (e : EntryNo) : State :=
  { (s.removeEntry e).putEntry e none with freeList := s.freeList ++ [e] }

/-- R20 in its order. The summary is the one the entry had before. -/
def retireTaken (s : State) (t : Tag) : Taken :=
  match s.find t with
  | none => tell .notFound
  | some e =>
    match s.entry? e with
    | none => tell .notFound
    | some x =>
      if x.state = .washing then tell .inPass
      else if mayRetire s.mode x.state = false then tell .notAllowed
      else if s.inTransfer e then tell .busy
      else
        let before := s.summaryBytes (some e)
        .did (s.freeEntry e) fun _ => before

/-- RETIRE (R20). -/
def execRetire (t : Tag) (s : State) (more : List Byte := []) : Host.Outcome State Fault Refusal :=
  portDo (.retire t more) (fun s => retireTaken s t) s

/-! ### Restoration -/

/-- The prior state that RESTORE gives the found table (R23). -/
def restorePrior (x : Entry) (kind : SegKind) (clean : Bool) : Option RackState :=
  if clean && (kind == .clean || kind == .store || kind == .park) then none
  else some ((x.missing.map (·.prior)).getD .setAside)

/-- The clean flag's effect on the record (R23). -/
def Entry.cleaned (x : Entry) (clean : Bool) : Entry := if clean then { x with verdict := .manual, rewashes := 0 } else x

/-- R23. -/
def State.restoreAt (s : State) (e : EntryNo) (x : Entry) (n : SegNo) (g : Segment) (clean : Bool) : State :=
  ((s.removeEntry e).updEntry e fun y => y.cleaned clean).placeAtTail e n (restorePrior x g.config.kind clean)

/-- Free space counted with the entry out of its present location (R22). -/
def restoreSpace (g : Segment) (e : EntryNo) : Nat :=
  g.config.capacity - ((g.queue.erase e).length + (g.reservedTransfer + g.reservedDispatch))

/-- Tests 4 to 7 of R22 and the restoration. -/
def restoreInto (s : State) (e : EntryNo) (x : Entry) (n : SegNo) (g : Segment) (clean : Bool) : Taken :=
  if x.state = .washing then tell .inPass
  else if x.state ≠ .missing ∧ x.state ≠ .setAside then tell .notAllowed
  else if s.inTransfer e then tell .busy
  else if restoreSpace g e = 0 then tell .full
  else .did (s.restoreAt e x n g clean) (summaryOf e)

/-- R22 in its order, behind the ranges of the segment and the flag. -/
def restoreTaken (s : State) (t : Tag) (seg clean : Byte) : Taken :=
  match placeOfByte seg, flagOfByte clean with
  | some place, some clean =>
    match s.find t with
    | none => tell .notFound
    | some e =>
      match place with
      | .tunnel => tell .notAllowed
      | .segment n =>
        match s.seg? n, s.entry? e with
        | some g, some x => restoreInto s e x n g clean
        | _, _ => tell .notFound
  | _, _ => tell .badRequest

/-- RESTORE (R22, R23). -/
def execRestore (t : Tag) (seg clean : Byte) (s : State) (more : List Byte := []) : Host.Outcome State Fault Refusal :=
  portDo (.restore t seg clean more) (fun s => restoreTaken s t seg clean) s

/-! ### Clearing the table -/

/-- A segment as CLEAR_TABLE leaves it (R24, R72). -/
def Segment.emptied (g : Segment) : Segment :=
  { g.unvouch with queue := [], reservedTransfer := 0, reservedDispatch := 0, headArrived := false }

/-- R24. -/
def State.clearTable (s : State) : State :=
  { s with entries := Vector.replicate 128 none, freeList := List.finRange 128,
           segments := s.segments.map fun o => o.map Segment.emptied }

/-- CLEAR_TABLE (R24). -/
def execClearTable (s : State) (more : List Byte := []) : Host.Outcome State Fault Refusal :=
  portDo (.clearTable more) (fun s => if s.mode = .configure then .did s.clearTable noBody else tell .mode) s

/-! ### Circulation counts (R25) -/

/-- In-use entries of a kind. -/
def State.inUse (s : State) (k : Kind) : Nat := s.count fun x => x.tag.kind == k

/-- Entries of a kind in RETURNING without an assignment. -/
def State.freeReturning (s : State) (k : Kind) : Nat :=
  s.count fun x => x.tag.kind == k && x.state == .returning && !x.assignment.isSome

/-- Entries in MISSING. -/
def State.missingCount (s : State) : Nat := s.count fun x => x.state == .missing

/-- Entries in SET_ASIDE. -/
def State.asideCount (s : State) : Nat := s.count fun x => x.state == .setAside

/-- The four kinds in the order of their codes. -/
def allKinds : List Kind := [.plate, .cup, .cutlery, .tray]

end Sys2Proof.Machine
end

