-- ==== Sys2Proof/Machine/Rinse.lean ====
section
/-! DEFINITION. The rinse monitor's measurement (R100 to R104). The verdict it leads to is fixed at an encoder
count, in Tunnel. -/

namespace Sys2Proof.Machine

/-- Changes the rinse record of every entry in FINAL (R102 to R104). -/
def State.inFinal (s : State) (f : PassRecord → PassRecord) : State :=
  s.forEach (fun s e =>
    match s.entry? e with
    | none => s
    | some x =>
      match s.zoneOf x with
      | some .final => s.updEntry e fun y => { y with pass := y.pass.map f }
      | _ => s) s.tunnel.list

/-- RINSE_OK_ASSERT: the dropout timer of every entry in FINAL goes back to 0 (R100, R104). -/
def execRinseOkAssert (s : State) : Host.Outcome State Fault Refusal :=
  if s.tunnel.rinseOk then .next s
  else
    .next ({ s with tunnel := { s.tunnel with rinseOk := true } }.inFinal
      fun p => { p with dropoutTimer := 0 }).refreshOutputs

/-- RINSE_OK_DEASSERT: dwell counting stops and the dropout timers of FINAL start (R100, R103, R104). -/
def execRinseOkDeassert (s : State) : Host.Outcome State Fault Refusal :=
  .next { s with tunnel := { s.tunnel with rinseOk := false } }

/-- The running dropout mark of a record whose timer exceeds the grace time (R104, R114). -/
def PassRecord.markDropout (p : PassRecord) (grace : Nat) : PassRecord :=
  { p with dropoutMark := p.dropoutMark || decide (grace < p.dropoutTimer) }

/-- One millisecond of an entry in FINAL (R103, R104). -/
def PassRecord.millisecond (p : PassRecord) (rinseOk : Bool) (grace : Nat) : PassRecord :=
  if rinseOk then { p with dwell := min Config.counterLimit (p.dwell + 1) }
  else { p with dropoutTimer := min Config.counterLimit (p.dropoutTimer + 1) }.markDropout grace

/-- DWELL_MILLISECOND (R103, R104). -/
def execDwellMillisecond (s : State) : Host.Outcome State Fault Refusal :=
  .next (s.inFinal fun p => p.millisecond s.tunnel.rinseOk s.params.grace).refreshOutputs

/-- DROPOUT: the dropout timer of an entry in FINAL exceeds the grace time (R104). -/
def execDropout (e : EntryNo) (s : State) : Host.Outcome State Fault Refusal :=
  match s.entry? e with
  | none => .next s
  | some x =>
    match s.zoneOf x with
    | some .final =>
      if s.tunnel.rinseOk then .next s
      else
        .next (s.updEntry e fun y => { y with pass := y.pass.map (·.markDropout s.params.grace) }).refreshOutputs
    | _ => .next s

end Sys2Proof.Machine
end

