-- ==== Sys2Proof/Machine/Tunnel.lean ====
section
/-! DEFINITION. The tunnel tracker: definition (R79, R80), encoder counts (R81, R82, R93) with the pass verdict they
fix (R105, R106), the exit (R89 to R92), the fault latch (R95, R96), pacing (R85), the machine lines (R83). -/

namespace Sys2Proof.Machine

/-! ### The fault latch -/

/-- R95: a fault is taken. -/
def FaultLatch.take (l : Option FaultLatch) (cause : FaultCause) : FaultLatch :=
  match l with
  | none => ⟨cause, cause, 1⟩
  | some l => { l with latest := cause, count := min Config.faultCountLimit (l.count + 1) }

/-- R95: a fault sets the latch and raises TUNNEL_FAULT. -/
def State.tunnelFault (s : State) (cause : FaultCause) : State :=
  { s with tunnel := { s.tunnel with fault := some (FaultLatch.take s.tunnel.fault cause) } }.raise .tunnelFault

/-- The latch record as an answer carries it (R95, R96). -/
def FaultLatch.bytes (l : FaultLatch) : List Byte :=
  byteField l.first.code ++ byteField l.latest.code ++ byteField l.count

/-- CLEAR_TUNNEL_FAULT (R96). That the answer carries the latch record as its three bytes alone, without a presence byte, and an
empty body where the latch is clear, is the model's choice (notes/assumptions/11.md). -/
def execClearTunnelFault (s : State) (more : List Byte := []) : Host.Outcome State Fault Refusal :=
  portDo (.clearTunnelFault more)
    (fun s =>
      match s.tunnel.fault with
      | none => tell .done
      | some l => .did { s with tunnel := { s.tunnel with fault := none } } fun _ => l.bytes) s

/-! ### Definition -/

/-- R80. -/
def State.defineTunnel (s : State) (c : TunnelConfig) : State :=
  { s with tunnel := { s.tunnel with config := some c, pace := 0, tickMs := 0, trimPosition := 1,
                                     pitchCount := Config.counterLimit } }

/-- R79 in the order of notes/assumptions/10.md. -/
def defineTunnelTaken (s : State) (f : RawTunnel) : Taken :=
  match tunnelFields f with
  | none => tell .badRequest
  | some c =>
    if s.mode ≠ .configure then tell .mode
    else if c.consistent then .did (s.defineTunnel c) noBody
    else tell .badRequest

/-- DEFINE_TUNNEL (R79, R80). -/
def execDefineTunnel (f : RawTunnel) (s : State) (more : List Byte := []) : Host.Outcome State Fault Refusal :=
  portDo (.defineTunnel f more) (fun s => defineTunnelTaken s f) s

/-! ### The pass verdict (R105, R106) -/

/-- The verdict of a pass is PASS (R105). -/
def PassRecord.passes (p : PassRecord) (minDwell : Nat) : Bool := decide (minDwell ≤ p.dwell) && !p.dropoutMark

/-- R105 and, for FAIL, R106 on the record. -/
def Entry.fixVerdict (x : Entry) (p : PassRecord) (minDwell limit : Nat) : Entry :=
  if p.passes minDwell then
    { x with verdict := .pass p.dwell p.dropoutMark, pass := some { p with fixed := .pass } }
  else
    { x with
      verdict := .fail .rinse p.dwell p.dropoutMark
      rewashes := raiseRewash x.rewashes
      pass := some { p with fixed := .fail, overLimit := p.overLimit || overLimit limit x.rewashes } }

/-- R105: the entry's position has become final end. -/
def State.fixAt (s : State) (c : TunnelConfig) (e : EntryNo) : State :=
  match s.entry? e with
  | none => s
  | some x =>
    match x.pass with
    | none => s
    | some p =>
      if s.position p = c.finalEnd ∧ p.fixed = .no then
        (s.updEntry e fun y => y.fixVerdict p s.params.minDwell s.params.rewashLimit).raiseIf
          (!p.passes s.params.minDwell) .rinseFail
      else s

/-! ### Overdue racks (R93) -/

/-- The head of the list is overdue. -/
def State.overdueHead (s : State) (c : TunnelConfig) : Option EntryNo :=
  match s.headPosition, s.tunnel.list.head? with
  | some pos, some e => if c.exitDistance + c.exitTolerance < pos then some e else none
  | _, _ => none

/-- R93: overdue heads are declared one by one at the same count; the list's length bounds them. -/
def State.declareOverdue (c : TunnelConfig) : Nat → State → State
  | 0, s => s
  | fuel + 1, s =>
    match s.overdueHead c with
    | some e => ((s.declareMissing e .overdue).tunnelFault .overdue).declareOverdue c fuel
    | none => s

/-- R81: one encoder count. -/
def State.count1 (s : State) : State :=
  let s := { s with tunnel := { s.tunnel with encoder := s.tunnel.encoder + 1,
                                              pitchCount := min Config.counterLimit (s.tunnel.pitchCount + 1) } }
  match s.tunnel.config with
  | none => s
  | some c => (s.forEach (fun s e => s.fixAt c e) s.tunnel.list).declareOverdue c s.tunnel.list.length

/-- ENCODER_COUNT (R81). -/
def execEncoderCount (s : State) : Host.Outcome State Fault Refusal := done s s.count1

/-- PITCH_REACHED (R84): the entry conditions are evaluated again. Gates open by GATE_OPEN, so nothing else
changes. -/
def execPitchReached (s : State) : Host.Outcome State Fault Refusal := .next s

/-! ### The exit -/

/-- The state that the exit gives from the verdict (R90). -/
def exitState (x : Entry) (limit : Nat) : RackState :=
  if x.verdict.isFail then
    if x.pass.any (·.overLimit) || decide (limit < x.rewashes) then .setAside else .rewashDue
  else .cleared

/-- The record of an entry that leaves the tunnel for OUTFEED (R90). -/
def Entry.leaveTunnel (x : Entry) (o : SegNo) (limit : Nat) (now : BitVec 32) : Entry :=
  { x with location := some (.segment o), state := exitState x limit, pass := none, lastConfirmed := now,
           staleAge := 0, placed := false }

/-- R90: a normal exit. -/
def State.exitTo (s : State) (e : EntryNo) (o : SegNo) : State :=
  ({ s with tunnel := { s.tunnel with list := s.tunnel.list.erase e } }.updEntry e
    fun x => x.leaveTunnel o s.params.rewashLimit s.seconds).appendTo o e

/-- R91: an overrun. -/
def State.overrun (s : State) (e : EntryNo) (o : SegNo) : State :=
  ((s.declareMissing e .overrun).jamSegment o).tunnelFault .overrun

/-- The head of the list with its position where it has come out (R89, R90). -/
def State.dueHead (s : State) (c : TunnelConfig) : Option EntryNo :=
  match s.headPosition, s.tunnel.list.head? with
  | some pos, some e => if pos < c.earlyExit then none else some e
  | _, _ => none

/-- R89 to R91: a blocking that is judged. -/
def State.judgeExit (s : State) (c : TunnelConfig) : State :=
  match s.dueHead c, s.outfeed with
  | some e, some o => if s.freeSpace o = 0 then s.overrun e o else s.exitTo e o
  | _, _ => s.tunnelFault .phantom

/-- EXIT_EYE_BLOCK (R83, R89 to R92). In CONFIGURE and without a tunnel it is recorded without effect. -/
def execExitEyeBlock (s : State) : Host.Outcome State Fault Refusal :=
  if s.tunnel.exitEye then .next s
  else
    let s' := { s with tunnel := { s.tunnel with exitEye := true } }
    match s.tunnel.config with
    | some c => if s.mode = .configure then .next s' else done s (s'.judgeExit c)
    | none => .next s'

/-- EXIT_EYE_CLEAR (R83, R92). -/
def execExitEyeClear (s : State) : Host.Outcome State Fault Refusal :=
  .next { s with tunnel := { s.tunnel with exitEye := false } }

/-! ### Machine lines and pacing -/

/-- A machine line as taken (R83). -/
def Tunnel.setLine (t : Tunnel) (line : MachineLine) (b : Bool) : Tunnel :=
  match line with
  | .machineRun => { t with machineRun := b }
  | .washOk => { t with washOk := b }
  | .machineFault => { t with machineFault := b }

/-- MACHINE_LINE_CHANGE (R83, R84, R85). -/
def execMachineLineChange (line : MachineLine) (b : Bool) (s : State) : Host.Outcome State Fault Refusal :=
  .next { s with tunnel := s.tunnel.setLine line b }

/-- The tick timer runs (R85). -/
def State.tickTimerRuns (s : State) : Bool := s.tunnel.machineRun && s.tunnel.pace != 0 && s.mode != .quiet

/-- PACE_TICK: 100 ms of running time are complete (R85). -/
def execPaceTick (s : State) : Host.Outcome State Fault Refusal :=
  if s.tickTimerRuns then .next { s with tunnel := { s.tunnel with pace := s.tunnel.pace - 1, tickMs := 0 } }
  else .next s

/-- PACE_COUNTER_ZERO: at 0 the timer stops and the running time is discarded; the entry conditions are evaluated
again (R84, R85). -/
def execPaceCounterZero (s : State) : Host.Outcome State Fault Refusal :=
  if s.tunnel.pace = 0 then .next { s with tunnel := { s.tunnel with tickMs := 0 } } else .next s

end Sys2Proof.Machine
end

