-- ==== Sys2Proof/Machine/Reads.lean ====
section
/-! DEFINITION. The port's own requests: reads (R181, R189 to R191, R198), parameters (R188), attention (R196, R197),
ACK_NODE (R192), NOP and the transactions that carry no request (R185, R186). Bodies follow R209 and R210, each field
where the owning rule lists it (notes/assumptions/11.md). -/

namespace Sys2Proof.Machine

/-! ### Transactions without a request -/

/-- NOP (R184, R185): the answer buffer stays as it was. -/
def execNop (s : State) (more : List Byte := []) : Host.Outcome State Fault Refusal :=
  .next (if s.port.turnaround then s.tooSoon (portBytes (.nop more)) else s.beginTransaction (portBytes (.nop more)))

/-- BAD_CHECK_MESSAGE (R185, R209): the echo is the second byte shifted in, or 00h. -/
def execBadCheckMessage (bytes : List Byte) (s : State) : Host.Outcome State Fault Refusal :=
  if s.port.turnaround then .next (s.tooSoon bytes)
  else
    match takeMessage bytes with
    | .badCheck => .next ((s.beginTransaction bytes).answer (bytes[1]?.getD 0) .badCheck [])
    | _ => .next s

/-- UNKNOWN_REQUEST (R185): a good message of no request is answered BAD_REQUEST. That the answer has no body for a MODE message
of the wrong length too, though every answer to MODE carries mode and idle timer (R200), is the model's choice
(notes/assumptions/49.md). -/
def execUnknownRequest (bytes : List Byte) (s : State) : Host.Outcome State Fault Refusal :=
  if s.port.turnaround then .next (s.tooSoon bytes)
  else
    match takeMessage bytes with
    | .unknown kind => .next ((s.beginTransaction bytes).answer kind .badRequest [])
    | _ => .next s

/-- TOO_SOON_TRANSACTION (R186). -/
def execTooSoonTransaction (bytes : List Byte) (s : State) : Host.Outcome State Fault Refusal :=
  if s.port.turnaround then .next (s.tooSoon bytes) else .next s

/-- TURNAROUND_END (R186). -/
def execTurnaroundEnd (s : State) : Host.Outcome State Fault Refusal :=
  .next { s with port := { s.port with turnaround := false } }

/-! ### READ_COUNTS -/

/-- The value of every parameter in the order of R188. That the round period, a time in milliseconds whose range lies within 0
to 255, takes one byte (R210) and not the two of section 11.1 is the model's choice (notes/assumptions/11.md). -/
def Params.bytes (p : Params) : List Byte :=
  halfField p.clearLimit ++ flagField p.autoAdmission ++ halfField p.staleLimit ++ halfField p.minDwell ++
    halfField p.grace ++ byteField p.rewashLimit ++ byteField p.roundPeriod ++ halfField p.promotionLimit ++
    byteField p.idleLimit

/-- The circulation counts (R25). That the three counts of a kind stand together, kind by kind and not count by count, is the
model's choice (notes/assumptions/11.md). -/
def State.countBytes (s : State) : List Byte :=
  (allKinds.flatMap fun k => byteField (s.inUse k) ++ byteField (s.storedCount k) ++ byteField (s.freeReturning k)) ++
    byteField s.missingCount ++ byteField s.asideCount ++ byteField s.freeList.length

/-- The answer to READ_COUNTS (R191). That the round count and the restart mark are those of the last round where none is in
progress, in QUIET after the closing round and in the pulse of a link reset, is the model's choice
(notes/assumptions/44.md). -/
def State.readCounts (s : State) : Result × List Byte :=
  (.done, s.countBytes ++ byteField s.freeList.length ++ secondsField s.seconds ++ byteField s.link.roundCount.toNat ++
    byteField s.link.mark.code ++ byteField s.mode.code ++ flagField s.stopLatch ++ flagField s.tunnel.fault.isSome ++
    byteField s.demand.length ++ byteField s.answers.length ++ s.params.bytes)

/-- READ_COUNTS (R191). -/
def execReadCounts (s : State) (more : List Byte := []) : Host.Outcome State Fault Refusal :=
  portRead (.readCounts more) State.readCounts s

/-! ### READ_ENTRY -/

/-- The rinse record (R101). -/
def PassRecord.bytes (p : PassRecord) : List Byte :=
  halfField p.dwell ++ halfField p.dropoutTimer ++ flagField p.dropoutMark ++ flagField p.overLimit ++
    byteField p.fixed.code

/-- Last dwell and dropout mark, present with PASS and FAIL (R9). -/
def Verdict.measures : Verdict → Option (Nat × Bool)
  | .pass d m => some (d, m)
  | .fail _ d m => some (d, m)
  | _ => Option.none

/-- The location with position or zone; the missing record in its place (R189). -/
def State.placeBytes (s : State) (e : EntryNo) (x : Entry) : List Byte :=
  match x.missing, x.location with
  | some m, _ => byteField m.cause.code ++ byteField m.prior.code ++ byteField m.last.code
  | none, some (.segment n) =>
    byteField n.val ++ byteField (((s.seg? n).map fun g => positionIn g.queue e).getD 0)
  | none, some .tunnel => byteField Config.tunnelCode ++ byteField (((s.zoneOf x).map Zone.code).getD 0)
  | none, none => []

/-- Every field of an in-use entry (R189). -/
def State.entryBytes (s : State) (e : EntryNo) (x : Entry) : List Byte :=
  x.tag.bytes ++ byteField x.state.code ++ s.placeBytes e x ++ byteField (holdCode x.hold) ++
    optField (fun n => byteField (nodeAddress n)) x.claim ++ optField (fun n => byteField (nodeAddress n)) x.assignment ++
    halfField x.passes ++ byteField x.verdict.code ++ optField (fun d => halfField d.1) x.verdict.measures ++
    optField (fun d => flagField d.2) x.verdict.measures ++ byteField x.rewashes ++ flagField x.confirmed ++
    byteField x.overtaken ++ secondsField x.lastConfirmed ++ halfField x.staleAge ++
    match x.pass with
    | some p => markField p.mark ++ halfField (s.position p) ++ p.bytes
    | none => []

/-- An entry by number (R189): the number, the mark FREE, and the place in the free list or the fields. That the head of the free
list has place 1 is the model's choice (notes/assumptions/11.md). -/
def State.readPlace (s : State) (e : EntryNo) : Result × List Byte :=
  match s.entry? e with
  | none => (.done, byteField e.val ++ flagField true ++ byteField (positionIn s.freeList e))
  | some x => (.done, byteField e.val ++ flagField false ++ s.entryBytes e x)

/-- The answer to READ_ENTRY (R189). -/
def State.readEntry (s : State) (sel : EntrySelector) : Result × List Byte :=
  match sel with
  | .number n => if h : n.toNat < 128 then s.readPlace ⟨n.toNat, h⟩ else (.badRequest, [])
  | .tag t =>
    match s.find t with
    | some e => s.readPlace e
    | none => (.notFound, [])

/-- READ_ENTRY (R189). -/
def execReadEntry (sel : EntrySelector) (s : State) (more : List Byte := []) : Host.Outcome State Fault Refusal :=
  portRead (.readEntry sel more) (fun s => s.readEntry sel) s

/-! ### Lists -/

/-- The items of a list from position `from`, each with its position from 1, as bytes. -/
def listFrom {α : Type} (start : Nat) (xs : List α) (item : Nat → α → List Byte) : List (List Byte) :=
  (xs.zipIdx 1).filterMap fun p => if start ≤ p.2 then some (item p.2 p.1) else none

/-- The record, the length of the list, and as many whole items as the answer holds (R190, R209). -/
def withList {α : Type} (record : List Byte) (start : Nat) (xs : List α) (item : Nat → α → List Byte) : List Byte :=
  let front := record ++ byteField xs.length
  front ++ fitItems front.length (listFrom start xs item)

/-! ### READ_SEGMENT -/

/-- The configured fields of a segment in the order of Table 2-1. -/
def SegConfig.bytes (n : SegNo) (c : SegConfig) : List Byte :=
  byteField n.val ++ byteField c.kind.code ++ byteField c.capacity ++
    optField (fun p => byteField (Place.code p)) c.successor ++ optField (fun a => byteField a.val) c.alternate ++
    byteField c.eye.val ++ byteField c.drive.val ++ optField (fun d => byteField d.val) c.diverter ++
    optField (fun r => byteField (nodeAddress r)) c.reader ++ optField (fun k => byteField (Kind.code k)) c.storeKind ++
    optField (fun o => byteField (nodeAddress o)) c.owner ++
    optField byteField (if c.kind = .exit then some c.reach else none)

/-- The window record: state, rounds remaining, awaited entry (R61). That a CLOSED window gives 0 rounds remaining is the
model's choice (notes/assumptions/11.md). -/
def Window.bytes : Window → List Byte
  | .closed => byteField 0 ++ byteField 0 ++ [0]
  | .head n e _ => byteField 1 ++ byteField n ++ optField (fun e => byteField e.val) (some e)
  | .untracked n _ => byteField 2 ++ byteField n ++ [0]

/-- The stranger record (R72). -/
def StrangerRecord.bytes (r : StrangerRecord) : List Byte :=
  optField Tag.bytes r.seen ++ optField (fun e => byteField e.val) r.vouched

/-- The running fields of a segment in the order of R28, its queue apart, and what R190 adds. The code of the gate state
and the two bytes of the set of hold reasons are the model's choice (notes/assumptions/11.md). -/
def State.segmentBytes (s : State) (n : SegNo) (g : Segment) : List Byte :=
  byteField g.reservedTransfer ++ byteField g.reservedDispatch ++ flagField g.isOpen ++ flagField g.headArrived ++
    flagField g.jammed ++ flagField g.heldBySupervisor ++ flagField g.stranger.isSome ++
    optField (fun t : Transfer => byteField (Place.code t.dest) ++ flagField t.carried ++ halfField t.remaining) g.transfer ++
    byteField g.mergePointer.val ++ flagField (s.eyeBlocked n) ++ flagField (s.eyeBlocked n) ++ g.window.bytes ++
    optField StrangerRecord.bytes g.stranger

/-- A place of a queue: position, entry number, tag and state (R190). -/
def State.queueItem (s : State) (pos : Nat) (e : EntryNo) : List Byte :=
  byteField pos ++ byteField e.val ++
    match s.entry? e with
    | some x => x.tag.bytes ++ byteField x.state.code
    | none => []

/-- The answer to READ_SEGMENT (R190). -/
def State.readSegment (s : State) (seg start : Byte) : Result × List Byte :=
  match segOfByte seg with
  | none => (.badRequest, [])
  | some n =>
    if start = 0 then (.badRequest, [])
    else
      match s.seg? n with
      | none => (.notFound, [])
      | some g => (.done, withList (g.config.bytes n ++ s.segmentBytes n g) start.toNat g.queue s.queueItem)

/-- READ_SEGMENT (R190). -/
def execReadSegment (seg start : Byte) (s : State) (more : List Byte := []) : Host.Outcome State Fault Refusal :=
  portRead (.readSegment seg start more) (fun s => s.readSegment seg start) s

/-! ### READ_TUNNEL -/

/-- The tunnel definition in the order of Table 4-1. -/
def TunnelConfig.bytes (c : TunnelConfig) : List Byte :=
  byteField c.capacity ++ halfField c.pitch ++ halfField c.finalStart ++ halfField c.finalEnd ++
    halfField c.exitDistance ++ halfField c.exitTolerance ++ halfField c.haltMargin ++ byteField c.paceBase ++
    byteField c.trim

/-- The record of READ_TUNNEL (R190). -/
def State.tunnelBytes (s : State) (c : TunnelConfig) : List Byte :=
  c.bytes ++ markField s.tunnel.encoder ++ halfField s.tunnel.pitchCount ++ halfField s.tunnel.pace ++
    byteField s.tunnel.trimPosition ++ byteField c.paceBase ++ byteField c.trim ++ optField FaultLatch.bytes s.tunnel.fault ++
    flagField s.haltRequest ++ flagField s.stopLatch ++ flagField s.tunnel.fault.isSome ++ flagField s.outfeedHalt ++
    flagField s.tunnel.machineRun ++ flagField s.tunnel.washOk ++ flagField s.tunnel.machineFault ++
    flagField s.tunnel.rinseOk ++ flagField s.tunnel.exitEye ++ halfField s.params.minDwell ++ halfField s.params.grace

/-- A place of the tunnel list (R190). -/
def State.tunnelItem (s : State) (pos : Nat) (e : EntryNo) : List Byte :=
  byteField pos ++ byteField e.val ++
    match s.entry? e with
    | some x =>
      x.tag.bytes ++
        match x.pass with
        | some p =>
          halfField (s.position p) ++ byteField (((s.zoneOf x).map Zone.code).getD 0) ++ byteField (holdCode x.hold) ++ p.bytes
        | none => []
    | none => []

/-- The answer to READ_TUNNEL (R190). -/
def State.readTunnel (s : State) (start : Byte) : Result × List Byte :=
  if start = 0 then (.badRequest, [])
  else
    match s.tunnel.config with
    | none => (.notFound, [])
    | some c => (.done, withList (s.tunnelBytes c) start.toNat s.tunnel.list s.tunnelItem)

/-- READ_TUNNEL (R190). -/
def execReadTunnel (start : Byte) (s : State) (more : List Byte := []) : Host.Outcome State Fault Refusal :=
  portRead (.readTunnel start more) (fun s => s.readTunnel start) s

/-! ### READ_NODE -/

/-- The configured fields of a node (R118). -/
def Role.bytes (n : NodeNo) (r : Role) : List Byte :=
  byteField (nodeAddress n) ++ byteField r.code ++
    (match r with | .load c => optField (fun c => byteField (Chain.code c)) (some c) | _ => [0]) ++
    match r with
    | .reader g => optField (fun g => byteField g.val) (some g)
    | _ => [0]

/-- The four flags of a demand set. -/
def DemandSet.bytes (d : DemandSet) : List Byte := allKinds.flatMap fun k => flagField (DemandSet.flag d k)

/-- The window a node owns in the current round, and its branch (R191). That the branch is 0 in an unsteered round, where the
window is on all three (R125), and where no round is in progress is the model's choice (notes/assumptions/19.md). -/
def State.windowOf (s : State) (n : NodeNo) : List Byte :=
  match s.round? with
  | none => [0] ++ byteField 0
  | some r =>
    match r.map.find? fun p => p.1 == n with
    | none => [0] ++ byteField 0
    | some (_, br) =>
      let owners : List NodeNo := match br with
        | some on => r.owners on
        | none => r.map.map Prod.fst
      optField (fun j => byteField j) (some (owners.idxOf n)) ++ byteField (branchCode br)

/-- The place of the node's answer in the answer queue (R191). That the head has place 1 is the model's choice
(notes/assumptions/11.md). -/
def State.answerPlace (s : State) (n : NodeNo) : Option Nat := (s.answers.findIdx? fun a => a.node == n).map (· + 1)

/-- The fields of READ_NODE (R191). That the round count is that of the last round where none is in progress is the model's
choice (notes/assumptions/44.md). -/
def State.nodeBytes (s : State) (n : NodeNo) (x : Node) : List Byte :=
  Role.bytes n x.role ++ byteField x.presence.code ++ byteField (branchCode x.branch) ++ byteField x.errorRun ++
    byteField (linkErrorCode x.lastError) ++ flagField x.overrun ++ flagField x.badRequest ++ flagField x.request.isSome ++
    DemandSet.bytes x.lastDemand ++ flagField x.request.isSome ++ optField byteField (s.answerPlace n) ++
    flagField x.overrun ++ flagField x.badRequest ++ s.windowOf n ++ byteField s.link.roundCount.toNat ++
    flagField s.link.steering

/-- The answer to READ_NODE (R191). -/
def State.readNode (s : State) (address : Byte) : Result × List Byte :=
  match nodeOfByte address with
  | none => (.badRequest, [])
  | some n =>
    match s.node? n with
    | none => (.notFound, [])
    | some x => (.done, s.nodeBytes n x)

/-- READ_NODE (R191). -/
def execReadNode (address : Byte) (s : State) (more : List Byte := []) : Host.Outcome State Fault Refusal :=
  portRead (.readNode address more) (fun s => s.readNode address) s

/-! ### READ_DEMAND -/

/-- An item of the demand queue (R181). -/
def State.demandItem (s : State) (pos : Nat) (i : DemandItem) : List Byte :=
  byteField pos ++ byteField (nodeAddress i.station) ++ byteField (Kind.code i.kind) ++ byteField i.chain.code ++
    secondsField i.entryTime ++ secondsField (s.seconds - i.entryTime) ++ flagField i.promoted ++ flagField (s.servable i)

/-- The counts of one kind (R181). -/
def State.kindBytes (s : State) (k : Kind) : List Byte :=
  byteField (s.demand.filter fun i => i.kind == k).length ++ byteField (s.storedCount k) ++ byteField (s.freeReturning k)

/-- The park of one LOAD node (R181); zeros for a node that owns no PARK, as CONFIGURE allows, the model's choice
(notes/assumptions/12.md). -/
def State.parkBytes (s : State) (n : NodeNo) : List Byte :=
  let g := (s.parkOf n).bind s.seg?
  byteField ((g.map fun g => g.queue.length).getD 0) ++ byteField ((g.map (·.reservedTransfer)).getD 0) ++
    byteField ((g.map (·.reservedDispatch)).getD 0) ++
    byteField (s.count fun x => x.state == .returning && x.assignment == some n)

/-- The record of READ_DEMAND (R181). The LOAD nodes stand as far as the answer holds them, with no count before them, the
model's choice (notes/assumptions/12.md). -/
def State.demandRecord (s : State) : List Byte :=
  let kinds := allKinds.flatMap s.kindBytes
  kinds ++ fitItems (kinds.length + 3) ((s.nodesWhere fun x => x.role.isLoad).map s.parkBytes) ++
    halfField s.params.promotionLimit

/-- The answer to READ_DEMAND (R181). -/
def State.readDemand (s : State) (start : Byte) : Result × List Byte :=
  if start = 0 then (.badRequest, [])
  else (.done, withList s.demandRecord start.toNat s.demand s.demandItem)

/-- READ_DEMAND (R181). -/
def execReadDemand (start : Byte) (s : State) (more : List Byte := []) : Host.Outcome State Fault Refusal :=
  portRead (.readDemand start more) (fun s => s.readDemand start) s

/-! ### Attention -/

/-- Flag, enable and chain of each source, and the levels of the two lines (R198). That the answers to SET_ATTENTION and ACK
group them by source too is the model's choice (notes/assumptions/11.md). -/
def State.attentionBytes (s : State) : List Byte :=
  (s.attention.toList.flatMap fun a => flagField a.flag ++ flagField a.enable ++ byteField a.chain.code) ++
    flagField (attentionLine .high s.attention) ++ flagField (attentionLine .low s.attention)

/-- READ_ATTENTION (R198). -/
def execReadAttention (s : State) (more : List Byte := []) : Host.Outcome State Fault Refusal :=
  portRead (.readAttention more) (fun s => (.done, s.attentionBytes)) s

/-- A source's enable and chain as a byte of SET_ATTENTION gives them (R196, R210). -/
def Attention.set (a : Attention) (b : Byte) : Attention :=
  { a with enable := b.toNat.testBit 1, chain := if b.toNat.testBit 0 then .high else .low }

/-- Every source's enable and chain replaced (R196). -/
def State.setAttention (s : State) (settings : List Byte) : State :=
  { s with attention := s.attention.mapIdx fun i a => a.set (settings.getD i 0) }

/-- SET_ATTENTION (R196). A message without all fourteen bytes is answered BAD_REQUEST. -/
def execSetAttention (settings : List Byte) (s : State) (more : List Byte := []) : Host.Outcome State Fault Refusal :=
  portDo (.setAttention settings more)
    (fun s =>
      if settings.length = 14 then .did (s.setAttention settings) State.attentionBytes else tell .badRequest) s

/-- The flags named are cleared: bit i for the source at place i (R197, R210). -/
def State.ack (s : State) (sources : Half) : State :=
  { s with attention := s.attention.mapIdx fun i a =>
             { a with flag := a.flag && !sources.toNat.testBit i } }

/-- ACK (R197). It is no request activity (R185). -/
def execAck (sources : Half) (s : State) (more : List Byte := []) : Host.Outcome State Fault Refusal :=
  if s.port.turnaround then .next (s.tooSoon (portBytes (.ack sources more)))
  else
    let s' := ((s.beginTransaction (portBytes (.ack sources more))).ack sources).refreshOutputs
    .next (s'.answer (echoOf (.ack sources more)) .done s'.attentionBytes)

/-- The marks of a node (R192). -/
def State.markBytes (s : State) (n : NodeNo) : List Byte :=
  match s.node? n with
  | some x => flagField x.overrun ++ flagField x.badRequest
  | none => []

/-- R192. -/
def ackNodeTaken (s : State) (address : Byte) : Taken :=
  match nodeOfByte address with
  | none => tell .badRequest
  | some n =>
    if (s.node? n).isSome then .did (s.updNode n fun x => { x with badRequest := false }) fun s => s.markBytes n
    else tell .notFound

/-- ACK_NODE (R192). -/
def execAckNode (address : Byte) (s : State) (more : List Byte := []) : Host.Outcome State Fault Refusal :=
  portDo (.ackNode address more) (fun s => ackNodeTaken s address) s

/-! ### Parameters (R188) -/

/-- 0 (off), or a range. -/
def offOr (low high v : Nat) : Bool := v == 0 || (decide (low ≤ v) && decide (v ≤ high))

/-- A range. -/
def between (low high v : Nat) : Bool := decide (low ≤ v) && decide (v ≤ high)

/-- A parameter set. -/
def State.withParams (s : State) (p : Params) (written : List Byte) : Taken := .did { s with params := p } fun _ => written

/-- The lowest-numbered entry that forbids a lower rewash limit (R115). -/
def State.aboveLimit (s : State) (limit : Nat) : Option EntryNo :=
  (s.entriesWhere fun x => x.state != .setAside && x.state != .missing && decide (limit < x.rewashes)).head?

/-- R115. -/
def setRewashLimit (s : State) (v : Nat) : Taken :=
  if 3 < v then tell .badRequest
  else
    match (if v < s.params.rewashLimit then s.aboveLimit v else none) with
    | some e => .told .occupied fun _ => byteField e.val
    | none => s.withParams { s.params with rewashLimit := v } (byteField v)

/-- The grace time applies at once to the entries in FINAL (R114). -/
def setGrace (s : State) (v : Nat) : Taken :=
  if 2000 < v then tell .badRequest
  else (s.inFinal fun p => p.markDropout v).withParams { s.params with grace := v } (halfField v)

/-- One parameter by its identifier (R188, R210). -/
def setParamTaken (s : State) (id : Byte) (v : Nat) : Taken :=
  match id.toNat with
  | 1 => if between 500 10000 v then s.withParams { s.params with clearLimit := v } (halfField v) else tell .badRequest
  | 2 => if v ≤ 1 then s.withParams { s.params with autoAdmission := v == 1 } (byteField v) else tell .badRequest
  | 3 => if offOr 60 3600 v then s.withParams { s.params with staleLimit := v } (halfField v) else tell .badRequest
  | 4 => if between 1000 60000 v then s.withParams { s.params with minDwell := v } (halfField v) else tell .badRequest
  | 5 => setGrace s v
  | 6 => setRewashLimit s v
  | 7 => if between 10 50 v then s.withParams { s.params with roundPeriod := v } (byteField v) else tell .badRequest
  | 8 => if offOr 10 600 v then s.withParams { s.params with promotionLimit := v } (halfField v) else tell .badRequest
  | 9 => if v ≤ 120 then s.withParams { s.params with idleLimit := v } (byteField v) else tell .badRequest
  | _ => tell .badRequest

/-- SET_PARAM (R188). -/
def execSetParam (id : Byte) (value : Half) (s : State) (more : List Byte := []) : Host.Outcome State Fault Refusal :=
  portDo (.setParam id value more) (fun s => setParamTaken s id value.toNat) s

end Sys2Proof.Machine
end

