-- ==== Sys2Proof/Machine/Dispatch.lean ====
section
/-! DEFINITION. What each command does to everything but the queue: one arm for each row of spec/opcode_table.json. -/

namespace Sys2Proof.Machine

/-- The meaning of a command. -/
def exec (i : Instr) (s : State) : Host.Outcome State Fault Refusal :=
  match i with
  | .powerOn b => Sys2Proof.Machine.execPowerOn b s
  | .nop more => Sys2Proof.Machine.execNop s more
  | .mode code more => Sys2Proof.Machine.execMode code s more
  | .setParam id value more => Sys2Proof.Machine.execSetParam id value s more
  | .readCounts more => Sys2Proof.Machine.execReadCounts s more
  | .readEntry sel more => Sys2Proof.Machine.execReadEntry sel s more
  | .readSegment seg start more => Sys2Proof.Machine.execReadSegment seg start s more
  | .readTunnel start more => Sys2Proof.Machine.execReadTunnel start s more
  | .readNode address more => Sys2Proof.Machine.execReadNode address s more
  | .readDemand start more => Sys2Proof.Machine.execReadDemand start s more
  | .readAttention more => Sys2Proof.Machine.execReadAttention s more
  | .setAttention settings more => Sys2Proof.Machine.execSetAttention settings s more
  | .ack sources more => Sys2Proof.Machine.execAck sources s more
  | .ackNode address more => Sys2Proof.Machine.execAckNode address s more
  | .admitRack tag seg more => Sys2Proof.Machine.execAdmit tag seg s more
  | .retire tag more => Sys2Proof.Machine.execRetire tag s more
  | .restore tag seg clean more => Sys2Proof.Machine.execRestore tag seg clean s more
  | .clearTable more => Sys2Proof.Machine.execClearTable s more
  | .defineSegment number fields more => Sys2Proof.Machine.execDefineSegment number fields s more
  | .segmentHold seg more => Sys2Proof.Machine.execSegmentHold seg s more
  | .segmentRelease seg more => Sys2Proof.Machine.execSegmentRelease seg s more
  | .clearJam src seg => Sys2Proof.Machine.execClearJam src seg s
  | .stepGate seg more => Sys2Proof.Machine.execStep seg s more
  | .resume src => Sys2Proof.Machine.execResume src s
  | .clearStranger seg more => Sys2Proof.Machine.execClearStranger seg s more
  | .defineTunnel fields more => Sys2Proof.Machine.execDefineTunnel fields s more
  | .clearTunnelFault more => Sys2Proof.Machine.execClearTunnelFault s more
  | .defineNode address fields more => Sys2Proof.Machine.execDefineNode address fields s more
  | .linkReset more => Sys2Proof.Machine.execLinkReset s more
  | .steer on more => Sys2Proof.Machine.execSteer on s more
  | .lookup src tag => Sys2Proof.Machine.execLookup src tag s
  | .send src tag expected => Sys2Proof.Machine.execSend src tag expected s
  | .claim src tag expected => Sys2Proof.Machine.execClaim src tag expected s
  | .unloadDone src tag expected => Sys2Proof.Machine.execUnloadDone src tag expected s
  | .rewash src tag expected => Sys2Proof.Machine.execRewash src tag expected s
  | .release src tag expected => Sys2Proof.Machine.execRelease src tag expected s
  | .hold src tag expected reason => Sys2Proof.Machine.execHold src tag expected reason s
  | .unhold src tag expected reason => Sys2Proof.Machine.execUnhold src tag expected reason s
  | .forceRelease src tag expected => Sys2Proof.Machine.execForceRelease src tag expected s
  | .badCheckMessage bytes => Sys2Proof.Machine.execBadCheckMessage bytes s
  | .unknownRequest bytes => Sys2Proof.Machine.execUnknownRequest bytes s
  | .tooSoonTransaction bytes => Sys2Proof.Machine.execTooSoonTransaction bytes s
  | .turnaroundEnd => Sys2Proof.Machine.execTurnaroundEnd s
  | .roundStart => Sys2Proof.Machine.execRoundStart s
  | .headerSent => Sys2Proof.Machine.execHeaderSent s
  | .roundEnd => Sys2Proof.Machine.execRoundEnd s
  | .sightingWindowRunOut seg => Sys2Proof.Machine.execSightingWindowRunOut seg s
  | .windowEnd node seen => Sys2Proof.Machine.execWindowEnd node seen s
  | .validReply window branch reply => Sys2Proof.Machine.execValidReply window branch reply s
  | .branchWake branch => Sys2Proof.Machine.execBranchWake branch s
  | .resetPulseEnd => Sys2Proof.Machine.execResetPulseEnd s
  | .eyeBlock input => Sys2Proof.Machine.execEyeBlock input s
  | .eyeClear input => Sys2Proof.Machine.execEyeClear input s
  | .gateOpen seg => Sys2Proof.Machine.execGateOpen seg s
  | .jam seg => Sys2Proof.Machine.execJam seg s
  | .safeStop b => Sys2Proof.Machine.execSafeStop b s
  | .secondsTick => Sys2Proof.Machine.execSecondsTick s
  | .stale entry => Sys2Proof.Machine.execStale entry s
  | .promotion node kind => Sys2Proof.Machine.execPromotion node kind s
  | .autoQuiet => Sys2Proof.Machine.execAutoQuiet s
  | .paceTick => Sys2Proof.Machine.execPaceTick s
  | .paceCounterZero => Sys2Proof.Machine.execPaceCounterZero s
  | .encoderCount => Sys2Proof.Machine.execEncoderCount s
  | .pitchReached => Sys2Proof.Machine.execPitchReached s
  | .exitEyeBlock => Sys2Proof.Machine.execExitEyeBlock s
  | .exitEyeClear => Sys2Proof.Machine.execExitEyeClear s
  | .machineLineChange line b => Sys2Proof.Machine.execMachineLineChange line b s
  | .rinseOkAssert => Sys2Proof.Machine.execRinseOkAssert s
  | .rinseOkDeassert => Sys2Proof.Machine.execRinseOkDeassert s
  | .dropout entry => Sys2Proof.Machine.execDropout entry s
  | .dwellMillisecond => Sys2Proof.Machine.execDwellMillisecond s

end Sys2Proof.Machine
end

