-- ==== Sys2Proof/Machine/Step.lean ====
section
/-! DEFINITION. One step: the command at the front of the queue; on an empty queue a step of the controller's own that
is due, or one millisecond (notes/assumptions/1.md). -/

namespace Sys2Proof.Machine

/-- A round begins when the last one has ended. -/
def State.dueRound (s : State) : Option Instr :=
  if s.link.phase = .between ∧ s.mode ≠ .quiet then some .roundStart else none

/-- A sighting window that has counted its rounds (R62). -/
def State.dueWindow (s : State) : Option Instr :=
  ((List.finRange 32).find? fun n => (s.windowRunsOut n).isSome).map .sightingWindowRunOut

/-- What the last step of the seconds counter left (R74, R170, R205). -/
def State.dueSecond (s : State) : Option Instr :=
  match s.due.stale, s.due.promote with
  | e :: _, _ => some (.stale e)
  | [], (n, k) :: _ => some (.promotion n k)
  | [], [] => if s.due.autoQuiet then some .autoQuiet else none

/-- A transfer timer has run out with the eye blocked (R47). That a timer which runs out while the eye is clear, after a
redefinition that read a clear eye (R54), leaves the gate OPEN and jams as soon as the eye blocks is the model's choice
(notes/assumptions/43.md). -/
def State.dueJam (s : State) : Option Instr :=
  ((List.finRange 32).find? fun n =>
    s.canJam n && (s.seg? n).any fun g => g.transfer.any fun t => t.remaining == 0).map .jam

/-- A gate may open (R42, R46). -/
def State.dueGate (s : State) : Option Instr := ((List.finRange 32).find? fun n => (s.mayOpen n).isSome).map .gateOpen

/-- The tick timer has run 100 ms (R85). -/
def State.dueTick (s : State) : Option Instr :=
  if s.tickTimerRuns ∧ Config.paceTickMs ≤ s.tunnel.tickMs then some .paceTick else none

/-- The step of the controller's own that an empty queue takes next. -/
def State.internal? (s : State) : Option Instr :=
  s.dueRound <|> s.dueWindow <|> s.dueSecond <|> s.dueJam <|> s.dueGate <|> s.dueTick

/-- One millisecond of a transfer timer (R43, R50). -/
def Segment.millisecond (g : Segment) : Segment :=
  { g with transfer := g.transfer.map fun t => { t with remaining := t.remaining - 1 } }

/-- One millisecond: the transfer timers run while the stop latch is clear (R50), the tick timer while R85 lets it. -/
def State.millisecond (s : State) : State :=
  { s with segments := if s.stopLatch then s.segments else s.segments.map (Option.map Segment.millisecond),
           tunnel := if s.tickTimerRuns then { s.tunnel with tickMs := s.tunnel.tickMs + 1 } else s.tunnel }

/-- One step of the block. -/
def step (s : State) : Host.Outcome State Fault Refusal :=
  match s.pending with
  | c :: rest => exec c { s with pending := rest }
  | [] =>
    match s.internal? with
    | some c => exec c s
    | none => .next s.millisecond.refreshOutputs

/-- The command a word spells is put at the front of the queue; no row gives bits, so no word spells one. -/
def State.withFetchWord (s : State) (nbits w : Nat) : State :=
  match decodeTableWord nbits w with
  | some c => { s with pending := c :: s.pending }
  | none => s

end Sys2Proof.Machine
end

