-- ==== Sys2Proof/Safety.lean ====
section
/-! DEFINITION. What "nothing else changed" and "the state is sound" mean for this block: the frames and invariants
that statements are made of. -/

namespace Sys2Proof.Machine

/-! ### Frames -/

/-- `y` is `x` but for its stale age. -/
def SameButStale (x y : Option Entry) : Prop :=
  y.map (fun z => { z with staleAge := 0 }) = x.map fun z => { z with staleAge := 0 }

/-- The entry stands in the queue of a segment that passed from exempt to not exempt (R74, R75). -/
def ExemptionEnds (before t : State) (e : EntryNo) : Prop :=
  ∃ n g h, before.seg? n = some g ∧ t.seg? n = some h ∧ g.exempt = true ∧ h.exempt = false ∧ e ∈ h.queue

/-- `t` is what a command that began in `before` and made the change to `s` leaves in the same step (R75, R173, R205). The
stores are offered to the demand queue, one assignment after another, until none is left to make. Beside that only the
stale ages differ that start again where an exemption ended, the idle timer, held at 0 outside QUIET while it does not
count, and the output lines, which are those of `t`. -/
structure SettledFrom (before s t : State) : Prop where
  offered : t = { s.offerStores s.demand.length with entries := t.entries, idle := t.idle, out := t.outputs }
  restarted : ∀ e, ExemptionEnds before t e →
    t.entry? e = ((s.offerStores s.demand.length).entry? e).map fun x => { x with staleAge := 0 }
  kept : ∀ e, ¬ ExemptionEnds before t e → t.entry? e = (s.offerStores s.demand.length).entry? e
  idle : t.idle = if t.mode ≠ .quiet ∧ t.idleCounts = false then 0 else (s.offerStores s.demand.length).idle

/-- The port after a request whose answer is `r` with `body` (R184, R185). -/
def Port.answered (p : Port) (c : Instr) (r : Result) (body : List Byte) : Port :=
  { request := portBytes c
    answer := { number := p.answer.number + 1, echo := echoOf c, start := false, result := r, body := body }
    shown := p.answer.bytes
    turnaround := true }

/-- A request answered as a read is: nothing but the port changes (R189). -/
def State.answering (s : State) (c : Instr) (r : Result) (body : List Byte) : State :=
  { s with port := s.port.answered c r body }

/-- A request answered without a change: only the port changes, and outside QUIET the idle timer starts again (R185,
R205). -/
def State.answeredOnly (s : State) (c : Instr) (r : Result) (body : List Byte) : State :=
  { s.touchIdle with port := s.port.answered c r body }

/-! ### What a command comes to -/

/-- The state in which the rule that owns a port request finds the block: the transaction is taken and reported as
request activity (R185). -/
def State.taken (s : State) (c : Instr) : State := (s.beginTransaction (portBytes c)).touchIdle

/-- `c` is carried out: the change to `s'` with what follows it, and the answer DONE with a body read off the state that
the step leaves. -/
def Takes (c : Instr) (s s' : State) (body : State → List Byte) : Prop :=
  ∃ t, exec c s = .next { t with port := s.port.answered c .done (body t) } ∧ SettledFrom s s' t

/-- `c` is carried out, and nothing follows the change to `s'` in the same step: the next state is `s'` with the answer DONE
and the output lines at their levels. -/
def TakesAlone (c : Instr) (s s' : State) (body : List Byte) : Prop :=
  exec c s = .next { s' with port := s.port.answered c .done body, out := s'.outputs }

/-- `c` is answered `r` and changes nothing else. -/
def Tells (c : Instr) (s : State) (r : Result) (body : List Byte) : Prop := exec c s = .next (s.answeredOnly c r body)

/-- `c` is answered BAD_REQUEST: it changes nothing outside the port and is no request activity (R185). -/
def TellsBad (c : Instr) (s : State) : Prop :=
  exec c s = .next (s.answering c .badRequest [])

/-- The event `c` makes the change to `s'`, with what follows it. -/
def Happens (c : Instr) (s s' : State) : Prop := ∃ t, exec c s = .next t ∧ SettledFrom s s' t

/-- A station's request becomes its node's pending request and is reported as activity (R141). -/
def State.requested (s : State) (n : NodeNo) (q : RackRequest) : State :=
  (s.updNode n fun x => { x with request := some q }).touchIdle

/-- A station's request is carried out: the change to `s'` with what follows it, the answer DONE in the answer queue, and
in the closing round of QUIET the wake (R141, R144, R206). -/
def StationTakes (c : Instr) (n : NodeNo) (q : RackRequest) (s s' : State) (m : State → Option Summary) : Prop :=
  ∃ u, exec c s = .next ((u.queueAnswer n q .done (m u)).wake true).refreshOutputs ∧ SettledFrom s s' u

/-- A station's request is answered `r` and changes nothing else. -/
def StationTells (c : Instr) (n : NodeNo) (q : RackRequest) (s : State) (r : Result) (m : Option Summary) : Prop :=
  exec c s = .next (((s.requested n q).queueAnswer n q r m).wake true).refreshOutputs

/-- The source and the request of a rack command (11.1). -/
def rackRow : Instr → Option (Source × RackRequest)
  | .lookup src t => some (src, ⟨1, .tag t, none, none⟩)
  | .send src t expected => some (src, ⟨2, (t.map Argument.tag).getD .none, expected, none⟩)
  | .claim src t expected => some (src, ⟨3, .tag t, expected, none⟩)
  | .unloadDone src t expected => some (src, ⟨4, .tag t, expected, none⟩)
  | .rewash src t expected => some (src, ⟨5, .tag t, expected, none⟩)
  | .release src t expected => some (src, ⟨6, .tag t, expected, none⟩)
  | .hold src t expected reason => some (src, ⟨7, .tag t, expected, reason⟩)
  | .unhold src t expected reason => some (src, ⟨8, .tag t, expected, reason⟩)
  | .clearJam src seg => some (src, ⟨9, .segment seg, none, none⟩)
  | .resume src => some (src, ⟨10, .none, none, none⟩)
  | .forceRelease src t expected => some (src, ⟨11, .tag t, expected, none⟩)
  | _ => none

/-- A station that is heard, with no request pending: its node is PRESENT, and the reply windows of a round run (R117, R141,
R142); in QUIET the only round is the closing one (R148). -/
def Heard (s : State) (n : NodeNo) (x : Node) : Prop :=
  s.node? n = some x ∧ x.presence = .present ∧ x.request = none ∧ ∃ r, s.link.phase = .windows r

/-- An expected state that is absent or the one the entry has (R149). -/
def Expects (expected : Option Byte) (st : RackState) : Prop :=
  ∀ b, expected = some b → RackState.ofCode b.toNat = some st

/-! ### Conditions of the rules -/

/-- Conditions 2 to 9 of R42 for the head `e` of a segment, with what routing gives as the destination. -/
def MayLeave (s : State) (g : Segment) (e : EntryNo) (x : Entry) (dest : Place) : Prop :=
  s.stopLatch = false ∧ g.jammed = false ∧ g.heldBySupervisor = false ∧ g.stranger = none ∧ g.queue.head? = some e ∧
  s.entry? e = some x ∧ g.headArrived = true ∧ g.window = .closed ∧ x.hold = none ∧ s.route g x = some dest ∧
  (∀ d, dest = .segment d → ∃ h, s.seg? d = some h ∧ h.jammed = false ∧
    (1 ≤ h.freeSpace ∨ s.carries x dest = true)) ∧
  (dest = .tunnel → s.tunnelReady = true)

/-- The gate of `m` is ready for segment `d` (R46). -/
def ReadyGate (s : State) (d m : SegNo) : Prop :=
  ∃ g e x, s.seg? m = some g ∧ g.transfer = none ∧ MayLeave s g e x (.segment d)

/-- The PARK of the item's node has free space of at least 1 (R175). -/
def Servable (s : State) (i : DemandItem) : Prop :=
  ∃ p g, s.parkOf i.station = some p ∧ s.seg? p = some g ∧ 1 ≤ g.freeSpace

/-- A STORE of kind `k` offers its head `e` (R173). -/
def StoreOffers (s : State) (k : Kind) (e : EntryNo) : Prop :=
  ∃ n g x, s.seg? n = some g ∧ g.config.kind = .store ∧ g.config.storeKind = some k ∧ g.headArrived = true ∧
    g.jammed = false ∧ g.heldBySupervisor = false ∧ g.stranger = none ∧ g.queue.head? = some e ∧ s.entry? e = some x ∧
    x.state = .stored ∧ x.hold = none ∧ 1 ≤ s.storedCount k

/-- An assigned rack that stands RETURNING in a STORE whose gate is not OPEN for it (R41). -/
def StandsInStore (s : State) (e : EntryNo) (y : Entry) : Prop :=
  y.state = .returning ∧ ∃ m g, y.location = some (.segment m) ∧ s.seg? m = some g ∧ g.config.kind = .store ∧
    ¬ (g.transfer ≠ none ∧ g.queue.head? = some e)

/-- What the clearing of its assignment leaves of the record of an assigned rack (R41, R178). -/
def Cancelled (s : State) (e : EntryNo) (y z : Entry) : Prop :=
  (StandsInStore s e y → z = { y with assignment := none, state := .stored }) ∧
  (¬ StandsInStore s e y → z = { y with assignment := none })

/-- The dispatch reservations of PARK `p` fall by one for each rack whose assignment is cleared (R30, R178). -/
def ParkReleased (s : State) (p : SegNo) (g h : Segment) (cleared : Entry → Bool) : Prop :=
  h.reservedDispatch = g.reservedDispatch -
    ((List.finRange 128).filter fun e => (s.entry? e).any fun y =>
      cleared y && y.assignment.any fun n => s.parkOf n == some p).length

/-! ### Arrival at a gate -/

/-- `t` is `s`, where segment `n` is `g`, with its head `e`, whose record is `x`, taken as arrived (R32, R39, R61): the flag; at
a reader-bound gate outside CONFIGURE a HEAD window that awaits a head not placed there; HOLD_REACHED and ASIDE_REACHED as R39
says, where its stay begins; nothing else. That the mark of placement is a field of the entry is the model's reading of R32 and
R61 (notes/assumptions/6.md). -/
def ArrivedHead (s t : State) (n : SegNo) (g : Segment) (e : EntryNo) (x : Entry) : Prop :=
  t.seg? n = some
    { g with
      headArrived := true, unresolved := false
      window := if g.config.reader ≠ none ∧ s.mode ≠ .configure ∧ x.placed = false
        then .head 2 e s.round?.isSome else g.window } ∧
  ((t.source .holdReached).flag = ((s.source .holdReached).flag || (!g.headArrived && x.hold.isSome))) ∧
  ((t.source .asideReached).flag = ((s.source .asideReached).flag || (!g.headArrived && x.state == .setAside &&
    g.config.kind != .outfeed && g.config.kind != .exit && g.config.kind != .rewash))) ∧
  (∀ a, a ≠ .holdReached → a ≠ .asideReached → t.source a = s.source a) ∧
  (∀ m, m ≠ n → t.seg? m = s.seg? m) ∧ t = { s with segments := t.segments, attention := t.attention }

/-- `t` is `s`, where segment `d` is `h`, with the entry `e` at the tail of its queue (R13, R44, R63, R72, R90): an open window of
an empty segment closes; where the queue was empty and the eye is blocked the entry, whose record is `x`, is the arrived head at
once, also at a JAMMED segment and, by departure or exit, at one that holds STRANGER (notes/assumptions/34.md); one that is
placed is a stranger record's vouched entry (R72). -/
def JoinsTail (placed : Bool) (s t : State) (d : SegNo) (h : Segment) (e : EntryNo) (x : Entry) : Prop :=
  let joined : Segment :=
    { h with queue := h.queue ++ [e], window := if h.queue.isEmpty then .closed else h.window }
  let known : Segment :=
    { joined with stranger := if placed then h.stranger.map fun r => { r with vouched := some e } else h.stranger }
  (h.queue = [] → s.eyes.get h.config.eye = true → ArrivedHead (s.putSeg d (some known)) t d known e x) ∧
  (h.queue ≠ [] ∨ s.eyes.get h.config.eye = false → t = s.putSeg d (some joined))

/-- Segment `g` once the entry `e` has left its queue at a CLOSED gate other than by departure (R12): the entries behind it move
up; of the head, the head-arrived flag is cleared, the window closed, and a vouched entry taken out of the stranger record: R72
says that it loses its force, that it is taken out is the model's reading (notes/assumptions/37.md). -/
def leftBehind (g : Segment) (e : EntryNo) : Segment :=
  if g.queue.head? = some e then
    { g with
      queue := g.queue.erase e, headArrived := false, window := .closed
      stranger := g.stranger.map fun r => { r with vouched := none } }
  else { g with queue := g.queue.erase e }

/-! ### The layout checks of R56 -/

/-- The kinds of which a layout has exactly one segment. -/
def soleKinds : List SegKind := [.entry, .outfeed, .exit, .rewash, .aside]

/-- Segment `n` is defined and of the kind. -/
def OfKind (s : State) (k : SegKind) (n : SegNo) : Prop := ∃ g, s.seg? n = some g ∧ g.config.kind = k

/-- The successor of segment `a` is segment `b`. -/
def FollowedBy (s : State) (a b : SegNo) : Prop := ∃ g, s.seg? a = some g ∧ g.config.successor = some (.segment b)

/-- The successors of `n` pass through COLLECT segments, none of them met twice, to ENTRY. -/
def LeadsToEntry (s : State) (n : SegNo) : Prop :=
  ∃ path last, path.head? = some n ∧ path.Nodup ∧ (∀ m ∈ path, OfKind s .collect m) ∧ OfKind s .entry last ∧
    List.IsChain (FollowedBy s) (path ++ [last])

/-- Exactly one CLEAN segment names `n` as its alternate. -/
def NamedByOneClean (s : State) (n : SegNo) : Prop :=
  ∃! c, ∃ g, s.seg? c = some g ∧ g.config.kind = .clean ∧ g.config.alternate = some n

/-- The successor is a segment of the kind. -/
def SuccessorIs (s : State) (g : Segment) (k : SegKind) : Prop := ∃ m, g.config.successor = some (.segment m) ∧ OfKind s k m

/-- The alternate is a segment of the kind. -/
def AlternateIs (s : State) (g : Segment) (k : SegKind) : Prop := ∃ a, g.config.alternate = some a ∧ OfKind s k a

/-- A LOAD node of that address is defined. -/
def IsLoadNode (s : State) (m : NodeNo) : Prop := ∃ x c, s.node? m = some x ∧ x.role = .load c

/-- What check `k` of R56 asks of segment number `n`. Of segments that must not share something all but the lowest-numbered
offend, and an ENTRY whose successor is a defined segment passes check 2 and fails check 3: the model's choice
(notes/assumptions/15.md). -/
def NumberPasses (s : State) (k : Nat) (n : SegNo) : Prop :=
  match k with
  | 1 => ∀ g, s.seg? n = some g → g.config.kind ∈ soleKinds → ∀ m, m < n → ¬ OfKind s g.config.kind m
  | 2 => ∀ g, s.seg? n = some g →
      (match g.config.successor with
        | none => g.config.kind = .aside
        | some .tunnel => g.config.kind = .entry
        | some (.segment m) => g.config.kind ≠ .aside ∧ s.seg? m ≠ none) ∧
      ∀ a, g.config.alternate = some a → s.seg? a ≠ none
  | 3 => ∀ g, s.seg? n = some g → g.config.kind = .entry → g.config.successor = some .tunnel ∧ g.config.alternate = none
  | 4 => ∀ g, s.seg? n = some g → g.config.kind = .outfeed → SuccessorIs s g .exit ∧ AlternateIs s g .rewash
  | 5 => ∀ g, s.seg? n = some g → g.config.kind = .exit → SuccessorIs s g .clean ∧ AlternateIs s g .rewash
  | 6 => ∀ g, s.seg? n = some g → g.config.kind = .rewash → SuccessorIs s g .entry ∧ AlternateIs s g .aside
  | 7 => ∀ g, s.seg? n = some g → g.config.kind = .collect → g.config.alternate = none ∧ LeadsToEntry s n
  | 8 => ∀ g, s.seg? n = some g → g.config.kind = .park →
      (∃ o, g.config.owner = some o ∧ IsLoadNode s o) ∧
      (∀ m h, m < n → s.seg? m = some h → h.config.kind = .park → h.config.owner ≠ g.config.owner) ∧
      SuccessorIs s g .collect ∧ g.config.alternate = none ∧ NamedByOneClean s n
  | 10 => ∀ g, s.seg? n = some g → g.config.kind = .clean →
      SuccessorIs s g .clean ∧ ∀ a, g.config.alternate = some a → OfKind s .park a ∨ OfKind s .store a
  | 11 => ∀ g, s.seg? n = some g → g.config.kind = .store →
      SuccessorIs s g .clean ∧ g.config.alternate = none ∧
      (∀ m h, m < n → s.seg? m = some h → h.config.kind = .store → h.config.storeKind ≠ g.config.storeKind) ∧
      NamedByOneClean s n
  | 12 => ∀ g, s.seg? n = some g → ∀ m h, m < n → s.seg? m = some h →
      h.config.eye ≠ g.config.eye ∧ h.config.drive ≠ g.config.drive ∧
      (g.config.diverter ≠ none → h.config.diverter ≠ g.config.diverter)
  | 13 =>
      (∀ g r, s.seg? n = some g → g.config.reader = some r → ∃ x, s.node? r = some x ∧ x.role = .reader n) ∧
      (∀ r x, s.node? r = some x → x.role = .reader n → ∃ g, s.seg? n = some g ∧ g.config.reader = some r)
  | _ => True

/-- What check `k` of R56 asks of no one segment: the five kinds, the tunnel, the LOAD nodes, the one ring. -/
def TablePasses (s : State) (k : Nat) : Prop :=
  match k with
  | 1 => ∀ kind ∈ soleKinds, ∃ n, OfKind s kind n
  | 3 => s.tunnel.config ≠ none
  | 9 => ∀ m, IsLoadNode s m → ∃ n g, s.seg? n = some g ∧ g.config.kind = .park ∧ g.config.owner = some m
  | 10 => ∀ a b, OfKind s .clean a → OfKind s .clean b → Relation.ReflTransGen (FollowedBy s) a b
  | _ => True

/-- The layout passes check `k` of R56. -/
def CheckPasses (s : State) (k : Nat) : Prop := TablePasses s k ∧ ∀ n, NumberPasses s k n

/-- `o` is what offends check `k` (R57): a kind that is absent, TUNNEL where it is not defined, the lowest-numbered node or
segment that fails it; of a ring that fails, the lowest CLEAN segment (notes/assumptions/15.md). -/
def Offends (s : State) (k : Nat) (o : Offender) : Prop :=
  match o with
  | .missingKind kind => k = 1 ∧ (∀ n, ¬ OfKind s kind n) ∧
      ∃ before after, soleKinds = before ++ kind :: after ∧ ∀ j ∈ before, ∃ n, OfKind s j n
  | .tunnel => k = 3 ∧ s.tunnel.config = none
  | .node m =>
      let unserved (l : NodeNo) : Prop :=
        IsLoadNode s l ∧ ∀ n g, s.seg? n = some g → g.config.kind = .park → g.config.owner ≠ some l
      k = 9 ∧ unserved m ∧ ∀ l, l < m → ¬ unserved l
  | .segment n =>
      (k = 1 ∨ k = 3 → TablePasses s k) ∧
      ((¬ NumberPasses s k n ∧ ∀ m, m < n → NumberPasses s k m) ∨
        (k = 10 ∧ (∀ m, NumberPasses s 10 m) ∧ ¬ TablePasses s 10 ∧ OfKind s .clean n ∧ ∀ m, m < n → ¬ OfKind s .clean m))

/-! ### Invariants -/

/-- Every output line is at the level that R35, R36, R97 and R195 give it. -/
def OutputsAgree (s : State) : Prop := s.out = s.outputs

/-- R4: the free list holds each free place once, and no place in use. -/
def FreeListSound (s : State) : Prop := s.freeList.Nodup ∧ ∀ e, e ∈ s.freeList ↔ s.entry? e = none

/-- R3: no two in-use entries carry the same tag. -/
def TagsDistinct (s : State) : Prop :=
  ∀ e d x y, s.entry? e = some x → s.entry? d = some y → x.tag = y.tag → e = d

end Sys2Proof.Machine
end

