-- ==== Sys2Proof/Certificates/Slice0/Obligations.lean ====
section
/-! DEFINITION. The statements for the provers: what the commands of the block do. In OBLIGATIONS.json each has its
rules; the frames (`Takes`, `Tells`, `Happens`, …) are those of Sys2Proof/Safety.lean. -/

open Sys2Proof Sys2Proof.Machine

/-! ### The machine -/

/-- A step with a command at the front of the queue is the command on the queue's rest. -/
def Obligations.StepTakesFront : Prop :=
  ∀ (c : Instr) (q : List Instr) (s : State), step { s with pending := c :: q } = exec c { s with pending := q }

/-- A step on an empty queue is the controller's own step that is due, or one millisecond: transfer timers run while the
stop latch is clear (R50), the tick timer where R85 lets it. The order is the model's choice (notes/assumptions/1.md). -/
def Obligations.StepOnEmptyQueue : Prop :=
  ∀ s : State, s.pending = [] →
    (∀ c, s.internal? = some c → step s = exec c s) ∧
    (s.internal? = none → ∃ t, step s = .next t ∧
      t = { s with segments := t.segments, tunnel := { s.tunnel with tickMs := t.tunnel.tickMs }, out := t.outputs } ∧
      (∀ n, t.seg? n = if s.stopLatch then s.seg? n else (s.seg? n).map fun g =>
        { g with transfer := g.transfer.map fun r => { r with remaining := r.remaining - 1 } }) ∧
      t.tunnel.tickMs = if s.tunnel.machineRun ∧ s.tunnel.pace ≠ 0 ∧ s.mode ≠ .quiet then s.tunnel.tickMs + 1
        else s.tunnel.tickMs)

/-- Every command answers a next state, and none changes the queue of waiting commands: no command stops the block
(notes/assumptions/30.md). -/
def Obligations.EveryCommandCompletes : Prop :=
  ∀ (c : Instr) (s : State), ∃ t, exec c s = .next t ∧ t.pending = s.pending

/-- The field lines of `s` stand at the levels of their rules: the drives (R35), the gates, ENTRY_RELEASE and the diverters
(R36), TUNNEL_HALT_REQ (R97). -/
def lineLevels (s : State) : Prop :=
  (∀ k, s.out.drives.get k = true ↔ ∃ n g, s.seg? n = some g ∧ g.config.drive = k ∧ (s.mode = .run ∨ s.mode = .service) ∧
    s.stopLatch = false ∧ g.jammed = false) ∧
  (∀ k, s.out.gates.get k = true ↔
    ∃ n g, s.seg? n = some g ∧ g.config.drive = k ∧ g.config.kind ≠ .entry ∧ g.transfer ≠ none) ∧
  (s.out.entryRelease = true ↔ ∃ n g, s.seg? n = some g ∧ g.config.kind = .entry ∧ g.transfer ≠ none) ∧
  (∀ k, s.out.diverters.get k = true ↔ ∃ n g r a, s.seg? n = some g ∧ g.config.diverter = some k ∧ g.transfer = some r ∧
    g.config.alternate = some a ∧ r.dest = .segment a) ∧
  (s.out.haltRequest = true ↔ s.stopLatch = true ∨ s.tunnel.fault ≠ none ∨
    ∃ c e rest x p o g, s.tunnel.config = some c ∧ s.tunnel.list = e :: rest ∧ s.entry? e = some x ∧ x.pass = some p ∧
      s.outfeed = some o ∧ s.seg? o = some g ∧ g.freeSpace = 0 ∧
      c.exitDistance - c.exitTolerance - c.haltMargin ≤ (s.tunnel.encoder - p.mark).toNat)

/-- Every step keeps every output line at the level that R35, R36, R97 and R195 give it; for the field lines these levels
are spelled out. -/
def Obligations.OutputsFollowState : Prop :=
  ∀ s t : State, OutputsAgree s → step s = .next t → OutputsAgree t ∧ lineLevels t

/-- Every step keeps the free list the list of exactly the free places, each once (R4). -/
def Obligations.FreeListComplete : Prop := ∀ s t : State, FreeListSound s → step s = .next t → FreeListSound t

/-- Every step keeps the tags of the in-use entries distinct (R3). -/
def Obligations.TagsStayDistinct : Prop := ∀ s t : State, TagsDistinct s → step s = .next t → TagsDistinct t

/-- The machine after reset has the three invariants above. -/
def Sys2Proof.Says.InvariantsAtReset : Prop :=
  OutputsAgree State.reset ∧ FreeListSound State.reset ∧ TagsDistinct State.reset

/-- What power-on leaves (R26, R50, R58, R78, R80, R100, R116, R140, R165, R182, R184, R188, R193, R199). -/
def Sys2Proof.Says.ResetValues : Prop :=
  let r := State.reset
  r.mode = .configure ∧ r.idle = 0 ∧ r.seconds = 0 ∧ r.stopLatch = false ∧
  (∀ e, r.entry? e = none) ∧ r.freeList = List.finRange 128 ∧
  (∀ n, r.seg? n = none) ∧ (∀ n, r.node? n = none) ∧
  r.tunnel.config = none ∧ r.tunnel.list = [] ∧ r.tunnel.encoder = 0 ∧ r.tunnel.pitchCount = 65535 ∧ r.tunnel.pace = 0 ∧
  r.tunnel.trimPosition = 1 ∧ r.tunnel.fault = none ∧ r.tunnel.rinseOk = false ∧
  r.link.phase = .pulse ∧ r.link.steering = false ∧ r.link.nextCount = 0 ∧ r.link.restart = .cold ∧
  r.link.restartLeft = 3 ∧ r.answers = [] ∧ r.demand = [] ∧
  r.port.answer = { number := 0, echo := 0x01, start := true, result := .done, body := [] } ∧
  r.port.turnaround = false ∧
  (∀ a : Source14, r.source a = { flag := false, enable := false, chain := if a = .jam ∨ a = .tunnelFault ∨ a = .safetyStop then .high else .low }) ∧
  r.params = { clearLimit := 4000, autoAdmission := false, staleLimit := 900, minDwell := 12000, grace := 500,
               rewashLimit := 2, roundPeriod := 20, promotionLimit := 120, idleLimit := 20 } ∧
  (∀ k, r.out.drives.get k = false ∧ r.out.gates.get k = false ∧ r.out.diverters.get k = false) ∧
  r.out.entryRelease = false ∧ r.out.haltRequest = false ∧ r.out.attnHi = false ∧ r.out.attnLo = false

/-- What reset leaves, and that the three invariants hold there. -/
def Obligations.ResetLeaves : Prop :=
  Says.ResetValues ∧ Says.InvariantsAtReset

/-- POWER_ON from any state: the state after reset; with SAFE_STOP asserted the stop latch is set, SAFETY_STOP is flagged
and TUNNEL_HALT_REQ asserted (R50, R97, R193). The waiting commands are the model's own and stay. -/
def Obligations.PowerOnResets : Prop :=
  ∀ s : State,
    exec (.powerOn false) s = .next { State.reset with pending := s.pending } ∧
    exec (.powerOn true) s = .next
      { State.reset with
        pending := s.pending, safeStop := true, stopLatch := true,
        attention := State.reset.attention.set Source14.safetyStop.index { flag := true, enable := false, chain := .high },
        out := { Outputs.reset with haltRequest := true } }

/-- R195: the two lines after every step, and at power-on. -/
def Obligations.AttentionLines : Prop :=
  (∀ s t : State, OutputsAgree s → step s = .next t →
    (t.out.attnHi = true ↔
      ∃ a : Source14, (t.source a).chain = .high ∧ (t.source a).flag = true ∧ (t.source a).enable = true) ∧
    (t.out.attnLo = true ↔
      ∃ a : Source14, (t.source a).chain = .low ∧ (t.source a).flag = true ∧ (t.source a).enable = true)) ∧
  State.reset.out.attnHi = false ∧ State.reset.out.attnLo = false

/-! ### The port -/

/-- The transaction of every well-formed request of the port is its message with whatever bytes are clocked beyond its length,
and is taken as that request (R185, R209, R210). -/
def Obligations.PortMessagesDecode : Prop :=
  ∀ (c : Instr) (kind : Byte) (body : List Byte), c.wf = true → c.portBody = some (kind, body) →
    portBytes c = frameMessage kind body ++ c.more ∧ takeMessage (portBytes c) = .request c

/-- NOP shows the answer and keeps it, number included; the request buffer holds every byte of the transaction, those beyond the
message too (R184, R185). -/
def Sys2Proof.Says.NopKeepsAnswer : Prop :=
  ∀ (s : State) (more : List Byte), s.port.turnaround = false →
    exec (.nop more) s = .next { s with port :=
      { request := portBytes (.nop more), answer := s.port.answer, shown := s.port.answer.bytes, turnaround := true } }

/-- R186: while the turnaround runs, every transaction shows PENDING, is not taken, keeps the answer and starts the
turnaround again. -/
def Sys2Proof.Says.PortTooSoon : Prop :=
  ∀ s : State, s.port.turnaround = true →
    (∀ (c : Instr) (kind : Byte) (body : List Byte), c.portBody = some (kind, body) →
      exec c s = .next { s with port :=
        { request := portBytes c, answer := s.port.answer, shown := [0xFF], turnaround := true } }) ∧
    (∀ (bytes : List Byte) (c : Instr),
      c = .tooSoonTransaction bytes ∨ c = .badCheckMessage bytes ∨ c = .unknownRequest bytes →
      exec c s = .next { s with port :=
        { request := bytes, answer := s.port.answer, shown := [0xFF], turnaround := true } })

/-- The turnaround ends (R186). -/
def Sys2Proof.Says.TurnaroundEnds : Prop :=
  ∀ s : State, exec .turnaroundEnd s = .next { s with port := { s.port with turnaround := false } }

/-- R185: a message that fails framing or check is answered BAD_CHECK with the second byte as echo, 00h where there is
none (R209); a good one of no request BAD_REQUEST. Nothing else changes. That BAD_REQUEST carries no body for a MODE message of
the wrong length too is the model's choice (notes/assumptions/49.md), its echo its reading (31.md). -/
def Sys2Proof.Says.MessagesNotTaken : Prop :=
  ∀ (s : State) (bytes : List Byte), s.port.turnaround = false →
    (takeMessage bytes = .badCheck →
      exec (.badCheckMessage bytes) s = .next { s with port :=
        { request := bytes, shown := s.port.answer.bytes, turnaround := true,
          answer := { number := s.port.answer.number + 1, echo := bytes[1]?.getD 0, start := false,
                      result := .badCheck, body := [] } } }) ∧
    (∀ kind, takeMessage bytes = .unknown kind →
      exec (.unknownRequest bytes) s = .next { s with port :=
        { request := bytes, shown := s.port.answer.bytes, turnaround := true,
          answer := { number := s.port.answer.number + 1, echo := kind, start := false,
                      result := .badRequest, body := [] } } })

/-- The transactions that carry no request, NOP and the turnaround (R184 to R186). -/
def Obligations.PortTransactions : Prop :=
  Says.NopKeepsAnswer ∧ Says.TurnaroundEnds ∧ Says.PortTooSoon ∧ Says.MessagesNotTaken

/-- The reads answer DONE with what their rule lists and change nothing but the port (R181, R189 to R191). The layout where
the spec leaves it open, the counts kind by kind among it, is the model's choice (notes/assumptions/11.md, 12.md, 19.md);
so are the place 1 of the head of the free list and of the answer queue (11.md), and the round count and the restart mark where no
round is in progress (44.md). -/
def Sys2Proof.Says.ReadsAnswer : Prop :=
  ∀ (s : State) (more : List Byte), s.port.turnaround = false →
    (exec (.readCounts more) s = .next (s.answering (.readCounts more) .done
      (s.countBytes ++ byteField s.freeList.length ++ secondsField s.seconds ++
        byteField s.link.roundCount.toNat ++ byteField s.link.mark.code ++ byteField s.mode.code ++
        flagField s.stopLatch ++ flagField s.tunnel.fault.isSome ++ byteField s.demand.length ++
        byteField s.answers.length ++ s.params.bytes))) ∧
    (∀ (n : Byte) (e : EntryNo), n.toNat = e.val → s.entry? e = none →
      exec (.readEntry (.number n) more) s = .next (s.answering (.readEntry (.number n) more) .done [n, 1, BitVec.ofNat 8 (positionIn s.freeList e)])) ∧
    (∀ (n : Byte) (e : EntryNo) (x : Entry), n.toNat = e.val → s.entry? e = some x →
      exec (.readEntry (.number n) more) s = .next (s.answering (.readEntry (.number n) more) .done (n :: 0 :: s.entryBytes e x))) ∧
    (∀ (t : Tag) (e : EntryNo) (x : Entry), s.find t = some e → s.entry? e = some x →
      exec (.readEntry (.tag t) more) s = .next (s.answering (.readEntry (.tag t) more) .done (BitVec.ofNat 8 e.val :: 0 :: s.entryBytes e x))) ∧
    (∀ (seg start : Byte) (n : SegNo) (g : Segment), seg.toNat = n.val → start ≠ 0 → s.seg? n = some g →
      exec (.readSegment seg start more) s = .next (s.answering (.readSegment seg start more) .done
        (withList (g.config.bytes n ++ s.segmentBytes n g) start.toNat g.queue s.queueItem))) ∧
    (∀ (start : Byte) (c : TunnelConfig), start ≠ 0 → s.tunnel.config = some c →
      exec (.readTunnel start more) s = .next (s.answering (.readTunnel start more) .done
        (withList (s.tunnelBytes c) start.toNat s.tunnel.list s.tunnelItem))) ∧
    (∀ (address : Byte) (n : NodeNo) (x : Node), address.toNat = n.val + 1 → s.node? n = some x →
      exec (.readNode address more) s = .next (s.answering (.readNode address more) .done (s.nodeBytes n x))) ∧
    (∀ start : Byte, start ≠ 0 →
      exec (.readDemand start more) s = .next (s.answering (.readDemand start more) .done
        (withList s.demandRecord start.toNat s.demand s.demandItem)))

/-- The refusals of the reads (R181, R189 to R191): nothing but the port changes. -/
def Sys2Proof.Says.ReadsRefuse : Prop :=
  ∀ (s : State) (more : List Byte), s.port.turnaround = false →
    (∀ n : Byte, 127 < n.toNat → TellsBad (.readEntry (.number n) more) s) ∧
    (∀ t : Tag, s.find t = none →
      exec (.readEntry (.tag t) more) s = .next (s.answering (.readEntry (.tag t) more) .notFound [])) ∧
    (∀ seg start : Byte, 31 < seg.toNat ∨ start = 0 → TellsBad (.readSegment seg start more) s) ∧
    (∀ (seg start : Byte) (n : SegNo), seg.toNat = n.val → start ≠ 0 → s.seg? n = none →
      exec (.readSegment seg start more) s =
        .next (s.answering (.readSegment seg start more) .notFound [])) ∧
    TellsBad (.readTunnel 0 more) s ∧
    (∀ start : Byte, start ≠ 0 → s.tunnel.config = none →
      exec (.readTunnel start more) s = .next (s.answering (.readTunnel start more) .notFound [])) ∧
    (∀ address : Byte, address = 0 ∨ 16 < address.toNat → TellsBad (.readNode address more) s) ∧
    (∀ (address : Byte) (n : NodeNo), address.toNat = n.val + 1 → s.node? n = none →
      exec (.readNode address more) s = .next (s.answering (.readNode address more) .notFound [])) ∧
    TellsBad (.readDemand 0 more) s

/-- The reads of the port: what they answer and what they refuse (R181, R189 to R191). -/
def Obligations.ReadsOfThePort : Prop :=
  Says.ReadsAnswer ∧ Says.ReadsRefuse

/-- The flag, the enable and the chain of the sources in their order, and the two lines (R198). -/
def attentionAnswer (sources : List Attention) (hi lo : Bool) : List Byte :=
  sources.flatMap (fun a => [if a.flag then 1 else 0, if a.enable then 1 else 0, if a.chain = .high then 1 else 0]) ++
    [if hi then 1 else 0, if lo then 1 else 0]

/-- R198. The premise on the lines is the invariant OutputsFollowState keeps. -/
def Obligations.ReadAttentionAnswers : Prop :=
  ∀ (s : State) (more : List Byte), s.port.turnaround = false → OutputsAgree s →
    exec (.readAttention more) s = .next (s.answering (.readAttention more) .done
      (attentionAnswer s.attention.toList s.out.attnHi s.out.attnLo))

/-- R196: every enable and chain is replaced, the flags are kept, the lines follow; a message without all fourteen pairs
is answered BAD_REQUEST. That the answer groups them by source as R198's is the model's choice (notes/assumptions/11.md). -/
def Obligations.SetAttentionReplaces : Prop :=
  ∀ (s : State) (more : List Byte) (settings : List Byte), s.port.turnaround = false →
    (settings.length ≠ 14 → TellsBad (.setAttention settings more) s) ∧
    (settings.length = 14 → ∃ t,
      exec (.setAttention settings more) s = .next { t with
        port := s.port.answered (.setAttention settings more) .done
          (attentionAnswer t.attention.toList t.out.attnHi t.out.attnLo) } ∧
      SettledFrom s { s.taken (.setAttention settings more) with attention := t.attention } t ∧
      ∀ a : Source14, t.source a =
        { flag := (s.source a).flag, enable := (settings.getD a.index.val 0).getLsbD 1,
          chain := if (settings.getD a.index.val 0).getLsbD 0 then .high else .low })

/-- R197: the flags named are cleared, the others kept, the lines follow; nothing else changes outside the port. That the
answer groups them by source as R198's is the model's choice (notes/assumptions/11.md). -/
def Obligations.AckClears : Prop :=
  ∀ (s : State) (more : List Byte) (sources : Half), s.port.turnaround = false → ∃ t,
    exec (.ack sources more) s = .next t ∧
    t = { s with
          attention := t.attention
          out := t.out
          port := s.port.answered (.ack sources more) .done
            (attentionAnswer t.attention.toList t.out.attnHi t.out.attnLo) } ∧
    OutputsAgree t ∧
    (∀ a : Source14, t.source a = { s.source a with flag := (s.source a).flag && !sources.getLsbD a.index.val }) ∧
    (sources = 0 → t.attention = s.attention)

/-- R192: ACK_NODE clears the bad-request mark of a node and nothing else. -/
def Obligations.AckNodeClearsMark : Prop :=
  ∀ (s : State) (more : List Byte) (address : Byte), s.port.turnaround = false →
    (address = 0 ∨ 16 < address.toNat → TellsBad (.ackNode address more) s) ∧
    (∀ n : NodeNo, address.toNat = n.val + 1 → s.node? n = none → Tells (.ackNode address more) s .notFound []) ∧
    (∀ (n : NodeNo) (x : Node), address.toNat = n.val + 1 → s.node? n = some x →
      Takes (.ackNode address more) s
        ((s.taken (.ackNode address more)).putNode n (some { x with badRequest := false }))
        fun _ => [if x.overrun then 1 else 0, 0])

/-! ### Parameters -/

/-- R188, R55, R76, R114, R115, R121, R171, R205: each parameter in its range; the grace time acts at once on the racks in
FINAL (R114). That the answer gives the round period, a time in milliseconds, in one byte is the model's choice
(notes/assumptions/11.md). -/
def Sys2Proof.Says.SetParamTakes : Prop :=
  ∀ (s : State) (more : List Byte) (v : Half), s.port.turnaround = false →
    let w := v.toNat
    let two : State → List Byte := fun _ => [BitVec.ofNat 8 (w / 256), BitVec.ofNat 8 w]
    let one : State → List Byte := fun _ => [BitVec.ofNat 8 w]
    let set (id : Byte) (p : Params) : State := { s.taken (.setParam id v more) with params := p }
    (500 ≤ w → w ≤ 10000 → Takes (.setParam 1 v more) s (set 1 { s.params with clearLimit := w }) two) ∧
    (w ≤ 1 → Takes (.setParam 2 v more) s (set 2 { s.params with autoAdmission := w == 1 }) one) ∧
    (w = 0 ∨ 60 ≤ w ∧ w ≤ 3600 → Takes (.setParam 3 v more) s (set 3 { s.params with staleLimit := w }) two) ∧
    (1000 ≤ w → w ≤ 60000 → Takes (.setParam 4 v more) s (set 4 { s.params with minDwell := w }) two) ∧
    (w ≤ 2000 → Takes (.setParam 5 v more) s
      { (s.taken (.setParam 5 v more)).inFinal
          (fun p => { p with dropoutMark := p.dropoutMark || decide (w < p.dropoutTimer) }) with
        params := { s.params with grace := w } } two) ∧
    (w ≤ 3 → (w < s.params.rewashLimit →
        ∀ e x, s.entry? e = some x → x.state ≠ .setAside → x.state ≠ .missing → x.rewashes ≤ w) →
      Takes (.setParam 6 v more) s (set 6 { s.params with rewashLimit := w }) one) ∧
    (10 ≤ w → w ≤ 50 → Takes (.setParam 7 v more) s (set 7 { s.params with roundPeriod := w }) one) ∧
    (w = 0 ∨ 10 ≤ w ∧ w ≤ 600 → Takes (.setParam 8 v more) s (set 8 { s.params with promotionLimit := w }) two) ∧
    (w ≤ 120 → Takes (.setParam 9 v more) s (set 9 { s.params with idleLimit := w }) one)

/-- R188: an unknown identifier and a value outside the range are answered BAD_REQUEST; a rewash limit that some entry in
circulation exceeds is refused OCCUPIED (R115). -/
def Sys2Proof.Says.SetParamRefuses : Prop :=
  ∀ (s : State) (more : List Byte) (id : Byte) (v : Half), s.port.turnaround = false →
    let w := v.toNat
    (id = 0 ∨ 9 < id.toNat ∨ (id = 1 ∧ (w < 500 ∨ 10000 < w)) ∨ (id = 2 ∧ 1 < w) ∨
        (id = 3 ∧ w ≠ 0 ∧ (w < 60 ∨ 3600 < w)) ∨ (id = 4 ∧ (w < 1000 ∨ 60000 < w)) ∨ (id = 5 ∧ 2000 < w) ∨
        (id = 6 ∧ 3 < w) ∨ (id = 7 ∧ (w < 10 ∨ 50 < w)) ∨ (id = 8 ∧ w ≠ 0 ∧ (w < 10 ∨ 600 < w)) ∨ (id = 9 ∧ 120 < w) →
      TellsBad (.setParam id v more) s) ∧
    (∀ e x, id = 6 → w < s.params.rewashLimit → w ≤ 3 → s.entry? e = some x → x.state ≠ .setAside → x.state ≠ .missing →
      w < x.rewashes →
      (∀ d y, d < e → s.entry? d = some y → y.state = .setAside ∨ y.state = .missing ∨ y.rewashes ≤ w) →
      Tells (.setParam id v more) s .occupied [BitVec.ofNat 8 e.val])

/-- SET_PARAM (R188). The one byte of the round period in the answer is the model's choice (notes/assumptions/11.md). -/
def Obligations.SetParam : Prop :=
  Says.SetParamTakes ∧ Says.SetParamRefuses

/-! ### The rack table -/

/-- ADMIT where every test of R18 passes: the entry at the head of the free list is placed at the tail (R19). -/
def Sys2Proof.Says.AdmitPlacesRack : Prop :=
  ∀ (s : State) (more : List Byte) (tag : Tag) (seg : Byte) (n : SegNo) (g : Segment) (e : EntryNo),
    s.port.turnaround = false → s.find tag = none → seg.toNat = n.val → s.seg? n = some g → s.freeList.head? = some e →
    g.freeSpace ≠ 0 →
    Takes (.admitRack tag seg more) s ((s.taken (.admitRack tag seg more)).admitAt e tag n) fun t => t.summaryBytes (some e)

/-- What admission leaves (R13 to R15, R19, R63, R72): the new entry's fields, the queue with it at the tail, the arrival at a
blocked eye, the free list. The mark of placement (notes/assumptions/6.md) and the arrival at a JAMMED segment (34.md) are the model's readings. -/
def Sys2Proof.Says.AdmittedEntry : Prop :=
  ∀ (s : State) (tag : Tag) (n : SegNo) (g : Segment) (e : EntryNo),
    s.seg? n = some g →
    let t := s.admitAt e tag n
    let found : RackState × Verdict × Nat :=
      match g.config.kind with
      | .collect => (.loaded, .none, 0)
      | .entry => (.queued, .none, 0)
      | .rewash => (.rewashDue, .none, 0)
      | .outfeed | .exit => (if s.params.rewashLimit = 0 then .setAside else .rewashDue, .fail .mistrack 0 false, 1)
      | .clean => (.returning, .none, 0)
      | .store => (if g.config.storeKind = some tag.kind then .stored else .setAside, .none, 0)
      | .park => (.staged, .none, 0)
      | .aside => (.setAside, .none, 0)
    let record : Entry :=
      { tag := tag, state := found.1, location := some (.segment n), hold := none, claim := none, assignment := none,
        passes := 0, verdict := found.2.1, rewashes := found.2.2, confirmed := true, overtaken := 0,
        lastConfirmed := s.seconds, staleAge := 0, pass := none, missing := none, placed := true }
    t.entry? e = some record ∧
    (∀ d, d ≠ e → t.entry? d = s.entry? d) ∧
    (∃ h, t.seg? n = some h ∧ h.queue = g.queue ++ [e] ∧ h.config = g.config) ∧
    JoinsTail true ({ s with freeList := s.freeList.tail }.putEntry e (some record)) t n g e record ∧
    (∀ m, m ≠ n → t.seg? m = s.seg? m) ∧
    t.freeList = s.freeList.tail ∧ t.seconds = s.seconds ∧ t.tunnel = s.tunnel ∧ t.demand = s.demand

/-- ADMIT (R13, R18, R19). The mark of placement (log 6) and the arrival at a JAMMED segment (log 34) are the model's
readings. -/
def Obligations.AdmitTakesRack : Prop :=
  Says.AdmitPlacesRack ∧ Says.AdmittedEntry

/-- The refusals of ADMIT in the order of R18; nothing but the port and the idle timer changes. -/
def Sys2Proof.Says.AdmitRefuses : Prop :=
  ∀ (s : State) (more : List Byte) (tag : Tag) (seg : Byte), s.port.turnaround = false →
    let c : Instr := .admitRack tag seg more
    (32 < seg.toNat → TellsBad c s) ∧
    (∀ e, seg.toNat ≤ 32 → s.find tag = some e → Tells c s .duplicate (s.summaryBytes (some e))) ∧
    (s.find tag = none →
      (seg.toNat = 0x20 → Tells c s .notAllowed []) ∧
      (∀ n : SegNo, seg.toNat = n.val →
        (s.seg? n = none → Tells c s .notFound []) ∧
        (∀ g, s.seg? n = some g →
          (s.freeList = [] → Tells c s .tableFull []) ∧
          (s.freeList ≠ [] → g.freeSpace = 0 → Tells c s .full []))))

/-- RETIRE where every test of R20 passes: the entry is removed, its place is free and at the tail of the free list; the
answer carries the summary it had. The segment it stood in keeps what R12 and R72 say of a removal at a CLOSED gate, of a head the
head-arrived flag cleared, the window closed, the vouched entry taken out (the last the model's reading,
notes/assumptions/37.md); nothing else changes. -/
def Obligations.RetireFreesEntry : Prop :=
  ∀ (s : State) (more : List Byte) (tag : Tag) (e : EntryNo) (x : Entry), s.port.turnaround = false → s.find tag = some e →
    s.entry? e = some x →
    x.state = .missing ∨ x.state = .setAside ∨ ((x.state = .staged ∨ x.state = .stored) ∧ s.mode = .configure) →
    s.inTransfer e = false →
    let u := (s.taken (.retire tag more)).freeEntry e
    Takes (.retire tag more) s u (fun _ => s.summaryBytes (some e)) ∧
    u.entry? e = none ∧ u.freeList = s.freeList ++ [e] ∧
    (∀ d, d ≠ e → u.entry? d = s.entry? d) ∧
    (∀ n g, x.location = some (.segment n) → s.seg? n = some g →
      (∃ h, u.seg? n = some h ∧ h.queue = g.queue.erase e) ∧
      u = { ((s.taken (.retire tag more)).putSeg n (some (leftBehind g e))).putEntry e none with
        freeList := s.freeList ++ [e] }) ∧
    (x.location = none → u = { (s.taken (.retire tag more)).putEntry e none with freeList := s.freeList ++ [e] })

/-- The refusals of RETIRE in the order of R20. -/
def Sys2Proof.Says.RetireRefuses : Prop :=
  ∀ (s : State) (more : List Byte) (tag : Tag), s.port.turnaround = false →
    (s.find tag = none → Tells (.retire tag more) s .notFound []) ∧
    (∀ e x, s.find tag = some e → s.entry? e = some x →
      (x.state = .washing → Tells (.retire tag more) s .inPass []) ∧
      (x.state ≠ .washing → x.state ≠ .missing → x.state ≠ .setAside →
        ¬ ((x.state = .staged ∨ x.state = .stored) ∧ s.mode = .configure) → Tells (.retire tag more) s .notAllowed []) ∧
      (x.state = .missing ∨ x.state = .setAside ∨ ((x.state = .staged ∨ x.state = .stored) ∧ s.mode = .configure) →
        s.inTransfer e = true → Tells (.retire tag more) s .busy []))

/-- RESTORE where every test of R22 passes (R23): the rack leaves the segment it stood in (R12), where it stood in one, and is
placed at the tail of segment `n` (R13). That a vouched entry leaves the stranger record with the head, the mark of placement,
and the arrival at a JAMMED segment, are the model's readings (notes/assumptions/37.md, 6.md, 34.md). -/
def Obligations.RestorePlacesRack : Prop :=
  ∀ (s : State) (more : List Byte) (tag : Tag) (seg clean : Byte) (n : SegNo) (g : Segment) (e : EntryNo) (x : Entry) (flag : Bool),
    s.port.turnaround = false → s.find tag = some e → s.entry? e = some x → seg.toNat = n.val → s.seg? n = some g →
    clean = (if flag then 1 else 0) → x.state = .missing ∨ x.state = .setAside → s.inTransfer e = false →
    (g.queue.erase e).length + (g.reservedTransfer + g.reservedDispatch) < g.config.capacity →
    let c : Instr := .restore tag seg clean more
    let u := (s.taken c).restoreAt e x n g flag
    let prior : Option RackState :=
      if flag = true ∧ (g.config.kind = .clean ∨ g.config.kind = .store ∨ g.config.kind = .park) then none
      else some (match x.missing with | some m => m.prior | none => .setAside)
    let record : Entry := (if flag then { x with verdict := .manual, rewashes := 0 } else x).place n g.config.kind
      g.config.storeKind prior false s.params.rewashLimit s.seconds
    Takes c s u (fun t => t.summaryBytes (some e)) ∧
    u.entry? e = some record ∧
    ((∀ m, x.location ≠ some (.segment m)) → x.location ≠ some .tunnel →
      JoinsTail true ((s.taken c).putEntry e (some record)) u n g e record) ∧
    (∀ m k, x.location = some (.segment m) → s.seg? m = some k →
      let left : Segment :=
        if k.queue.head? = some e then
          { k with
            queue := k.queue.erase e, headArrived := false, window := .closed
            stranger := k.stranger.map fun r => { r with vouched := none } }
        else { k with queue := k.queue.erase e }
      JoinsTail true (((s.taken c).putSeg m (some left)).putEntry e (some record)) u n (if m = n then left else g) e record)

/-- The refusals of RESTORE in the order of R22. -/
def Sys2Proof.Says.RestoreRefuses : Prop :=
  ∀ (s : State) (more : List Byte) (tag : Tag) (seg clean : Byte), s.port.turnaround = false →
    let c : Instr := .restore tag seg clean more
    (32 < seg.toNat ∨ 1 < clean.toNat → TellsBad c s) ∧
    (seg.toNat ≤ 32 → clean.toNat ≤ 1 →
      (s.find tag = none → Tells c s .notFound []) ∧
      (∀ e x, s.find tag = some e → s.entry? e = some x →
        (seg.toNat = 0x20 → Tells c s .notAllowed []) ∧
        (∀ n : SegNo, seg.toNat = n.val →
          (s.seg? n = none → Tells c s .notFound []) ∧
          (∀ g, s.seg? n = some g →
            (x.state = .washing → Tells c s .inPass []) ∧
            (x.state ≠ .washing → x.state ≠ .missing → x.state ≠ .setAside → Tells c s .notAllowed []) ∧
            (x.state = .missing ∨ x.state = .setAside →
              (s.inTransfer e = true → Tells c s .busy []) ∧
              (s.inTransfer e = false →
                g.config.capacity ≤ (g.queue.erase e).length + (g.reservedTransfer + g.reservedDispatch) →
                Tells c s .full []))))))

/-- The refusals of ADMIT, RETIRE and RESTORE, each in its order (R18, R20, R22). -/
def Obligations.RackTableRefusals : Prop :=
  Says.AdmitRefuses ∧ Says.RetireRefuses ∧ Says.RestoreRefuses

/-- The found table with its adjustments (R14, R15): state, verdict, rewash count, and what placement sets (R13). -/
def Obligations.FoundTable : Prop :=
  ∀ (x : Entry) (n : SegNo) (kind : SegKind) (storeKind : Option Kind) (prior : Option RackState) (limit : Nat)
    (now : BitVec 32),
    let y := x.place n kind storeKind prior false limit now
    let cleanPrior := prior = none ∨ prior = some .returning ∨ prior = some .stored ∨ prior = some .staged
    let passed := (prior = some .cleared ∨ prior = some .unloading) ∧
      ((∃ d m, x.verdict = .pass d m) ∨ x.verdict = .manual)
    let failed := ∃ c d m, x.verdict = .fail c d m
    let mistracked := (kind = .outfeed ∨ kind = .exit) ∧ ¬ passed ∧ x.verdict = .none
    (y.location = some (.segment n) ∧ y.hold = x.hold ∧ y.claim = none ∧ y.missing = none ∧ y.confirmed = true ∧
      y.overtaken = 0 ∧ y.staleAge = 0 ∧ y.lastConfirmed = now ∧ y.passes = x.passes ∧ y.tag = x.tag) ∧
    (mistracked → y.verdict = .fail .mistrack 0 false ∧ y.rewashes = min 3 (x.rewashes + 1)) ∧
    (¬ mistracked → y.verdict = x.verdict ∧ y.rewashes = x.rewashes) ∧
    (limit < y.rewashes ∨ (mistracked ∧ limit < x.rewashes + 1) → y.state = .setAside) ∧
    (y.rewashes ≤ limit → (mistracked → x.rewashes + 1 ≤ limit) →
      (kind = .collect → y.state = .loaded) ∧
      (kind = .entry → y.state = .queued) ∧
      (kind = .rewash → y.state = .rewashDue) ∧
      (kind = .outfeed ∨ kind = .exit → (passed → y.state = .cleared) ∧ (¬ passed → y.state = .rewashDue)) ∧
      (kind = .clean → (cleanPrior ∧ ¬ failed → y.state = .returning) ∧ (¬ (cleanPrior ∧ ¬ failed) → y.state = .setAside)) ∧
      (kind = .store →
        (cleanPrior ∧ ¬ failed ∧ storeKind = some x.tag.kind → y.state = .stored) ∧
        (¬ (cleanPrior ∧ ¬ failed ∧ storeKind = some x.tag.kind) → y.state = .setAside)) ∧
      (kind = .park → (cleanPrior ∧ ¬ failed → y.state = .staged) ∧ (¬ (cleanPrior ∧ ¬ failed) → y.state = .setAside)) ∧
      (kind = .aside → y.state = .setAside))

/-- What declaration as MISSING leaves of the rack table (R16): the record, the queue or the list without the entry. The mark
of placement, cleared with it, is the model's reading (notes/assumptions/6.md). -/
def Sys2Proof.Says.MissingRecord : Prop :=
  ∀ (s : State) (e : EntryNo) (x : Entry) (last : Place) (cause : MissingCause),
    s.entry? e = some x → x.location = some last →
    let t := s.declareMissing e cause
    t.entry? e = some
      { x with
        location := none, state := .missing, claim := none, assignment := none, hold := none, confirmed := false,
        overtaken := 0, staleAge := 0, placed := false, missing := some ⟨cause, x.state, last⟩,
        pass := if last = .tunnel then none else x.pass } ∧
    (t.source .missing).flag = true ∧
    (∀ d, d ≠ e → t.entry? d = s.entry? d) ∧
    (∀ n g, last = .segment n → s.seg? n = some g →
      ∃ h, t.seg? n = some h ∧ h.queue = g.queue.erase e ∧
        (g.queue.head? = some e → h.transfer = none)) ∧
    (last = .tunnel → t.tunnel.list = s.tunnel.list.erase e) ∧
    t.freeList = s.freeList

/-- What it leaves of the segments (R12, R16, R72). Of a head: the head-arrived flag cleared, the window closed, the gate
CLOSED, and the reservation its transfer had on the destination released; of an assigned rack: the dispatch reservation on the
node's PARK. R72 says that a stranger's vouched entry loses its force with the head; that it is taken out of the record is the
model's reading (notes/assumptions/37.md). Where a transfer toward another segment ends with it, a blocking held unresolved there
is resolved (R32, Says.BlockingResolved; its flag is notes/assumptions/35.md). -/
def Sys2Proof.Says.MissingReleases : Prop :=
  ∀ (s : State) (e : EntryNo) (x : Entry) (last : Place) (cause : MissingCause),
    s.entry? e = some x → x.location = some last →
    let t := s.declareMissing e cause
    let parkFor (m : SegNo) : Prop := ∃ node, x.assignment = some node ∧ s.parkOf node = some m
    let aimedAt (m : SegNo) : Prop := ∃ n g r, last = .segment n ∧ s.seg? n = some g ∧ g.queue.head? = some e ∧
      g.transfer = some r ∧ r.dest = .segment m
    (∀ m g, s.seg? m = some g → ∃ h, t.seg? m = some h ∧
      (parkFor m → h.reservedDispatch = g.reservedDispatch - 1) ∧
      (¬ parkFor m → h.reservedDispatch = g.reservedDispatch)) ∧
    (∀ n g, last = .segment n → s.seg? n = some g → ¬ aimedAt n → ∃ k,
      (g.queue.head? = some e → t.seg? n = some
        { g with
          queue := g.queue.erase e, headArrived := false, window := .closed, transfer := none, reservedDispatch := k
          stranger := g.stranger.map fun r => { r with vouched := none } }) ∧
      (g.queue.head? ≠ some e → t.seg? n = some { g with queue := g.queue.erase e, reservedDispatch := k })) ∧
    (∀ n g r m k, last = .segment n → s.seg? n = some g → g.queue.head? = some e → g.transfer = some r →
      r.dest = .segment m → m ≠ n → s.seg? m = some k → ∃ h h', t.seg? m = some h ∧ h.queue = k.queue ∧
        h.transfer = k.transfer ∧
        (h.reservedTransfer = if r.carried then k.reservedTransfer else k.reservedTransfer - 1) ∧
        h = { h' with reservedDispatch := h.reservedDispatch } ∧
        (let left : Segment :=
          { g with
            queue := g.queue.erase e, headArrived := false, window := .closed, transfer := none
            stranger := g.stranger.map fun r => { r with vouched := none } }
         let freed : Segment :=
          { k with reservedTransfer := if r.carried then k.reservedTransfer else k.reservedTransfer - 1 }
         let u := ((s.putSeg n (some left)).putSeg m (some freed)).resolveBlocking m
         u.seg? m = some h' ∧ ∀ a, a ≠ .missing → t.source a = u.source a)) ∧
    (∀ m, last ≠ .segment m → ¬ aimedAt m → ¬ parkFor m → t.seg? m = s.seg? m) ∧
    ((∀ m, ¬ aimedAt m) → ∀ a, a ≠ .missing → t.source a = s.source a)

/-- What declaration as MISSING leaves (R12, R16, R32, R72). The vouched entry taken out of the record (log 37), the mark of
placement (log 6) and the flag of a blocking held unresolved (log 35) are the model's readings. -/
def Obligations.DeclarationAsMissing : Prop :=
  Says.MissingRecord ∧ Says.MissingReleases

/-- CLEAR_TABLE in CONFIGURE frees everything; in any other mode it is refused MODE (R24). -/
def Obligations.ClearTableFreesAll : Prop :=
  ∀ (s : State) (more : List Byte), s.port.turnaround = false →
    (s.mode ≠ .configure → Tells (.clearTable more) s .mode []) ∧
    (s.mode = .configure → ∃ u,
      Takes (.clearTable more) s u (fun _ => []) ∧
      u = { s.taken (.clearTable more) with entries := u.entries, freeList := u.freeList, segments := u.segments } ∧
      (∀ e, u.entry? e = none) ∧ u.freeList = List.finRange 128 ∧
      ∀ n, u.seg? n = (s.seg? n).map fun g =>
        { g with queue := [], reservedTransfer := 0, reservedDispatch := 0, headArrived := false,
                 stranger := g.stranger.map fun r => { r with vouched := none } })

/-! ### Segments and gates -/

/-- DEFINE_SEGMENT (R53, R54): a new segment with its running fields as R28 gives them; a redefinition keeps them but for
the merge pointer and the window; a removal. -/
def Sys2Proof.Says.DefineSegmentTakes : Prop :=
  ∀ (s : State) (more : List Byte) (number : Byte) (n : SegNo), s.port.turnaround = false → number.toNat = n.val → s.mode = .configure →
    (∀ (raw : RawSegment) (f : SegFields), segFields raw = some f → f.consistent n = true →
      let c : Instr := .defineSegment number (some raw) more
      (s.seg? n = none →
        Takes c s ((s.taken c).putSeg n (some
          { config := f.config, queue := [], reservedTransfer := 0, reservedDispatch := 0, transfer := none,
            headArrived := false, jammed := false, heldBySupervisor := false, stranger := none, mergePointer := 31,
            window := .closed, unresolved := false })) fun _ => []) ∧
      (∀ g, s.seg? n = some g → g.queue = [] ∨ g.config.kind = f.kind → g.queue.length ≤ f.capacity →
        Takes c s ((s.taken c).putSeg n (some { g with config := f.config, mergePointer := 31, window := .closed }))
          fun _ => [])) ∧
    ((∀ g, s.seg? n = some g → g.queue = []) →
      Takes (.defineSegment number none more) s ((s.taken (.defineSegment number none more)).putSeg n none) fun _ => [])

/-- The refusals of DEFINE_SEGMENT (R53, R54). That a range is judged before the mode is the model's choice
(notes/assumptions/10.md). -/
def Sys2Proof.Says.DefineSegmentRefuses : Prop :=
  ∀ (s : State) (more : List Byte) (number : Byte), s.port.turnaround = false →
    (∀ fields, 31 < number.toNat → TellsBad (.defineSegment number fields more) s) ∧
    (∀ raw, segFields raw = none → TellsBad (.defineSegment number (some raw) more) s) ∧
    (∀ n : SegNo, number.toNat = n.val →
      (s.mode ≠ .configure → Tells (.defineSegment number none more) s .mode [] ∧
        ∀ raw f, segFields raw = some f → Tells (.defineSegment number (some raw) more) s .mode []) ∧
      (s.mode = .configure →
        (∀ g, s.seg? n = some g → g.queue ≠ [] → Tells (.defineSegment number none more) s .occupied []) ∧
        (∀ raw f, segFields raw = some f →
          (f.consistent n = false → TellsBad (.defineSegment number (some raw) more) s) ∧
          (f.consistent n = true → ∀ g, s.seg? n = some g →
            (g.queue ≠ [] ∧ g.config.kind ≠ f.kind) ∨ f.capacity < g.queue.length →
            Tells (.defineSegment number (some raw) more) s .occupied []))))

/-- DEFINE_SEGMENT (R53, R54). -/
def Obligations.DefineSegment : Prop :=
  Says.DefineSegmentTakes ∧ Says.DefineSegmentRefuses

/-- SEGMENT_HOLD and SEGMENT_RELEASE in every mode (R49). -/
def Obligations.SegmentHoldAndRelease : Prop :=
  ∀ (s : State) (more : List Byte) (seg : Byte), s.port.turnaround = false →
    (31 < seg.toNat → TellsBad (.segmentHold seg more) s ∧ TellsBad (.segmentRelease seg more) s) ∧
    (∀ n : SegNo, seg.toNat = n.val →
      (s.seg? n = none → Tells (.segmentHold seg more) s .notFound [] ∧ Tells (.segmentRelease seg more) s .notFound []) ∧
      (∀ g, s.seg? n = some g →
        Takes (.segmentHold seg more) s
          ((s.taken (.segmentHold seg more)).putSeg n (some { g with heldBySupervisor := true })) (fun _ => []) ∧
        Takes (.segmentRelease seg more) s
          ((s.taken (.segmentRelease seg more)).putSeg n (some { g with heldBySupervisor := false })) fun _ => []))

/-- The gate of `n` in RUN opens toward a segment where R42 lets it and that segment's arbiter grants it (R46), and toward
the tunnel where R42 lets it. -/
def Sys2Proof.Says.GateOpens : Prop :=
  ∀ (s : State) (n : SegNo) (g : Segment) (e : EntryNo) (x : Entry) (dest : Place),
    s.mode = .run → s.seg? n = some g → g.transfer = none → MayLeave s g e x dest →
    (∀ d, dest = .segment d → s.arbiterPick d = some n) →
    Happens (.gateOpen n) s (s.openGate n dest)

/-- What the opening of a gate does (R43, R86): transfer record, reservation, merge pointer; at ENTRY the pace counter is
reloaded and the trim position advances. -/
def Sys2Proof.Says.OpeningOfGate : Prop :=
  ∀ (s : State) (n : SegNo) (g : Segment) (e : EntryNo) (x : Entry) (dest : Place),
    s.seg? n = some g → g.queue.head? = some e → s.entry? e = some x → dest ≠ .segment n →
    let t := s.openGate n dest
    t.seg? n = some { g with transfer := some ⟨dest, s.carries x dest, s.params.clearLimit⟩ } ∧
    (∀ d k, dest = .segment d → s.seg? d = some k →
      t.seg? d = some { k with mergePointer := n,
                               reservedTransfer := k.reservedTransfer + if s.carries x dest then 0 else 1 }) ∧
    (∀ m, m ≠ n → dest ≠ .segment m → t.seg? m = s.seg? m) ∧
    t.entries = s.entries ∧
    (g.config.kind ≠ .entry → t.tunnel = s.tunnel) ∧
    (∀ c, g.config.kind = .entry → s.tunnel.config = some c →
      t.tunnel = { s.tunnel with
        tickMs := 0
        trimPosition := if s.tunnel.trimPosition < 16 then s.tunnel.trimPosition + 1 else 1
        pace := c.paceBase + if (s.tunnel.trimPosition - 1) * c.trim / 16 < s.tunnel.trimPosition * c.trim / 16
          then 1 else 0 })

/-- STEP in SERVICE opens the gate of a segment where R42 lets it (R52). -/
def Sys2Proof.Says.StepOpensGate : Prop :=
  ∀ (s : State) (more : List Byte) (seg : Byte) (n : SegNo) (g : Segment) (e : EntryNo) (x : Entry) (dest : Place),
    s.port.turnaround = false → s.mode = .service → seg.toNat = n.val → s.seg? n = some g → g.transfer = none →
    MayLeave s g e x dest →
    Takes (.stepGate seg more) s ((s.taken (.stepGate seg more)).openGate n dest) fun _ => []

/-- The routing table (R37): where each kind of segment sends a head of each state; every pairing it lacks is held. CLEAN
segments follow R38. And which move carries the dispatch reservation (R38, R43). -/
def Sys2Proof.Says.RoutingTable : Prop :=
  ∀ (s : State) (g : Segment) (x : Entry),
    let r := s.route g x
    let next := g.config.successor
    let alternate := g.config.alternate.map Place.segment
    (g.config.kind = .park ∨ g.config.kind = .collect → r = if x.state = .loaded then next else none) ∧
    (g.config.kind = .entry → r = if x.state = .queued then some .tunnel else none) ∧
    (g.config.kind = .outfeed →
      r = if x.state = .cleared then next else if x.state = .rewashDue ∨ x.state = .setAside then alternate else none) ∧
    (g.config.kind = .exit →
      r = if x.state = .returning then next else if x.state = .rewashDue ∨ x.state = .setAside then alternate else none) ∧
    (g.config.kind = .store → r = if x.state = .returning ∧ x.assignment ≠ none then next else none) ∧
    (g.config.kind = .rewash → r = if x.state = .rewashDue then next else if x.state = .setAside then alternate else none) ∧
    (g.config.kind = .aside → r = none) ∧
    (g.config.kind = .clean → x.state ≠ .returning → r = none) ∧
    (∀ dest, s.carries x dest = true ↔ ∃ d h n, dest = .segment d ∧ s.seg? d = some h ∧ h.config.kind = .park ∧
      h.config.owner = some n ∧ x.assignment = some n)

/-- A RETURNING head of a CLEAN segment (R38): to its own PARK or to the STORE of its kind where the alternate is that
segment and takes it, else to the successor. -/
def Sys2Proof.Says.CleanRouting : Prop :=
  ∀ (s : State) (g : Segment) (x : Entry), g.config.kind = .clean → x.state = .returning →
    let toPark (a : SegNo) : Prop := ∃ h n, g.config.alternate = some a ∧ s.seg? a = some h ∧ h.config.kind = .park ∧
      x.assignment = some n ∧ h.config.owner = some n ∧ h.jammed = false
    let toStore (a : SegNo) : Prop := ∃ h, g.config.alternate = some a ∧ s.seg? a = some h ∧ h.config.kind = .store ∧
      x.assignment = none ∧ h.config.storeKind = some x.tag.kind ∧ 1 ≤ h.freeSpace ∧ h.jammed = false
    (∀ a, toPark a ∨ toStore a → s.route g x = some (.segment a)) ∧
    ((∀ a, ¬ toPark a ∧ ¬ toStore a) → s.route g x = g.config.successor)

/-- The tunnel entry conditions (R84). -/
def Sys2Proof.Says.TunnelEntryConditions : Prop :=
  ∀ s : State, s.tunnelReady = true ↔ ∃ c, s.tunnel.config = some c ∧ s.tunnel.machineRun = true ∧
    s.tunnel.washOk = true ∧ s.tunnel.machineFault = false ∧ s.tunnel.fault = none ∧
    s.tunnel.list.length < c.capacity ∧ c.pitch ≤ s.tunnel.pitchCount ∧ s.tunnel.pace = 0

/-- The arbiter of a segment grants the first ready gate in ascending numbers from the one after its merge pointer,
wrapping from 31 to 0 (R46). -/
def Sys2Proof.Says.ArbiterOrder : Prop :=
  ∀ (s : State) (d : SegNo) (h : Segment), s.seg? d = some h → ∀ n : SegNo,
    s.arbiterPick d = some n ↔ ReadyGate s d n ∧
      ∀ m, ReadyGate s d m → (n - (h.mergePointer + 1)).val ≤ (m - (h.mergePointer + 1)).val

/-- The opening of a gate in RUN and by STEP, what it does (R42, R43, R46, R52), and what it rests on: the routing table
(R37, R38), the arbiter's order (R46) and the tunnel entry conditions (R84). -/
def Obligations.GateOpening : Prop :=
  Says.GateOpens ∧ Says.StepOpensGate ∧ Says.OpeningOfGate ∧ Says.RoutingTable ∧ Says.CleanRouting ∧
    Says.TunnelEntryConditions ∧ Says.ArbiterOrder

/-- The refusals of STEP in the order of R52; that a segment above 31 is judged before the mode is the model's choice
(notes/assumptions/10.md). -/
def Obligations.StepRefuses : Prop :=
  ∀ (s : State) (more : List Byte) (seg : Byte), s.port.turnaround = false →
    let c : Instr := .stepGate seg more
    (31 < seg.toNat → TellsBad c s) ∧
    (∀ n : SegNo, seg.toNat = n.val →
      (s.mode ≠ .service → Tells c s .mode []) ∧
      (s.mode = .service →
        (s.seg? n = none → Tells c s .notFound []) ∧
        (∀ g, s.seg? n = some g →
          (g.transfer ≠ none → Tells c s .busy []) ∧
          (g.transfer = none →
            (s.stopLatch = true → Tells c s .stopped []) ∧
            (s.stopLatch = false → g.jammed = true → Tells c s .jammed []) ∧
            (s.stopLatch = false → g.jammed = false →
              (g.queue = [] ∨ g.headArrived = false ∨ g.window ≠ .closed → Tells c s .notArrived []) ∧
              (∀ e x, g.queue.head? = some e → s.entry? e = some x → g.headArrived = true → g.window = .closed →
                (g.heldBySupervisor = true ∨ g.stranger ≠ none ∨ x.hold ≠ none → Tells c s .held []) ∧
                (g.heldBySupervisor = false → g.stranger = none → x.hold = none →
                  (s.route g x = none → Tells c s .noRoute []) ∧
                  (∀ d h, s.route g x = some (.segment d) → s.seg? d = some h →
                    h.jammed = true ∨ (h.freeSpace = 0 ∧ s.carries x (.segment d) = false) → Tells c s .noSpace []) ∧
                  (s.route g x = some .tunnel → s.tunnelReady = false → Tells c s .tunnelClosed []))))))))

/-- Departure to another segment (R39, R40, R44, R63): both queues, the reservation, the gate, the record with its state on
arrival, and the arrival at the destination; nothing else. The mark of placement, cleared with the departure, and that a vouched
entry leaves the stranger record with the head are the model's readings (notes/assumptions/6.md, 37.md). -/
def Sys2Proof.Says.DepartureToSegment : Prop :=
  ∀ (s : State) (n d : SegNo) (g h : Segment) (r : Transfer) (e : EntryNo) (rest : List EntryNo) (x : Entry),
    n ≠ d → s.seg? n = some g → g.transfer = some r → r.dest = .segment d → g.queue = e :: rest →
    s.seg? d = some h → s.entry? e = some x →
    let t := s.depart n
    (∃ g', t.seg? n = some g' ∧ g'.queue = rest ∧ g'.transfer = none ∧ g'.headArrived = false ∧ g'.window = .closed) ∧
    (∃ h', t.seg? d = some h' ∧ h'.queue = h.queue ++ [e] ∧
      (r.carried = false → h'.reservedTransfer = h.reservedTransfer - 1 ∧ h'.reservedDispatch = h.reservedDispatch) ∧
      (r.carried = true → h'.reservedTransfer = h.reservedTransfer ∧ h'.reservedDispatch = h.reservedDispatch - 1)) ∧
    (∃ y, t.entry? e = some y ∧ y.location = some (.segment d) ∧ y.lastConfirmed = s.seconds ∧ y.staleAge = 0 ∧
      y.confirmed = x.confirmed ∧ y.overtaken = x.overtaken ∧ y.hold = x.hold ∧ y.verdict = x.verdict ∧
      y.assignment = (if h.config.kind = .park then none else x.assignment) ∧
      y.state = match h.config.kind with
        | .entry => .queued
        | .store => .stored
        | .park => .staged
        | .clean => .returning
        | .aside => .setAside
        | .collect | .rewash | .outfeed | .exit => x.state) ∧
    (∀ c, c ≠ e → t.entry? c = s.entry? c) ∧ t.tunnel = s.tunnel ∧
    (let left : Segment :=
      { g with
        queue := rest, transfer := none, headArrived := false, window := .closed
        stranger := g.stranger.map fun q => { q with vouched := none } }
     let taken : Segment :=
      if r.carried then { h with reservedDispatch := h.reservedDispatch - 1 }
      else { h with reservedTransfer := h.reservedTransfer - 1 }
     ∃ y : Entry, y = { x with
        location := y.location, state := y.state, assignment := y.assignment, lastConfirmed := s.seconds, staleAge := 0
        placed := false } ∧
      (let moved := ((s.putSeg n (some left)).putSeg d (some taken)).putEntry e (some y)
       JoinsTail false (if h.config.kind = .aside then moved.raise .asideReached else moved) t d taken e y))

/-- Departure from ENTRY into the tunnel (R8, R9, R11, R44, R87): the queue, the gate, the tunnel list, the record; nothing else.
The mark of placement, cleared with the departure, and that a vouched entry leaves the stranger record with the head are the
model's readings (notes/assumptions/6.md, 37.md). -/
def Sys2Proof.Says.DepartureIntoTunnel : Prop :=
  ∀ (s : State) (n : SegNo) (g : Segment) (r : Transfer) (e : EntryNo) (rest : List EntryNo) (x : Entry),
    s.seg? n = some g → g.transfer = some r → r.dest = .tunnel → g.queue = e :: rest → s.entry? e = some x →
    let t := s.depart n
    (∃ g', t.seg? n = some g' ∧ g'.queue = rest ∧ g'.transfer = none ∧ g'.headArrived = false) ∧
    t.tunnel.list = s.tunnel.list ++ [e] ∧ t.tunnel.pitchCount = 0 ∧
    t.entry? e = some
      { x with
        location := some .tunnel, state := .washing, passes := min 65535 (x.passes + 1), verdict := .none,
        lastConfirmed := s.seconds, staleAge := 0, placed := false,
        pass := some { mark := s.tunnel.encoder, dwell := 0, dropoutTimer := 0, dropoutMark := false,
                       overLimit := false, fixed := .no } } ∧
    (∀ c, c ≠ e → t.entry? c = s.entry? c) ∧
    t.seg? n = some
      { g with
        queue := rest, transfer := none, headArrived := false, window := .closed
        stranger := g.stranger.map fun q => { q with vouched := none } } ∧
    (∀ m, m ≠ n → t.seg? m = s.seg? m) ∧
    t = { s with
      segments := t.segments, entries := t.entries
      tunnel := { s.tunnel with list := s.tunnel.list ++ [e], pitchCount := 0 } }

/-- Departure from an OPEN gate (R39, R40, R44, R63, R87). The mark of placement (log 6), the arrival at a JAMMED segment or a
stranger's (log 34) and the vouched entry (log 37) are the model's readings. -/
def Obligations.Departure : Prop :=
  Says.DepartureToSegment ∧ Says.DepartureIntoTunnel

/-- An eye that blocks (R31, R32, R206): the input is taken as blocked and each segment that reads it is judged; one
already blocked gives no event. -/
def Sys2Proof.Says.EyeBlocks : Prop :=
  (∀ (s : State) (i : LineNo), s.eyes.get i = true → exec (.eyeBlock i) s = .next s) ∧
  (∀ (s : State) (i : LineNo), s.eyes.get i = false →
    let u := { s with eyes := s.eyes.set i true }.forEach State.eyeBlocks (s.readersOf i)
    Happens (.eyeBlock i) s (if s.wakesBy i then u.wake true else u)) ∧
  (∀ (s : State) (n : SegNo) (g : Segment), s.seg? n = some g →
    (g.jammed = true → s.eyeBlocks n = s) ∧
    (g.jammed = false → g.queue ≠ [] → s.eyeBlocks n = s.setHeadArrived n) ∧
    (g.jammed = false → g.queue = [] →
      (s.inbound n = true → s.eyeBlocks n = s.putSeg n (some { g with unresolved := true })) ∧
      (s.inbound n = false → s.eyeBlocks n = s.untrackedArrival n)))

/-- The head of a segment taken as arrived (R32, R39, R61). That the mark of placement is a field of the entry is the model's
reading of R32 and R61 (notes/assumptions/6.md). -/
def Sys2Proof.Says.HeadArrives : Prop :=
  ∀ (s : State) (n : SegNo) (g : Segment) (e : EntryNo) (x : Entry),
    s.seg? n = some g → g.queue.head? = some e → s.entry? e = some x → ArrivedHead s (s.setHeadArrived n) n g e x

/-- The reason STRANGER given with no seen tag (R70, R71): the flag cleared, the window closed, the record without seen tag and
vouched entry, the tags that gave the reason before kept (R76, notes/assumptions/39.md); STRANGER is raised where the reason is
new. -/
def madeStranger (s : State) (n : SegNo) (g : Segment) (t : State) : Prop :=
  t.seg? n = some { g with stranger := some ⟨none, none, g.strangerTags⟩, headArrived := false, window := .closed } ∧
  (∀ m, m ≠ n → t.seg? m = s.seg? m) ∧
  t = { s with segments := t.segments, attention := t.attention } ∧
  (t.source .stranger).flag = ((s.source .stranger).flag || g.stranger.isNone) ∧
  ∀ a, a ≠ .stranger → t.source a = s.source a

/-- An untracked arrival (R71): an UNTRACKED window with two rounds at a reader-bound gate, STRANGER at once at another;
recorded alone at a JAMMED segment and in CONFIGURE. That a blocking held unresolved is a flag of the segment is
notes/assumptions/35.md. -/
def Sys2Proof.Says.UntrackedArrivals : Prop :=
  ∀ (s : State) (n : SegNo) (g : Segment), s.seg? n = some g →
    let t := s.untrackedArrival n
    (g.jammed = true ∨ s.mode = .configure → t = s) ∧
    (g.jammed = false → s.mode ≠ .configure → g.config.reader ≠ none →
      t = s.putSeg n (some { g with window := .untracked 2 s.round?.isSome, unresolved := false })) ∧
    (g.jammed = false → s.mode ≠ .configure → g.config.reader = none → madeStranger s n g t)

/-- A blocking held unresolved (R32): once the last inbound transfer has ended without a departure, the queue still empty and
the eye still blocked, it is taken as an untracked arrival; else nothing changes. That it is a flag of the segment is the
model's reading (notes/assumptions/35.md). -/
def Sys2Proof.Says.BlockingResolved : Prop :=
  ∀ (s : State) (n : SegNo) (g : Segment), s.seg? n = some g →
    let waits := g.unresolved = true ∧ g.queue = [] ∧ s.eyes.get g.config.eye = true ∧
      ∀ m h r, s.seg? m = some h → h.transfer = some r → r.dest ≠ .segment n
    (waits → s.resolveBlocking n = (s.putSeg n (some { g with unresolved := false })).untrackedArrival n) ∧
    (¬ waits → s.resolveBlocking n = s)

/-- EYE_BLOCK, the arrival of a head, an untracked arrival and what becomes of a blocking held unresolved (R31, R32, R39, R61,
R71). The mark of placement is notes/assumptions/6.md, the flag of a blocking held unresolved notes/assumptions/35.md, the tags
kept with a stranger record notes/assumptions/39.md: all three are the model's reading. -/
def Obligations.EyeBlocking : Prop :=
  Says.EyeBlocks ∧ Says.HeadArrives ∧ Says.UntrackedArrivals ∧ Says.BlockingResolved

/-- An eye that clears (R31, R33, R206): the head of an OPEN gate departs, an arrived head at a CLOSED one is LIFTED. The flag of a
blocking held unresolved, cleared with the eye, is the model's reading (notes/assumptions/35.md). -/
def Obligations.EyeClears : Prop :=
  (∀ (s : State) (i : LineNo), s.eyes.get i = false → exec (.eyeClear i) s = .next s) ∧
  (∀ (s : State) (i : LineNo), s.eyes.get i = true →
    let u := { s with eyes := s.eyes.set i false }.forEach State.eyeClears (s.readersOf i)
    Happens (.eyeClear i) s (if s.wakesBy i then u.wake true else u)) ∧
  (∀ (s : State) (n : SegNo) (g : Segment), s.seg? n = some g →
    let u := s.putSeg n (some
      { g with unresolved := false, window := match g.window with | .untracked _ _ => .closed | w => w })
    (g.transfer ≠ none → s.eyeClears n = u.depart n) ∧
    (g.transfer = none →
      (g.jammed = true ∨ g.headArrived = false → s.eyeClears n = u) ∧
      (∀ e, g.jammed = false → g.headArrived = true → g.queue.head? = some e →
        s.eyeClears n = u.declareMissing e .lifted)))

/-- JAM (R47): where the eye of an OPEN gate is still blocked and the stop latch is clear. That the row is the moment at
which the timer runs out, whatever time the model has counted, is the model's choice (notes/assumptions/4.md). A blocking held
unresolved at the destination is resolved where this was its last inbound transfer (R32, Says.BlockingResolved); nothing else
changes. -/
def Sys2Proof.Says.JamEndsTransfer : Prop :=
  ∀ (s : State) (n : SegNo) (g : Segment) (r : Transfer), s.seg? n = some g → g.transfer = some r →
    s.eyes.get g.config.eye = true → s.stopLatch = false → r.dest ≠ .segment n → ∃ u,
    Happens (.jam n) s u ∧
    u.seg? n = some { g with jammed := true, transfer := none } ∧
    (∀ d h, r.dest = .segment d → s.seg? d = some h → ∃ h', u.seg? d = some h' ∧ h'.queue = h.queue ∧
      h'.reservedDispatch = h.reservedDispatch ∧
      h'.reservedTransfer = if r.carried then h.reservedTransfer else h.reservedTransfer - 1) ∧
    u.entries = s.entries ∧ (u.source .jam).flag = true ∧
    (let jammed := s.putSeg n (some { g with jammed := true, transfer := none })
     (r.dest = .tunnel → u = jammed.raise .jam) ∧
     ∀ d h, r.dest = .segment d → s.seg? d = some h →
       u = ((jammed.putSeg d (some
         { h with reservedTransfer := if r.carried then h.reservedTransfer else h.reservedTransfer - 1 })).resolveBlocking
           d).raise .jam)

/-- What CLEAR_JAM does to a JAMMED segment (R48). -/
def Sys2Proof.Says.JamCleared : Prop :=
  ∀ (s : State) (n : SegNo) (g : Segment), s.seg? n = some g →
    let u := s.putSeg n (some { g with jammed := false })
    (s.eyes.get g.config.eye = true →
      s.clearJam n g = if g.queue ≠ [] ∧ g.headArrived = false ∧ g.stranger = none then u.setHeadArrived n else u) ∧
    (s.eyes.get g.config.eye = false →
      (∀ e, g.headArrived = true → g.queue.head? = some e → s.clearJam n g = u.declareMissing e .jamCleared) ∧
      (g.headArrived = false → s.clearJam n g = u))

/-- CLEAR_JAM from the supervisor in every mode and from a FLOOR node outside CONFIGURE (R48, R160, R164). -/
def Sys2Proof.Says.ClearJamTakes : Prop :=
  ∀ (s : State) (more : List Byte) (seg : Byte) (n : SegNo), seg.toNat = n.val →
    (s.port.turnaround = false →
      let c : Instr := .clearJam (.supervisor more) seg
      (s.seg? n = none → Tells c s .notFound [seg]) ∧
      (∀ g, s.seg? n = some g →
        (g.jammed = false → Tells c s .done [seg]) ∧
        (g.jammed = true → Takes c s ((s.taken c).clearJam n g) fun _ => [seg]))) ∧
    (∀ (m : NodeNo) (x : Node), Heard s m x → x.role = .floor → s.mode ≠ .configure →
      let c : Instr := .clearJam (.station m) seg
      let q : RackRequest := ⟨9, .segment seg, none, none⟩
      (s.seg? n = none → StationTells c m q s .notFound none) ∧
      (∀ g, s.seg? n = some g →
        (g.jammed = false → StationTells c m q s .done none) ∧
        (g.jammed = true → StationTakes c m q s ((s.requested m q).clearJam n g) fun _ => none)))

/-- JAM and CLEAR_JAM (R32, R47, R48, R160). That JAM is the moment itself is the model's choice (notes/assumptions/4.md), that a
blocking held unresolved is a flag of the segment its reading (35.md). -/
def Obligations.Jams : Prop :=
  Says.JamEndsTransfer ∧ Says.JamCleared ∧ Says.ClearJamTakes

/-- SAFE_STOP (R50): every assertion sets the stop latch and raises SAFETY_STOP; a deassertion clears nothing. -/
def Sys2Proof.Says.SafeStopSetsLatch : Prop :=
  ∀ s : State,
    Happens (.safeStop true) s ({ s with safeStop := true, stopLatch := true }.raise .safetyStop) ∧
    exec (.safeStop false) s = .next { s with safeStop := false }

/-- RESUME (R51, R160, R164): refused STOP_ACTIVE while SAFE_STOP is asserted; else the latch is cleared and every stale age
becomes 0; DONE without a change where the latch is clear. -/
def Sys2Proof.Says.ResumeClearsLatch : Prop :=
  ∀ (s : State) (more : List Byte),
    (s.port.turnaround = false →
      (s.safeStop = true → Tells (.resume (.supervisor more)) s .stopActive []) ∧
      (s.safeStop = false → s.stopLatch = false → Tells (.resume (.supervisor more)) s .done []) ∧
      (s.safeStop = false → s.stopLatch = true →
        Takes (.resume (.supervisor more)) s (s.taken (.resume (.supervisor more))).resume fun _ => [])) ∧
    (∀ (m : NodeNo) (x : Node), Heard s m x → x.role = .floor → s.mode ≠ .configure →
      let c : Instr := .resume (.station m)
      let q : RackRequest := ⟨10, .none, none, none⟩
      (s.safeStop = true → StationTells c m q s .stopActive none) ∧
      (s.safeStop = false → s.stopLatch = false → StationTells c m q s .done none) ∧
      (s.safeStop = false → s.stopLatch = true → StationTakes c m q s (s.requested m q).resume fun _ => none)) ∧
    (s.resume.stopLatch = false ∧ s.resume.segments = s.segments ∧ s.resume.tunnel = s.tunnel ∧
      ∀ e, s.resume.entry? e = (s.entry? e).map fun x => { x with staleAge := 0 })

/-- SAFE_STOP and RESUME (R50, R51). -/
def Obligations.SafetyStop : Prop :=
  Says.SafeStopSetsLatch ∧ Says.ResumeClearsLatch

/-! ### Sightings -/

/-- CLEAR_STRANGER in every mode (R73). -/
def Sys2Proof.Says.ClearStrangerTakes : Prop :=
  ∀ (s : State) (more : List Byte) (seg : Byte), s.port.turnaround = false →
    let c : Instr := .clearStranger seg more
    (31 < seg.toNat → TellsBad c s) ∧
    (∀ n : SegNo, seg.toNat = n.val →
      (s.seg? n = none → Tells c s .notFound []) ∧
      (∀ g, s.seg? n = some g →
        (g.stranger = none → Tells c s .done []) ∧
        (∀ r, g.stranger = some r →
          let known := g.headArrived = true ∧ ∃ e, g.queue.head? = some e ∧ r.vouched = some e
          (s.eyes.get g.config.eye = false ∨ known →
            Takes c s ((s.taken c).putSeg n (some { g with stranger := none })) fun _ => []) ∧
          (s.eyes.get g.config.eye = true → ¬ known → Tells c s .notClear []))))

/-- A sighting window that has counted its two rounds (R62, R71): the awaited head becomes UNCONFIRMED, or the segment a
stranger's; the tags that gave it the reason before are kept (R76, notes/assumptions/39.md). -/
def Sys2Proof.Says.WindowRunsOut : Prop :=
  ∀ (s : State) (n : SegNo) (g : Segment), s.seg? n = some g →
    (∀ e fresh, g.window = .head 0 e fresh →
      Happens (.sightingWindowRunOut n) s
        ((s.updEntry e fun x => { x with confirmed := false }).putSeg n (some { g with window := .closed }))) ∧
    (∀ fresh, g.window = .untracked 0 fresh → ∃ u,
      Happens (.sightingWindowRunOut n) s u ∧
      u.seg? n = some { g with stranger := some ⟨none, none, g.strangerTags⟩, headArrived := false, window := .closed } ∧
      (u.source .stranger).flag = ((s.source .stranger).flag || g.stranger.isNone) ∧
      u.entries = s.entries ∧ ∀ m, m ≠ n → u.seg? m = s.seg? m)

/-- CLEAR_STRANGER, and a window that has run out (R62, R71, R73). -/
def Obligations.StrangersAndWindows : Prop :=
  Says.ClearStrangerTakes ∧ Says.WindowRunsOut

/-- The first tag of a report at a gate (R64, R65, R69, R70, R76). A tag that has given the segment STRANGER stays a
stranger until the record goes, whichever tag is seen after it; that it does so at this segment alone is the model's reading
of R76 (notes/assumptions/39.md), and that TABLE_FULL is raised with STRANGER at a segment of any kind, and once, its reading
of R70 (notes/assumptions/16.md). -/
def Sys2Proof.Says.FirstTagJudged : Prop :=
  ∀ (s : State) (n : SegNo) (g : Segment) (t : Tag), s.seg? n = some g →
    (∀ e, s.find t = some e → g.queue.head? = some e →
      let u := s.firstTag n t
      u.entry? e = (s.entry? e).map (fun x =>
        { x with confirmed := true, overtaken := 0, lastConfirmed := s.seconds, staleAge := 0 }) ∧
      u.seg? n = some
        { g with
          stranger := g.stranger.map fun r => { r with vouched := some e }
          window := match g.window with | .head k a f => if a = e then .closed else .head k a f | w => w } ∧
      (∀ d, d ≠ e → u.entry? d = s.entry? d)) ∧
    (∀ e, s.find t = some e → g.queue.head? ≠ some e → s.firstTag n t = s.relocate n e) ∧
    (s.find t = none →
      let collects := g.config.kind = .collect ∨ g.config.kind = .park
      let stays := ∃ r, g.stranger = some r ∧ t ∈ r.given
      (∀ e, s.params.autoAdmission = true → collects → ¬ stays → s.freeList.head? = some e →
        s.firstTag n t = s.autoAdmit n e t) ∧
      (s.params.autoAdmission = false ∨ ¬ collects ∨ stays ∨ s.freeList = [] →
        let u := s.firstTag n t
        u.seg? n = some
          { g with
            stranger := some ⟨some t, none, g.strangerTags.insert t⟩, headArrived := false, window := .closed } ∧
        (∀ m, m ≠ n → u.seg? m = s.seg? m) ∧
        u = { s with segments := u.segments, attention := u.attention } ∧
        (u.source .stranger).flag = ((s.source .stranger).flag || g.stranger.isNone) ∧
        (u.source .tableFull).flag = ((s.source .tableFull).flag ||
          (g.stranger.isNone && s.params.autoAdmission && s.freeList.isEmpty)) ∧
        ∀ a, a ≠ .stranger → a ≠ .tableFull → u.source a = s.source a))

/-- The second tag of a report (R60): taken after the first, it confirms the entry then at position 2; not where it equals
the first tag, names anything else, or the first tag is of no entry. -/
def Sys2Proof.Says.SecondTagTaken : Prop :=
  ∀ (s : State) (n : SegNo) (g : Segment) (first t : Tag), s.seg? n = some g →
    let u := s.secondTag n first t
    (∀ e, t ≠ first → s.find first ≠ none → s.find t = some e → g.queue[1]? = some e →
      u = s.putEntry e ((s.entry? e).map fun x =>
        { x with confirmed := true, overtaken := 0, lastConfirmed := s.seconds, staleAge := 0 })) ∧
    (t = first ∨ s.find first = none ∨ (∀ e, s.find t = some e → g.queue[1]? ≠ some e) → u = s)

/-- A report of the reader bound to segment `n` (R59, R60): acted on only where the eye is blocked, the gate CLOSED, and the
queue not both empty and the destination of a transfer; the first tag in full, then the second. -/
def Sys2Proof.Says.ReportTaken : Prop :=
  ∀ (s : State) (r : NodeNo) (n : SegNo) (g : Segment), s.gateOfReader r = some n → s.seg? n = some g →
    let acts := s.eyes.get g.config.eye = true ∧ g.transfer = none ∧ ¬ (g.queue = [] ∧ s.inbound n = true)
    (∀ tags, ¬ acts ∨ tags = [] → s.report r tags = s) ∧
    (∀ t, acts → s.report r [t] = s.firstTag n t) ∧
    (∀ t t', acts → s.report r [t, t'] = (s.firstTag n t).secondTag n t t')

/-- R65: the record of a rack that a sighting takes out of the place the record held it in. Out of the tunnel without a fixed
PASS its verdict is FAIL with cause MISTRACK and its rewash count rises (R8). -/
def takenOutRecord (x : Entry) : Entry :=
  let out : Entry := { x with assignment := none }
  match x.location, x.pass with
  | some .tunnel, some p =>
    if p.fixed = .pass then out
    else { out with verdict := .fail .mistrack p.dwell p.dropoutMark, rewashes := min 3 (x.rewashes + 1) }
  | _, _ => out

/-- R110: the rise of R65 is over the rewash limit. -/
def risesOver (x : Entry) (limit : Nat) : Prop :=
  x.location = some .tunnel ∧ (∃ p, x.pass = some p ∧ p.fixed ≠ .pass) ∧ limit < x.rewashes + 1

/-- R14, R65, R66: the record of a relocated rack: placed in segment `n` by the found table from the prior state, its own or
its missing record's. -/
def relocatedRecord (x : Entry) (n : SegNo) (g : Segment) (limit : Nat) (now : BitVec 32) (exceeds : Bool) : Entry :=
  (takenOutRecord x).place n g.config.kind g.config.storeKind
    (some (match x.missing with | some m => m.prior | none => x.state)) exceeds limit now

/-- Placement after a rise over the limit differs from the found table in the state alone, which is SET_ASIDE (R15, R110). -/
def Sys2Proof.Says.PlacementOverLimit : Prop :=
  ∀ (x : Entry) (n : SegNo) (kind : SegKind) (storeKind : Option Kind) (prior : Option RackState) (limit : Nat)
    (now : BitVec 32),
    x.place n kind storeKind prior true limit now =
      { x.place n kind storeKind prior false limit now with state := .setAside }

/-- R67: an entry stays in the queue of segment `n`, unless it is one of the entries passed, was overtaken before and the
record holds it there: that one is declared MISSING. -/
def staysBehind (s : State) (n : SegNo) (passed : List EntryNo) (d : EntryNo) : Bool :=
  !(passed.contains d && (s.entry? d).any fun y => y.overtaken != 0 && y.location == some (.segment n))

/-- Relocation of `x` to the head of segment `n` (R65 to R68), in the order of its parts, of which Says.TakenOut,
Says.AssignmentReleased, Says.InsertedAtHead, Says.EntryPassed and Says.Displacement say everything each does: `w` is the state
after the removal, the insertion and the counting of the entries passed, which displacement ends. In it the sighted rack is the
arrived head with the record of R66, and behind it stands the queue as it stood, without the rack, where it stood deeper in it,
and without exactly those passed that are declared MISSING; an entry passed has its overtaken count 1, or, where it was
overtaken before, is declared MISSING as OVERTAKEN; no other entry has changed. -/
def Sys2Proof.Says.Relocation : Prop :=
  ∀ (s : State) (n : SegNo) (g : Segment) (e : EntryNo) (x : Entry) (exceeds : Bool),
    s.seg? n = some g → s.entry? e = some x → g.queue.Nodup → g.queue.head? ≠ some e →
    (exceeds = true ↔ risesOver x s.params.rewashLimit) →
    let passed := g.queue.takeWhile (· != e)
    let prior : RackState := match x.missing with | some m => m.prior | none => x.state
    let others := if x.location = some (.segment n) then g.queue.erase e else g.queue
    ∃ w : State, s.relocate n e = w.displace n ∧
      w = (((s.takeOut e x).releaseAssignment e).insertHead e n (some prior) exceeds).forEach State.passEntry passed ∧
      (∃ h, w.seg? n = some h ∧ h.queue = e :: others.filter (staysBehind s n passed) ∧ h.config = g.config ∧
        h.headArrived = true ∧ h.window = .closed ∧ (g.stranger ≠ none → ∃ r, h.stranger = some r ∧ r.vouched = some e)) ∧
      w.entry? e = some (relocatedRecord x n g s.params.rewashLimit s.seconds exceeds) ∧
      (∀ d y, d ∈ passed → s.entry? d = some y → y.overtaken = 0 → w.entry? d = some { y with overtaken := 1 }) ∧
      (∀ d y last, d ∈ passed → s.entry? d = some y → y.overtaken ≠ 0 → y.location = some last →
        (w.source .missing).flag = true ∧ ∃ z, w.entry? d = some z ∧ z.state = .missing ∧ z.location = none ∧
          z.missing = some ⟨.overtaken, y.state, last⟩ ∧ z.claim = none ∧ z.assignment = none ∧ z.hold = none) ∧
      (∀ d, d ≠ e → d ∉ passed → w.entry? d = s.entry? d)

/-- Auto-admission (R69): as a relocation of a new entry with no prior state, LOADED in COLLECT and STAGED in PARK; the whole
queue is passed and stands behind it, but for exactly the entries overtaken before, which are declared MISSING (R67). The mark
of placement is the model's reading (notes/assumptions/6.md). -/
def Sys2Proof.Says.AutoAdmission : Prop :=
  ∀ (s : State) (n : SegNo) (g : Segment) (e : EntryNo) (t : Tag), s.seg? n = some g → e ∉ g.queue →
    g.config.kind = .collect ∨ g.config.kind = .park →
    ∃ w : State, s.autoAdmit n e t = w.displace n ∧
      w = ((s.takeFree e t).insertHead e n none false).forEach State.passEntry g.queue ∧ w.freeList = s.freeList.tail ∧
      (∃ h, w.seg? n = some h ∧ h.queue.head? = some e ∧
        (g.queue.Nodup → h.queue = e :: g.queue.filter (staysBehind s n g.queue)) ∧
        h.config = g.config ∧ h.headArrived = true ∧ h.window = .closed ∧
        (g.stranger ≠ none → ∃ r, h.stranger = some r ∧ r.vouched = some e)) ∧
      w.entry? e = some
        { tag := t, state := if g.config.kind = .collect then .loaded else .staged, location := some (.segment n),
          hold := none, claim := none, assignment := none, passes := 0, verdict := .none, rewashes := 0, confirmed := true,
          overtaken := 0, lastConfirmed := s.seconds, staleAge := 0, pass := none, missing := none, placed := true } ∧
      (∀ d y, g.queue.Nodup → d ∈ g.queue → s.entry? d = some y → y.overtaken = 0 →
        w.entry? d = some { y with overtaken := 1 }) ∧
      (∀ d y last, g.queue.Nodup → d ∈ g.queue → s.entry? d = some y → y.overtaken ≠ 0 → y.location = some last →
        (w.source .missing).flag = true ∧ ∃ z, w.entry? d = some z ∧ z.state = .missing ∧ z.location = none ∧
          z.missing = some ⟨.overtaken, y.state, last⟩ ∧ z.claim = none ∧ z.assignment = none ∧ z.hold = none) ∧
      (∀ d, d ≠ e → d ∉ g.queue → w.entry? d = s.entry? d)

/-- Displacement (R68): of the tail, where the queue and the reserved count exceed the capacity. That in a queue of one the
tail is the sighted rack itself is the model's choice (notes/assumptions/38.md). -/
def Sys2Proof.Says.Displacement : Prop :=
  ∀ (s : State) (n : SegNo) (g : Segment), s.seg? n = some g →
    (g.queue.length + (g.reservedTransfer + g.reservedDispatch) ≤ g.config.capacity → s.displace n = s) ∧
    (∀ d, g.config.capacity < g.queue.length + (g.reservedTransfer + g.reservedDispatch) → g.queue.getLast? = some d →
      s.displace n = s.declareMissing d .overtaken)

/-- What the segment a relocated rack is taken out of keeps (R12, R65): its queue without the rack; where the rack was the
head, the gate CLOSED and, where another rack is known to stand at the pawl, the new head taken as arrived. -/
def Sys2Proof.Says.TakenOutOfSegment : Prop :=
  ∀ (s : State) (m : SegNo) (h : Segment) (e : EntryNo) (x : Entry), x.location = some (.segment m) → s.seg? m = some h →
    ∃ h', (s.takeOut e x).seg? m = some h' ∧ h'.queue = h.queue.erase e ∧ h'.config = h.config ∧
      (h.queue.head? = some e → h'.transfer = none ∧
        (h'.headArrived = true ↔ h.headArrived = true ∧ h.transfer = none ∧ h.stranger = none ∧
          s.eyes.get h.config.eye = true ∧ h.queue.erase e ≠ [])) ∧
      (h.queue.head? ≠ some e → h' = { h with queue := h.queue.erase e })

/-- The removal of a rack from the place the record holds it in, as R65 has it for a relocation: everything it does. A MISSING
rack has no place; one in the tunnel leaves the list, its record as `takenOutRecord` says, its tunnel fields discarded (R11); one
in a segment leaves its queue (R12). Behind a CLOSED gate, where the head that left had arrived, another rack follows, no
stranger is held and the eye is blocked, the new head is taken as arrived at once; at an OPEN gate the transfer is abandoned and
its reservation released, and a blocking held unresolved at its destination is resolved (R32, Says.BlockingResolved). -/
def Sys2Proof.Says.TakenOut : Prop :=
  ∀ (s : State) (e : EntryNo) (x : Entry), s.entry? e = some x →
    (x.location = none → s.takeOut e x = s) ∧
    (x.location = some .tunnel → s.takeOut e x =
      { s.putEntry e (some { takenOutRecord x with assignment := x.assignment, pass := none }) with
        tunnel := { s.tunnel with list := s.tunnel.list.erase e } }) ∧
    (∀ m g, x.location = some (.segment m) → s.seg? m = some g →
      let left := leftBehind g e
      let another := g.queue.head? = some e ∧ g.headArrived = true ∧ g.stranger = none ∧ s.eyes.get g.config.eye = true ∧
        g.queue.erase e ≠ []
      (g.transfer = none → ¬ another → s.takeOut e x = s.putSeg m (some left)) ∧
      (∀ d y, g.transfer = none → another → (g.queue.erase e).head? = some d → s.entry? d = some y →
        ArrivedHead (s.putSeg m (some left)) (s.takeOut e x) m left d y) ∧
      (g.queue.head? ≠ some e → s.takeOut e x = s.putSeg m (some left)) ∧
      (∀ r, g.queue.head? = some e → g.transfer = some r →
        (r.dest = .tunnel → s.takeOut e x = s.putSeg m (some { left with transfer := none })) ∧
        (∀ d k, r.dest = .segment d → d ≠ m → s.seg? d = some k → s.takeOut e x =
          ((s.putSeg m (some { left with transfer := none })).putSeg d (some
            { k with reservedTransfer := if r.carried then k.reservedTransfer else k.reservedTransfer - 1 })).resolveBlocking d)))

/-- The assignment of a relocated rack is cleared, and the dispatch reservation on its node's PARK released (R7, R65); nothing
else. -/
def Sys2Proof.Says.AssignmentReleased : Prop :=
  ∀ (s : State) (e : EntryNo) (x : Entry), s.entry? e = some x →
    (x.assignment = none → s.releaseAssignment e = s) ∧
    (∀ node, x.assignment = some node →
      (s.parkOf node = none → s.releaseAssignment e = s.putEntry e (some { x with assignment := none })) ∧
      (∀ p g, s.parkOf node = some p → s.seg? p = some g → s.releaseAssignment e =
        (s.putEntry e (some { x with assignment := none })).putSeg p (some
          { g with reservedDispatch := g.reservedDispatch - 1 })))

/-- The insertion at the head (R66, R72): the rack with its placed record, the queue in order behind it, an open window closed, a
stranger record's vouched entry set, and the arrival of a new head with the reports of R39; nothing else. -/
def Sys2Proof.Says.InsertedAtHead : Prop :=
  ∀ (s : State) (n : SegNo) (g : Segment) (e : EntryNo) (x : Entry) (prior : Option RackState) (exceeds : Bool),
    s.seg? n = some g → s.entry? e = some x →
    let y := x.place n g.config.kind g.config.storeKind prior exceeds s.params.rewashLimit s.seconds
    let inserted : Segment :=
      { g with
        queue := e :: g.queue, window := .closed, headArrived := false
        stranger := g.stranger.map fun r => { r with vouched := some e } }
    y.placed = true ∧
    ArrivedHead ((s.putEntry e (some y)).putSeg n (some inserted)) (s.insertHead e n prior exceeds) n inserted e y

/-- The counting of one entry passed (R67): 1 where it was 0, and nothing else; else a declaration as MISSING, OVERTAKEN
(Obligations.DeclarationAsMissing). -/
def Sys2Proof.Says.EntryPassed : Prop :=
  ∀ (s : State) (d : EntryNo) (y : Entry), s.entry? d = some y →
    (y.overtaken = 0 → s.passEntry d = s.putEntry d (some { y with overtaken := 1 })) ∧
    (y.overtaken ≠ 0 → s.passEntry d = s.declareMissing d .overtaken)

/-- The entry that auto-admission takes (R4, R19, R69): it leaves the free list, and has the tag and the fields of a new entry;
what else its record holds the insertion sets. -/
def Sys2Proof.Says.FreeEntryTaken : Prop :=
  ∀ (s : State) (e : EntryNo) (t : Tag), ∃ x : Entry,
    s.takeFree e t = { s.putEntry e (some x) with freeList := s.freeList.tail } ∧
    x.tag = t ∧ x.passes = 0 ∧ x.rewashes = 0 ∧ x.overtaken = 0 ∧ x.verdict = .none ∧ x.hold = none ∧ x.claim = none ∧
    x.assignment = none ∧ x.location = none ∧ x.pass = none ∧ x.missing = none

/-- The report of a reader: the first tag (R64, R69, R70, R76), the second (R60), relocation with everything its parts do, the
entries it passes and the tail it displaces (R65 to R68), auto-admission (R69). The mark of placement (log 6) and the vouched
entry taken out of the record with the head (log 37) are the model's readings. -/
def Obligations.SightingJudged : Prop :=
  Says.FirstTagJudged ∧ Says.SecondTagTaken ∧ Says.ReportTaken ∧ Says.Relocation ∧ Says.TakenOutOfSegment ∧ Says.TakenOut ∧
    Says.AssignmentReleased ∧ Says.InsertedAtHead ∧ Says.EntryPassed ∧ Says.PlacementOverLimit ∧ Says.AutoAdmission ∧
    Says.FreeEntryTaken ∧ Says.Displacement

/-! ### The tunnel and the rinse -/

/-- DEFINE_TUNNEL (R79, R80): the fields, the relations between them, and what is set; that a range is judged before the mode
is the model's choice (notes/assumptions/10.md). -/
def Obligations.DefineTunnelTakes : Prop :=
  ∀ (s : State) (more : List Byte) (f : RawTunnel), s.port.turnaround = false →
    let c : Instr := .defineTunnel f more
    let inRanges := 1 ≤ f.capacity.toNat ∧ f.capacity.toNat ≤ 24 ∧ f.pitch ≠ 0 ∧ f.finalStart ≠ 0 ∧ f.finalEnd ≠ 0 ∧
      f.exitDistance ≠ 0 ∧ f.paceBase ≠ some 0 ∧ (∀ t, f.trim = some t → t.toNat ≤ 15)
    let related := f.finalStart.toNat < f.finalEnd.toNat ∧ f.finalEnd.toNat < f.exitDistance.toNat ∧
      f.exitDistance.toNat + f.exitTolerance.toNat ≤ 65535 ∧
      f.exitTolerance.toNat < f.exitDistance.toNat - f.finalEnd.toNat ∧
      f.haltMargin.toNat ≤ f.exitDistance.toNat - f.exitTolerance.toNat
    let fields : TunnelConfig :=
      { capacity := f.capacity.toNat, pitch := f.pitch.toNat, finalStart := f.finalStart.toNat,
        finalEnd := f.finalEnd.toNat, exitDistance := f.exitDistance.toNat, exitTolerance := f.exitTolerance.toNat,
        haltMargin := f.haltMargin.toNat, paceBase := match f.paceBase with | some b => b.toNat | none => 36,
        trim := match f.trim with | some t => t.toNat | none => 0 }
    (¬ inRanges → TellsBad c s) ∧
    (inRanges → s.mode ≠ .configure → Tells c s .mode []) ∧
    (inRanges → s.mode = .configure → ¬ related → TellsBad c s) ∧
    (inRanges → s.mode = .configure → related →
      Takes c s { s.taken c with
        tunnel := { s.tunnel with config := some fields, pace := 0, tickMs := 0, trimPosition := 1,
                                  pitchCount := 65535 } } fun _ => [])

/-- CLEAR_TUNNEL_FAULT (R96): the latch is cleared and its record answered; DONE where it is clear. That the record is its three
bytes alone, and an empty body where the latch is clear, is the model's choice (notes/assumptions/11.md). -/
def Sys2Proof.Says.ClearTunnelFaultTakes : Prop :=
  ∀ (s : State) (more : List Byte), s.port.turnaround = false →
    (s.tunnel.fault = none → Tells (.clearTunnelFault more) s .done []) ∧
    (∀ l, s.tunnel.fault = some l →
      Takes (.clearTunnelFault more) s
        { s.taken (.clearTunnelFault more) with tunnel := { s.tunnel with fault := none } }
        fun _ => [BitVec.ofNat 8 l.first.code, BitVec.ofNat 8 l.latest.code, BitVec.ofNat 8 l.count])

/-- A tunnel fault (R95): it sets the latch or counts in it, and raises TUNNEL_FAULT; nothing else changes. -/
def Sys2Proof.Says.TunnelFaultLatches : Prop :=
  ∀ (s : State) (cause : FaultCause),
    let t := s.tunnelFault cause
    t = { s with tunnel := { s.tunnel with fault := t.tunnel.fault }, attention := t.attention } ∧
    (s.tunnel.fault = none → t.tunnel.fault = some ⟨cause, cause, 1⟩) ∧
    (∀ l, s.tunnel.fault = some l → t.tunnel.fault = some ⟨l.first, cause, min 255 (l.count + 1)⟩) ∧
    (t.source .tunnelFault).flag = true ∧
    ∀ a, a ≠ .tunnelFault → t.source a = s.source a

/-- The tunnel fault latch (R95, R96). -/
def Obligations.TunnelFaults : Prop :=
  Says.ClearTunnelFaultTakes ∧ Says.TunnelFaultLatches

/-- An encoder count (R81): both counters, then the verdicts and the overdue racks of a defined tunnel. -/
def Sys2Proof.Says.EncoderCounts : Prop :=
  ∀ s : State, ∃ u,
    Happens .encoderCount s u ∧
    u.tunnel.encoder = s.tunnel.encoder + 1 ∧ u.tunnel.pitchCount = min 65535 (s.tunnel.pitchCount + 1) ∧
    (let v : State := { s with tunnel := { s.tunnel with
        encoder := s.tunnel.encoder + 1, pitchCount := min 65535 (s.tunnel.pitchCount + 1) } }
     (s.tunnel.config = none → u = v) ∧
     ∀ c, s.tunnel.config = some c →
      u = (v.forEach (fun w e => w.fixAt c e) s.tunnel.list).declareOverdue c s.tunnel.list.length)

/-- The verdict fixed where a position becomes final end (R9, R105, R106). -/
def Sys2Proof.Says.VerdictFixedAtFinalEnd : Prop :=
  ∀ (s : State) (c : TunnelConfig) (e : EntryNo) (x : Entry) (p : PassRecord),
    s.entry? e = some x → x.pass = some p →
    let t := s.fixAt c e
    let passed := s.params.minDwell ≤ p.dwell ∧ p.dropoutMark = false
    ((s.tunnel.encoder - p.mark).toNat ≠ c.finalEnd ∨ p.fixed ≠ .no → t = s) ∧
    ((s.tunnel.encoder - p.mark).toNat = c.finalEnd → p.fixed = .no →
      (passed → t = s.putEntry e (some { x with verdict := .pass p.dwell false, pass := some { p with fixed := .pass } })) ∧
      (¬ passed → t = (s.putEntry e (some
        { x with
          verdict := .fail .rinse p.dwell p.dropoutMark
          rewashes := min 3 (x.rewashes + 1)
          pass := some { p with fixed := .fail,
                                overLimit := p.overLimit || decide (s.params.rewashLimit < x.rewashes + 1) } })).raise
        .rinseFail))

/-- An overdue head (R93): declared MISSING with a tunnel fault, and the new head tested at the same count. -/
def Sys2Proof.Says.OverdueHeads : Prop :=
  ∀ (s : State) (c : TunnelConfig) (k : Nat),
    (s.tunnel.list = [] → s.declareOverdue c k = s) ∧
    (∀ e rest x p, s.tunnel.list = e :: rest → s.entry? e = some x → x.pass = some p →
      ((s.tunnel.encoder - p.mark).toNat ≤ c.exitDistance + c.exitTolerance → s.declareOverdue c k = s) ∧
      (c.exitDistance + c.exitTolerance < (s.tunnel.encoder - p.mark).toNat →
        s.declareOverdue c (k + 1) = ((s.declareMissing e .overdue).tunnelFault .overdue).declareOverdue c k))

/-- ENCODER_COUNT with the verdict and the overdue racks (R81, R93, R105, R106). -/
def Obligations.EncoderCount : Prop :=
  Says.EncoderCounts ∧ Says.VerdictFixedAtFinalEnd ∧ Says.OverdueHeads

/-- EXIT_EYE blocks (R89 to R92): taken once for each blocking; recorded alone in CONFIGURE and without a tunnel; a phantom
where no rack is due; a normal exit by the verdict where OUTFEED has room, with the arrival there as at a departure. The mark of
placement, cleared at the exit, and the arrival at a JAMMED segment or a stranger's are the model's readings
(notes/assumptions/6.md, 34.md). -/
def Obligations.ExitEyeBlocks : Prop :=
  ∀ s : State,
    (s.tunnel.exitEye = true → exec .exitEyeBlock s = .next s) ∧
    (s.tunnel.exitEye = false →
      let u : State := { s with tunnel := { s.tunnel with exitEye := true } }
      (s.mode = .configure ∨ s.tunnel.config = none → exec .exitEyeBlock s = .next u) ∧
      (∀ c, s.mode ≠ .configure → s.tunnel.config = some c →
        (s.tunnel.list = [] → Happens .exitEyeBlock s (u.tunnelFault .phantom)) ∧
        (∀ e rest x p, s.tunnel.list = e :: rest → s.entry? e = some x → x.pass = some p →
          ((s.tunnel.encoder - p.mark).toNat < c.exitDistance - c.exitTolerance →
            Happens .exitEyeBlock s (u.tunnelFault .phantom)) ∧
          (∀ o g, c.exitDistance - c.exitTolerance ≤ (s.tunnel.encoder - p.mark).toNat → s.outfeed = some o →
            s.seg? o = some g →
            (1 ≤ g.freeSpace → ∃ v, Happens .exitEyeBlock s v ∧
              v.tunnel = { s.tunnel with exitEye := true, list := rest } ∧
              (∃ h, v.seg? o = some h ∧ h.queue = g.queue ++ [e]) ∧ (∀ m, m ≠ o → v.seg? m = s.seg? m) ∧
              (∀ d, d ≠ e → v.entry? d = s.entry? d) ∧
              ∃ y, v.entry? e = some y ∧ y.location = some (.segment o) ∧ y.pass = none ∧ y.verdict = x.verdict ∧
                y.hold = x.hold ∧ y.rewashes = x.rewashes ∧ y.passes = x.passes ∧ y.lastConfirmed = s.seconds ∧
                y.staleAge = 0 ∧ y = { x with
                  location := some (.segment o), state := y.state, pass := none, lastConfirmed := s.seconds, staleAge := 0
                  placed := false } ∧
                JoinsTail false ({ s with tunnel := { s.tunnel with exitEye := true, list := rest } }.putEntry e (some y)) v o
                  g e y ∧
                (∀ dwell m, x.verdict = .pass dwell m → y.state = .cleared) ∧
                (∀ cause dwell m, x.verdict = .fail cause dwell m →
                  y.state = if p.overLimit = true ∨ s.params.rewashLimit < x.rewashes then .setAside else .rewashDue)) ∧
            (g.freeSpace = 0 → x.location = some .tunnel → ∃ v, Happens .exitEyeBlock s v ∧
              v.tunnel.list = rest ∧
              (∃ y, v.entry? e = some y ∧ y.state = .missing ∧ y.missing = some ⟨.overrun, x.state, .tunnel⟩ ∧
                y.pass = none ∧ y.verdict = x.verdict ∧ y.rewashes = x.rewashes) ∧
              (∃ h, v.seg? o = some h ∧ h.jammed = true ∧ h.transfer = none ∧ h.queue = g.queue) ∧
              (∃ l, v.tunnel.fault = some l ∧ l.latest = .overrun) ∧
              (v.source .missing).flag = true ∧ (v.source .jam).flag = true ∧
              (v.source .tunnelFault).flag = true)))))

/-- EXIT_EYE clears, the machine lines change, the pace counter ticks and reaches 0, the pitch is reached (R83 to R85, R92):
nothing but the tunnel's own fields. That PITCH_REACHED and PACE_COUNTER_ZERO, at which R84 has the entry conditions evaluated
again, open no gate themselves is the model's choice (notes/assumptions/5.md), and so is that PACE_TICK does not wait for
counted time (notes/assumptions/4.md). -/
def Obligations.TunnelLinesAndPace : Prop :=
  ∀ s : State,
    exec .exitEyeClear s = .next { s with tunnel := { s.tunnel with exitEye := false } } ∧
    (∀ b, exec (.machineLineChange .machineRun b) s = .next { s with tunnel := { s.tunnel with machineRun := b } }) ∧
    (∀ b, exec (.machineLineChange .washOk b) s = .next { s with tunnel := { s.tunnel with washOk := b } }) ∧
    (∀ b, exec (.machineLineChange .machineFault b) s =
      .next { s with tunnel := { s.tunnel with machineFault := b } }) ∧
    (s.tunnel.machineRun = true → s.tunnel.pace ≠ 0 → s.mode ≠ .quiet →
      exec .paceTick s = .next { s with tunnel := { s.tunnel with pace := s.tunnel.pace - 1, tickMs := 0 } }) ∧
    (s.tunnel.machineRun = false ∨ s.tunnel.pace = 0 ∨ s.mode = .quiet → exec .paceTick s = .next s) ∧
    (s.tunnel.pace = 0 → exec .paceCounterZero s = .next { s with tunnel := { s.tunnel with tickMs := 0 } }) ∧
    exec .pitchReached s = .next s

/-- The rack `x` is in FINAL (R82). -/
def inFinalZone (s : State) (x : Entry) : Prop :=
  ∃ c p, s.tunnel.config = some c ∧ x.pass = some p ∧ c.finalStart ≤ (s.tunnel.encoder - p.mark).toNat ∧
    (s.tunnel.encoder - p.mark).toNat < c.finalEnd

/-- The rinse measurement (R100, R103, R104): which records each of the rows changes, and how; every rack of the tunnel list
stands in it once. -/
def Obligations.RinseMeasures : Prop :=
  ∀ s : State, s.tunnel.list.Nodup →
    let changes (c : Instr) (f : PassRecord → PassRecord) (ok : Bool) : Prop :=
      ∃ t, exec c s = .next t ∧ t.tunnel = { s.tunnel with rinseOk := ok } ∧
        (∀ e x, e ∈ s.tunnel.list → s.entry? e = some x → inFinalZone s x →
          t.entry? e = some { x with pass := x.pass.map f }) ∧
        (∀ e x, s.entry? e = some x → (e ∉ s.tunnel.list ∨ ¬ inFinalZone s x) → t.entry? e = some x) ∧
        t = { s with tunnel := t.tunnel, entries := t.entries, out := t.outputs }
    (s.tunnel.rinseOk = false → changes .rinseOkAssert (fun p => { p with dropoutTimer := 0 }) true) ∧
    (s.tunnel.rinseOk = true → exec .rinseOkAssert s = .next s) ∧
    exec .rinseOkDeassert s = .next { s with tunnel := { s.tunnel with rinseOk := false } } ∧
    (s.tunnel.rinseOk = true →
      changes .dwellMillisecond (fun p => { p with dwell := min 65535 (p.dwell + 1) }) true) ∧
    (s.tunnel.rinseOk = false →
      changes .dwellMillisecond (fun p =>
        { p with
          dropoutTimer := min 65535 (p.dropoutTimer + 1)
          dropoutMark := p.dropoutMark || decide (s.params.grace < min 65535 (p.dropoutTimer + 1)) }) false) ∧
    (∀ e x, s.tunnel.rinseOk = false → s.entry? e = some x → inFinalZone s x →
      ∃ t, exec (.dropout e) s = .next t ∧
        t = { s.putEntry e (some { x with pass := x.pass.map fun p =>
          { p with dropoutMark := p.dropoutMark || decide (s.params.grace < p.dropoutTimer) } }) with out := t.outputs })

/-! ### The link -/

/-- DEFINE_NODE and its removal (R118 to R120); that a range is judged before the mode is the model's choice
(notes/assumptions/10.md), and so is that a removal of an undefined address is answered DONE (notes/assumptions/20.md). -/
def Obligations.DefineNodeTakes : Prop :=
  ∀ (s : State) (more : List Byte) (address : Byte), s.port.turnaround = false →
    (∀ fields, address = 0 ∨ 16 < address.toNat → TellsBad (.defineNode address fields more) s) ∧
    (∀ raw, nodeFields raw = none → TellsBad (.defineNode address (some raw) more) s) ∧
    (∀ n : NodeNo, address.toNat = n.val + 1 →
      let steerless (u : State) : State := { u with link := { u.link with steering := false } }
      (s.mode ≠ .configure → Tells (.defineNode address none more) s .mode [] ∧
        ∀ raw f, nodeFields raw = some f → Tells (.defineNode address (some raw) more) s .mode []) ∧
      (s.mode = .configure →
        (s.holdsClaim n = true → Tells (.defineNode address none more) s .occupied []) ∧
        (s.holdsClaim n = false →
          let c : Instr := .defineNode address none more
          ∃ u, Takes c s u (fun _ => []) ∧ u.node? n = none ∧ (∀ m, m ≠ n → u.node? m = s.node? m) ∧
            u.answers = s.answers.filter (fun a => a.node != n) ∧ u.link.steering = false ∧ u.demand = s.demand ∧
            u.entries = s.entries ∧ ∀ r, s.round? = some r → u.round? = some { r with removed := n :: r.removed }) ∧
        (∀ raw f, nodeFields raw = some f →
          let c : Instr := .defineNode address (some raw) more
          (f.role? = none → TellsBad c s) ∧
          (∀ role, f.role? = some role →
            (s.node? n = none →
              Takes c s (steerless ((s.taken c).putNode n (some
                { role := role, presence := .unknown, branch := none, errorRun := 0, lastError := none, overrun := false,
                  badRequest := false, request := none, lastDemand := ⟨false, false, false, false⟩ }))) fun _ => []) ∧
            (∀ x, s.node? n = some x →
              (x.role.code = role.code →
                Takes c s (steerless ((s.taken c).putNode n (some { x with role := role }))) fun _ => []) ∧
              (x.role.code ≠ role.code → s.holdsClaim n = true → Tells c s .occupied []) ∧
              (x.role.code ≠ role.code → s.holdsClaim n = false →
                Takes c s (steerless { (s.taken c).putNode n (some
                  { role := role, presence := .unknown, branch := x.branch, errorRun := 0, lastError := none,
                    overrun := false, badRequest := false, request := none,
                    lastDemand := ⟨false, false, false, false⟩ }) with
                  answers := s.answers.filter fun a => a.node != n }) fun _ => []))))))

/-- STEER in every mode (R133). -/
def Obligations.SteerTakes : Prop :=
  ∀ (s : State) (more : List Byte) (on : Byte), s.port.turnaround = false →
    let c : Instr := .steer on more
    let steered (b : Bool) : State := { s.taken c with link := { s.link with steering := b } }
    (1 < on.toNat → TellsBad c s) ∧
    (on = 0 → Takes c s (steered false) fun _ => []) ∧
    (on = 1 → (∀ n x, s.node? n = some x → x.branch ≠ none) → Takes c s (steered true) fun _ => []) ∧
    (∀ n x, on = 1 → s.node? n = some x → x.branch = none →
      (∀ m y, m < n → s.node? m = some y → y.branch ≠ none) →
      Tells c s .incomplete [BitVec.ofNat 8 (n.val + 1)])

/-- LINK_RESET in every mode (R135): nothing follows it in the same step, because no demand item is left. Its change `u`: the
nodes, the answers, the demand queue, the link; of every rack claim and assignment; the dispatch reservations; the windows,
which the cut round counts for no more. Everything else is kept. A reservation that a transfer in flight carries is
converted as each clearing of an assignment does (R45, Says.AssignmentCancelled). That the round count and the restart mark of
the round cut off stay until the next round begins is the model's choice (notes/assumptions/44.md). -/
def Sys2Proof.Says.LinkResetTakes : Prop :=
  ∀ (s : State) (more : List Byte), s.port.turnaround = false → ∃ u,
    TakesAlone (.linkReset more) s u [] ∧
    u = { s.taken (.linkReset more) with
      nodes := u.nodes, entries := u.entries, segments := u.segments, answers := [], demand := []
      link := { s.link with phase := .pulse, steering := false, nextCount := 0, restart := .cold, restartLeft := 3,
                            coldDue := true } } ∧
    (∀ n, u.node? n = (s.node? n).map fun x =>
      { role := x.role, presence := .unknown, branch := none, errorRun := 0, lastError := none, overrun := false,
        badRequest := false, request := none, lastDemand := ⟨false, false, false, false⟩ }) ∧
    (∀ e, s.entry? e = none → u.entry? e = none) ∧
    (∀ e x, s.entry? e = some x → ∃ y, u.entry? e = some y ∧
      (x.claim ≠ none → y = { x with claim := none, assignment := none, state := .cleared }) ∧
      (x.claim = none → x.assignment ≠ none → Cancelled s e x y) ∧ (x.claim = none → x.assignment = none → y = x)) ∧
    (∀ n, s.seg? n = none → u.seg? n = none) ∧
    (∀ n g, s.seg? n = some g → ∃ h, u.seg? n = some h ∧ ParkReleased s n g h (fun _ => true) ∧
      h = { g with
        reservedDispatch := h.reservedDispatch, reservedTransfer := h.reservedTransfer, transfer := h.transfer
        window := match g.window with
          | .closed => .closed
          | .head k e _ => .head k e false
          | .untracked k _ => .untracked k false } ∧
      (h.transfer.map fun r => { r with carried := false }) = g.transfer.map fun r => { r with carried := false }) ∧
    (let cleared := s.forEach State.cancelAssignment
        ((List.finRange 128).filter fun e => (s.entry? e).any fun x => x.assignment.isSome)
     ∀ n g h, cleared.seg? n = some g → u.seg? n = some h →
       h.reservedTransfer = g.reservedTransfer ∧ h.transfer = g.transfer)

/-- How the link resumes at a wake (R136, R139, R206): where it was silent by a warm restart, or COLD from count 0 after a
LINK_RESET; in the closing round the rounds go on, the next with the restart mark NONE; while the pulse is driven nothing
changes. That the last replaces marks R124 had still to come, and the warm restart COLD ones, is the model's choice
(notes/assumptions/42.md). -/
def linkResumes (s u : State) : Prop :=
  (s.link.phase = .silent → s.link.coldDue = false →
    u.link = { s.link with phase := .between, restart := .warm, restartLeft := 3 }) ∧
  (s.link.phase = .silent → s.link.coldDue = true → u.link = { s.link with phase := .between }) ∧
  (∀ r, s.link.phase = .header r ∨ s.link.phase = .windows r → u.link = { s.link with restartLeft := 0 }) ∧
  (s.link.phase = .pulse ∨ s.link.phase = .between → u.link = s.link)

/-- The reset pulse ends (R117, R136): the rounds begin outside QUIET; and a wake of a branch in QUIET (R138, R206, R207). -/
def Sys2Proof.Says.PulseEndAndBranchWake : Prop :=
  ∀ s : State,
    (s.link.phase = .pulse → s.mode ≠ .quiet →
      exec .resetPulseEnd s = .next { s with link := { s.link with phase := .between } }) ∧
    (s.link.phase = .pulse → s.mode = .quiet →
      exec .resetPulseEnd s = .next { s with link := { s.link with phase := .silent } }) ∧
    (∀ br, s.mode ≠ .quiet ∨ s.link.phase = .pulse → exec (.branchWake br) s = .next s) ∧
    (∀ br, s.mode = .quiet → s.link.phase ≠ .pulse → ∃ u, Happens (.branchWake br) s u ∧
      u = { s with mode := .run, idle := 0, link := u.link, attention := u.attention } ∧
      (u.source .modeChange).flag = true ∧
      linkResumes s u)

/-- LINK_RESET, the end of its pulse, and a wake of a branch (R135, R136, R138). -/
def Obligations.LinkReset : Prop :=
  Says.LinkResetTakes ∧ Says.PulseEndAndBranchWake

/-- A round begins (R121 to R126): count, restart mark, header, answers from the head of the queue, window list, length. -/
def Obligations.RoundStarts : Prop :=
  ∀ s : State, s.link.phase = .between → s.mode ≠ .quiet → ∃ r : Round,
    exec .roundStart s = .next { s with
      link := { s.link with
        phase := .header r
        roundCount := s.link.nextCount
        nextCount := s.link.nextCount + 1
        mark := if s.link.restartLeft = 0 then .none else s.link.restart
        restartLeft := s.link.restartLeft - 1
        coldDue := false
        header := s.headerBytes r s.link.nextCount (if s.link.restartLeft = 0 then .none else s.link.restart) } } ∧
    r.steered = s.link.steering ∧
    r.carried.map Prod.fst = s.answers.take 4 ∧
    (∀ a b, (a, b) ∈ r.carried → b = (s.node? a.node).any (·.overrun)) ∧
    (s.link.steering = false →
      r.map = ((List.finRange 16).filter fun n => (s.node? n).isSome).map (fun n => (n, none)) ∧
      r.length = max s.params.roundPeriod (6 + 2 * r.map.length)) ∧
    (s.link.steering = true →
      r.map = ((List.finRange 16).filter fun n => (s.node? n).any (·.branch.isSome)).map
        (fun n => (n, (s.node? n).bind (·.branch))) ∧
      (let learned (br : Branch) := ((List.finRange 16).filter fun n => (s.node? n).any (·.branch == some br)).length
       let w := max (learned .a) (max (learned .b) (learned .c))
       r.windowCount = w ∧ r.length = max s.params.roundPeriod (6 + 2 * w))) ∧
    r.heard = [] ∧ r.judged = [] ∧ r.removed = []

/-- The header has been sent in full (R123, R142, R143): the answers it carried leave the queue, and their nodes are no
longer pending and no longer marked. -/
def Sys2Proof.Says.HeaderDelivers : Prop :=
  ∀ (s : State) (r : Round), s.link.phase = .header r → r.carried.map Prod.fst = s.answers.take r.carried.length →
    ∃ t, exec .headerSent s = .next t ∧
      t = { s with link := { s.link with phase := .windows r }, answers := s.answers.drop r.carried.length,
                   nodes := t.nodes, out := t.outputs } ∧
      ∀ n, t.node? n = if (s.answers.take r.carried.length).any (fun a => a.node == n)
        then (s.node? n).map fun x => { x with request := none, overrun := false } else s.node? n

/-- A round ends (R62, R137): each window counts it where it was open for the whole of it and the mode was RUN or SERVICE
throughout; in QUIET no further round begins. -/
def Sys2Proof.Says.RoundEnds : Prop :=
  ∀ (s : State) (r : Round), s.link.phase = .windows r →
    ∃ t, exec .roundEnd s = .next t ∧
      t = { s with link := { s.link with phase := if s.mode = .quiet then .silent else .between },
                   segments := t.segments, out := t.outputs } ∧
      ∀ n, t.seg? n = (s.seg? n).map fun g =>
        { g with window := match g.window with
          | .closed => .closed
          | .head k e fresh => .head (if fresh = true ∨ r.steady = false then k else k - 1) e false
          | .untracked k fresh => .untracked (if fresh = true ∨ r.steady = false then k else k - 1) false }

/-- HEADER_SENT and ROUND_END (R62, R123, R137, R143). -/
def Obligations.HeaderAndRoundEnd : Prop :=
  Says.HeaderDelivers ∧ Says.RoundEnds

/-- What a window's owner is judged by (R127, R128): in an unsteered round the branch on which activity began first, in a
steered one the owner's branch alone. -/
def judgedBy (r : Round) (n : NodeNo) (seen : List (Branch × WindowActivity)) (a : WindowActivity) : Prop :=
  (r.steered = false ∧ ∃ br rest, seen = (br, a) :: rest) ∨
  (r.steered = true ∧ ∃ br before rest, (r.map.find? fun p => p.1 == n) = some (n, some br) ∧
    seen = before ++ (br, a) :: rest ∧ ∀ p ∈ before, p.1 ≠ br)

/-- Some branch carried a good frame that names the node. -/
def repliedOn (seen : List (Branch × WindowActivity)) (n : NodeNo) : Prop :=
  ∃ br bytes reply, (br, WindowActivity.frame bytes) ∈ seen ∧ judgeFrame bytes = .good reply ∧ reply.node = n

/-- A window that ends without a valid reply of its owner charges the owner (R127, R128, R130), once, by the activity it is
judged by; what is charged by a frame is what `judgeFrame` says of its bytes (R208). In a steered round a reply of a node
whose learned branch is not the owner's leaves the owner unjudged; that a defined node without a learned branch counts as one
is the model's reading (notes/assumptions/18.md). So it is where that node was removed and defined again in the round, and a
reply still being received is LONG whatever it declares: the model's choices (notes/assumptions/46.md, 47.md). -/
def Sys2Proof.Says.WindowEndCharges : Prop :=
  ∀ (s : State) (r : Round) (n : NodeNo) (x : Node), s.link.phase = .windows r → s.node? n = some x →
    (∃ b, (n, b) ∈ r.map) → n ∉ r.heard → n ∉ r.judged → n ∉ r.removed →
    let charged (kind : LinkError) : State :=
      ({ s with link := { s.link with phase := .windows { r with judged := n :: r.judged } } } : State).chargeError n kind
    Happens (.windowEnd n []) s (charged .silence) ∧
    (∀ seen, repliedOn seen n → exec (.windowEnd n seen) s = .next s) ∧
    (∀ seen br, ¬ repliedOn seen n → r.steered = true → (r.map.find? fun p => p.1 == n) = some (n, some br) →
      (∀ p ∈ seen, p.1 ≠ br) → Happens (.windowEnd n seen) s (charged .silence)) ∧
    (∀ seen a, ¬ repliedOn seen n → judgedBy r n seen a →
      (a = .heldActive → Happens (.windowEnd n seen) s (charged .break)) ∧
      (a = .unfinished → Happens (.windowEnd n seen) s (charged .long)) ∧
      (∀ bytes, a = .frame bytes → judgeFrame bytes = .long → Happens (.windowEnd n seen) s (charged .long)) ∧
      (∀ bytes, a = .frame bytes → judgeFrame bytes = .check → Happens (.windowEnd n seen) s (charged .check)) ∧
      (∀ bytes reply, a = .frame bytes → judgeFrame bytes = .good reply →
        (s.node? reply.node = none ∨ r.steered = false → Happens (.windowEnd n seen) s (charged .check)) ∧
        (∀ y br, s.node? reply.node = some y → r.steered = true →
          (r.map.find? fun p => p.1 == n) = some (n, some br) →
          (y.branch = some br → Happens (.windowEnd n seen) s (charged .check)) ∧
          (y.branch ≠ some br → exec (.windowEnd n seen) s = .next s)))) ∧
    (∀ kind, (x.errorRun < 2 ∨ x.presence = .absent) →
      (s.chargeError n kind).node? n = some { x with lastError := some kind, errorRun := min 3 (x.errorRun + 1) } ∧
      (s.chargeError n kind).entries = s.entries ∧ (s.chargeError n kind).answers = s.answers)

/-- A node that becomes ABSENT (R130, R131): its request, answer, marks, demand, assignments and claims. -/
def Sys2Proof.Says.AbsenceDrops : Prop :=
  ∀ (s : State) (n : NodeNo) (x : Node) (kind : LinkError), s.node? n = some x → 2 ≤ x.errorRun → x.presence ≠ .absent →
    let t := s.chargeError n kind
    t.node? n = some { x with lastError := some kind, errorRun := 3, presence := .absent, request := none, overrun := false,
                              lastDemand := ⟨false, false, false, false⟩ } ∧
    t.answers = s.answers.filter (fun a => a.node != n) ∧
    t.demand = s.demand.filter (fun i => i.station != n) ∧
    (∀ e y, s.entry? e = some y → ∃ z, t.entry? e = some z ∧
      (y.claim = some n → z.claim = none ∧ z.state = .cleared) ∧
      (y.claim ≠ some n → z.claim = y.claim) ∧
      (y.assignment = some n → z.assignment = none) ∧
      (y.assignment ≠ some n → z.assignment = y.assignment) ∧
      (y.claim ≠ some n → y.assignment ≠ some n → z = y) ∧
      (y.claim ≠ some n → y.assignment = some n → Cancelled s e y z)) ∧
    (∀ p g, s.seg? p = some g → ∃ h, t.seg? p = some h ∧ h.queue = g.queue ∧ h.config = g.config ∧
      ParkReleased s p g h fun y => y.assignment == some n) ∧
    (∃ u : State, u = { s with nodes := u.nodes, answers := u.answers, demand := u.demand } ∧
      t.segments = (u.forEach State.cancelAssignment
        ((List.finRange 128).filter fun e => (s.entry? e).any fun y => y.assignment == some n)).segments) ∧
    (t.source .nodeAbsent).flag = true

/-- The clearing of one assignment (R30, R41, R45, R178): the record; the dispatch reservation of the node's PARK, released
where no transfer in flight carries it, and else made a transfer reservation of that transfer. -/
def Sys2Proof.Says.AssignmentCancelled : Prop :=
  ∀ (s : State) (e : EntryNo) (y : Entry) (n : NodeNo) (p : SegNo) (k : Segment),
    s.entry? e = some y → y.assignment = some n → s.parkOf n = some p → s.seg? p = some k →
    let t := s.cancelAssignment e
    let carries (c : SegNo) (g : Segment) (r : Transfer) : Prop :=
      s.seg? c = some g ∧ g.transfer = some r ∧ r.carried = true ∧ g.queue.head? = some e
    (∃ z, t.entry? e = some z ∧ Cancelled s e y z) ∧ (∀ d, d ≠ e → t.entry? d = s.entry? d) ∧
    t = { s with entries := t.entries, segments := t.segments } ∧
    ((∀ c g r, ¬ carries c g r) → t.seg? p = some { k with reservedDispatch := k.reservedDispatch - 1 } ∧
      ∀ m, m ≠ p → t.seg? m = s.seg? m) ∧
    (∀ c g r, carries c g r → (∀ c' g' r', carries c' g' r' → c' = c) → r.dest = .segment p → c ≠ p →
      t.seg? c = some { g with transfer := some { r with carried := false } } ∧
      t.seg? p = some { k with reservedDispatch := k.reservedDispatch - 1, reservedTransfer := k.reservedTransfer + 1 } ∧
      ∀ m, m ≠ c → m ≠ p → t.seg? m = s.seg? m)

/-- WINDOW_END (R127, R128, R130, R131), with the clearing of an assignment that absence makes (R45, R178). The node without
a learned branch is notes/assumptions/18.md, the model's reading; notes/assumptions/46.md and 47.md are its choices. -/
def Obligations.WindowWithoutReply : Prop :=
  Says.WindowEndCharges ∧ Says.AbsenceDrops ∧ Says.AssignmentCancelled

/-- A valid reply in the window of its node (R127, R129): branch, error run and presence; where it is not ready the rest of
the reply is ignored and the node's demand items leave the queue, with what R75, R173 and R205 let follow. -/
def Sys2Proof.Says.ReplyIsTaken : Prop :=
  ∀ (s : State) (r : Round) (w : Nat) (br : Branch) (reply : Reply) (x : Node),
    s.link.phase = .windows r → s.node? reply.node = some x → w < r.windowCount → (r.owners br)[w]? = some reply.node →
    reply.node ∉ r.heard → reply.node ∉ r.judged → reply.node ∉ r.removed →
    (∃ t y, exec (.validReply w br reply) s = .next t ∧ t.node? reply.node = some y ∧
      y.role = x.role ∧ y.branch = some br ∧ y.errorRun = 0 ∧ y.lastError = x.lastError ∧
      y.presence = (if reply.ready then .present else .notReady) ∧
      (∀ m, m ≠ reply.node → t.node? m = s.node? m)) ∧
    (reply.ready = false → ∃ u, Happens (.validReply w br reply) s u ∧
      u = { s with
        nodes := u.nodes
        link := { s.link with phase := .windows { r with heard := reply.node :: r.heard } }
        demand := s.demand.filter fun i => i.station != reply.node } ∧
      u.node? reply.node = some { x with branch := some br, errorRun := 0, presence := .notReady } ∧
      ∀ m, m ≠ reply.node → u.node? m = s.node? m)

/-- A branch fault (R134): in a steered round a reply of a node learned on another branch is taken, steering is off from the
next round, BRANCH_FAULT is raised; the round in progress keeps its windows, the owner of this one is not judged in it, and no
node but the one that replied changes (R128). That the owner's own later reply is disregarded with it is the model's choice
(notes/assumptions/45.md). A reply that R128 disregards changes nothing. -/
def Sys2Proof.Says.BranchFaultOrDisregarded : Prop :=
  ∀ (s : State) (r : Round) (w : Nat) (br : Branch) (reply : Reply) (x : Node),
    s.link.phase = .windows r →
    (s.node? reply.node = none → exec (.validReply w br reply) s = .next s) ∧
    (s.node? reply.node = some x →
      (reply.node ∈ r.heard ∨ reply.node ∈ r.removed ∨ r.windowCount ≤ w → exec (.validReply w br reply) s = .next s) ∧
      (reply.node ∉ r.heard → reply.node ∉ r.removed → w < r.windowCount → (r.owners br)[w]? ≠ some reply.node →
        (r.steered = false ∨ x.branch = some br → exec (.validReply w br reply) s = .next s) ∧
        (r.steered = true → x.branch ≠ some br → ∃ (u t : State) (y : Node) (r' : Round),
          r' = { r with judged := ((r.owners br)[w]?).toList ++ r.judged } ∧
          u = { s with link := { s.link with steering := false, phase := .windows r' }, attention := u.attention } ∧
          (u.source .branchFault).flag = true ∧ (∀ a, a ≠ .branchFault → u.source a = s.source a) ∧
          t = (u.takeReply br x.role reply).refreshOutputs ∧
          exec (.validReply w br reply) s = .next t ∧
          t.node? reply.node = some y ∧ y.branch = some br ∧ y.errorRun = 0 ∧ (∀ m, m ≠ reply.node → t.node? m = s.node? m) ∧
          t.link.steering = false ∧ t.link.phase = .windows { r' with heard := reply.node :: r'.heard })))

/-- The contents of a reply that leaves its node PRESENT are handed on in the order sightings, demand, request (R129): the
report of a READER outside CONFIGURE, the demand set of a LOAD node, repeated where the reply shows none, and the request;
after the sightings and after the demand what R75, R173 and R205 let follow. A request taken, and an item admitted, in the
closing round wake (R206). That stores are offered once after the whole demand set is the model's choice
(notes/assumptions/40.md); that the end of an exemption is judged after each part, and that a request discarded as an overrun
wakes too, are its readings (notes/assumptions/7.md, 14.md). -/
def Sys2Proof.Says.ReplyHandsOn : Prop :=
  ∀ (s : State) (r : Round) (w : Nat) (br : Branch) (reply : Reply) (x : Node),
    s.link.phase = .windows r → s.node? reply.node = some x → w < r.windowCount → (r.owners br)[w]? = some reply.node →
    reply.node ∉ r.heard → reply.node ∉ r.judged → reply.node ∉ r.removed → reply.ready = true →
    ∃ v0 v1 v2 v3 : State,
      v0 = { s with
        nodes := v0.nodes
        link := { s.link with phase := .windows { r with heard := reply.node :: r.heard } } } ∧
      v0.node? reply.node = some { x with branch := some br, errorRun := 0, presence := .present } ∧
      (∀ m, m ≠ reply.node → v0.node? m = s.node? m) ∧
      ((∃ gate, x.role = .reader gate) ∧ s.mode ≠ .configure → v1 = v0.report reply.node reply.sightings) ∧
      (¬ ((∃ gate, x.role = .reader gate) ∧ s.mode ≠ .configure) → v1 = v0) ∧
      (let s1 := State.settle v0 v1
       (∀ chain, x.role = .load chain → ∃ d : DemandSet,
          d = (match reply.demand with | some d => d | none => x.lastDemand) ∧
          v2 = (((((s1.updNode reply.node fun y => { y with lastDemand := d }).takeFlag reply.node chain d .plate).takeFlag
            reply.node chain d .cup).takeFlag reply.node chain d .cutlery).takeFlag reply.node chain d .tray)) ∧
       ((∀ chain, x.role ≠ .load chain) → v2 = s1) ∧
       (let s2 := State.settle s1 v2
        v3 = (match reply.request with | some q => s2.takeRequest reply.node q | none => s2) ∧
        exec (.validReply w br reply) s = .next
          (if reply.request ≠ none ∨ s1.nextOrder ≠ s2.nextOrder then v3.wake true else v3).refreshOutputs))

/-- What a reply hands on is what the commands of their own make: settling is what follows a change in the same step, and a
station's request is the one its row carries out (R141). -/
def Sys2Proof.Says.HandedOnAsCommands : Prop :=
  (∀ before s : State, SettledFrom before s (State.settle before s).refreshOutputs) ∧
  (∀ (s : State) (c : Instr) (n : NodeNo) (x : Node) (q : RackRequest), rackRow c = some (.station n, q) → Heard s n x →
    exec c s = .next ((s.takeRequest n q).wake true).refreshOutputs)

/-- VALID_REPLY (R127 to R129, R134). Notes/assumptions/18.md, 7.md and 14.md are the model's readings, 40.md its choice. -/
def Obligations.ValidReply : Prop :=
  Says.ReplyIsTaken ∧ Says.BranchFaultOrDisregarded ∧ Says.ReplyHandsOn ∧ Says.HandedOnAsCommands

/-! ### Rack requests -/

/-- LOOKUP from the supervisor and from every station, in every mode (R151, R164). That the supervisor's answer carries the
tag of the echo before the summary is the model's reading (notes/assumptions/29.md). -/
def Obligations.LookupReports : Prop :=
  ∀ (s : State) (more : List Byte) (tag : Tag),
    (s.port.turnaround = false →
      let c : Instr := .lookup (.supervisor more) tag
      (s.find tag = none → Tells c s .notFound tag.bytes) ∧
      (∀ e, s.find tag = some e → Tells c s .done (tag.bytes ++ s.summaryBytes (some e)))) ∧
    (∀ (n : NodeNo) (x : Node), Heard s n x →
      let c : Instr := .lookup (.station n) tag
      let q : RackRequest := ⟨1, .tag tag, none, none⟩
      (s.find tag = none → StationTells c n q s .notFound none) ∧
      (∀ e, s.find tag = some e → StationTells c n q s .done (s.summary? (some e))))

/-- SEND of a LOAD node (R152): the rack named, or the head of the node's own park, STAGED there, becomes LOADED. -/
def Sys2Proof.Says.SendLoads : Prop :=
  ∀ (s : State) (n : NodeNo) (x : Node) (chain : Chain) (p : SegNo) (e : EntryNo) (y : Entry) (tag : Option Tag)
    (expected : Option Byte), Heard s n x → x.role = .load chain → s.mode ≠ .configure → s.parkOf n = some p →
    (∀ t, tag = some t → s.find t = some e) →
    (tag = none → ∃ g, s.seg? p = some g ∧ g.queue.head? = some e) →
    s.entry? e = some y → y.state = .staged → y.location = some (.segment p) → Expects expected y.state →
    let q : RackRequest := ⟨2, match tag with | some t => .tag t | none => .none, expected, none⟩
    StationTakes (.send (.station n) tag expected) n q s
      ((s.requested n q).putEntry e (some { y with state := .loaded, staleAge := 0 })) fun t => t.summary? (some e)

/-- SEND refused (R150, R152): NOT_HERE where there is no such rack in the node's own park, no head there, or a head that is
not STAGED; IN_PASS for a tag whose rack is in the tunnel. An expected state that is a state is no reason to refuse where no
entry is named. -/
def Sys2Proof.Says.SendNotHere : Prop :=
  ∀ (s : State) (n : NodeNo) (x : Node) (chain : Chain) (expected : Option Byte),
    Heard s n x → x.role = .load chain → s.mode ≠ .configure →
    (s.parkOf n = none ∨ (∃ p g, s.parkOf n = some p ∧ s.seg? p = some g ∧ g.queue = []) →
      (∀ b, expected = some b → 1 ≤ b.toNat ∧ b.toNat ≤ 11) →
      StationTells (.send (.station n) none expected) n ⟨2, .none, expected, none⟩ s .notHere none) ∧
    (∀ p g e y, s.parkOf n = some p → s.seg? p = some g → g.queue.head? = some e → s.entry? e = some y →
      y.state ≠ .staged → y.state ≠ .washing → Expects expected y.state →
      StationTells (.send (.station n) none expected) n ⟨2, .none, expected, none⟩ s .notHere (s.summary? (some e))) ∧
    (∀ t e y, s.find t = some e → s.entry? e = some y → Expects expected y.state →
      (y.state = .washing → StationTells (.send (.station n) (some t) expected) n ⟨2, .tag t, expected, none⟩ s .inPass
        (s.summary? (some e))) ∧
      (y.state ≠ .washing →
        y.state ≠ .staged ∨ (∀ p, s.parkOf n = some p → y.location ≠ some (.segment p)) →
        StationTells (.send (.station n) (some t) expected) n ⟨2, .tag t, expected, none⟩ s .notHere
          (s.summary? (some e))))

/-- SEND without a tag (R146, R149, R152): the head of the node's own park is found before the expected state is compared, and
a state other than the head's is MISMATCH with its summary. -/
def Sys2Proof.Says.SendMismatch : Prop :=
  ∀ (s : State) (n : NodeNo) (x : Node) (chain : Chain) (p : SegNo) (g : Segment) (e : EntryNo) (y : Entry) (b : Byte)
    (st : RackState), Heard s n x → x.role = .load chain → s.mode ≠ .configure → s.parkOf n = some p →
    s.seg? p = some g → g.queue.head? = some e → s.entry? e = some y → RackState.ofCode b.toNat = some st → y.state ≠ st →
    StationTells (.send (.station n) none (some b)) n ⟨2, .none, some b, none⟩ s .mismatch (s.summary? (some e))

/-- SEND (R150, R152). -/
def Obligations.Send : Prop :=
  Says.SendLoads ∧ Says.SendNotHere ∧ Says.SendMismatch

/-- CLAIM of an UNLOAD node (R153): a CLEARED rack in EXIT within the unload reach becomes UNLOADING under its claim; its own
claim again is DONE without a change; another's is CLAIMED; a rack in the tunnel IN_PASS (R150); else NOT_HERE. -/
def Obligations.ClaimTakes : Prop :=
  ∀ (s : State) (n : NodeNo) (x : Node) (t : Tag) (e : EntryNo) (y : Entry) (expected : Option Byte),
    Heard s n x → x.role = .unload → s.mode ≠ .configure → s.find t = some e → s.entry? e = some y →
    Expects expected y.state →
    let c : Instr := .claim (.station n) t expected
    let q : RackRequest := ⟨3, .tag t, expected, none⟩
    let atReach := ∃ m g, y.location = some (.segment m) ∧ s.seg? m = some g ∧ g.config.kind = .exit ∧ e ∈ g.queue ∧
      g.queue.idxOf e + 1 ≤ g.config.reach
    (y.state = .cleared → atReach →
      StationTakes c n q s ((s.requested n q).putEntry e (some { y with state := .unloading, claim := some n }))
        fun t => t.summary? (some e)) ∧
    (y.state = .unloading → y.claim = some n → StationTells c n q s .done (s.summary? (some e))) ∧
    (y.state = .unloading → y.claim ≠ some n → StationTells c n q s .claimed (s.summary? (some e))) ∧
    (y.state = .washing → StationTells c n q s .inPass (s.summary? (some e))) ∧
    (y.state ≠ .unloading → y.state ≠ .washing → ¬ (y.state = .cleared ∧ atReach) →
      StationTells c n q s .notHere (s.summary? (some e)))

/-- UNLOAD_DONE, REWASH and RELEASE of the claim holder (R112, R154 to R156), and their refusals. What the dispatcher assigns
at UNLOAD_DONE (R174) is in the change; the summary shows the rack before it. -/
def Obligations.HolderRequestsTake : Prop :=
  ∀ (s : State) (n : NodeNo) (x : Node) (t : Tag) (e : EntryNo) (y : Entry) (expected : Option Byte),
    Heard s n x → x.role = .unload → s.mode ≠ .configure → s.find t = some e → s.entry? e = some y →
    Expects expected y.state →
    let q (k : Byte) : RackRequest := ⟨k, .tag t, expected, none⟩
    let returned (k : Byte) : State := (s.requested n (q k)).putEntry e
      (some { y with claim := none, state := .returning, assignment := none, rewashes := 0, staleAge := 0 })
    (y.state = .unloading → y.claim = some n →
      StationTakes (.unloadDone (.station n) t expected) n (q 4) s
        (if y.hold.isSome then returned 4
         else match (returned 4).bestItem y.tag.kind with
          | some i => (returned 4).assign e i
          | none => returned 4)
        (fun _ => (returned 4).summary? (some e)) ∧
      StationTakes (.rewash (.station n) t expected) n (q 5) s
        ((s.requested n (q 5)).putEntry e (some
          { y with
            claim := none
            rewashes := min 3 (y.rewashes + 1)
            state := if s.params.rewashLimit < y.rewashes + 1 then .setAside else .rewashDue
            staleAge := if s.params.rewashLimit < y.rewashes + 1 then y.staleAge else 0 }))
        (fun u => u.summary? (some e)) ∧
      StationTakes (.release (.station n) t expected) n (q 6) s
        ((s.requested n (q 6)).putEntry e (some { y with claim := none, state := .cleared }))
        (fun u => u.summary? (some e))) ∧
    (∀ r : Result, (y.state = .unloading ∧ y.claim ≠ some n ∧ r = .claimed) ∨
        (y.state ≠ .unloading ∧ y.state ≠ .washing ∧ r = .notHere) ∨ (y.state = .washing ∧ r = .inPass) →
      StationTells (.unloadDone (.station n) t expected) n (q 4) s r (s.summary? (some e)) ∧
      StationTells (.rewash (.station n) t expected) n (q 5) s r (s.summary? (some e)) ∧
      StationTells (.release (.station n) t expected) n (q 6) s r (s.summary? (some e)))

/-- The hold that R6 and R157 give: SUPERVISOR ranks above INSPECT. -/
def rankedHold (held : Option HoldReason) (asked : HoldReason) : HoldReason :=
  if held = some .supervisor then .supervisor else asked

/-- HOLD from the supervisor in every mode and from UNLOAD and FLOOR nodes outside CONFIGURE (R6, R39, R157): the ranking,
and HOLD_REACHED where the arrived head of a CLOSED gate was not held. That no reason of the supervisor is INSPECT, and that
a head in transfer reports nothing, is the model's reading (notes/assumptions/36.md, notes/assumptions/13.md). -/
def Sys2Proof.Says.HoldTakes : Prop :=
  ∀ (s : State) (more : List Byte) (t : Tag) (e : EntryNo) (y : Entry) (expected reason : Option Byte) (asked : HoldReason),
    s.find t = some e → s.entry? e = some y → Expects expected y.state → y.state ≠ .missing →
    (reason = none ∧ asked = .inspect ∨ reason = some 1 ∧ asked = .inspect ∨ reason = some 2 ∧ asked = .supervisor) →
    let reports := y.hold = none ∧ ∃ m g, y.location = some (.segment m) ∧ s.seg? m = some g ∧ g.headArrived = true ∧
      g.transfer = none ∧ g.queue.head? = some e
    let held (u : State) : State := u.putEntry e (some { y with hold := some (rankedHold y.hold asked) })
    (s.port.turnaround = false →
      let c : Instr := .hold (.supervisor more) t expected reason
      (reports → Takes c s ((held (s.taken c)).raise .holdReached) fun u => t.bytes ++ u.summaryBytes (some e)) ∧
      (¬ reports → Takes c s (held (s.taken c)) fun u => t.bytes ++ u.summaryBytes (some e))) ∧
    (∀ (n : NodeNo) (x : Node), Heard s n x → x.role = .unload ∨ x.role = .floor → s.mode ≠ .configure →
      asked = .inspect →
      let c : Instr := .hold (.station n) t expected reason
      let q : RackRequest := ⟨7, .tag t, expected, reason⟩
      (reports → StationTakes c n q s ((held (s.requested n q)).raise .holdReached) fun u => u.summary? (some e)) ∧
      (¬ reports → StationTakes c n q s (held (s.requested n q)) fun u => u.summary? (some e)))

/-- UNHOLD (R158): the supervisor clears either reason, a station INSPECT alone. -/
def Sys2Proof.Says.UnholdTakes : Prop :=
  ∀ (s : State) (more : List Byte) (t : Tag) (e : EntryNo) (y : Entry) (expected reason : Option Byte),
    s.find t = some e → s.entry? e = some y → Expects expected y.state → y.state ≠ .missing →
    reason = none ∨ reason = some 1 ∨ reason = some 2 →
    let freed (u : State) : State := u.putEntry e (some { y with hold := none })
    (s.port.turnaround = false →
      let c : Instr := .unhold (.supervisor more) t expected reason
      (y.hold = none → Tells c s .done (t.bytes ++ s.summaryBytes (some e))) ∧
      (y.hold ≠ none → Takes c s (freed (s.taken c)) fun u => t.bytes ++ u.summaryBytes (some e))) ∧
    (∀ (n : NodeNo) (x : Node), Heard s n x → x.role = .unload ∨ x.role = .floor → s.mode ≠ .configure →
      reason ≠ some 2 →
      let c : Instr := .unhold (.station n) t expected reason
      let q : RackRequest := ⟨8, .tag t, expected, reason⟩
      (y.hold = none → StationTells c n q s .done (s.summary? (some e))) ∧
      (y.hold = some .inspect → StationTakes c n q s (freed (s.requested n q)) fun u => u.summary? (some e)) ∧
      (y.hold = some .supervisor → StationTells c n q s .notAllowed (s.summary? (some e))))

/-- HOLD and UNHOLD of a MISSING rack are refused NOT_HERE from either source (R150, R157, R158). -/
def Sys2Proof.Says.MissingNotHeld : Prop :=
  ∀ (s : State) (more : List Byte) (t : Tag) (e : EntryNo) (y : Entry) (expected reason : Option Byte),
    s.find t = some e → s.entry? e = some y → Expects expected y.state → y.state = .missing →
    reason = none ∨ reason = some 1 ∨ reason = some 2 →
    (s.port.turnaround = false →
      Tells (.hold (.supervisor more) t expected reason) s .notHere (t.bytes ++ s.summaryBytes (some e)) ∧
      Tells (.unhold (.supervisor more) t expected reason) s .notHere (t.bytes ++ s.summaryBytes (some e))) ∧
    (∀ (n : NodeNo) (x : Node), Heard s n x → x.role = .unload ∨ x.role = .floor → s.mode ≠ .configure →
      reason ≠ some 2 →
      StationTells (.hold (.station n) t expected reason) n ⟨7, .tag t, expected, reason⟩ s .notHere
        (s.summary? (some e)) ∧
      StationTells (.unhold (.station n) t expected reason) n ⟨8, .tag t, expected, reason⟩ s .notHere
        (s.summary? (some e)))

/-- HOLD and UNHOLD (R150, R157, R158). The tag before the summary in the supervisor's answers is notes/assumptions/29.md, the
CLOSED gate notes/assumptions/13.md, a hold without a reason notes/assumptions/36.md: the model's readings. -/
def Obligations.HoldAndUnhold : Prop :=
  Says.HoldTakes ∧ Says.UnholdTakes ∧ Says.MissingNotHeld

/-- FORCE_RELEASE of the supervisor in every mode (R159). -/
def Sys2Proof.Says.ForceReleaseTakes : Prop :=
  ∀ (s : State) (more : List Byte) (t : Tag) (e : EntryNo) (y : Entry) (expected : Option Byte), s.port.turnaround = false →
    s.find t = some e → s.entry? e = some y → Expects expected y.state →
    let c : Instr := .forceRelease (.supervisor more) t expected
    (y.state = .unloading →
      Takes c s ((s.taken c).putEntry e (some { y with claim := none, state := .cleared }))
        fun u => t.bytes ++ u.summaryBytes (some e)) ∧
    (y.state ≠ .unloading → Tells c s .done (t.bytes ++ s.summaryBytes (some e)))

/-- The supervisor is refused the five requests of Table 7-1 that only a station may make (R164). -/
def Sys2Proof.Says.SupervisorMayNot : Prop :=
  ∀ (s : State) (more : List Byte) (t : Tag) (o : Option Tag) (expected : Option Byte), s.port.turnaround = false →
    (∀ b, expected = some b → 1 ≤ b.toNat ∧ b.toNat ≤ 11) →
    Tells (.send (.supervisor more) o expected) s .notAllowed (match o with | some t => t.bytes | none => []) ∧
    Tells (.claim (.supervisor more) t expected) s .notAllowed t.bytes ∧
    Tells (.unloadDone (.supervisor more) t expected) s .notAllowed t.bytes ∧
    Tells (.rewash (.supervisor more) t expected) s .notAllowed t.bytes ∧
    Tells (.release (.supervisor more) t expected) s .notAllowed t.bytes

/-- FORCE_RELEASE, and the requests the supervisor may not make (R159, R164). The tag of the echo in the answers is the
model's reading (notes/assumptions/29.md). -/
def Obligations.SupervisorRights : Prop :=
  Says.ForceReleaseTakes ∧ Says.SupervisorMayNot

/-- The order of the tests of R146 for stations, up to the tag: a malformed request sets its node's mark and raises
BAD_REQUEST (R147); in CONFIGURE all but LOOKUP is answered MODE; a role without the right NOT_ALLOWED (Table 7-1). -/
def Sys2Proof.Says.StationTestsInOrder : Prop :=
  ∀ (s : State) (c : Instr) (n : NodeNo) (x : Node) (q : RackRequest), Heard s n x →
    rackRow c = some (.station n, q) →
    (RackRequest.parse q = none → exec c s = .next
      (((((s.requested n q).updNode n fun y => { y with badRequest := true }).raise .badRequest).queueAnswer n q
        .badRequest none).wake true).refreshOutputs) ∧
    (∀ r, RackRequest.parse q = some r → s.mode = .configure → (∀ t, r ≠ .lookup t) →
      StationTells c n q s .mode none) ∧
    (∀ r, RackRequest.parse q = some r → s.mode ≠ .configure →
      ((∃ tag expected, r = .onRack .send tag expected) ∧ (∀ k, x.role ≠ .load k)) ∨
      ((∃ op tag expected, r = .onRack op tag expected ∧
        (op = .claim ∨ op = .unloadDone ∨ op = .rewash ∨ op = .release)) ∧ x.role ≠ .unload) ∨
      ((∃ reason tag expected, r = .onRack (.hold reason) tag expected ∨ r = .onRack (.unhold reason) tag expected) ∧
        x.role ≠ .unload ∧ x.role ≠ .floor) ∨
      (∃ tag expected, r = .onRack (.hold (some .supervisor)) tag expected ∨
        r = .onRack (.unhold (some .supervisor)) tag expected) ∨
      (∃ tag expected, r = .onRack .forceRelease tag expected) ∨
      (((∃ m, r = .clearJam m) ∨ r = .resume) ∧ x.role ≠ .floor) →
      StationTells c n q s .notAllowed none)

/-- The fourth and fifth test (R146, R149): a tag of no entry is NOT_FOUND, a state other than the expected one MISMATCH with
the summary; both sources. -/
def Sys2Proof.Says.TagAndExpectedState : Prop :=
  ∀ (s : State) (more : List Byte) (c : Instr) (q : RackRequest) (op : RackOp) (t : Tag) (expected : Option RackState),
    RackRequest.parse q = some (.onRack op (some t) expected) →
    (rackRow c = some (.supervisor more, q) → supervisorMay (.onRack op (some t) expected) = true →
      s.port.turnaround = false →
      (s.find t = none → Tells c s .notFound t.bytes) ∧
      (∀ e y st, s.find t = some e → s.entry? e = some y → expected = some st → y.state ≠ st →
        Tells c s .mismatch (t.bytes ++ s.summaryBytes (some e)))) ∧
    (∀ n x, rackRow c = some (.station n, q) → Heard s n x → x.role.may (.onRack op (some t) expected) = true →
      s.mode ≠ .configure →
      (s.find t = none → StationTells c n q s .notFound none) ∧
      (∀ e y st, s.find t = some e → s.entry? e = some y → expected = some st → y.state ≠ st →
        StationTells c n q s .mismatch (s.summary? (some e))))

/-- A request of a node already pending, taken in the reply windows of a round, is an overrun (R142): it sets the mark, is not
carried out and gets no answer. That it wakes in the closing round of QUIET is the model's reading of R206
(notes/assumptions/14.md). -/
def Sys2Proof.Says.OverrunSetsMark : Prop :=
  ∀ (s : State) (c : Instr) (n : NodeNo) (x : Node) (q : RackRequest) (r : Round), s.link.phase = .windows r →
    rackRow c = some (.station n, q) → s.node? n = some x → x.presence = .present → x.request ≠ none →
    exec c s = .next ((s.putNode n (some { x with overrun := true })).wake true).refreshOutputs ∧
    (s.mode ≠ .quiet → ∃ t, exec c s = .next t ∧ t = { s.putNode n (some { x with overrun := true }) with out := t.outputs })

/-- Outside the reply windows of a round, during the header as between two rounds, what a station sends is disregarded (R117,
R142); so is the request of a node that is not defined or not PRESENT (R129, R141). -/
def Sys2Proof.Says.StationDisregarded : Prop :=
  ∀ (s : State) (c : Instr) (n : NodeNo) (q : RackRequest), rackRow c = some (.station n, q) →
    ((∀ r, s.link.phase ≠ .windows r) ∨ (∀ x, s.node? n = some x → x.presence ≠ .present)) → exec c s = .next s

/-- The tests every station request goes through, the overrun, and what is no request at all (R117, R129, R142, R146, R147,
R149). The tag of the echo in the supervisor's answers (notes/assumptions/29.md), a station's row for the end of a reply (17.md)
and the wake of an overrun (14.md) are the model's readings. -/
def Obligations.StationTests : Prop :=
  Says.StationTestsInOrder ∧ Says.TagAndExpectedState ∧ Says.OverrunSetsMark ∧ Says.StationDisregarded

/-! ### The dispatcher -/

/-- A demand set handed on for one kind (R167 to R169): a clear flag removes the item; a set one admits it at the tail of its
chain where the four conditions hold, and else changes nothing. -/
def Sys2Proof.Says.DemandFlagTaken : Prop :=
  ∀ (s : State) (n : NodeNo) (chain : Chain) (d : DemandSet) (k : Kind),
    (DemandSet.flag d k = false →
      s.takeFlag n chain d k = { s with demand := s.demand.filter fun i => !(i.station == n && i.kind == k) }) ∧
    (DemandSet.flag d k = true →
      let admitted := s.mode ≠ .configure ∧ (∀ i ∈ s.demand, i.station ≠ n ∨ i.kind ≠ k) ∧
        (∃ p g, s.parkOf n = some p ∧ s.seg? p = some g ∧
          g.queue.length + (g.reservedTransfer + g.reservedDispatch) +
            (s.demand.filter fun i => i.station == n).length < g.config.capacity) ∧ s.demand.length < 32
      (¬ admitted → s.takeFlag n chain d k = s) ∧
      (admitted →
        let item : DemandItem := { station := n, kind := k, chain := chain, entryTime := s.seconds, promoted := false,
                                   order := s.nextOrder }
        s.takeFlag n chain d k = { s with
          demand := if chain = .high
            then (s.demand.filter fun i => i.chain == .high) ++ item :: s.demand.filter fun i => i.chain == .low
            else s.demand ++ [item]
          nextOrder := s.nextOrder + 1
          idle := if s.mode = .quiet then s.idle else 0 }))

/-- An assignment (R172): the entry is RETURNING for the item's node, the item leaves the queue, and the node's park holds a
dispatch reservation more. -/
def Sys2Proof.Says.AssignmentMade : Prop :=
  ∀ (s : State) (e : EntryNo) (y : Entry) (i : DemandItem) (p : SegNo) (g : Segment),
    s.entry? e = some y → s.parkOf i.station = some p → s.seg? p = some g →
    let t := s.assign e i
    t.entry? e = some { y with state := .returning, assignment := some i.station, staleAge := 0 } ∧
    (∀ d, d ≠ e → t.entry? d = s.entry? d) ∧
    t.demand = (s.demand.filter fun j => !(j.station == i.station && j.kind == i.kind)) ∧
    t.seg? p = some { g with reservedDispatch := g.reservedDispatch + 1 } ∧
    (∀ m, m ≠ p → t.seg? m = s.seg? m) ∧ t.tunnel = s.tunnel ∧ t.attention = s.attention

/-- The best servable item of a kind is the first of the kind in the queue's order that is servable (R169, R175). -/
def Sys2Proof.Says.BestItem : Prop :=
  ∀ (s : State) (k : Kind),
    (∀ i, s.bestItem k = some i ↔ ∃ before after, s.demand = before ++ i :: after ∧ i.kind = k ∧ Servable s i ∧
      ∀ j ∈ before, j.kind = k → ¬ Servable s j) ∧
    (s.bestItem k = none ↔ ∀ i ∈ s.demand, i.kind = k → ¬ Servable s i)

/-- The assignment made next from the stores (R173): to the first servable item in the queue's order whose kind has a store
that offers its head; none where there is no such item. -/
def Sys2Proof.Says.NextAssignment : Prop :=
  ∀ s : State,
    (∀ e i, s.nextOffer = some (e, i) → StoreOffers s i.kind e ∧ ∃ before after, s.demand = before ++ i :: after ∧
      Servable s i ∧ ∀ j ∈ before, Servable s j → ∀ d, ¬ StoreOffers s j.kind d) ∧
    (s.nextOffer = none → ∀ i ∈ s.demand, Servable s i → ∀ e, ¬ StoreOffers s i.kind e) ∧
    (∀ k, (∀ e i, s.nextOffer = some (e, i) → State.offerStores (k + 1) s = State.offerStores k (s.assign e i)) ∧
      (s.nextOffer = none → State.offerStores k s = s))

/-- Stores are offered in the step of every change (R173): what settling leaves has no store that offers its head to a
servable item, and it comes of the assignments alone, but for stale ages and the idle timer. -/
def Sys2Proof.Says.OffersMade : Prop :=
  ∀ before s : State,
    let t := State.settle before s
    (∀ i ∈ t.demand, Servable t i → ∀ e, ¬ StoreOffers t i.kind e) ∧
    (∃ k, t.segments = (State.offerStores k s).segments ∧ t.demand = (State.offerStores k s).demand ∧
      ∀ e, SameButStale ((State.offerStores k s).entry? e) (t.entry? e))

/-- The demand queue, an assignment, and the offers of the stores (R167 to R169, R172, R173, R175). That the order of several
stores is found afresh after each assignment is the model's choice (notes/assumptions/48.md). -/
def Obligations.DemandAndAssignment : Prop :=
  Says.DemandFlagTaken ∧ Says.AssignmentMade ∧ Says.BestItem ∧ Says.NextAssignment ∧ Says.OffersMade

/-- A step of the seconds counter (R10, R74, R170, R205): the counter; in RUN the stale ages; the idle timer. What it makes
due is kept for the rows of its own (notes/assumptions/3.md); nothing is said here of the order of several stale entries (50.md). -/
def Obligations.SecondsStep : Prop :=
  ∀ s : State, ∃ t, exec .secondsTick s = .next t ∧
    t = { s with seconds := s.seconds + 1, entries := t.entries, idle := t.idle, due := t.due, out := t.outputs } ∧
    (∀ e, t.entry? e = (s.entry? e).map fun x =>
      { x with staleAge := if s.mode = .run then min 65535 (x.staleAge + 1) else x.staleAge }) ∧
    (let counts := s.mode = .run ∧ s.params.idleLimit ≠ 0 ∧ s.tunnel.list = [] ∧ s.demand = [] ∧ s.anyOpen = false ∧
        s.stopLatch = false
     (counts → t.idle = min 7200 (s.idle + 1)) ∧
     (¬ counts → s.mode ≠ .quiet → t.idle = 0) ∧ (s.mode = .quiet → t.idle = s.idle) ∧
     (t.due.autoQuiet = true ↔ counts ∧ s.params.idleLimit * 60 ≤ t.idle)) ∧
    (∀ e, e ∈ t.due.stale ↔ ∃ x, t.entry? e = some x ∧ t.isStale s.params.staleLimit x = true) ∧
    t.due.staleLimit = s.params.staleLimit ∧ t.due.promotionLimit = s.params.promotionLimit ∧
    (∀ n k, (n, k) ∈ t.due.promote ↔ ∃ i ∈ s.demand, i.station = n ∧ i.kind = k ∧ i.chain = .low ∧
      (s.mode = .run ∨ s.mode = .service) ∧ s.params.promotionLimit ≠ 0 ∧
      s.params.promotionLimit < (s.seconds + 1 - i.entryTime).toNat)

/-- STALE (R74, R76): an entry the step of the seconds counter left due, and that still is stale by the limit of that step,
is declared MISSING. -/
def Sys2Proof.Says.StaleDeclared : Prop :=
  ∀ (s : State) (e : EntryNo) (x : Entry), e ∈ s.due.stale → s.entry? e = some x → s.mode = .run → s.stopLatch = false →
    s.due.staleLimit ≠ 0 → s.due.staleLimit < x.staleAge →
    x.state = .loaded ∨ x.state = .queued ∨ x.state = .rewashDue ∨ x.state = .returning →
    (∃ m g, x.location = some (.segment m) ∧ s.seg? m = some g ∧ g.headArrived = false ∧ g.heldBySupervisor = false ∧
      g.stranger = none ∧ g.jammed = false) →
    Happens (.stale e) s
      ({ s with due := { s.due with stale := s.due.stale.erase e } }.declareMissing e .stale)

/-- PROMOTION (R169 to R171): the item, starving by the limit of the step that left it due, joins the HIGH chain, marked, and
STARVATION is raised. It stands behind the HIGH items at the front of the chain that entered before it, or at the same time
and were admitted before it, and before all others; in a chain in order that is behind every such item and before every
later one. That entry times compare as plain numbers, also across a wrap of the seconds counter, is the model's choice
(notes/assumptions/51.md). -/
def Sys2Proof.Says.PromotionMade : Prop :=
  ∀ (s : State) (n : NodeNo) (k : Kind) (i : DemandItem), (n, k) ∈ s.due.promote →
    s.demand.find? (fun j => j.station == n && j.kind == k && s.starves s.due.promotionLimit j) = some i →
    let u := { s with due := { s.due with promote := s.due.promote.erase (n, k) } }.promote i
    let earlier (j : DemandItem) : Prop := j.entryTime < i.entryTime ∨ (j.entryTime = i.entryTime ∧ j.order < i.order)
    let others (c : Chain) := s.demand.filter fun j => !(j.station == n && j.kind == k) && j.chain == c
    Happens (.promotion n k) s u ∧
    (∃ first later, others .high = first ++ later ∧
      u.demand = first ++ { i with chain := .high, promoted := true } :: (later ++ others .low) ∧
      (∀ j ∈ first, earlier j) ∧ (∀ j, later.head? = some j → ¬ earlier j) ∧
      ((others .high).Pairwise (fun a b => a.entryTime < b.entryTime ∨ (a.entryTime = b.entryTime ∧ a.order < b.order)) →
        ∀ j ∈ later, ¬ earlier j)) ∧
    (u.source .starvation).flag = true ∧
    { i with chain := .high, promoted := true } ∈ u.demand ∧
    (∀ j, j ∈ u.demand → j = { i with chain := .high, promoted := true } ∨ j ∈ s.demand) ∧
    (∀ j ∈ s.demand, j.station ≠ n ∨ j.kind ≠ k → j ∈ u.demand)

/-- The round in progress counts for no sighting window any more (R62). -/
def unsteady (p : LinkPhase) : LinkPhase :=
  match p with
  | .header r => .header { r with steady := false }
  | .windows r => .windows { r with steady := false }
  | p => p

/-- AUTO_QUIET (R62, R204, R205, R207): where the idle timer still stands at the limit, the mode becomes QUIET and MODE_CHANGE
is raised; a round in progress goes on as the closing round; between two rounds no further one begins and the link is silent
at once, the model's reading (notes/assumptions/32.md). Everything else is kept, the idle timer with it. -/
def Sys2Proof.Says.AutoQuietTaken : Prop :=
  ∀ s : State, s.due.autoQuiet = true → s.mode = .run → s.params.idleLimit ≠ 0 → s.tunnel.list = [] → s.demand = [] →
    s.anyOpen = false → s.stopLatch = false → s.params.idleLimit * 60 ≤ s.idle →
    exec .autoQuiet s = .next (({ s with
      due := { s.due with autoQuiet := false }
      mode := .quiet
      link := { s.link with phase := if s.link.phase = .between then .silent else unsteady s.link.phase } } : State).raise
        .modeChange).refreshOutputs

/-- STALE, PROMOTION and AUTO_QUIET (R74, R169, R170, R205). That they are rows of their own and how entry times compare across a
wrap are the model's choices (notes/assumptions/3.md, 51.md), that a link between rounds is silent at once its reading (notes/assumptions/32.md). -/
def Obligations.DueBySeconds : Prop :=
  Says.StaleDeclared ∧ Says.PromotionMade ∧ Says.AutoQuietTaken

/-! ### Modes -/

/-- The bytes every answer to MODE carries: mode and idle timer (R200). -/
def modeAnswer (s : State) : List Byte :=
  [BitVec.ofNat 8 s.mode.code, BitVec.ofNat 8 (s.idle / 256), BitVec.ofNat 8 s.idle]

/-- A segment at the return to RUN (R71, R78, R201), where its eye is blocked: a head that has arrived at a reader-bound gate and
was not placed there gets its HEAD window; an empty queue with no inbound transfer and no STRANGER is an untracked arrival.
That the mark of placement is a field of the entry is the model's reading (notes/assumptions/6.md). -/
def examinedSegment (s : State) (n : SegNo) (g : Segment) : Segment :=
  if s.eyes.get g.config.eye = false then g
  else
    match g.queue with
    | [] =>
      if g.stranger = none ∧ s.inbound n = false ∧ g.jammed = false then
        (if g.config.reader = none then { g with stranger := some ⟨none, none, []⟩, headArrived := false, window := .closed }
         else { g with window := .untracked 2 s.round?.isSome, unresolved := false })
      else g
    | e :: _ =>
      if g.config.reader ≠ none ∧ g.headArrived = true ∧ (∀ x, s.entry? e = some x → x.placed = false) then
        { g with window := .head 2 e s.round?.isSome }
      else g

/-- MODE RUN in CONFIGURE on a layout that validates (R56, R201): every segment examined, and nothing else changed but the mode,
the idle timer and STRANGER where an untracked arrival makes one. -/
def Sys2Proof.Says.LeavesConfigure : Prop :=
  ∀ (s : State) (more : List Byte), s.port.turnaround = false → s.mode = .configure → s.validate = none → ∃ u,
    Takes (.mode 1 more) s u modeAnswer ∧
    u = { s.taken (.mode 1 more) with mode := .run, idle := 0, segments := u.segments, attention := u.attention } ∧
    (∀ n, u.seg? n = (s.seg? n).map (examinedSegment s n)) ∧
    (∀ a, a ≠ .stranger → u.source a = s.source a) ∧
    ((u.source .stranger).flag = true ↔ (s.source .stranger).flag = true ∨
      ∃ n g, s.seg? n = some g ∧ g.stranger = none ∧ (examinedSegment s n g).stranger ≠ none)

/-- MODE between RUN and SERVICE (R203): mode and idle timer alone. -/
def Sys2Proof.Says.SwitchesService : Prop :=
  ∀ (s : State) (more : List Byte), s.port.turnaround = false →
    (s.mode = .run → Takes (.mode 2 more) s { s.taken (.mode 2 more) with mode := .service, idle := 0 } modeAnswer) ∧
    (s.mode = .service → Takes (.mode 1 more) s { s.taken (.mode 1 more) with mode := .run, idle := 0 } modeAnswer)

/-- MODE QUIET in RUN (R62, R137, R204), where no gate is OPEN and the tunnel list is empty: the round in progress becomes the
closing round; between two rounds the link is silent at once, the model's reading (notes/assumptions/32.md). -/
def Sys2Proof.Says.EntersQuiet : Prop :=
  ∀ (s : State) (more : List Byte), s.port.turnaround = false → s.mode = .run → s.anyOpen = false → s.tunnel.list = [] →
    Takes (.mode 3 more) s
      { s.taken (.mode 3 more) with
        mode := .quiet
        link := { s.link with phase := if s.link.phase = .between then .silent else unsteady s.link.phase } } modeAnswer

/-- MODE RUN in QUIET (R136, R139, R206, R207): the link resumes, the idle timer is 0, and MODE_CHANGE is not raised. -/
def Sys2Proof.Says.LeavesQuiet : Prop :=
  ∀ (s : State) (more : List Byte), s.port.turnaround = false → s.mode = .quiet → ∃ u, Takes (.mode 1 more) s u modeAnswer ∧
    u = { s.taken (.mode 1 more) with mode := .run, idle := 0, link := u.link } ∧ linkResumes s u

/-- MODE CONFIGURE from any other mode (R41, R62, R139, R178, R202), where no gate is OPEN and the tunnel list is empty: the
demand queue is emptied; every assignment is cleared, an assigned rack standing in a store STORED again, with its dispatch
reservation, so that none is left where R176 holds; every window is closed; a silent link starts again. Nothing follows it in
the same step, because no demand item is left, so the next state's own records, reservations and idle timer are these. -/
def Sys2Proof.Says.EntersConfigure : Prop :=
  ∀ (s : State) (more : List Byte), s.port.turnaround = false → s.mode ≠ .configure → s.anyOpen = false → s.tunnel.list = [] → ∃ u,
    TakesAlone (.mode 0 more) s u [0, 0, 0] ∧
    u = { s.taken (.mode 0 more) with
      mode := .configure, idle := 0, demand := [], entries := u.entries, segments := u.segments, link := u.link } ∧
    (∀ e, s.entry? e = none → u.entry? e = none) ∧ (∀ n, s.seg? n = none → u.seg? n = none) ∧
    (∀ e x, s.entry? e = some x → ∃ y, u.entry? e = some y ∧ (x.assignment = none → y = x) ∧
      (x.assignment ≠ none → Cancelled s e x y)) ∧
    (∀ n g, s.seg? n = some g → ∃ h, u.seg? n = some h ∧
      h = { g with window := .closed, reservedDispatch := h.reservedDispatch } ∧ ParkReleased s n g h fun _ => true) ∧
    (s.link.phase ≠ .silent → u.link = { s.link with phase := unsteady s.link.phase }) ∧
    (s.link.phase = .silent → s.link.coldDue = false →
      u.link = { s.link with phase := .between, restart := .warm, restartLeft := 3 }) ∧
    (s.link.phase = .silent → s.link.coldDue = true → u.link = { s.link with phase := .between })

/-- MODE where it changes the mode, with what each change does (R200 to R204, R206): to RUN on a valid layout, between RUN and
SERVICE, to QUIET, back to RUN, and to CONFIGURE. What log 32 and log 42 say of the link is the model's reading and choice,
the mark of placement (log 6) its reading. -/
def Obligations.ModeChanges : Prop :=
  Says.LeavesConfigure ∧ Says.SwitchesService ∧ Says.EntersQuiet ∧ Says.LeavesQuiet ∧ Says.EntersConfigure

/-- Layout validation (R56, R57): it passes where the layout passes every check; else it answers the first check that fails,
with what offends it. Which check and which of several segments answers in the cases R57 does not settle is the model's choice
(notes/assumptions/15.md). -/
def Sys2Proof.Says.LayoutChecks : Prop :=
  ∀ s : State, (s.validate = none ↔ ∀ k, CheckPasses s k) ∧
    ∀ k o, s.validate = some (k, o) ↔ Offends s k o ∧ ∀ j, j < k → CheckPasses s j

/-- MODE where it does not (R200, R202, R204): the present mode again is DONE without a change; transitions not of
Table 10-1 are NOT_ALLOWED; an OPEN gate or a rack in the tunnel is BUSY; a layout that fails is BAD_LAYOUT (R57, R201); a code
of no mode is BAD_REQUEST, with mode and idle timer as every answer to MODE carries them. -/
def Sys2Proof.Says.ModeRefused : Prop :=
  ∀ (s : State) (more : List Byte), s.port.turnaround = false →
    let c (code : Byte) : Instr := .mode code more
    let now : List Byte := modeAnswer s.touchIdle
    (∀ code : Byte, 3 < code.toNat → exec (c code) s = .next (s.answering (c code) .badRequest (modeAnswer s))) ∧
    (∀ code : Byte, code.toNat = s.mode.code → Tells (c code) s .done now) ∧
    (s.mode = .configure → Tells (c 2) s .notAllowed now ∧ Tells (c 3) s .notAllowed now) ∧
    (s.mode = .service → Tells (c 3) s .notAllowed now) ∧
    (s.mode = .quiet → Tells (c 2) s .notAllowed now) ∧
    (∀ k o, s.mode = .configure → s.validate = some (k, o) →
      Tells (c 1) s .badLayout (now ++ [BitVec.ofNat 8 k, BitVec.ofNat 8 o.code])) ∧
    (∀ n g code, s.mode ≠ .configure ∧ code = 0 ∨ s.mode = .run ∧ code = 3 → s.seg? n = some g → g.transfer ≠ none →
      (∀ m h, m < n → s.seg? m = some h → h.transfer = none) →
      Tells (c code) s .busy (now ++ [BitVec.ofNat 8 n.val])) ∧
    (∀ code, s.mode ≠ .configure ∧ code = 0 ∨ s.mode = .run ∧ code = 3 → s.anyOpen = false → s.tunnel.list ≠ [] →
      Tells (c code) s .busy (now ++ [0x20]))

/-- MODE where it changes nothing, and the layout checks that decide BAD_LAYOUT (R56, R57, R200 to R202, R204). -/
def Obligations.ModeRefusals : Prop :=
  Says.ModeRefused ∧ Says.LayoutChecks
end

