-- ==== Sys2Proof/Laws/State.lean ====
section
/-! SUPPORT. What the elementary updates of the state leave as it was, field by field, and what the tables read after
them. No later proof need unfold a record update. -/

namespace Sys2Proof.Machine

@[simp] theorem putEntry_freeList (s : State) (e : EntryNo) (x : Option Entry) : (s.putEntry e x).freeList = s.freeList :=
  rfl
@[simp] theorem putEntry_seconds (s : State) (e : EntryNo) (x : Option Entry) : (s.putEntry e x).seconds = s.seconds :=
  rfl
@[simp] theorem putEntry_segments (s : State) (e : EntryNo) (x : Option Entry) : (s.putEntry e x).segments = s.segments :=
  rfl
@[simp] theorem putEntry_eyes (s : State) (e : EntryNo) (x : Option Entry) : (s.putEntry e x).eyes = s.eyes := rfl
@[simp] theorem putEntry_stopLatch (s : State) (e : EntryNo) (x : Option Entry) : (s.putEntry e x).stopLatch = s.stopLatch :=
  rfl
@[simp] theorem putEntry_safeStop (s : State) (e : EntryNo) (x : Option Entry) : (s.putEntry e x).safeStop = s.safeStop :=
  rfl
@[simp] theorem putEntry_tunnel (s : State) (e : EntryNo) (x : Option Entry) : (s.putEntry e x).tunnel = s.tunnel :=
  rfl
@[simp] theorem putEntry_nodes (s : State) (e : EntryNo) (x : Option Entry) : (s.putEntry e x).nodes = s.nodes := rfl
@[simp] theorem putEntry_link (s : State) (e : EntryNo) (x : Option Entry) : (s.putEntry e x).link = s.link := rfl
@[simp] theorem putEntry_answers (s : State) (e : EntryNo) (x : Option Entry) : (s.putEntry e x).answers = s.answers :=
  rfl
@[simp] theorem putEntry_demand (s : State) (e : EntryNo) (x : Option Entry) : (s.putEntry e x).demand = s.demand :=
  rfl
@[simp] theorem putEntry_nextOrder (s : State) (e : EntryNo) (x : Option Entry) : (s.putEntry e x).nextOrder = s.nextOrder :=
  rfl
@[simp] theorem putEntry_port (s : State) (e : EntryNo) (x : Option Entry) : (s.putEntry e x).port = s.port := rfl
@[simp] theorem putEntry_attention (s : State) (e : EntryNo) (x : Option Entry) : (s.putEntry e x).attention = s.attention :=
  rfl
@[simp] theorem putEntry_mode (s : State) (e : EntryNo) (x : Option Entry) : (s.putEntry e x).mode = s.mode := rfl
@[simp] theorem putEntry_idle (s : State) (e : EntryNo) (x : Option Entry) : (s.putEntry e x).idle = s.idle := rfl
@[simp] theorem putEntry_params (s : State) (e : EntryNo) (x : Option Entry) : (s.putEntry e x).params = s.params :=
  rfl
@[simp] theorem putEntry_due (s : State) (e : EntryNo) (x : Option Entry) : (s.putEntry e x).due = s.due := rfl
@[simp] theorem putEntry_out (s : State) (e : EntryNo) (x : Option Entry) : (s.putEntry e x).out = s.out := rfl
@[simp] theorem putEntry_pending (s : State) (e : EntryNo) (x : Option Entry) : (s.putEntry e x).pending = s.pending :=
  rfl

@[simp] theorem updEntry_freeList (s : State) (e : EntryNo) (f : Entry → Entry) : (s.updEntry e f).freeList = s.freeList :=
  rfl
@[simp] theorem updEntry_seconds (s : State) (e : EntryNo) (f : Entry → Entry) : (s.updEntry e f).seconds = s.seconds :=
  rfl
@[simp] theorem updEntry_segments (s : State) (e : EntryNo) (f : Entry → Entry) : (s.updEntry e f).segments = s.segments :=
  rfl
@[simp] theorem updEntry_eyes (s : State) (e : EntryNo) (f : Entry → Entry) : (s.updEntry e f).eyes = s.eyes := rfl
@[simp] theorem updEntry_stopLatch (s : State) (e : EntryNo) (f : Entry → Entry) : (s.updEntry e f).stopLatch = s.stopLatch :=
  rfl
@[simp] theorem updEntry_safeStop (s : State) (e : EntryNo) (f : Entry → Entry) : (s.updEntry e f).safeStop = s.safeStop :=
  rfl
@[simp] theorem updEntry_tunnel (s : State) (e : EntryNo) (f : Entry → Entry) : (s.updEntry e f).tunnel = s.tunnel :=
  rfl
@[simp] theorem updEntry_nodes (s : State) (e : EntryNo) (f : Entry → Entry) : (s.updEntry e f).nodes = s.nodes := rfl
@[simp] theorem updEntry_link (s : State) (e : EntryNo) (f : Entry → Entry) : (s.updEntry e f).link = s.link := rfl
@[simp] theorem updEntry_answers (s : State) (e : EntryNo) (f : Entry → Entry) : (s.updEntry e f).answers = s.answers :=
  rfl
@[simp] theorem updEntry_demand (s : State) (e : EntryNo) (f : Entry → Entry) : (s.updEntry e f).demand = s.demand :=
  rfl
@[simp] theorem updEntry_nextOrder (s : State) (e : EntryNo) (f : Entry → Entry) : (s.updEntry e f).nextOrder = s.nextOrder :=
  rfl
@[simp] theorem updEntry_port (s : State) (e : EntryNo) (f : Entry → Entry) : (s.updEntry e f).port = s.port := rfl
@[simp] theorem updEntry_attention (s : State) (e : EntryNo) (f : Entry → Entry) : (s.updEntry e f).attention = s.attention :=
  rfl
@[simp] theorem updEntry_mode (s : State) (e : EntryNo) (f : Entry → Entry) : (s.updEntry e f).mode = s.mode := rfl
@[simp] theorem updEntry_idle (s : State) (e : EntryNo) (f : Entry → Entry) : (s.updEntry e f).idle = s.idle := rfl
@[simp] theorem updEntry_params (s : State) (e : EntryNo) (f : Entry → Entry) : (s.updEntry e f).params = s.params :=
  rfl
@[simp] theorem updEntry_due (s : State) (e : EntryNo) (f : Entry → Entry) : (s.updEntry e f).due = s.due := rfl
@[simp] theorem updEntry_out (s : State) (e : EntryNo) (f : Entry → Entry) : (s.updEntry e f).out = s.out := rfl
@[simp] theorem updEntry_pending (s : State) (e : EntryNo) (f : Entry → Entry) : (s.updEntry e f).pending = s.pending :=
  rfl

@[simp] theorem putSeg_entries (s : State) (n : SegNo) (g : Option Segment) : (s.putSeg n g).entries = s.entries :=
  rfl
@[simp] theorem putSeg_freeList (s : State) (n : SegNo) (g : Option Segment) : (s.putSeg n g).freeList = s.freeList :=
  rfl
@[simp] theorem putSeg_seconds (s : State) (n : SegNo) (g : Option Segment) : (s.putSeg n g).seconds = s.seconds :=
  rfl
@[simp] theorem putSeg_eyes (s : State) (n : SegNo) (g : Option Segment) : (s.putSeg n g).eyes = s.eyes := rfl
@[simp] theorem putSeg_stopLatch (s : State) (n : SegNo) (g : Option Segment) : (s.putSeg n g).stopLatch = s.stopLatch :=
  rfl
@[simp] theorem putSeg_safeStop (s : State) (n : SegNo) (g : Option Segment) : (s.putSeg n g).safeStop = s.safeStop :=
  rfl
@[simp] theorem putSeg_tunnel (s : State) (n : SegNo) (g : Option Segment) : (s.putSeg n g).tunnel = s.tunnel := rfl
@[simp] theorem putSeg_nodes (s : State) (n : SegNo) (g : Option Segment) : (s.putSeg n g).nodes = s.nodes := rfl
@[simp] theorem putSeg_link (s : State) (n : SegNo) (g : Option Segment) : (s.putSeg n g).link = s.link := rfl
@[simp] theorem putSeg_answers (s : State) (n : SegNo) (g : Option Segment) : (s.putSeg n g).answers = s.answers :=
  rfl
@[simp] theorem putSeg_demand (s : State) (n : SegNo) (g : Option Segment) : (s.putSeg n g).demand = s.demand := rfl
@[simp] theorem putSeg_nextOrder (s : State) (n : SegNo) (g : Option Segment) : (s.putSeg n g).nextOrder = s.nextOrder :=
  rfl
@[simp] theorem putSeg_port (s : State) (n : SegNo) (g : Option Segment) : (s.putSeg n g).port = s.port := rfl
@[simp] theorem putSeg_attention (s : State) (n : SegNo) (g : Option Segment) : (s.putSeg n g).attention = s.attention :=
  rfl
@[simp] theorem putSeg_mode (s : State) (n : SegNo) (g : Option Segment) : (s.putSeg n g).mode = s.mode := rfl
@[simp] theorem putSeg_idle (s : State) (n : SegNo) (g : Option Segment) : (s.putSeg n g).idle = s.idle := rfl
@[simp] theorem putSeg_params (s : State) (n : SegNo) (g : Option Segment) : (s.putSeg n g).params = s.params := rfl
@[simp] theorem putSeg_due (s : State) (n : SegNo) (g : Option Segment) : (s.putSeg n g).due = s.due := rfl
@[simp] theorem putSeg_out (s : State) (n : SegNo) (g : Option Segment) : (s.putSeg n g).out = s.out := rfl
@[simp] theorem putSeg_pending (s : State) (n : SegNo) (g : Option Segment) : (s.putSeg n g).pending = s.pending :=
  rfl

@[simp] theorem updSeg_entries (s : State) (n : SegNo) (f : Segment → Segment) : (s.updSeg n f).entries = s.entries :=
  rfl
@[simp] theorem updSeg_freeList (s : State) (n : SegNo) (f : Segment → Segment) : (s.updSeg n f).freeList = s.freeList :=
  rfl
@[simp] theorem updSeg_seconds (s : State) (n : SegNo) (f : Segment → Segment) : (s.updSeg n f).seconds = s.seconds :=
  rfl
@[simp] theorem updSeg_eyes (s : State) (n : SegNo) (f : Segment → Segment) : (s.updSeg n f).eyes = s.eyes := rfl
@[simp] theorem updSeg_stopLatch (s : State) (n : SegNo) (f : Segment → Segment) : (s.updSeg n f).stopLatch = s.stopLatch :=
  rfl
@[simp] theorem updSeg_safeStop (s : State) (n : SegNo) (f : Segment → Segment) : (s.updSeg n f).safeStop = s.safeStop :=
  rfl
@[simp] theorem updSeg_tunnel (s : State) (n : SegNo) (f : Segment → Segment) : (s.updSeg n f).tunnel = s.tunnel :=
  rfl
@[simp] theorem updSeg_nodes (s : State) (n : SegNo) (f : Segment → Segment) : (s.updSeg n f).nodes = s.nodes := rfl
@[simp] theorem updSeg_link (s : State) (n : SegNo) (f : Segment → Segment) : (s.updSeg n f).link = s.link := rfl
@[simp] theorem updSeg_answers (s : State) (n : SegNo) (f : Segment → Segment) : (s.updSeg n f).answers = s.answers :=
  rfl
@[simp] theorem updSeg_demand (s : State) (n : SegNo) (f : Segment → Segment) : (s.updSeg n f).demand = s.demand :=
  rfl
@[simp] theorem updSeg_nextOrder (s : State) (n : SegNo) (f : Segment → Segment) : (s.updSeg n f).nextOrder = s.nextOrder :=
  rfl
@[simp] theorem updSeg_port (s : State) (n : SegNo) (f : Segment → Segment) : (s.updSeg n f).port = s.port := rfl
@[simp] theorem updSeg_attention (s : State) (n : SegNo) (f : Segment → Segment) : (s.updSeg n f).attention = s.attention :=
  rfl
@[simp] theorem updSeg_mode (s : State) (n : SegNo) (f : Segment → Segment) : (s.updSeg n f).mode = s.mode := rfl
@[simp] theorem updSeg_idle (s : State) (n : SegNo) (f : Segment → Segment) : (s.updSeg n f).idle = s.idle := rfl
@[simp] theorem updSeg_params (s : State) (n : SegNo) (f : Segment → Segment) : (s.updSeg n f).params = s.params :=
  rfl
@[simp] theorem updSeg_due (s : State) (n : SegNo) (f : Segment → Segment) : (s.updSeg n f).due = s.due := rfl
@[simp] theorem updSeg_out (s : State) (n : SegNo) (f : Segment → Segment) : (s.updSeg n f).out = s.out := rfl
@[simp] theorem updSeg_pending (s : State) (n : SegNo) (f : Segment → Segment) : (s.updSeg n f).pending = s.pending :=
  rfl

@[simp] theorem putNode_entries (s : State) (n : NodeNo) (x : Option Node) : (s.putNode n x).entries = s.entries :=
  rfl
@[simp] theorem putNode_freeList (s : State) (n : NodeNo) (x : Option Node) : (s.putNode n x).freeList = s.freeList :=
  rfl
@[simp] theorem putNode_seconds (s : State) (n : NodeNo) (x : Option Node) : (s.putNode n x).seconds = s.seconds :=
  rfl
@[simp] theorem putNode_segments (s : State) (n : NodeNo) (x : Option Node) : (s.putNode n x).segments = s.segments :=
  rfl
@[simp] theorem putNode_eyes (s : State) (n : NodeNo) (x : Option Node) : (s.putNode n x).eyes = s.eyes := rfl
@[simp] theorem putNode_stopLatch (s : State) (n : NodeNo) (x : Option Node) : (s.putNode n x).stopLatch = s.stopLatch :=
  rfl
@[simp] theorem putNode_safeStop (s : State) (n : NodeNo) (x : Option Node) : (s.putNode n x).safeStop = s.safeStop :=
  rfl
@[simp] theorem putNode_tunnel (s : State) (n : NodeNo) (x : Option Node) : (s.putNode n x).tunnel = s.tunnel := rfl
@[simp] theorem putNode_link (s : State) (n : NodeNo) (x : Option Node) : (s.putNode n x).link = s.link := rfl
@[simp] theorem putNode_answers (s : State) (n : NodeNo) (x : Option Node) : (s.putNode n x).answers = s.answers :=
  rfl
@[simp] theorem putNode_demand (s : State) (n : NodeNo) (x : Option Node) : (s.putNode n x).demand = s.demand := rfl
@[simp] theorem putNode_nextOrder (s : State) (n : NodeNo) (x : Option Node) : (s.putNode n x).nextOrder = s.nextOrder :=
  rfl
@[simp] theorem putNode_port (s : State) (n : NodeNo) (x : Option Node) : (s.putNode n x).port = s.port := rfl
@[simp] theorem putNode_attention (s : State) (n : NodeNo) (x : Option Node) : (s.putNode n x).attention = s.attention :=
  rfl
@[simp] theorem putNode_mode (s : State) (n : NodeNo) (x : Option Node) : (s.putNode n x).mode = s.mode := rfl
@[simp] theorem putNode_idle (s : State) (n : NodeNo) (x : Option Node) : (s.putNode n x).idle = s.idle := rfl
@[simp] theorem putNode_params (s : State) (n : NodeNo) (x : Option Node) : (s.putNode n x).params = s.params := rfl
@[simp] theorem putNode_due (s : State) (n : NodeNo) (x : Option Node) : (s.putNode n x).due = s.due := rfl
@[simp] theorem putNode_out (s : State) (n : NodeNo) (x : Option Node) : (s.putNode n x).out = s.out := rfl
@[simp] theorem putNode_pending (s : State) (n : NodeNo) (x : Option Node) : (s.putNode n x).pending = s.pending :=
  rfl

@[simp] theorem updNode_entries (s : State) (n : NodeNo) (f : Node → Node) : (s.updNode n f).entries = s.entries :=
  rfl
@[simp] theorem updNode_freeList (s : State) (n : NodeNo) (f : Node → Node) : (s.updNode n f).freeList = s.freeList :=
  rfl
@[simp] theorem updNode_seconds (s : State) (n : NodeNo) (f : Node → Node) : (s.updNode n f).seconds = s.seconds :=
  rfl
@[simp] theorem updNode_segments (s : State) (n : NodeNo) (f : Node → Node) : (s.updNode n f).segments = s.segments :=
  rfl
@[simp] theorem updNode_eyes (s : State) (n : NodeNo) (f : Node → Node) : (s.updNode n f).eyes = s.eyes := rfl
@[simp] theorem updNode_stopLatch (s : State) (n : NodeNo) (f : Node → Node) : (s.updNode n f).stopLatch = s.stopLatch :=
  rfl
@[simp] theorem updNode_safeStop (s : State) (n : NodeNo) (f : Node → Node) : (s.updNode n f).safeStop = s.safeStop :=
  rfl
@[simp] theorem updNode_tunnel (s : State) (n : NodeNo) (f : Node → Node) : (s.updNode n f).tunnel = s.tunnel := rfl
@[simp] theorem updNode_link (s : State) (n : NodeNo) (f : Node → Node) : (s.updNode n f).link = s.link := rfl
@[simp] theorem updNode_answers (s : State) (n : NodeNo) (f : Node → Node) : (s.updNode n f).answers = s.answers :=
  rfl
@[simp] theorem updNode_demand (s : State) (n : NodeNo) (f : Node → Node) : (s.updNode n f).demand = s.demand := rfl
@[simp] theorem updNode_nextOrder (s : State) (n : NodeNo) (f : Node → Node) : (s.updNode n f).nextOrder = s.nextOrder :=
  rfl
@[simp] theorem updNode_port (s : State) (n : NodeNo) (f : Node → Node) : (s.updNode n f).port = s.port := rfl
@[simp] theorem updNode_attention (s : State) (n : NodeNo) (f : Node → Node) : (s.updNode n f).attention = s.attention :=
  rfl
@[simp] theorem updNode_mode (s : State) (n : NodeNo) (f : Node → Node) : (s.updNode n f).mode = s.mode := rfl
@[simp] theorem updNode_idle (s : State) (n : NodeNo) (f : Node → Node) : (s.updNode n f).idle = s.idle := rfl
@[simp] theorem updNode_params (s : State) (n : NodeNo) (f : Node → Node) : (s.updNode n f).params = s.params := rfl
@[simp] theorem updNode_due (s : State) (n : NodeNo) (f : Node → Node) : (s.updNode n f).due = s.due := rfl
@[simp] theorem updNode_out (s : State) (n : NodeNo) (f : Node → Node) : (s.updNode n f).out = s.out := rfl
@[simp] theorem updNode_pending (s : State) (n : NodeNo) (f : Node → Node) : (s.updNode n f).pending = s.pending :=
  rfl

@[simp] theorem raise_entries (s : State) (a : Source14) : (s.raise a).entries = s.entries := rfl
@[simp] theorem raise_freeList (s : State) (a : Source14) : (s.raise a).freeList = s.freeList := rfl
@[simp] theorem raise_seconds (s : State) (a : Source14) : (s.raise a).seconds = s.seconds := rfl
@[simp] theorem raise_segments (s : State) (a : Source14) : (s.raise a).segments = s.segments := rfl
@[simp] theorem raise_eyes (s : State) (a : Source14) : (s.raise a).eyes = s.eyes := rfl
@[simp] theorem raise_stopLatch (s : State) (a : Source14) : (s.raise a).stopLatch = s.stopLatch := rfl
@[simp] theorem raise_safeStop (s : State) (a : Source14) : (s.raise a).safeStop = s.safeStop := rfl
@[simp] theorem raise_tunnel (s : State) (a : Source14) : (s.raise a).tunnel = s.tunnel := rfl
@[simp] theorem raise_nodes (s : State) (a : Source14) : (s.raise a).nodes = s.nodes := rfl
@[simp] theorem raise_link (s : State) (a : Source14) : (s.raise a).link = s.link := rfl
@[simp] theorem raise_answers (s : State) (a : Source14) : (s.raise a).answers = s.answers := rfl
@[simp] theorem raise_demand (s : State) (a : Source14) : (s.raise a).demand = s.demand := rfl
@[simp] theorem raise_nextOrder (s : State) (a : Source14) : (s.raise a).nextOrder = s.nextOrder := rfl
@[simp] theorem raise_port (s : State) (a : Source14) : (s.raise a).port = s.port := rfl
@[simp] theorem raise_mode (s : State) (a : Source14) : (s.raise a).mode = s.mode := rfl
@[simp] theorem raise_idle (s : State) (a : Source14) : (s.raise a).idle = s.idle := rfl
@[simp] theorem raise_params (s : State) (a : Source14) : (s.raise a).params = s.params := rfl
@[simp] theorem raise_due (s : State) (a : Source14) : (s.raise a).due = s.due := rfl
@[simp] theorem raise_out (s : State) (a : Source14) : (s.raise a).out = s.out := rfl
@[simp] theorem raise_pending (s : State) (a : Source14) : (s.raise a).pending = s.pending := rfl

@[simp] theorem updRound_entries (s : State) (f : Round → Round) : (s.updRound f).entries = s.entries := rfl
@[simp] theorem updRound_freeList (s : State) (f : Round → Round) : (s.updRound f).freeList = s.freeList := rfl
@[simp] theorem updRound_seconds (s : State) (f : Round → Round) : (s.updRound f).seconds = s.seconds := rfl
@[simp] theorem updRound_segments (s : State) (f : Round → Round) : (s.updRound f).segments = s.segments := rfl
@[simp] theorem updRound_eyes (s : State) (f : Round → Round) : (s.updRound f).eyes = s.eyes := rfl
@[simp] theorem updRound_stopLatch (s : State) (f : Round → Round) : (s.updRound f).stopLatch = s.stopLatch := rfl
@[simp] theorem updRound_safeStop (s : State) (f : Round → Round) : (s.updRound f).safeStop = s.safeStop := rfl
@[simp] theorem updRound_tunnel (s : State) (f : Round → Round) : (s.updRound f).tunnel = s.tunnel := rfl
@[simp] theorem updRound_nodes (s : State) (f : Round → Round) : (s.updRound f).nodes = s.nodes := rfl
@[simp] theorem updRound_answers (s : State) (f : Round → Round) : (s.updRound f).answers = s.answers := rfl
@[simp] theorem updRound_demand (s : State) (f : Round → Round) : (s.updRound f).demand = s.demand := rfl
@[simp] theorem updRound_nextOrder (s : State) (f : Round → Round) : (s.updRound f).nextOrder = s.nextOrder := rfl
@[simp] theorem updRound_port (s : State) (f : Round → Round) : (s.updRound f).port = s.port := rfl
@[simp] theorem updRound_attention (s : State) (f : Round → Round) : (s.updRound f).attention = s.attention := rfl
@[simp] theorem updRound_mode (s : State) (f : Round → Round) : (s.updRound f).mode = s.mode := rfl
@[simp] theorem updRound_idle (s : State) (f : Round → Round) : (s.updRound f).idle = s.idle := rfl
@[simp] theorem updRound_params (s : State) (f : Round → Round) : (s.updRound f).params = s.params := rfl
@[simp] theorem updRound_due (s : State) (f : Round → Round) : (s.updRound f).due = s.due := rfl
@[simp] theorem updRound_out (s : State) (f : Round → Round) : (s.updRound f).out = s.out := rfl
@[simp] theorem updRound_pending (s : State) (f : Round → Round) : (s.updRound f).pending = s.pending := rfl

@[simp] theorem refreshOutputs_entries (s : State) : (s.refreshOutputs).entries = s.entries := by
  unfold State.refreshOutputs; rfl
@[simp] theorem refreshOutputs_freeList (s : State) : (s.refreshOutputs).freeList = s.freeList := by
  unfold State.refreshOutputs; rfl
@[simp] theorem refreshOutputs_seconds (s : State) : (s.refreshOutputs).seconds = s.seconds := by
  unfold State.refreshOutputs; rfl
@[simp] theorem refreshOutputs_segments (s : State) : (s.refreshOutputs).segments = s.segments := by
  unfold State.refreshOutputs; rfl
@[simp] theorem refreshOutputs_eyes (s : State) : (s.refreshOutputs).eyes = s.eyes := by
  unfold State.refreshOutputs; rfl
@[simp] theorem refreshOutputs_stopLatch (s : State) : (s.refreshOutputs).stopLatch = s.stopLatch := by
  unfold State.refreshOutputs; rfl
@[simp] theorem refreshOutputs_safeStop (s : State) : (s.refreshOutputs).safeStop = s.safeStop := by
  unfold State.refreshOutputs; rfl
@[simp] theorem refreshOutputs_tunnel (s : State) : (s.refreshOutputs).tunnel = s.tunnel := by
  unfold State.refreshOutputs; rfl
@[simp] theorem refreshOutputs_nodes (s : State) : (s.refreshOutputs).nodes = s.nodes := by
  unfold State.refreshOutputs; rfl
@[simp] theorem refreshOutputs_link (s : State) : (s.refreshOutputs).link = s.link := by
  unfold State.refreshOutputs; rfl
@[simp] theorem refreshOutputs_answers (s : State) : (s.refreshOutputs).answers = s.answers := by
  unfold State.refreshOutputs; rfl
@[simp] theorem refreshOutputs_demand (s : State) : (s.refreshOutputs).demand = s.demand := by
  unfold State.refreshOutputs; rfl
@[simp] theorem refreshOutputs_nextOrder (s : State) : (s.refreshOutputs).nextOrder = s.nextOrder := by
  unfold State.refreshOutputs; rfl
@[simp] theorem refreshOutputs_port (s : State) : (s.refreshOutputs).port = s.port := by
  unfold State.refreshOutputs; rfl
@[simp] theorem refreshOutputs_attention (s : State) : (s.refreshOutputs).attention = s.attention := by
  unfold State.refreshOutputs; rfl
@[simp] theorem refreshOutputs_mode (s : State) : (s.refreshOutputs).mode = s.mode := by
  unfold State.refreshOutputs; rfl
@[simp] theorem refreshOutputs_idle (s : State) : (s.refreshOutputs).idle = s.idle := by
  unfold State.refreshOutputs; rfl
@[simp] theorem refreshOutputs_params (s : State) : (s.refreshOutputs).params = s.params := by
  unfold State.refreshOutputs; rfl
@[simp] theorem refreshOutputs_due (s : State) : (s.refreshOutputs).due = s.due := by
  unfold State.refreshOutputs; rfl
@[simp] theorem refreshOutputs_pending (s : State) : (s.refreshOutputs).pending = s.pending := by
  unfold State.refreshOutputs; rfl

@[simp] theorem beginTransaction_entries (s : State) (b : List Byte) : (s.beginTransaction b).entries = s.entries :=
  rfl
@[simp] theorem beginTransaction_freeList (s : State) (b : List Byte) : (s.beginTransaction b).freeList = s.freeList :=
  rfl
@[simp] theorem beginTransaction_seconds (s : State) (b : List Byte) : (s.beginTransaction b).seconds = s.seconds :=
  rfl
@[simp] theorem beginTransaction_segments (s : State) (b : List Byte) : (s.beginTransaction b).segments = s.segments :=
  rfl
@[simp] theorem beginTransaction_eyes (s : State) (b : List Byte) : (s.beginTransaction b).eyes = s.eyes := rfl
@[simp] theorem beginTransaction_stopLatch (s : State) (b : List Byte) : (s.beginTransaction b).stopLatch = s.stopLatch :=
  rfl
@[simp] theorem beginTransaction_safeStop (s : State) (b : List Byte) : (s.beginTransaction b).safeStop = s.safeStop :=
  rfl
@[simp] theorem beginTransaction_tunnel (s : State) (b : List Byte) : (s.beginTransaction b).tunnel = s.tunnel := rfl
@[simp] theorem beginTransaction_nodes (s : State) (b : List Byte) : (s.beginTransaction b).nodes = s.nodes := rfl
@[simp] theorem beginTransaction_link (s : State) (b : List Byte) : (s.beginTransaction b).link = s.link := rfl
@[simp] theorem beginTransaction_answers (s : State) (b : List Byte) : (s.beginTransaction b).answers = s.answers :=
  rfl
@[simp] theorem beginTransaction_demand (s : State) (b : List Byte) : (s.beginTransaction b).demand = s.demand := rfl
@[simp] theorem beginTransaction_nextOrder (s : State) (b : List Byte) : (s.beginTransaction b).nextOrder = s.nextOrder :=
  rfl
@[simp] theorem beginTransaction_attention (s : State) (b : List Byte) : (s.beginTransaction b).attention = s.attention :=
  rfl
@[simp] theorem beginTransaction_mode (s : State) (b : List Byte) : (s.beginTransaction b).mode = s.mode := rfl
@[simp] theorem beginTransaction_idle (s : State) (b : List Byte) : (s.beginTransaction b).idle = s.idle := rfl
@[simp] theorem beginTransaction_params (s : State) (b : List Byte) : (s.beginTransaction b).params = s.params := rfl
@[simp] theorem beginTransaction_due (s : State) (b : List Byte) : (s.beginTransaction b).due = s.due := rfl
@[simp] theorem beginTransaction_out (s : State) (b : List Byte) : (s.beginTransaction b).out = s.out := rfl
@[simp] theorem beginTransaction_pending (s : State) (b : List Byte) : (s.beginTransaction b).pending = s.pending :=
  rfl

@[simp] theorem tooSoon_entries (s : State) (b : List Byte) : (s.tooSoon b).entries = s.entries := rfl
@[simp] theorem tooSoon_freeList (s : State) (b : List Byte) : (s.tooSoon b).freeList = s.freeList := rfl
@[simp] theorem tooSoon_seconds (s : State) (b : List Byte) : (s.tooSoon b).seconds = s.seconds := rfl
@[simp] theorem tooSoon_segments (s : State) (b : List Byte) : (s.tooSoon b).segments = s.segments := rfl
@[simp] theorem tooSoon_eyes (s : State) (b : List Byte) : (s.tooSoon b).eyes = s.eyes := rfl
@[simp] theorem tooSoon_stopLatch (s : State) (b : List Byte) : (s.tooSoon b).stopLatch = s.stopLatch := rfl
@[simp] theorem tooSoon_safeStop (s : State) (b : List Byte) : (s.tooSoon b).safeStop = s.safeStop := rfl
@[simp] theorem tooSoon_tunnel (s : State) (b : List Byte) : (s.tooSoon b).tunnel = s.tunnel := rfl
@[simp] theorem tooSoon_nodes (s : State) (b : List Byte) : (s.tooSoon b).nodes = s.nodes := rfl
@[simp] theorem tooSoon_link (s : State) (b : List Byte) : (s.tooSoon b).link = s.link := rfl
@[simp] theorem tooSoon_answers (s : State) (b : List Byte) : (s.tooSoon b).answers = s.answers := rfl
@[simp] theorem tooSoon_demand (s : State) (b : List Byte) : (s.tooSoon b).demand = s.demand := rfl
@[simp] theorem tooSoon_nextOrder (s : State) (b : List Byte) : (s.tooSoon b).nextOrder = s.nextOrder := rfl
@[simp] theorem tooSoon_attention (s : State) (b : List Byte) : (s.tooSoon b).attention = s.attention := rfl
@[simp] theorem tooSoon_mode (s : State) (b : List Byte) : (s.tooSoon b).mode = s.mode := rfl
@[simp] theorem tooSoon_idle (s : State) (b : List Byte) : (s.tooSoon b).idle = s.idle := rfl
@[simp] theorem tooSoon_params (s : State) (b : List Byte) : (s.tooSoon b).params = s.params := rfl
@[simp] theorem tooSoon_due (s : State) (b : List Byte) : (s.tooSoon b).due = s.due := rfl
@[simp] theorem tooSoon_out (s : State) (b : List Byte) : (s.tooSoon b).out = s.out := rfl
@[simp] theorem tooSoon_pending (s : State) (b : List Byte) : (s.tooSoon b).pending = s.pending := rfl

@[simp] theorem answer_entries (s : State) (e : Byte) (r : Result) (b : List Byte) : (s.answer e r b).entries = s.entries :=
  rfl
@[simp] theorem answer_freeList (s : State) (e : Byte) (r : Result) (b : List Byte) : (s.answer e r b).freeList = s.freeList :=
  rfl
@[simp] theorem answer_seconds (s : State) (e : Byte) (r : Result) (b : List Byte) : (s.answer e r b).seconds = s.seconds :=
  rfl
@[simp] theorem answer_segments (s : State) (e : Byte) (r : Result) (b : List Byte) : (s.answer e r b).segments = s.segments :=
  rfl
@[simp] theorem answer_eyes (s : State) (e : Byte) (r : Result) (b : List Byte) : (s.answer e r b).eyes = s.eyes :=
  rfl
@[simp] theorem answer_stopLatch (s : State) (e : Byte) (r : Result) (b : List Byte) : (s.answer e r b).stopLatch = s.stopLatch :=
  rfl
@[simp] theorem answer_safeStop (s : State) (e : Byte) (r : Result) (b : List Byte) : (s.answer e r b).safeStop = s.safeStop :=
  rfl
@[simp] theorem answer_tunnel (s : State) (e : Byte) (r : Result) (b : List Byte) : (s.answer e r b).tunnel = s.tunnel :=
  rfl
@[simp] theorem answer_nodes (s : State) (e : Byte) (r : Result) (b : List Byte) : (s.answer e r b).nodes = s.nodes :=
  rfl
@[simp] theorem answer_link (s : State) (e : Byte) (r : Result) (b : List Byte) : (s.answer e r b).link = s.link :=
  rfl
@[simp] theorem answer_answers (s : State) (e : Byte) (r : Result) (b : List Byte) : (s.answer e r b).answers = s.answers :=
  rfl
@[simp] theorem answer_demand (s : State) (e : Byte) (r : Result) (b : List Byte) : (s.answer e r b).demand = s.demand :=
  rfl
@[simp] theorem answer_nextOrder (s : State) (e : Byte) (r : Result) (b : List Byte) : (s.answer e r b).nextOrder = s.nextOrder :=
  rfl
@[simp] theorem answer_attention (s : State) (e : Byte) (r : Result) (b : List Byte) : (s.answer e r b).attention = s.attention :=
  rfl
@[simp] theorem answer_mode (s : State) (e : Byte) (r : Result) (b : List Byte) : (s.answer e r b).mode = s.mode :=
  rfl
@[simp] theorem answer_idle (s : State) (e : Byte) (r : Result) (b : List Byte) : (s.answer e r b).idle = s.idle :=
  rfl
@[simp] theorem answer_params (s : State) (e : Byte) (r : Result) (b : List Byte) : (s.answer e r b).params = s.params :=
  rfl
@[simp] theorem answer_due (s : State) (e : Byte) (r : Result) (b : List Byte) : (s.answer e r b).due = s.due := rfl
@[simp] theorem answer_out (s : State) (e : Byte) (r : Result) (b : List Byte) : (s.answer e r b).out = s.out := rfl
@[simp] theorem answer_pending (s : State) (e : Byte) (r : Result) (b : List Byte) : (s.answer e r b).pending = s.pending :=
  rfl

@[simp] theorem setMode_entries (s : State) (m : Mode) : (s.setMode m).entries = s.entries := rfl
@[simp] theorem setMode_freeList (s : State) (m : Mode) : (s.setMode m).freeList = s.freeList := rfl
@[simp] theorem setMode_seconds (s : State) (m : Mode) : (s.setMode m).seconds = s.seconds := rfl
@[simp] theorem setMode_segments (s : State) (m : Mode) : (s.setMode m).segments = s.segments := rfl
@[simp] theorem setMode_eyes (s : State) (m : Mode) : (s.setMode m).eyes = s.eyes := rfl
@[simp] theorem setMode_stopLatch (s : State) (m : Mode) : (s.setMode m).stopLatch = s.stopLatch := rfl
@[simp] theorem setMode_safeStop (s : State) (m : Mode) : (s.setMode m).safeStop = s.safeStop := rfl
@[simp] theorem setMode_tunnel (s : State) (m : Mode) : (s.setMode m).tunnel = s.tunnel := rfl
@[simp] theorem setMode_nodes (s : State) (m : Mode) : (s.setMode m).nodes = s.nodes := rfl
@[simp] theorem setMode_answers (s : State) (m : Mode) : (s.setMode m).answers = s.answers := rfl
@[simp] theorem setMode_demand (s : State) (m : Mode) : (s.setMode m).demand = s.demand := rfl
@[simp] theorem setMode_nextOrder (s : State) (m : Mode) : (s.setMode m).nextOrder = s.nextOrder := rfl
@[simp] theorem setMode_port (s : State) (m : Mode) : (s.setMode m).port = s.port := rfl
@[simp] theorem setMode_attention (s : State) (m : Mode) : (s.setMode m).attention = s.attention := rfl
@[simp] theorem setMode_idle (s : State) (m : Mode) : (s.setMode m).idle = s.idle := rfl
@[simp] theorem setMode_params (s : State) (m : Mode) : (s.setMode m).params = s.params := rfl
@[simp] theorem setMode_due (s : State) (m : Mode) : (s.setMode m).due = s.due := rfl
@[simp] theorem setMode_out (s : State) (m : Mode) : (s.setMode m).out = s.out := rfl
@[simp] theorem setMode_pending (s : State) (m : Mode) : (s.setMode m).pending = s.pending := rfl

@[simp] theorem raiseIf_entries (s : State) (b : Bool) (a : Source14) : (s.raiseIf b a).entries = s.entries :=
  by cases b <;> rfl
@[simp] theorem raiseIf_freeList (s : State) (b : Bool) (a : Source14) : (s.raiseIf b a).freeList = s.freeList :=
  by cases b <;> rfl
@[simp] theorem raiseIf_seconds (s : State) (b : Bool) (a : Source14) : (s.raiseIf b a).seconds = s.seconds :=
  by cases b <;> rfl
@[simp] theorem raiseIf_segments (s : State) (b : Bool) (a : Source14) : (s.raiseIf b a).segments = s.segments :=
  by cases b <;> rfl
@[simp] theorem raiseIf_eyes (s : State) (b : Bool) (a : Source14) : (s.raiseIf b a).eyes = s.eyes :=
  by cases b <;> rfl
@[simp] theorem raiseIf_stopLatch (s : State) (b : Bool) (a : Source14) : (s.raiseIf b a).stopLatch = s.stopLatch :=
  by cases b <;> rfl
@[simp] theorem raiseIf_safeStop (s : State) (b : Bool) (a : Source14) : (s.raiseIf b a).safeStop = s.safeStop :=
  by cases b <;> rfl
@[simp] theorem raiseIf_tunnel (s : State) (b : Bool) (a : Source14) : (s.raiseIf b a).tunnel = s.tunnel :=
  by cases b <;> rfl
@[simp] theorem raiseIf_nodes (s : State) (b : Bool) (a : Source14) : (s.raiseIf b a).nodes = s.nodes :=
  by cases b <;> rfl
@[simp] theorem raiseIf_link (s : State) (b : Bool) (a : Source14) : (s.raiseIf b a).link = s.link :=
  by cases b <;> rfl
@[simp] theorem raiseIf_answers (s : State) (b : Bool) (a : Source14) : (s.raiseIf b a).answers = s.answers :=
  by cases b <;> rfl
@[simp] theorem raiseIf_demand (s : State) (b : Bool) (a : Source14) : (s.raiseIf b a).demand = s.demand :=
  by cases b <;> rfl
@[simp] theorem raiseIf_nextOrder (s : State) (b : Bool) (a : Source14) : (s.raiseIf b a).nextOrder = s.nextOrder :=
  by cases b <;> rfl
@[simp] theorem raiseIf_port (s : State) (b : Bool) (a : Source14) : (s.raiseIf b a).port = s.port :=
  by cases b <;> rfl
@[simp] theorem raiseIf_mode (s : State) (b : Bool) (a : Source14) : (s.raiseIf b a).mode = s.mode :=
  by cases b <;> rfl
@[simp] theorem raiseIf_idle (s : State) (b : Bool) (a : Source14) : (s.raiseIf b a).idle = s.idle :=
  by cases b <;> rfl
@[simp] theorem raiseIf_params (s : State) (b : Bool) (a : Source14) : (s.raiseIf b a).params = s.params :=
  by cases b <;> rfl
@[simp] theorem raiseIf_due (s : State) (b : Bool) (a : Source14) : (s.raiseIf b a).due = s.due := by cases b <;> rfl
@[simp] theorem raiseIf_out (s : State) (b : Bool) (a : Source14) : (s.raiseIf b a).out = s.out := by cases b <;> rfl
@[simp] theorem raiseIf_pending (s : State) (b : Bool) (a : Source14) : (s.raiseIf b a).pending = s.pending :=
  by cases b <;> rfl

@[simp] theorem touchIdle_entries (s : State) : (s.touchIdle).entries = s.entries :=
  by unfold State.touchIdle; split <;> rfl
@[simp] theorem touchIdle_freeList (s : State) : (s.touchIdle).freeList = s.freeList :=
  by unfold State.touchIdle; split <;> rfl
@[simp] theorem touchIdle_seconds (s : State) : (s.touchIdle).seconds = s.seconds :=
  by unfold State.touchIdle; split <;> rfl
@[simp] theorem touchIdle_segments (s : State) : (s.touchIdle).segments = s.segments :=
  by unfold State.touchIdle; split <;> rfl
@[simp] theorem touchIdle_eyes (s : State) : (s.touchIdle).eyes = s.eyes := by unfold State.touchIdle; split <;> rfl
@[simp] theorem touchIdle_stopLatch (s : State) : (s.touchIdle).stopLatch = s.stopLatch :=
  by unfold State.touchIdle; split <;> rfl
@[simp] theorem touchIdle_safeStop (s : State) : (s.touchIdle).safeStop = s.safeStop :=
  by unfold State.touchIdle; split <;> rfl
@[simp] theorem touchIdle_tunnel (s : State) : (s.touchIdle).tunnel = s.tunnel :=
  by unfold State.touchIdle; split <;> rfl
@[simp] theorem touchIdle_nodes (s : State) : (s.touchIdle).nodes = s.nodes :=
  by unfold State.touchIdle; split <;> rfl
@[simp] theorem touchIdle_link (s : State) : (s.touchIdle).link = s.link := by unfold State.touchIdle; split <;> rfl
@[simp] theorem touchIdle_answers (s : State) : (s.touchIdle).answers = s.answers :=
  by unfold State.touchIdle; split <;> rfl
@[simp] theorem touchIdle_demand (s : State) : (s.touchIdle).demand = s.demand :=
  by unfold State.touchIdle; split <;> rfl
@[simp] theorem touchIdle_nextOrder (s : State) : (s.touchIdle).nextOrder = s.nextOrder :=
  by unfold State.touchIdle; split <;> rfl
@[simp] theorem touchIdle_port (s : State) : (s.touchIdle).port = s.port := by unfold State.touchIdle; split <;> rfl
@[simp] theorem touchIdle_attention (s : State) : (s.touchIdle).attention = s.attention :=
  by unfold State.touchIdle; split <;> rfl
@[simp] theorem touchIdle_mode (s : State) : (s.touchIdle).mode = s.mode := by unfold State.touchIdle; split <;> rfl
@[simp] theorem touchIdle_params (s : State) : (s.touchIdle).params = s.params :=
  by unfold State.touchIdle; split <;> rfl
@[simp] theorem touchIdle_due (s : State) : (s.touchIdle).due = s.due := by unfold State.touchIdle; split <;> rfl
@[simp] theorem touchIdle_out (s : State) : (s.touchIdle).out = s.out := by unfold State.touchIdle; split <;> rfl
@[simp] theorem touchIdle_pending (s : State) : (s.touchIdle).pending = s.pending :=
  by unfold State.touchIdle; split <;> rfl

@[simp] theorem holdIdle_entries (s : State) : (s.holdIdle).entries = s.entries :=
  by unfold State.holdIdle; split <;> rfl
@[simp] theorem holdIdle_freeList (s : State) : (s.holdIdle).freeList = s.freeList :=
  by unfold State.holdIdle; split <;> rfl
@[simp] theorem holdIdle_seconds (s : State) : (s.holdIdle).seconds = s.seconds :=
  by unfold State.holdIdle; split <;> rfl
@[simp] theorem holdIdle_segments (s : State) : (s.holdIdle).segments = s.segments :=
  by unfold State.holdIdle; split <;> rfl
@[simp] theorem holdIdle_eyes (s : State) : (s.holdIdle).eyes = s.eyes := by unfold State.holdIdle; split <;> rfl
@[simp] theorem holdIdle_stopLatch (s : State) : (s.holdIdle).stopLatch = s.stopLatch :=
  by unfold State.holdIdle; split <;> rfl
@[simp] theorem holdIdle_safeStop (s : State) : (s.holdIdle).safeStop = s.safeStop :=
  by unfold State.holdIdle; split <;> rfl
@[simp] theorem holdIdle_tunnel (s : State) : (s.holdIdle).tunnel = s.tunnel :=
  by unfold State.holdIdle; split <;> rfl
@[simp] theorem holdIdle_nodes (s : State) : (s.holdIdle).nodes = s.nodes := by unfold State.holdIdle; split <;> rfl
@[simp] theorem holdIdle_link (s : State) : (s.holdIdle).link = s.link := by unfold State.holdIdle; split <;> rfl
@[simp] theorem holdIdle_answers (s : State) : (s.holdIdle).answers = s.answers :=
  by unfold State.holdIdle; split <;> rfl
@[simp] theorem holdIdle_demand (s : State) : (s.holdIdle).demand = s.demand :=
  by unfold State.holdIdle; split <;> rfl
@[simp] theorem holdIdle_nextOrder (s : State) : (s.holdIdle).nextOrder = s.nextOrder :=
  by unfold State.holdIdle; split <;> rfl
@[simp] theorem holdIdle_port (s : State) : (s.holdIdle).port = s.port := by unfold State.holdIdle; split <;> rfl
@[simp] theorem holdIdle_attention (s : State) : (s.holdIdle).attention = s.attention :=
  by unfold State.holdIdle; split <;> rfl
@[simp] theorem holdIdle_mode (s : State) : (s.holdIdle).mode = s.mode := by unfold State.holdIdle; split <;> rfl
@[simp] theorem holdIdle_params (s : State) : (s.holdIdle).params = s.params :=
  by unfold State.holdIdle; split <;> rfl
@[simp] theorem holdIdle_due (s : State) : (s.holdIdle).due = s.due := by unfold State.holdIdle; split <;> rfl
@[simp] theorem holdIdle_out (s : State) : (s.holdIdle).out = s.out := by unfold State.holdIdle; split <;> rfl
@[simp] theorem holdIdle_pending (s : State) : (s.holdIdle).pending = s.pending :=
  by unfold State.holdIdle; split <;> rfl

/-! ### Reading a table after a write -/

theorem entry_putEntry (s : State) (e d : EntryNo) (x : Option Entry) :
    (s.putEntry e x).entry? d = if e = d then x else s.entry? d := by
  simp only [State.entry?, State.putEntry, Vector.get_eq_getElem, Vector.getElem_set]
  by_cases h : e = d
  · simp [h]
  · have : ¬ e.val = d.val := fun hv => h (Fin.ext hv)
    simp [h, this]

theorem seg_putSeg (s : State) (n m : SegNo) (g : Option Segment) :
    (s.putSeg n g).seg? m = if n = m then g else s.seg? m := by
  simp only [State.seg?, State.putSeg, Vector.get_eq_getElem, Vector.getElem_set]
  by_cases h : n = m
  · simp [h]
  · have : ¬ n.val = m.val := fun hv => h (Fin.ext hv)
    simp [h, this]

theorem node_putNode (s : State) (n m : NodeNo) (x : Option Node) :
    (s.putNode n x).node? m = if n = m then x else s.node? m := by
  simp only [State.node?, State.putNode, Vector.get_eq_getElem, Vector.getElem_set]
  by_cases h : n = m
  · simp [h]
  · have : ¬ n.val = m.val := fun hv => h (Fin.ext hv)
    simp [h, this]

/-- An update changes the entry named, and it alone. -/
theorem entry_updEntry (s : State) (e d : EntryNo) (f : Entry → Entry) :
    (s.updEntry e f).entry? d = if e = d then (s.entry? d).map f else s.entry? d := by
  rw [State.updEntry, entry_putEntry]
  by_cases h : e = d <;> simp [h]

/-- An update changes the segment named, and it alone. -/
theorem seg_updSeg (s : State) (n m : SegNo) (f : Segment → Segment) :
    (s.updSeg n f).seg? m = if n = m then (s.seg? m).map f else s.seg? m := by
  rw [State.updSeg, seg_putSeg]
  by_cases h : n = m <;> simp [h]

/-- An update changes the node named, and it alone. -/
theorem node_updNode (s : State) (n m : NodeNo) (f : Node → Node) :
    (s.updNode n f).node? m = if n = m then (s.node? m).map f else s.node? m := by
  rw [State.updNode, node_putNode]
  by_cases h : n = m <;> simp [h]

/-- A table that a write leaves alone reads as before. -/
theorem entry_of_entries {s t : State} (h : t.entries = s.entries) (e : EntryNo) : t.entry? e = s.entry? e := by
  simp [State.entry?, h]

theorem seg_of_segments {s t : State} (h : t.segments = s.segments) (n : SegNo) : t.seg? n = s.seg? n := by
  simp [State.seg?, h]

theorem node_of_nodes {s t : State} (h : t.nodes = s.nodes) (n : NodeNo) : t.node? n = s.node? n := by
  simp [State.node?, h]

/-- Raising sets the flag of the source. -/
theorem raise_flag (s : State) (a : Source14) : ((s.raise a).source a).flag = true := by
  simp [State.raise, State.source, Vector.get_eq_getElem]

/-- What the output lines are read from does not include what they were, the port, the queue and the like. -/
theorem outputs_congr {s t : State} (h1 : t.entries = s.entries) (h2 : t.segments = s.segments)
    (h3 : t.tunnel = s.tunnel) (h4 : t.mode = s.mode) (h5 : t.stopLatch = s.stopLatch)
    (h6 : t.attention = s.attention) : t.outputs = s.outputs := by
  cases s; cases t
  simp only at h1 h2 h3 h4 h5 h6
  subst h1 h2 h3 h4 h5 h6
  rfl

/-- After `refreshOutputs` every line is at its level. -/
theorem refreshOutputs_out (s : State) : s.refreshOutputs.out = s.refreshOutputs.outputs := by
  have h : s.refreshOutputs.outputs = s.outputs := outputs_congr (by simp) (by simp) (by simp) (by simp) (by simp)
    (by simp)
  rw [h]
  simp only [State.refreshOutputs]

/-! ### Attention sources -/

theorem index_inj {a b : Source14} (h : a.index = b.index) : a = b := by
  cases a <;> cases b <;> first | rfl | exact absurd h (by decide)

/-- Raising sets the flag of the source named, and changes nothing else (R194). -/
theorem raise_source (s : State) (a b : Source14) :
    (s.raise a).source b = if a = b then { s.source b with flag := true } else s.source b := by
  simp only [State.raise, State.source, Vector.get_eq_getElem, Vector.getElem_set]
  by_cases h : a = b
  · simp [h]
  · have : ¬ a.index.val = b.index.val := fun hv => h (index_inj (Fin.ext hv))
    simp [h, this]

theorem raiseIf_source (s : State) (c : Bool) (a b : Source14) :
    (s.raiseIf c a).source b = if c = true ∧ a = b then { s.source b with flag := true } else s.source b := by
  cases c
  · simp [State.raiseIf]
  · simp [State.raiseIf, raise_source]

theorem raiseIf_flag (s : State) (c : Bool) (a b : Source14) :
    ((s.raiseIf c a).source b).flag = ((s.source b).flag || (c && decide (a = b))) := by
  rw [raiseIf_source]
  cases c <;> by_cases h : a = b <;> simp [h]

@[simp] theorem updSeg_source (s : State) (n : SegNo) (f : Segment → Segment) (a : Source14) :
    (s.updSeg n f).source a = s.source a := rfl

@[simp] theorem updEntry_source (s : State) (n : EntryNo) (f : Entry → Entry) (a : Source14) :
    (s.updEntry n f).source a = s.source a := rfl

end Sys2Proof.Machine
end

