-- ==== Sys2Proof/Laws/Ops.lean ====
section
/-! SUPPORT. What the shared operations can do, said once: none of those that move, remove, place, assign or declare
entries touches anything outside the entries' own fields, the segments' running fields, the tunnel, the demand queue,
the idle timer and the attention flags, nor which entry carries which tag (`Outer`). -/

namespace Sys2Proof.Machine

/-- `t` agrees with `s` outside entries' fields, segments, tunnel, demand queue, idle timer, attention; the same places
hold entries, with the same tags. -/
structure Outer (s t : State) : Prop where
  tags : ∀ e, (t.entry? e).map Entry.tag = (s.entry? e).map Entry.tag
  freeList : t.freeList = s.freeList
  seconds : t.seconds = s.seconds
  eyes : t.eyes = s.eyes
  stopLatch : t.stopLatch = s.stopLatch
  safeStop : t.safeStop = s.safeStop
  nodes : t.nodes = s.nodes
  link : t.link = s.link
  answers : t.answers = s.answers
  nextOrder : t.nextOrder = s.nextOrder
  port : t.port = s.port
  mode : t.mode = s.mode
  params : t.params = s.params
  due : t.due = s.due
  out : t.out = s.out
  pending : t.pending = s.pending

/-- `h` is `g` but for its dispatch reservations. -/
def SameButDispatch (g h : Option Segment) : Prop :=
  h.map (fun x => { x with reservedDispatch := 0 }) = g.map fun x => { x with reservedDispatch := 0 }

/-- An entry that no store can offer: it is not STORED (R173). -/
def NotStored (x : Option Entry) : Prop := ∀ y, x = some y → y.state ≠ .stored

theorem Outer.refl (s : State) : Outer s s := by constructor <;> intros <;> rfl

theorem Outer.trans {s t u : State} (h : Outer s t) (k : Outer t u) : Outer s u where
  tags e := (k.tags e).trans (h.tags e)
  freeList := k.freeList.trans h.freeList
  seconds := k.seconds.trans h.seconds
  eyes := k.eyes.trans h.eyes
  stopLatch := k.stopLatch.trans h.stopLatch
  safeStop := k.safeStop.trans h.safeStop
  nodes := k.nodes.trans h.nodes
  link := k.link.trans h.link
  answers := k.answers.trans h.answers
  nextOrder := k.nextOrder.trans h.nextOrder
  port := k.port.trans h.port
  mode := k.mode.trans h.mode
  params := k.params.trans h.params
  due := k.due.trans h.due
  out := k.out.trans h.out
  pending := k.pending.trans h.pending

/-- Whether a place holds an entry is what the tag says. -/
theorem Outer.inUse {s t : State} (h : Outer s t) (e : EntryNo) : (t.entry? e).isSome = (s.entry? e).isSome := by
  have := congrArg Option.isSome (h.tags e)
  simpa using this

/-- The tag index is the same (R3). -/
theorem Outer.find {s t : State} (h : Outer s t) (tag : Tag) : t.find tag = s.find tag := by
  have : ∀ e, (t.entry? e).any (fun x => decide (x.tag = tag)) = (s.entry? e).any fun x => decide (x.tag = tag) := by
    intro e
    have := h.tags e
    cases ht : t.entry? e <;> cases hs : s.entry? e <;> simp_all
  simp only [State.find, this]

/-! ### Elementary updates -/

theorem outer_updEntry (s : State) (e : EntryNo) (f : Entry → Entry) (hf : ∀ x, (f x).tag = x.tag) :
    Outer s (s.updEntry e f) := by
  constructor <;> try rfl
  intro d
  rw [entry_updEntry]
  split
  · cases s.entry? d <;> simp [hf]
  · rfl

theorem outer_updSeg (s : State) (n : SegNo) (f : Segment → Segment) : Outer s (s.updSeg n f) := by
  constructor <;> intros <;> rfl

theorem outer_raise (s : State) (a : Source14) : Outer s (s.raise a) := by constructor <;> intros <;> rfl

theorem outer_raiseIf (s : State) (b : Bool) (a : Source14) : Outer s (s.raiseIf b a) := by
  cases b
  · exact Outer.refl s
  · exact outer_raise s a

theorem outer_tunnel (s : State) (t : Tunnel) : Outer s { s with tunnel := t } := by constructor <;> intros <;> rfl

theorem outer_demand (s : State) (q : List DemandItem) : Outer s { s with demand := q } := by
  constructor <;> intros <;> rfl

theorem outer_touchIdle (s : State) : Outer s s.touchIdle := by
  constructor <;> intros <;> first | exact congrArg _ (entry_of_entries (touchIdle_entries s) _) | simp

theorem outer_holdIdle (s : State) : Outer s s.holdIdle := by
  constructor <;> intros <;> first | exact congrArg _ (entry_of_entries (holdIdle_entries s) _) | simp

theorem outer_forEach {α : Type} (f : State → α → State) (hf : ∀ s x, Outer s (f s x)) (xs : List α) (s : State) :
    Outer s (s.forEach f xs) := by
  induction xs generalizing s with
  | nil => exact Outer.refl s
  | cons x xs ih => exact (hf s x).trans (ih (f s x))

/-! ### Windows, strangers, arrivals -/

theorem outer_closeWindow (s : State) (n : SegNo) : Outer s (s.closeWindow n) := outer_updSeg s n _

@[simp] theorem giveStranger_none (g : Segment) : g.giveStranger none =
    { g with stranger := some ⟨none, none, g.strangerTags⟩, headArrived := false, window := .closed } := rfl

@[simp] theorem giveStranger_some (g : Segment) (t : Tag) : g.giveStranger (some t) =
    { g with stranger := some ⟨some t, none, g.strangerTags.insert t⟩, headArrived := false, window := .closed } := rfl

/-- The tags that gave STRANGER are those that gave it before, and the one seen now (R76). -/
theorem mem_strangerTags_giveStranger {g : Segment} {seen : Option Tag} {t : Tag} :
    t ∈ (g.giveStranger seen).strangerTags ↔ seen = some t ∨ t ∈ g.strangerTags := by
  cases seen with
  | none => simp [Segment.strangerTags]
  | some u =>
    show t ∈ g.strangerTags.insert u ↔ _
    rw [List.mem_insert_iff, Option.some.injEq, eq_comm]

/-- A tag that is a stranger's stands in its record (R76). -/
theorem mem_strangerTags {g : Segment} {t : Tag} : t ∈ g.strangerTags ↔ ∃ r, g.stranger = some r ∧ t ∈ r.given := by
  unfold Segment.strangerTags
  cases g.stranger <;> simp

theorem outer_addStranger (s : State) (n : SegNo) (seen : Option Tag) : Outer s (s.addStranger n seen) := by
  unfold State.addStranger
  split
  · exact Outer.refl s
  · exact (outer_updSeg s n _).trans (outer_raiseIf _ _ _)

theorem outer_untrackedArrival (s : State) (n : SegNo) : Outer s (s.untrackedArrival n) := by
  unfold State.untrackedArrival
  split
  · exact Outer.refl s
  · split
    · exact Outer.refl s
    · split
      · exact outer_updSeg s n _
      · exact outer_addStranger s n none

theorem outer_resolveBlocking (s : State) (n : SegNo) : Outer s (s.resolveBlocking n) := by
  unfold State.resolveBlocking
  split
  · exact Outer.refl s
  · split
    · exact (outer_updSeg s n _).trans (outer_untrackedArrival _ n)
    · exact Outer.refl s

theorem outer_reportHead (s : State) (b : Bool) (k : SegKind) (x : Entry) : Outer s (s.reportHead b k x) :=
  (outer_raiseIf s _ _).trans (outer_raiseIf _ _ _)

theorem outer_setHeadArrived (s : State) (n : SegNo) : Outer s (s.setHeadArrived n) := by
  unfold State.setHeadArrived
  split
  · exact Outer.refl s
  · split
    · exact Outer.refl s
    · dsimp only
      split
      · exact (outer_updSeg s n _).trans (outer_reportHead _ _ _ _)
      · exact outer_updSeg s n _

/-! ### Transfers, assignments, removal, declaration -/

theorem outer_endTransfer (s : State) (n : SegNo) : Outer s (s.endTransfer n) := by
  unfold State.endTransfer
  split
  · exact Outer.refl s
  · dsimp only
    split
    · exact outer_updSeg s n _
    · exact ((outer_updSeg s n _).trans (outer_updSeg _ _ _)).trans (outer_resolveBlocking _ _)

theorem outer_releaseAssignment (s : State) (e : EntryNo) : Outer s (s.releaseAssignment e) := by
  unfold State.releaseAssignment
  split
  · exact Outer.refl s
  · dsimp only
    have h := outer_updEntry s e (fun x => { x with assignment := none }) fun _ => rfl
    split
    · exact h.trans (outer_updSeg _ _ _)
    · exact h

theorem outer_convertCarried (s : State) (c : SegNo) : Outer s (s.convertCarried c) := by
  unfold State.convertCarried
  split
  · exact (outer_updSeg _ _ _).trans (outer_updSeg _ _ _)
  · exact Outer.refl s

theorem outer_cancelAssignment (s : State) (e : EntryNo) : Outer s (s.cancelAssignment e) := by
  unfold State.cancelAssignment
  split
  · exact Outer.refl s
  · dsimp only
    have h := outer_releaseAssignment s e
    repeat' split
    all_goals first
      | exact h
      | exact h.trans (outer_convertCarried _ _)
      | exact h.trans (outer_updEntry _ _ _ fun _ => rfl)
      | exact (h.trans (outer_convertCarried _ _)).trans (outer_updEntry _ _ _ fun _ => rfl)

theorem outer_removeFromSegment (s : State) (n : SegNo) (e : EntryNo) : Outer s (s.removeFromSegment n e) := by
  unfold State.removeFromSegment
  split
  · exact Outer.refl s
  · split
    · exact (outer_updSeg s n _).trans (outer_endTransfer _ n)
    · exact outer_updSeg s n _

theorem outer_removeFromTunnel (s : State) (e : EntryNo) : Outer s (s.removeFromTunnel e) :=
  (outer_tunnel s _).trans (outer_updEntry _ e _ fun _ => rfl)

theorem outer_removeEntry (s : State) (e : EntryNo) : Outer s (s.removeEntry e) := by
  unfold State.removeEntry
  split
  · exact outer_removeFromSegment s _ e
  · exact outer_removeFromTunnel s e
  · exact Outer.refl s

theorem outer_declareMissing (s : State) (e : EntryNo) (c : MissingCause) : Outer s (s.declareMissing e c) := by
  unfold State.declareMissing
  split
  · exact Outer.refl s
  · split
    · exact Outer.refl s
    · dsimp only
      refine Outer.trans ?_ (outer_raise _ _)
      refine Outer.trans ((outer_removeEntry s e).trans (outer_releaseAssignment _ e)) ?_
      exact outer_updEntry _ e _ fun _ => rfl

/-! ### Placement and appending -/

theorem outer_placeEntry (s : State) (e : EntryNo) (n : SegNo) (p : Option RackState) (b : Bool) :
    Outer s (s.placeEntry e n p b) := by
  unfold State.placeEntry
  split
  · exact Outer.refl s
  · exact outer_updEntry s e _ fun _ => rfl

theorem outer_placeAtTail (s : State) (e : EntryNo) (n : SegNo) (p : Option RackState) :
    Outer s (s.placeAtTail e n p) := by
  unfold State.placeAtTail
  split
  · exact Outer.refl s
  · have h := (outer_updSeg s n fun g => { g with queue := g.queue ++ [e] }).trans (outer_placeEntry _ e n p false)
    dsimp only
    split
    · split
      · exact ((h.trans (outer_closeWindow _ n)).trans (outer_setHeadArrived _ n)).trans (outer_updSeg _ n _)
      · exact h.trans (outer_closeWindow _ n)
    · exact h

theorem outer_appendTo (s : State) (n : SegNo) (e : EntryNo) : Outer s (s.appendTo n e) := by
  unfold State.appendTo
  split
  · exact Outer.refl s
  · dsimp only
    split
    · exact (outer_updSeg s n _).trans (outer_setHeadArrived _ n)
    · exact outer_updSeg s n _

/-! ### Assignment and what a command ends with -/

theorem outer_assign (s : State) (e : EntryNo) (i : DemandItem) : Outer s (s.assign e i) := by
  unfold State.assign
  have h := ((outer_updEntry s e (fun x => { x with assignment := some i.station, state := .returning, staleAge := 0 })
    fun _ => rfl).trans (outer_demand _ (dropItem s.demand i.station i.kind))).trans (outer_touchIdle _)
  dsimp only
  split
  · exact Outer.trans h (outer_updSeg _ _ _)
  · exact h

theorem outer_offerStores (n : Nat) (s : State) : Outer s (State.offerStores n s) := by
  induction n generalizing s with
  | zero => exact Outer.refl s
  | succ n ih =>
    unfold State.offerStores
    split
    · exact (outer_assign s _ _).trans (ih _)
    · exact Outer.refl s

theorem outer_freshenQueue (s : State) (q : List EntryNo) : Outer s (s.freshenQueue q) :=
  outer_forEach (fun s e => s.updEntry e fun x => { x with staleAge := 0 })
    (fun s e => outer_updEntry s e _ fun _ => rfl) q s

theorem outer_endExemptions (before s : State) : Outer s (State.endExemptions before s) := by
  unfold State.endExemptions
  apply outer_forEach
  intro s n
  split
  · split
    · exact outer_freshenQueue s _
    · exact Outer.refl s
  · exact Outer.refl s

/-- What follows a change in the same step changes nothing outside either. -/
theorem outer_settle (before s : State) : Outer s (State.settle before s) :=
  ((outer_offerStores _ s).trans (outer_endExemptions before _)).trans (outer_holdIdle _)

/-! ### What settling does to segments and the tunnel -/

theorem assign_tunnel (s : State) (e : EntryNo) (i : DemandItem) : (s.assign e i).tunnel = s.tunnel := by
  unfold State.assign
  dsimp only
  split <;> simp

theorem assign_seg (s : State) (e : EntryNo) (i : DemandItem) (n : SegNo) :
    SameButDispatch (s.seg? n) ((s.assign e i).seg? n) := by
  unfold State.assign SameButDispatch
  dsimp only
  have h : (({ s.updEntry e (fun x =>
      { x with assignment := some i.station, state := .returning, staleAge := 0 }) with
      demand := dropItem s.demand i.station i.kind } : State).touchIdle).seg? n = s.seg? n :=
    seg_of_segments (by simp) n
  split
  · rw [seg_updSeg]
    split
    · rw [← h]
      exact Option.map_map _ _ _
    · rw [← h]
      rfl
  · rw [← h]
    rfl

theorem offerStores_seg (k : Nat) (s : State) (n : SegNo) :
    SameButDispatch (s.seg? n) ((State.offerStores k s).seg? n) := by
  induction k generalizing s with
  | zero => rfl
  | succ k ih =>
    unfold State.offerStores
    split
    · exact (ih _).trans (assign_seg s _ _ n)
    · rfl

theorem offerStores_tunnel (k : Nat) (s : State) : (State.offerStores k s).tunnel = s.tunnel := by
  induction k generalizing s with
  | zero => rfl
  | succ k ih =>
    unfold State.offerStores
    split
    · rw [ih, assign_tunnel]
    · rfl

/-- An update of entries alone, done to each of a list, leaves a field of the rest as it was. -/
theorem forEach_keeps {α β : Type} (f : State → α → State) (g : State → β) (h : ∀ s x, g (f s x) = g s)
    (xs : List α) (s : State) : g (s.forEach f xs) = g s := by
  induction xs generalizing s with
  | nil => rfl
  | cons x xs ih => exact (ih (f s x)).trans (h s x)

theorem freshenQueue_segments (s : State) (q : List EntryNo) : (s.freshenQueue q).segments = s.segments :=
  forEach_keeps (fun s e => s.updEntry e fun x => { x with staleAge := 0 }) State.segments (fun _ _ => rfl) q s

/-! ### What settling does to entries and the demand queue -/

theorem offeredHead_stored (s : State) (g : Segment) (e : EntryNo) (h : s.offeredHead g = some e) :
    ∃ x, s.entry? e = some x ∧ x.state = .stored := by
  unfold State.offeredHead at h
  split at h
  · cases hq : g.queue.head? with
    | none => simp [hq] at h
    | some d =>
      simp only [hq, Option.bind_some] at h
      split at h
      · rename_i hx
        obtain rfl : d = e := Option.some.inj h
        cases he : s.entry? d with
        | none => simp [he] at hx
        | some x =>
          simp only [he, Option.any_some, Bool.and_eq_true, beq_iff_eq] at hx
          exact ⟨x, rfl, hx.1⟩
      · cases h
  · cases h

theorem nextOffer_stored (s : State) (e : EntryNo) (i : DemandItem) (h : s.nextOffer = some (e, i)) :
    ∃ x, s.entry? e = some x ∧ x.state = .stored := by
  unfold State.nextOffer at h
  obtain ⟨j, _, hj⟩ := List.exists_of_findSome?_eq_some h
  split at hj
  · cases ho : s.offerOf j.kind with
    | none => simp [ho] at hj
    | some d =>
      simp only [ho, Option.map_some, Option.some.injEq, Prod.mk.injEq] at hj
      unfold State.offerOf at ho
      rw [ite_eq_iff] at ho
      obtain ⟨_, ho⟩ | ⟨_, ho⟩ := ho
      swap
      · cases ho
      obtain ⟨n, _, hn⟩ := List.exists_of_findSome?_eq_some ho
      cases hg : s.seg? n with
      | none => simp [hg] at hn
      | some g =>
        simp only [hg, Option.bind_some] at hn
        split at hn
        · rw [← hj.1]
          exact offeredHead_stored s g d hn
        · cases hn
  · cases hj

theorem assign_entry_ne (s : State) (e d : EntryNo) (i : DemandItem) (h : e ≠ d) :
    (s.assign e i).entry? d = s.entry? d := by
  have h1 : (({ s.updEntry e (fun x =>
      { x with assignment := some i.station, state := .returning, staleAge := 0 }) with
      demand := dropItem s.demand i.station i.kind } : State).touchIdle).entry? d = s.entry? d := by
    rw [entry_of_entries (touchIdle_entries _)]
    exact (entry_updEntry s e d _).trans (if_neg h)
  unfold State.assign
  dsimp only
  split
  · rw [entry_of_entries (updSeg_entries _ _ _)]
    exact h1
  · exact h1

theorem assign_demand (s : State) (e : EntryNo) (i : DemandItem) :
    (s.assign e i).demand = dropItem s.demand i.station i.kind := by
  unfold State.assign
  dsimp only
  split <;> simp

/-- Only STORED heads are offered, so an entry that is not STORED is left as it was. -/
theorem offerStores_entry (k : Nat) (s : State) (d : EntryNo) (h : NotStored (s.entry? d)) :
    (State.offerStores k s).entry? d = s.entry? d := by
  induction k generalizing s with
  | zero => rfl
  | succ k ih =>
    unfold State.offerStores
    split
    · rename_i e i ho
      obtain ⟨x, hx, hs⟩ := nextOffer_stored s e i ho
      have hne : e ≠ d := by
        rintro rfl
        exact h x hx hs
      have heq := assign_entry_ne s e d i hne
      rw [ih _ (by rw [heq]; exact h), heq]
    · rfl

theorem offerStores_demand (k : Nat) (s : State) : List.Sublist (State.offerStores k s).demand s.demand := by
  induction k generalizing s with
  | zero => exact List.Sublist.refl _
  | succ k ih =>
    unfold State.offerStores
    split
    · refine (ih _).trans ?_
      rw [assign_demand]
      exact List.filter_sublist
    · exact List.Sublist.refl _

theorem assign_attention (s : State) (e : EntryNo) (i : DemandItem) : (s.assign e i).attention = s.attention := by
  unfold State.assign
  dsimp only
  split <;> simp

theorem offerStores_attention (k : Nat) (s : State) : (State.offerStores k s).attention = s.attention := by
  induction k generalizing s with
  | zero => rfl
  | succ k ih =>
    unfold State.offerStores
    split
    · rw [ih, assign_attention]
    · rfl

/-! ### What a command ends with, said exactly -/

/-- Offers change entries, segments, the demand queue and the idle timer alone. -/
theorem offerStores_only (k : Nat) (s : State) : State.offerStores k s =
    { s with
      entries := (State.offerStores k s).entries
      segments := (State.offerStores k s).segments
      demand := (State.offerStores k s).demand
      idle := (State.offerStores k s).idle } := by
  induction k generalizing s with
  | zero => rfl
  | succ k ih =>
    unfold State.offerStores
    split
    · rename_i e i _
      have ha : s.assign e i =
          { s with
            entries := (s.assign e i).entries
            segments := (s.assign e i).segments
            demand := (s.assign e i).demand
            idle := (s.assign e i).idle } := by
        unfold State.assign State.touchIdle
        dsimp only
        repeat' split
        all_goals rfl
      have h := ih (s.assign e i)
      generalize State.offerStores k (s.assign e i) = w at h ⊢
      rw [h, ha]
    · rfl

/-- Without a demand item nothing is offered. -/
theorem offerStores_idle {s : State} (h : s.demand = []) (k : Nat) : State.offerStores k s = s := by
  cases k with
  | zero => rfl
  | succ k => simp [State.offerStores, State.nextOffer, h]

theorem freshenQueue_exact (q : List EntryNo) (s : State) (d : EntryNo) : (s.freshenQueue q).entry? d =
    if d ∈ q then (s.entry? d).map fun x => { x with staleAge := 0 } else s.entry? d := by
  induction q generalizing s with
  | nil => rfl
  | cons a q ih =>
    have h : s.freshenQueue (a :: q) = (s.updEntry a fun x => { x with staleAge := 0 }).freshenQueue q := rfl
    rw [h, ih, entry_updEntry]
    by_cases h1 : d ∈ q
    · rw [if_pos h1, if_pos (List.mem_cons_of_mem _ h1)]
      split
      · cases s.entry? d <;> rfl
      · rfl
    · rw [if_neg h1]
      by_cases h2 : a = d
      · rw [if_pos h2, if_pos (h2 ▸ List.mem_cons_self)]
      · rw [if_neg h2, if_neg (by simp [h1, Ne.symm h2])]

/-- What is taken at the end of an exemption (R75): the stale ages of the queue, and nothing else. -/
theorem endExemptions_exact (before s : State) :
    State.endExemptions before s = { s with entries := (State.endExemptions before s).entries } ∧
    ∀ d, (ExemptionEnds before s d → (State.endExemptions before s).entry? d =
        (s.entry? d).map fun x => { x with staleAge := 0 }) ∧
      (¬ ExemptionEnds before s d → (State.endExemptions before s).entry? d = s.entry? d) := by
  have fresh : ∀ (u : State) q, u.freshenQueue q = { u with entries := (u.freshenQueue q).entries } := by
    intro u q
    induction q generalizing u with
    | nil => rfl
    | cons a q ih =>
      have h : u.freshenQueue (a :: q) = (u.updEntry a fun x => { x with staleAge := 0 }).freshenQueue q := rfl
      rw [h]
      exact ih _
  have key : ∀ (l : List SegNo) (u : State), u.segments = s.segments →
      let t := u.forEach (fun s n =>
        match before.seg? n, s.seg? n with
        | some g, some h => if g.exempt && !h.exempt then s.freshenQueue h.queue else s
        | _, _ => s) l
      t = { u with entries := t.entries } ∧
      ∀ d, ((∃ n ∈ l, ∃ g h, before.seg? n = some g ∧ s.seg? n = some h ∧ g.exempt = true ∧ h.exempt = false ∧ d ∈ h.queue) →
          t.entry? d = (u.entry? d).map fun x => { x with staleAge := 0 }) ∧
        (¬ (∃ n ∈ l, ∃ g h, before.seg? n = some g ∧ s.seg? n = some h ∧ g.exempt = true ∧ h.exempt = false ∧ d ∈ h.queue) →
          t.entry? d = u.entry? d) := by
    intro l
    induction l with
    | nil => intro u _; exact ⟨rfl, fun d => ⟨fun ⟨n, hn, _⟩ => (by cases hn), fun _ => rfl⟩⟩
    | cons n l ih =>
      intro u hu
      dsimp only
      have hs : ∀ m, u.seg? m = s.seg? m := seg_of_segments hu
      have step : ∃ v : State, v = { u with entries := v.entries } ∧
          (match before.seg? n, u.seg? n with
            | some g, some h => if g.exempt && !h.exempt then u.freshenQueue h.queue else u
            | _, _ => u) = v ∧
          ∀ d, ((∃ g h, before.seg? n = some g ∧ s.seg? n = some h ∧ g.exempt = true ∧ h.exempt = false ∧ d ∈ h.queue) →
              v.entry? d = (u.entry? d).map fun x => { x with staleAge := 0 }) ∧
            (¬ (∃ g h, before.seg? n = some g ∧ s.seg? n = some h ∧ g.exempt = true ∧ h.exempt = false ∧ d ∈ h.queue) →
              v.entry? d = u.entry? d) := by
        rw [hs]
        cases hb : before.seg? n with
        | none => exact ⟨u, rfl, rfl, fun d => ⟨fun ⟨g, h, h1, _⟩ => (by cases h1), fun _ => rfl⟩⟩
        | some g =>
          cases hh : s.seg? n with
          | none => exact ⟨u, rfl, rfl, fun d => ⟨fun ⟨g, h, _, h1, _⟩ => (by cases h1), fun _ => rfl⟩⟩
          | some h =>
            dsimp only
            by_cases hc : g.exempt = true ∧ h.exempt = false
            · rw [if_pos (by simp [hc.1, hc.2])]
              refine ⟨_, fresh u h.queue, rfl, fun d => ?_⟩
              rw [freshenQueue_exact]
              refine ⟨?_, ?_⟩
              · rintro ⟨g', h', h1, h2, _, _, h5⟩
                cases h1; cases h2
                rw [if_pos h5]
              · intro hn
                rw [if_neg (fun h5 => hn ⟨g, h, rfl, rfl, hc.1, hc.2, h5⟩)]
            · rw [if_neg (by simpa using hc)]
              refine ⟨u, rfl, rfl, fun d => ⟨?_, fun _ => rfl⟩⟩
              rintro ⟨g', h', h1, h2, h3, h4, _⟩
              cases h1; cases h2
              exact absurd ⟨h3, h4⟩ hc
      obtain ⟨v, v1, v2, v3⟩ := step
      have hv : v.segments = s.segments := by rw [v1]; exact hu
      obtain ⟨i1, i2⟩ := ih v hv
      rw [State.forEach, List.foldl_cons, v2]
      refine ⟨?_, fun d => ⟨?_, ?_⟩⟩
      · have hE : ∀ E, ({ v with entries := E } : State) = { u with entries := E } := by intro E; rw [v1]
        exact i1.trans (hE _)
      · rintro ⟨m, hm, g, h, h1⟩
        by_cases hl : ∃ m ∈ l, ∃ g h, before.seg? m = some g ∧ s.seg? m = some h ∧ g.exempt = true ∧ h.exempt = false ∧ d ∈ h.queue
        · refine ((i2 d).1 hl).trans ?_
          by_cases hn : ∃ g h, before.seg? n = some g ∧ s.seg? n = some h ∧ g.exempt = true ∧ h.exempt = false ∧ d ∈ h.queue
          · rw [(v3 d).1 hn]; cases u.entry? d <;> rfl
          · rw [(v3 d).2 hn]
        · refine ((i2 d).2 hl).trans ((v3 d).1 ?_)
          cases hm with
          | head => exact ⟨g, h, h1⟩
          | tail _ hm => exact absurd ⟨m, hm, g, h, h1⟩ hl
      · intro hn
        refine ((i2 d).2 ?_).trans ((v3 d).2 ?_)
        · rintro ⟨m, hm, h⟩; exact hn ⟨m, List.mem_cons_of_mem _ hm, h⟩
        · intro h; exact hn ⟨n, List.mem_cons_self, h⟩
  obtain ⟨k1, k2⟩ := key (List.finRange 32) s rfl
  refine ⟨k1, fun d => ⟨fun ⟨n, h⟩ => (k2 d).1 ⟨n, List.mem_finRange n, h⟩, fun hn => (k2 d).2 ?_⟩⟩
  rintro ⟨n, _, h⟩
  exact hn ⟨n, h⟩

theorem holdIdle_eq (s : State) : s.holdIdle =
    { s with idle := if s.mode ≠ .quiet ∧ s.idleCounts = false then 0 else s.idle } := by
  unfold State.holdIdle
  split <;> rfl

/-- The idle timer counts or not by what neither settling nor the lines touch. -/
theorem idleCounts_congr {s t : State} (hm : t.mode = s.mode) (hp : t.params = s.params) (ht : t.tunnel = s.tunnel)
    (hd : t.demand = s.demand) (hg : t.segments = s.segments) (hl : t.stopLatch = s.stopLatch) :
    t.idleCounts = s.idleCounts := by
  have ho : t.anyOpen = s.anyOpen := by
    unfold State.anyOpen State.segsWhere
    simp only [seg_of_segments hg]
  unfold State.idleCounts
  rw [hm, hp, ht, hd, ho, hl]

/-- The idle timer held and the lines brought to their levels, over a state that differs from `w` in entries alone. -/
theorem holdIdle_refresh_eq {w x : State} (h : x = { w with entries := x.entries }) :
    let t := x.holdIdle.refreshOutputs
    t = { w with entries := t.entries, idle := t.idle, out := t.outputs } ∧ t.entries = x.entries ∧
      t.segments = w.segments ∧ t.idle = if t.mode ≠ .quiet ∧ t.idleCounts = false then 0 else w.idle := by
  dsimp only
  have hf : x.mode = w.mode ∧ x.segments = w.segments ∧ x.idle = w.idle := by rw [h]; exact ⟨rfl, rfl, rfl⟩
  have ht : ∀ O, ({ x.holdIdle with out := O } : State) =
      { w with entries := x.entries, idle := x.holdIdle.idle, out := O } := by
    intro O
    have hh : x.holdIdle = { x with idle := x.holdIdle.idle } := by rw [holdIdle_eq]
    exact (congrArg (fun u : State => { u with out := O }) hh).trans
      (congrArg (fun u : State => { u with idle := x.holdIdle.idle, out := O }) h)
  have hc : x.holdIdle.refreshOutputs.idleCounts = x.idleCounts :=
    idleCounts_congr (by simp) (by simp) (by simp) (by simp) (by simp) (by simp)
  refine ⟨?_, by simp, by simp [hf.2.1], ?_⟩
  · have h1 : x.holdIdle.refreshOutputs = { x.holdIdle with out := x.holdIdle.refreshOutputs.outputs } := by
      rw [← refreshOutputs_out]
      simp only [State.refreshOutputs]
    refine h1.trans ((ht _).trans ?_)
    simp only [refreshOutputs_entries, holdIdle_entries, refreshOutputs_idle]
  · rw [hc, refreshOutputs_mode, holdIdle_mode, refreshOutputs_idle, holdIdle_eq, hf.2.2]

/-- Everything that settling and refreshing the lines does. -/
theorem settledFrom_settle (before s : State) : SettledFrom before s (State.settle before s).refreshOutputs := by
  obtain ⟨h1, h2⟩ := endExemptions_exact before (s.offerStores s.demand.length)
  obtain ⟨k1, k2, k3, k4⟩ := holdIdle_refresh_eq h1
  have hx : ∀ d, ExemptionEnds before (State.settle before s).refreshOutputs d →
      ExemptionEnds before (s.offerStores s.demand.length) d := by
    rintro d ⟨n, g, h, a, b, c⟩
    exact ⟨n, g, h, a, by rw [← seg_of_segments k3]; exact b, c⟩
  have hy : ∀ d, ExemptionEnds before (s.offerStores s.demand.length) d →
      ExemptionEnds before (State.settle before s).refreshOutputs d := by
    rintro d ⟨n, g, h, a, b, c⟩
    exact ⟨n, g, h, a, by rw [← seg_of_segments k3] at b; exact b, c⟩
  exact ⟨k1, fun d h => (entry_of_entries k2 d).trans ((h2 d).1 (hx d h)),
    fun d h => (entry_of_entries k2 d).trans ((h2 d).2 fun k => h (hy d k)), k4⟩

/-- The rack table is what its places hold. -/
theorem entries_ext {s t : State} (h : ∀ e, t.entry? e = s.entry? e) : t.entries = s.entries :=
  Vector.ext fun i hi => h ⟨i, hi⟩

/-- Where the demand queue is empty, no exemption has ended and the idle timer counts, stands at 0 or is kept in QUIET, nothing
follows a change. -/
theorem settle_alone {before s : State} (hd : s.demand = [])
    (he : ∀ n g h, before.seg? n = some g → s.seg? n = some h → g.exempt = true → h.exempt = true)
    (hi : s.mode = .quiet ∨ s.idleCounts = true ∨ s.idle = 0) : State.settle before s = s := by
  have h0 := offerStores_idle hd s.demand.length
  obtain ⟨h1, h2⟩ := endExemptions_exact before s
  have hx : ∀ d, ¬ ExemptionEnds before s d := by
    rintro d ⟨n, g, h, a, b, c, e, _⟩
    rw [he n g h a b c] at e
    cases e
  have h3 : State.endExemptions before s = s := by
    rw [h1]
    have : (State.endExemptions before s).entries = s.entries := entries_ext fun d => (h2 d).2 (hx d)
    rw [this]
  rw [State.settle, h0, h3, holdIdle_eq]
  split
  · rename_i h
    obtain hq | hc | hz := hi
    · exact absurd hq h.1
    · rw [h.2] at hc
      cases hc
    · rw [← hz]
  · rfl

/-- What a request of the port comes to that nothing follows. -/
theorem portDo_alone {c : Instr} {act : State → Taken} {s s' : State} {body : State → List Byte}
    (hp : s.port.turnaround = false) (ha : act (s.beginTransaction (portBytes c)).touchIdle = .did s' body)
    (hs : s'.port = (s.beginTransaction (portBytes c)).port)
    (hn : State.settle (s.beginTransaction (portBytes c)).touchIdle s' = s') :
    portDo c act s = .next
      { s' with port := s.port.answered c .done (body s'.refreshOutputs), out := s'.outputs } := by
  simp only [portDo, hp, ha, Bool.false_eq_true, if_false]
  rw [hn]
  simp only [State.answer, State.refreshOutputs, hs, Port.answered]
  rfl

/-- What a command that ends with `done` answers. -/
theorem done_settled (before s : State) : ∃ t, done before s = .next t ∧ SettledFrom before s t :=
  ⟨_, rfl, settledFrom_settle before s⟩

/-- What settling leaves depends on the segments it began with alone. -/
theorem SettledFrom.of_segments {before before' s t : State} (h : SettledFrom before s t)
    (hs : ∀ n, before'.seg? n = before.seg? n) : SettledFrom before' s t := by
  have hx : ∀ d, ExemptionEnds before' t d ↔ ExemptionEnds before t d := by
    intro d
    unfold ExemptionEnds
    simp only [hs]
  exact ⟨h.offered, fun e he => h.restarted e ((hx e).1 he), fun e he => h.kept e (fun k => he ((hx e).2 k)), h.idle⟩

/-- What a request of the port that is taken and changes the state answers. -/
theorem portDo_did (c : Instr) (act : State → Taken) (s s' : State) (body : State → List Byte)
    (hp : s.port.turnaround = false) (ha : act (s.beginTransaction (portBytes c)).touchIdle = .did s' body)
    (hs : s'.port = (s.beginTransaction (portBytes c)).port) :
    ∃ t, portDo c act s = .next { t with port := s.port.answered c .done (body t) } ∧ SettledFrom s s' t := by
  refine ⟨(State.settle (s.beginTransaction (portBytes c)).touchIdle s').refreshOutputs, ?_,
    (settledFrom_settle _ _).of_segments fun n => ?_⟩
  · have h := (outer_settle (s.beginTransaction (portBytes c)).touchIdle s').port
    simp only [portDo, hp, ha, Bool.false_eq_true, if_false]
    simp only [State.answer, refreshOutputs_port, h, hs, Port.answered]
    rfl
  · unfold State.touchIdle State.beginTransaction
    split <;> rfl

/-- What a request of the port that is refused answers. -/
theorem portDo_told (c : Instr) (act : State → Taken) (s : State) (r : Result) (body : State → List Byte)
    (hp : s.port.turnaround = false) (hr : r ≠ .badRequest)
    (ha : act (s.beginTransaction (portBytes c)).touchIdle = .told r body) :
    portDo c act s = .next (s.answeredOnly c r (body (s.beginTransaction (portBytes c)).touchIdle)) := by
  have h : portDo c act s =
      .next (((s.beginTransaction (portBytes c)).touchIdle).answer (echoOf c) r
        (body (s.beginTransaction (portBytes c)).touchIdle)) := by
    unfold portDo
    simp only [hp, ha, Bool.false_eq_true, if_false]
  rw [h]
  unfold State.answeredOnly Port.answered State.answer State.beginTransaction State.touchIdle
  dsimp only
  split <;> rfl

/-- What a request of the port that is answered BAD_REQUEST answers: it is no request activity. -/
theorem portDo_bad (c : Instr) (act : State → Taken) (s : State) (body : State → List Byte)
    (hp : s.port.turnaround = false)
    (ha : act (s.beginTransaction (portBytes c)).touchIdle = .told .badRequest body) :
    portDo c act s =
      .next { s with port := s.port.answered c .badRequest (body (s.beginTransaction (portBytes c))) } := by
  unfold portDo
  simp only [hp, ha, Bool.false_eq_true, if_false]
  rfl

/-! ### The two endings of a command -/

/-- `done` answers a next state, whatever the change was. -/
theorem done_next (before s : State) :
    done before s = .next (State.settle before s).refreshOutputs := rfl

/-- A request of the port always answers a next state. -/
theorem portDo_next (c : Instr) (act : State → Taken) (s : State) : ∃ t, portDo c act s = .next t := by
  unfold portDo
  split
  · exact ⟨_, rfl⟩
  · dsimp only
    split <;> exact ⟨_, rfl⟩

/-- A read always answers a next state. -/
theorem portRead_next (c : Instr) (r : State → Result × List Byte) (s : State) : ∃ t, portRead c r s = .next t := by
  unfold portRead
  split <;> exact ⟨_, rfl⟩

/-- A read changes nothing but the port (R189 to R191). -/
theorem portRead_frame (c : Instr) (r : State → Result × List Byte) (s t : State) (h : portRead c r s = .next t) :
    t = { s with port := t.port } := by
  unfold portRead at h
  split at h <;> (cases h; rfl)

/-- While the turnaround runs no request of the port is taken (R186). -/
theorem portDo_tooSoon (c : Instr) (act : State → Taken) (s : State) (h : s.port.turnaround = true) :
    portDo c act s = .next (s.tooSoon (portBytes c)) := by
  simp [portDo, h]

end Sys2Proof.Machine
end

