-- ==== Sys2Proof/Laws/Gates.lean ====
section
/-! SUPPORT. What the searches of the segment table find, and what the release test (R42, R52) and the arbiter (R46) come
to: `releaseTest_ok`, `readyFor_iff`, `arbiterPick_iff`. -/

namespace Sys2Proof.Machine

/-! ### Searches of the segment table -/

theorem mem_segsWhere {s : State} {p : Segment → Bool} {n : SegNo} :
    n ∈ s.segsWhere p ↔ ∃ g, s.seg? n = some g ∧ p g = true := by
  simp [State.segsWhere, Option.any_eq_true]

/-- Some defined segment meets the condition. -/
theorem segsWhere_nonempty {s : State} {p : Segment → Bool} :
    (!(s.segsWhere p).isEmpty) = true ↔ ∃ n g, s.seg? n = some g ∧ p g = true := by
  rw [Bool.not_eq_true', ← Bool.not_eq_true, List.isEmpty_iff, List.eq_nil_iff_forall_not_mem]
  simp [mem_segsWhere]

theorem findSeg_spec {s : State} {p : Segment → Bool} {n : SegNo} (h : s.findSeg p = some n) :
    ∃ g, s.seg? n = some g ∧ p g = true :=
  mem_segsWhere.1 (List.mem_of_mem_head? h)

theorem findSeg_none {s : State} {p : Segment → Bool} (h : s.findSeg p = none) {n : SegNo} {g : Segment}
    (hg : s.seg? n = some g) : p g = false := by
  rw [State.findSeg, List.head?_eq_none_iff] at h
  cases hp : p g with
  | false => rfl
  | true =>
    have : n ∈ s.segsWhere p := mem_segsWhere.2 ⟨g, hg, hp⟩
    rw [h] at this
    cases this

theorem findSeg_unique {s : State} {p : Segment → Bool} {n : SegNo} {g : Segment} (hg : s.seg? n = some g)
    (hp : p g = true) (hu : ∀ m h, s.seg? m = some h → p h = true → m = n) : s.findSeg p = some n := by
  cases h : s.findSeg p with
  | none =>
    rw [findSeg_none h hg] at hp
    cases hp
  | some m =>
    obtain ⟨k, hk, hpk⟩ := findSeg_spec h
    rw [hu m k hk hpk]

theorem parkOf_spec {s : State} {n : NodeNo} {p : SegNo} (h : s.parkOf n = some p) :
    ∃ g, s.seg? p = some g ∧ g.config.kind = .park ∧ g.config.owner = some n := by
  obtain ⟨g, hg, hp⟩ := findSeg_spec h
  simp only [Bool.and_eq_true, beq_iff_eq] at hp
  exact ⟨g, hg, hp.1, hp.2⟩

theorem inbound_iff {s : State} {n : SegNo} :
    s.inbound n = true ↔ ∃ m g r, s.seg? m = some g ∧ g.transfer = some r ∧ r.dest = .segment n := by
  unfold State.inbound
  rw [segsWhere_nonempty]
  simp only [Option.any_eq_true, beq_iff_eq]
  constructor
  · rintro ⟨m, g, hg, r, hr, hd⟩
    exact ⟨m, g, r, hg, hr, hd⟩
  · rintro ⟨m, g, r, hg, hr, hd⟩
    exact ⟨m, g, hg, r, hr, hd⟩

theorem anyOpen_false {s : State} (h : s.anyOpen = false) {n : SegNo} {g : Segment} (hg : s.seg? n = some g) :
    g.transfer = none := by
  cases ht : g.transfer with
  | none => rfl
  | some r =>
    have : s.anyOpen = true := segsWhere_nonempty.2 ⟨n, g, hg, by simp [Segment.isOpen, ht]⟩
    rw [h] at this
    cases this

/-! ### The release test -/

theorem roomFor_ok {s : State} {x : Entry} {a dest : Place} : s.roomFor x a = .ok dest ↔ a = dest ∧
    (∀ d, dest = .segment d → ∃ h, s.seg? d = some h ∧ h.jammed = false ∧ (1 ≤ h.freeSpace ∨ s.carries x dest = true)) ∧
    (dest = .tunnel → s.tunnelReady = true) := by
  unfold State.roomFor
  cases a with
  | tunnel =>
    dsimp only
    split
    · rename_i ht
      constructor
      · intro h
        cases h
        exact ⟨rfl, fun d hd => (by cases hd), fun _ => ht⟩
      · rintro ⟨rfl, -, -⟩
        rfl
    · rename_i ht
      constructor
      · intro h
        cases h
      · rintro ⟨rfl, -, h⟩
        exact absurd (h rfl) ht
  | segment d =>
    dsimp only
    split
    · rename_i hn
      constructor
      · intro h
        cases h
      · rintro ⟨rfl, h, -⟩
        obtain ⟨k, hk, -⟩ := h d rfl
        rw [hn] at hk
        cases hk
    · rename_i k hk
      split
      · rename_i hc
        constructor
        · intro h
          cases h
        · rintro ⟨rfl, h, -⟩
          obtain ⟨k', hk', hj, hf⟩ := h d rfl
          rw [hk] at hk'
          cases hk'
          simp only [Bool.or_eq_true, Bool.and_eq_true, beq_iff_eq, Bool.not_eq_true'] at hc
          rcases hc with hc | ⟨h0, h1⟩
          · rw [hj] at hc
            cases hc
          · rcases hf with hf | hf
            · omega
            · rw [h1] at hf
              cases hf
      · rename_i hc
        simp only [Bool.or_eq_true, Bool.and_eq_true, beq_iff_eq, Bool.not_eq_true', not_or, not_and,
          Bool.not_eq_true, Bool.not_eq_false] at hc
        constructor
        · intro h
          cases h
          refine ⟨rfl, ?_, fun h => (by cases h)⟩
          intro d' hd
          cases hd
          refine ⟨k, hk, hc.1, ?_⟩
          by_cases h0 : k.freeSpace = 0
          · exact Or.inr (hc.2 h0)
          · exact Or.inl (Nat.pos_of_ne_zero h0)
        · rintro ⟨rfl, -, -⟩
          rfl

/-- The release test succeeds exactly where conditions 2 to 9 of R42 hold. -/
theorem releaseTest_ok {s : State} {g : Segment} {dest : Place} :
    s.releaseTest g = .ok dest ↔ ∃ e x, MayLeave s g e x dest := by
  unfold State.releaseTest MayLeave
  by_cases hs : s.stopLatch = true
  · simp [hs]
  rw [if_neg hs]
  by_cases hj : g.jammed = true
  · simp [hj]
  rw [if_neg hj]
  rw [Bool.not_eq_true] at hs hj
  cases hq : g.queue.head? with
  | none => simp [State.headEntry, hq]
  | some e =>
    cases hx : s.entry? e with
    | none =>
      simp only [State.headEntry, hq, Option.bind_some, hx, Option.map_none]
      constructor
      · intro h
        cases h
      · rintro ⟨e', x', -, -, -, -, he, hx', -⟩
        cases he
        rw [hx] at hx'
        cases hx'
    | some x =>
      simp only [State.headEntry, hq, Option.bind_some, hx, Option.map_some]
      by_cases ha : (!g.headArrived || g.window != .closed) = true
      · rw [if_pos ha]
        constructor
        · intro h
          cases h
        · rintro ⟨e', x', -, -, -, -, he, hx', h1, h2, -⟩
          simp [h1, h2] at ha
      · rw [if_neg ha]
        simp only [Bool.or_eq_true, Bool.not_eq_true', bne_iff_ne, ne_eq, not_or, Bool.not_eq_false, not_not] at ha
        by_cases hh : (g.isHeld || x.hold.isSome) = true
        · rw [if_pos hh]
          constructor
          · intro h
            cases h
          · rintro ⟨e', x', -, -, h1, h2, he, hx', -, -, h3, -⟩
            cases he
            rw [hx] at hx'
            cases hx'
            simp [Segment.isHeld, h1, h2, h3] at hh
        · rw [if_neg hh]
          have hh' : g.heldBySupervisor = false ∧ g.stranger = none ∧ x.hold = none := by
            simpa [Segment.isHeld, and_assoc] using hh
          cases hr : s.route g x with
          | none =>
            simp only
            constructor
            · intro h
              cases h
            · rintro ⟨e', x', -, -, -, -, he, hx', -, -, -, hr', -⟩
              cases he
              rw [hx] at hx'
              cases hx'
              rw [hr] at hr'
              cases hr'
          | some a =>
            simp only [roomFor_ok]
            constructor
            · rintro ⟨rfl, h1, h2⟩
              exact ⟨e, x, hs, hj, hh'.1, hh'.2.1, rfl, hx, ha.1, ha.2, hh'.2.2, hr, h1, h2⟩
            · rintro ⟨e', x', -, -, -, -, he, hx', -, -, -, hr', h1, h2⟩
              cases he
              rw [hx] at hx'
              cases hx'
              rw [hr] at hr'
              cases hr'
              exact ⟨rfl, h1, h2⟩

/-! ### The arbiter -/

theorem readyFor_iff {s : State} {m d : SegNo} : s.readyFor m d = true ↔ ReadyGate s d m := by
  unfold State.readyFor ReadyGate
  cases hg : s.seg? m with
  | none => simp
  | some g =>
    simp only [Option.some.injEq, Bool.and_eq_true, Bool.not_eq_true', Segment.isOpen]
    constructor
    · rintro ⟨h1, h2⟩
      split at h2
      · rename_i dest hd
        rw [beq_iff_eq] at h2
        subst h2
        obtain ⟨e, x, h⟩ := releaseTest_ok.1 hd
        exact ⟨g, e, x, rfl, by simpa using h1, h⟩
      · cases h2
    · rintro ⟨g', e, x, rfl, h1, h2⟩
      refine ⟨by simp [h1], ?_⟩
      rw [releaseTest_ok.2 ⟨e, x, h2⟩]
      simp

/-- How far a segment number stands behind a merge pointer, counted from the number after it. -/
def behind (pointer n : SegNo) : Nat := (n - (pointer + 1)).val

theorem mergeOrder_sorted (pointer : SegNo) : (mergeOrder pointer).Pairwise fun a b => behind pointer a < behind pointer b := by
  revert pointer
  decide

theorem mem_mergeOrder (pointer n : SegNo) : n ∈ mergeOrder pointer := by
  unfold mergeOrder
  rw [List.mem_map]
  exact ⟨n - (pointer + 1), List.mem_finRange _, by abel⟩

/-- The first element of a sorted list that meets a condition is the least that does. -/
theorem find?_least {α : Type} {l : List α} {f : α → Nat} (hs : l.Pairwise fun a b => f a < f b) (hm : ∀ a, a ∈ l)
    {p : α → Bool} {a : α} : l.find? p = some a ↔ p a = true ∧ ∀ b, p b = true → f a ≤ f b := by
  rw [List.find?_eq_some_iff_append]
  constructor
  · rintro ⟨hp, l1, l2, rfl, hl⟩
    refine ⟨hp, fun b hb => ?_⟩
    have hb' := hm b
    rw [List.mem_append, List.mem_cons] at hb'
    rcases hb' with h | rfl | h
    · have := hl b h
      simp [hb] at this
    · exact Nat.le_refl _
    · rw [List.pairwise_append] at hs
      exact Nat.le_of_lt ((List.pairwise_cons.1 hs.2.1).1 b h)
  · rintro ⟨hp, hle⟩
    obtain ⟨l1, l2, rfl⟩ := List.append_of_mem (hm a)
    refine ⟨hp, l1, l2, rfl, fun b hb => ?_⟩
    rw [List.pairwise_append] at hs
    have hlt := hs.2.2 b hb a List.mem_cons_self
    cases hpb : p b with
    | false => rfl
    | true => exact absurd (hle b hpb) (Nat.not_le_of_lt hlt)

/-- The arbiter grants the ready gate nearest behind its merge pointer (R46). -/
theorem arbiterPick_iff {s : State} {d n : SegNo} {h : Segment} (hd : s.seg? d = some h) :
    s.arbiterPick d = some n ↔
      ReadyGate s d n ∧ ∀ m, ReadyGate s d m → behind h.mergePointer n ≤ behind h.mergePointer m := by
  unfold State.arbiterPick
  rw [hd]
  simp only
  rw [find?_least (mergeOrder_sorted h.mergePointer) (mem_mergeOrder h.mergePointer), readyFor_iff]
  simp only [readyFor_iff]

/-! ### Output lines -/

/-- A line of a group is on where some segment that owns it asserts it. -/
theorem line_iff {s : State} {owns : Segment → LineNo → Bool} {k : LineNo} :
    s.line owns k = true ↔ ∃ n g, s.seg? n = some g ∧ owns g k = true := by
  unfold State.line
  rw [Bool.not_eq_true', ← Bool.not_eq_true, List.isEmpty_iff, List.eq_nil_iff_forall_not_mem]
  simp [mem_segsWhere]

/-- The third condition of R97, spelled out. -/
theorem outfeedHalt_iff (s : State) : s.outfeedHalt = true ↔
    ∃ c e rest x p o g, s.tunnel.config = some c ∧ s.tunnel.list = e :: rest ∧ s.entry? e = some x ∧ x.pass = some p ∧
      s.outfeed = some o ∧ s.seg? o = some g ∧ g.freeSpace = 0 ∧
      c.exitDistance - c.exitTolerance - c.haltMargin ≤ (s.tunnel.encoder - p.mark).toNat := by
  have key : ∀ o, s.outfeed = some o → ∃ g, s.seg? o = some g := by
    intro o ho
    have : o ∈ s.segsWhere fun g => g.config.kind == .outfeed := List.mem_of_mem_head? ho
    obtain ⟨g, hg, _⟩ := mem_segsWhere.1 this
    exact ⟨g, hg⟩
  unfold State.outfeedHalt State.headPosition
  cases hc : s.tunnel.config with
  | none => simp
  | some c =>
    cases hl : s.tunnel.list with
    | nil => simp
    | cons e rest =>
      simp only [List.head?_cons, Option.bind_some]
      cases hx : s.entry? e with
      | none => simp [hx]
      | some x =>
        cases hp : x.pass with
        | none =>
          simp only [Option.bind_some, hp, Option.map_none, Bool.false_eq_true, false_iff]
          rintro ⟨_, _, _, y, p, _, _, _, h2, h3, h4, -⟩
          cases h2
          rw [hx] at h3
          cases h3
          rw [hp] at h4
          cases h4
        | some p =>
          cases ho : s.outfeed with
          | none => simp [hp]
          | some o =>
            obtain ⟨g, hg⟩ := key o ho
            simp only [Option.bind_some, hp, Option.map_some]
            simp only [State.freeSpace, hg, TunnelConfig.earlyExit, State.position]
            constructor
            · intro h
              rw [Bool.and_eq_true] at h
              exact ⟨c, e, rest, x, p, o, g, rfl, rfl, hx, hp, rfl, hg, of_decide_eq_true h.1 |> id, of_decide_eq_true h.2⟩
            · rintro ⟨c', e', r', x', p', o', g', h1, h2, h3, h4, h5, h6, h7, h8⟩
              cases h1; cases h2; cases h5
              rw [hx] at h3; cases h3
              rw [hp] at h4; cases h4
              rw [hg] at h6; cases h6
              rw [Bool.and_eq_true]; exact ⟨decide_eq_true h7, decide_eq_true h8⟩

end Sys2Proof.Machine
end

