-- ==== Sys2Proof/Laws/Effects.lean ====
section
/-! SUPPORT. What the operations on segments can do: they change the segment table and the attention flags alone
(`SegsOnly`), at the segments they name alone, and those that take an arrival leave the belt itself, `Segment.belt`, as it
was. -/

namespace Sys2Proof.Machine

/-- Only the segment table and the attention flags differ. -/
def SegsOnly (s t : State) : Prop := t = { s with segments := t.segments, attention := t.attention }

theorem SegsOnly.eq {s t : State} (h : SegsOnly s t) :
    t = { s with segments := t.segments, attention := t.attention } := h

theorem SegsOnly.refl (s : State) : SegsOnly s s := rfl

theorem SegsOnly.trans {s t u : State} (h : SegsOnly s t) (k : SegsOnly t u) : SegsOnly s u := by
  unfold SegsOnly at *
  rw [k, h]

theorem SegsOnly.entries {s t : State} (h : SegsOnly s t) : t.entries = s.entries := by
  have k := congrArg State.entries h.eq
  exact k
theorem SegsOnly.freeList {s t : State} (h : SegsOnly s t) : t.freeList = s.freeList := by
  have k := congrArg State.freeList h.eq
  exact k
theorem SegsOnly.seconds {s t : State} (h : SegsOnly s t) : t.seconds = s.seconds := by
  have k := congrArg State.seconds h.eq
  exact k
theorem SegsOnly.eyes {s t : State} (h : SegsOnly s t) : t.eyes = s.eyes := by
  have k := congrArg State.eyes h.eq
  exact k
theorem SegsOnly.tunnel {s t : State} (h : SegsOnly s t) : t.tunnel = s.tunnel := by
  have k := congrArg State.tunnel h.eq
  exact k
theorem SegsOnly.demand {s t : State} (h : SegsOnly s t) : t.demand = s.demand := by
  have k := congrArg State.demand h.eq
  exact k
theorem SegsOnly.params {s t : State} (h : SegsOnly s t) : t.params = s.params := by
  have k := congrArg State.params h.eq
  exact k
theorem SegsOnly.mode {s t : State} (h : SegsOnly s t) : t.mode = s.mode := by
  have k := congrArg State.mode h.eq
  exact k
theorem SegsOnly.link {s t : State} (h : SegsOnly s t) : t.link = s.link := by
  have k := congrArg State.link h.eq
  exact k
theorem SegsOnly.nodes {s t : State} (h : SegsOnly s t) : t.nodes = s.nodes := by
  have k := congrArg State.nodes h.eq
  exact k
theorem SegsOnly.port {s t : State} (h : SegsOnly s t) : t.port = s.port := by
  have k := congrArg State.port h.eq
  exact k
theorem SegsOnly.idle {s t : State} (h : SegsOnly s t) : t.idle = s.idle := by
  have k := congrArg State.idle h.eq
  exact k
theorem SegsOnly.stopLatch {s t : State} (h : SegsOnly s t) : t.stopLatch = s.stopLatch := by
  have k := congrArg State.stopLatch h.eq
  exact k

theorem SegsOnly.entry {s t : State} (h : SegsOnly s t) (e : EntryNo) : t.entry? e = s.entry? e :=
  entry_of_entries h.entries e

theorem segsOnly_updSeg (s : State) (n : SegNo) (f : Segment → Segment) : SegsOnly s (s.updSeg n f) := rfl

theorem segsOnly_putSeg (s : State) (n : SegNo) (g : Option Segment) : SegsOnly s (s.putSeg n g) := rfl

theorem segsOnly_raise (s : State) (a : Source14) : SegsOnly s (s.raise a) := rfl

theorem segsOnly_raiseIf (s : State) (b : Bool) (a : Source14) : SegsOnly s (s.raiseIf b a) := by
  cases b
  · exact SegsOnly.refl s
  · exact segsOnly_raise s a

theorem segsOnly_addStranger (s : State) (n : SegNo) (seen : Option Tag) : SegsOnly s (s.addStranger n seen) := by
  unfold State.addStranger
  split
  · exact SegsOnly.refl s
  · exact (segsOnly_updSeg s n _).trans (segsOnly_raiseIf _ _ _)

theorem segsOnly_untrackedArrival (s : State) (n : SegNo) : SegsOnly s (s.untrackedArrival n) := by
  unfold State.untrackedArrival
  repeat' split
  all_goals first
    | exact SegsOnly.refl s
    | exact segsOnly_updSeg s n _
    | exact segsOnly_addStranger s n none

theorem segsOnly_resolveBlocking (s : State) (n : SegNo) : SegsOnly s (s.resolveBlocking n) := by
  unfold State.resolveBlocking
  repeat' split
  all_goals first
    | exact SegsOnly.refl s
    | exact (segsOnly_updSeg s n _).trans (segsOnly_untrackedArrival _ n)

theorem segsOnly_reportHead (s : State) (b : Bool) (k : SegKind) (x : Entry) : SegsOnly s (s.reportHead b k x) :=
  (segsOnly_raiseIf s _ _).trans (segsOnly_raiseIf _ _ _)

theorem segsOnly_setHeadArrived (s : State) (n : SegNo) : SegsOnly s (s.setHeadArrived n) := by
  unfold State.setHeadArrived
  split
  · exact SegsOnly.refl s
  · split
    · exact SegsOnly.refl s
    · dsimp only
      split
      · exact (segsOnly_updSeg s n _).trans (segsOnly_reportHead _ _ _ _)
      · exact segsOnly_updSeg s n _

theorem segsOnly_endTransfer (s : State) (n : SegNo) : SegsOnly s (s.endTransfer n) := by
  unfold State.endTransfer
  split
  · exact SegsOnly.refl s
  · dsimp only
    split
    · exact segsOnly_updSeg s n _
    · exact ((segsOnly_updSeg s n _).trans (segsOnly_updSeg _ _ _)).trans (segsOnly_resolveBlocking _ _)

theorem segsOnly_removeFromSegment (s : State) (n : SegNo) (e : EntryNo) : SegsOnly s (s.removeFromSegment n e) := by
  unfold State.removeFromSegment
  split
  · exact SegsOnly.refl s
  · split
    · exact (segsOnly_updSeg s n _).trans (segsOnly_endTransfer _ n)
    · exact segsOnly_updSeg s n _

/-! ### Which segment changes, and in what -/

theorem raise_seg (s : State) (a : Source14) (m : SegNo) : (s.raise a).seg? m = s.seg? m := rfl

theorem raiseIf_seg (s : State) (b : Bool) (a : Source14) (m : SegNo) : (s.raiseIf b a).seg? m = s.seg? m := by
  cases b <;> rfl

theorem addStranger_seg (s : State) (n : SegNo) (seen : Option Tag) (m : SegNo) :
    (s.addStranger n seen).seg? m = if n = m then (s.seg? m).map fun g => g.giveStranger seen else s.seg? m := by
  unfold State.addStranger
  split
  · rename_i h
    split
    · rename_i hm
      rw [← hm, h]
      rfl
    · rfl
  · rw [raiseIf_seg, seg_updSeg]

theorem setHeadArrived_seg_ne (s : State) {n m : SegNo} (h : n ≠ m) : (s.setHeadArrived n).seg? m = s.seg? m := by
  unfold State.setHeadArrived
  split
  · rfl
  · split
    · rfl
    · dsimp only
      split
      · rw [State.reportHead, raiseIf_seg, raiseIf_seg, seg_updSeg, if_neg h]
      · rw [seg_updSeg, if_neg h]

theorem untrackedArrival_seg_ne (s : State) {n m : SegNo} (h : n ≠ m) : (s.untrackedArrival n).seg? m = s.seg? m := by
  unfold State.untrackedArrival
  repeat' split
  · rfl
  · rfl
  · rw [seg_updSeg, if_neg h]
  · rw [addStranger_seg, if_neg h]

theorem resolveBlocking_seg_ne (s : State) {n m : SegNo} (h : n ≠ m) : (s.resolveBlocking n).seg? m = s.seg? m := by
  unfold State.resolveBlocking
  repeat' split
  · rfl
  · rw [untrackedArrival_seg_ne _ h, seg_updSeg, if_neg h]
  · rfl

/-- The belt of a segment: all of it but what an arrival at its gate changes. -/
def Segment.belt (g : Segment) : Segment :=
  { g with headArrived := false, stranger := none, window := .closed, unresolved := false }

/-- The belts are the same. -/
def SameBelt (s t : State) : Prop := ∀ m, (t.seg? m).map Segment.belt = (s.seg? m).map Segment.belt

theorem SameBelt.refl (s : State) : SameBelt s s := fun _ => rfl

theorem SameBelt.trans {s t u : State} (h : SameBelt s t) (k : SameBelt t u) : SameBelt s u := fun m =>
  (k m).trans (h m)

theorem sameBelt_updSeg (s : State) (n : SegNo) (f : Segment → Segment) (h : ∀ g, (f g).belt = g.belt) :
    SameBelt s (s.updSeg n f) := by
  intro m
  rw [seg_updSeg]
  split
  · cases s.seg? m with
    | none => rfl
    | some g => exact congrArg some (h g)
  · rfl

theorem sameBelt_raiseIf (s : State) (b : Bool) (a : Source14) : SameBelt s (s.raiseIf b a) := fun m => by
  rw [raiseIf_seg]

theorem sameBelt_addStranger (s : State) (n : SegNo) (seen : Option Tag) : SameBelt s (s.addStranger n seen) := by
  unfold State.addStranger
  split
  · exact SameBelt.refl s
  · exact SameBelt.trans (sameBelt_updSeg s n
      (fun g => g.giveStranger seen) fun _ => rfl)
      (sameBelt_raiseIf _ _ _)

theorem sameBelt_untrackedArrival (s : State) (n : SegNo) : SameBelt s (s.untrackedArrival n) := by
  unfold State.untrackedArrival
  repeat' split
  all_goals first
    | exact SameBelt.refl s
    | exact sameBelt_updSeg s n _ fun _ => rfl
    | exact sameBelt_addStranger s n none

theorem sameBelt_resolveBlocking (s : State) (n : SegNo) : SameBelt s (s.resolveBlocking n) := by
  unfold State.resolveBlocking
  repeat' split
  all_goals first
    | exact SameBelt.refl s
    | exact SameBelt.trans (sameBelt_updSeg s n (fun g => { g with unresolved := false }) fun _ => rfl)
        (sameBelt_untrackedArrival _ n)

theorem sameBelt_setHeadArrived (s : State) (n : SegNo) : SameBelt s (s.setHeadArrived n) := by
  unfold State.setHeadArrived
  split
  · exact SameBelt.refl s
  · split
    · exact SameBelt.refl s
    · dsimp only
      split
      · refine SameBelt.trans ?_ ((sameBelt_raiseIf _ _ _).trans (sameBelt_raiseIf _ _ _))
        exact sameBelt_updSeg s n _ fun _ => rfl
      · exact sameBelt_updSeg s n _ fun _ => rfl

theorem belt_fields {k b : Segment} (h : k.belt = b.belt) : k.queue = b.queue ∧ k.config = b.config ∧
    k.reservedDispatch = b.reservedDispatch ∧ k.jammed = b.jammed ∧ k.heldBySupervisor = b.heldBySupervisor ∧
    k.mergePointer = b.mergePointer ∧ k.transfer = b.transfer := by
  unfold Segment.belt at h
  injection h
  simp_all

/-- A segment of the same belt, from a segment that is there. -/
theorem SameBelt.some {s t : State} (h : SameBelt s t) {m : SegNo} {g : Segment} (hg : s.seg? m = some g) :
    ∃ k, t.seg? m = some k ∧ k.belt = g.belt := by
  have := h m
  rw [hg] at this
  cases hk : t.seg? m with
  | none => simp [hk] at this
  | some k =>
    rw [hk] at this
    exact ⟨k, rfl, Option.some.inj this⟩

/-! ### The end of a transfer, and removal -/

theorem endTransfer_seg_ne (s : State) {n m : SegNo} (h : n ≠ m)
    (hd : ∀ g r, s.seg? n = some g → g.transfer = some r → r.dest ≠ .segment m) :
    (s.endTransfer n).seg? m = s.seg? m := by
  unfold State.endTransfer
  split
  · rfl
  · rename_i r hr
    dsimp only
    split
    · rw [seg_updSeg, if_neg h]
    · rename_i d hdd
      have hne : d ≠ m := by
        rintro rfl
        cases hg : s.seg? n with
        | none => simp [hg] at hr
        | some g => exact hd g r hg (by simpa [hg] using hr) hdd
      rw [resolveBlocking_seg_ne _ hne, seg_updSeg, if_neg hne, seg_updSeg, if_neg h]

/-- After the end of its transfer a segment is as before, its gate CLOSED. -/
theorem endTransfer_seg_self (s : State) {n : SegNo} {g : Segment} (hg : s.seg? n = some g)
    (hd : ∀ r, g.transfer = some r → r.dest ≠ .segment n) :
    (s.endTransfer n).seg? n = some { g with transfer := none } := by
  unfold State.endTransfer
  rw [hg]
  cases hr : g.transfer with
  | none =>
    simp only [Option.bind_some, hr]
    rw [hg]
    congr 1
    rw [← hr]
  | some r =>
    simp only [Option.bind_some, hr]
    have := hd r hr
    split
    · rw [seg_updSeg, if_pos rfl, hg]
      rfl
    · rename_i d hdd
      have hne : d ≠ n := by
        rintro rfl
        exact this hdd
      rw [resolveBlocking_seg_ne _ hne, seg_updSeg, if_neg hne, seg_updSeg, if_pos rfl, hg]
      rfl

/-- What the end of a transfer leaves of any segment: queue, configuration, dispatch reservations, JAMMED, holds. -/
theorem endTransfer_keeps (s : State) {n m : SegNo} {g : Segment} (hg : s.seg? m = some g) :
    ∃ h, (s.endTransfer n).seg? m = some h ∧ h.queue = g.queue ∧ h.config = g.config ∧
      h.reservedDispatch = g.reservedDispatch ∧ h.jammed = g.jammed ∧ h.heldBySupervisor = g.heldBySupervisor ∧
      h.mergePointer = g.mergePointer ∧ (n = m → h.transfer = none) := by
  unfold State.endTransfer
  split
  · rename_i hr
    refine ⟨g, hg, rfl, rfl, rfl, rfl, rfl, rfl, ?_⟩
    rintro rfl
    simpa [hg] using hr
  · rename_i r hr
    dsimp only
    have h1 : ∃ h, (s.updSeg n fun g => { g with transfer := none }).seg? m = some h ∧ h.queue = g.queue ∧
        h.config = g.config ∧ h.reservedDispatch = g.reservedDispatch ∧ h.jammed = g.jammed ∧
        h.heldBySupervisor = g.heldBySupervisor ∧ h.mergePointer = g.mergePointer ∧ (n = m → h.transfer = none) := by
      rw [seg_updSeg, hg]
      split
      · exact ⟨_, rfl, rfl, rfl, rfl, rfl, rfl, rfl, fun _ => rfl⟩
      · rename_i hne
        exact ⟨_, rfl, rfl, rfl, rfl, rfl, rfl, rfl, fun h => absurd h hne⟩
    split
    · exact h1
    · rename_i d _
      obtain ⟨a, ha, ha'⟩ := h1
      generalize (s.updSeg n fun g => { g with transfer := none }) = u at ha
      have h2 : ∃ h, (u.updSeg d fun g => { g with reservedTransfer :=
          if r.carried then g.reservedTransfer else g.reservedTransfer - 1 }).seg? m = some h ∧ h.queue = g.queue ∧
          h.config = g.config ∧ h.reservedDispatch = g.reservedDispatch ∧ h.jammed = g.jammed ∧
          h.heldBySupervisor = g.heldBySupervisor ∧ h.mergePointer = g.mergePointer ∧
          (n = m → h.transfer = none) := by
        rw [seg_updSeg, ha]
        split
        · exact ⟨_, rfl, ha'⟩
        · exact ⟨_, rfl, ha'⟩
      obtain ⟨b, hb, hb'⟩ := h2
      obtain ⟨k, hk, hkb⟩ := (sameBelt_resolveBlocking _ d).some hb
      refine ⟨k, hk, ?_⟩
      obtain ⟨e1, e2, e3, e4, e5, e6, e7⟩ := belt_fields hkb
      rw [e1, e2, e3, e4, e5, e6, e7]
      exact hb'

/-- What removal from a segment leaves of it: its queue without the entry; and of every other segment, its queue. -/
theorem removeFromSegment_keeps (s : State) {n m : SegNo} {e : EntryNo} {g : Segment} (hg : s.seg? m = some g) :
    ∃ h, (s.removeFromSegment n e).seg? m = some h ∧ h.queue = (if n = m then g.queue.erase e else g.queue) ∧
      h.config = g.config ∧ h.jammed = g.jammed ∧ (n = m → g.queue.head? = some e → h.transfer = none) := by
  unfold State.removeFromSegment
  split
  · rename_i hn
    have : n ≠ m := by
      rintro rfl
      rw [hn] at hg
      cases hg
    exact ⟨g, hg, by rw [if_neg this], rfl, rfl, fun h => absurd h this⟩
  · rename_i g0 hg0
    split
    · have h1 : ∃ h, (s.updSeg n fun g =>
          { g.unvouch with queue := g.queue.erase e, headArrived := false, window := .closed }).seg? m = some h ∧
          h.queue = (if n = m then g.queue.erase e else g.queue) ∧ h.config = g.config ∧ h.jammed = g.jammed := by
        rw [seg_updSeg, hg]
        split
        · exact ⟨_, rfl, rfl, rfl, rfl⟩
        · exact ⟨_, rfl, rfl, rfl, rfl⟩
      obtain ⟨a, ha, hq, hc, hj⟩ := h1
      obtain ⟨k, hk, kq, kc, _, kj, _, _, kt⟩ := endTransfer_keeps (n := n) _ ha
      exact ⟨k, hk, kq.trans hq, kc.trans hc, kj.trans hj, fun h _ => kt h⟩
    · rename_i hh
      rw [seg_updSeg, hg]
      split
      · rename_i hnm
        subst hnm
        rw [hg0] at hg
        cases hg
        exact ⟨_, rfl, rfl, rfl, rfl, fun _ h => absurd h hh⟩
      · rename_i hnm
        exact ⟨_, rfl, rfl, rfl, rfl, fun h => absurd h hnm⟩

/-! ### Entries -/

/-- Removal changes nothing of any entry but the tunnel fields of the one removed. -/
theorem removeEntry_entry (s : State) (e d : EntryNo) :
    (s.removeEntry e).entry? d = if e = d ∧ (s.entry? e).bind (·.location) = some .tunnel
      then (s.entry? d).map fun x => { x with pass := none } else s.entry? d := by
  unfold State.removeEntry
  split
  · rename_i n hn
    rw [(segsOnly_removeFromSegment s n e).entry, hn, if_neg]
    simp
  · rename_i hn
    rw [State.removeFromTunnel, entry_updEntry, hn]
    simp only [and_true]
    rfl
  · rename_i hn
    rw [hn, if_neg]
    simp

theorem releaseAssignment_entry (s : State) (e d : EntryNo) :
    (s.releaseAssignment e).entry? d =
      if e = d then (s.entry? d).map fun x => { x with assignment := none } else s.entry? d := by
  have hu := entry_updEntry s e d fun x => { x with assignment := none }
  unfold State.releaseAssignment
  split
  · rename_i hn
    split
    · rename_i hed
      subst hed
      cases hx : s.entry? e with
      | none => rfl
      | some x =>
        have ha : x.assignment = none := by simpa [hx] using hn
        simp only [Option.map_some]
        congr 1
        rw [← ha]
    · rfl
  · dsimp only
    split
    · rw [entry_of_entries (updSeg_entries _ _ _)]
      exact hu
    · exact hu

theorem releaseAssignment_keeps (s : State) (e : EntryNo) {m : SegNo} {g : Segment} (hg : s.seg? m = some g) :
    ∃ k, (s.releaseAssignment e).seg? m = some { g with reservedDispatch := k } := by
  unfold State.releaseAssignment
  split
  · exact ⟨g.reservedDispatch, hg⟩
  · dsimp only
    have h : (s.updEntry e fun x => { x with assignment := none }).seg? m = some g := hg
    split
    · rw [seg_updSeg, h]
      split
      · exact ⟨_, rfl⟩
      · exact ⟨_, rfl⟩
    · exact ⟨g.reservedDispatch, h⟩

/-- The record that declaration as MISSING leaves (R16), and that it touches no other. -/
theorem declareMissing_entry (s : State) (e d : EntryNo) (x : Entry) (last : Place) (cause : MissingCause)
    (hx : s.entry? e = some x) (hl : x.location = some last) :
    (s.declareMissing e cause).entry? d =
      if e = d then some
        { x with
          location := none, state := .missing, claim := none, assignment := none, hold := none, confirmed := false,
          overtaken := 0, staleAge := 0, placed := false, missing := some ⟨cause, x.state, last⟩,
          pass := if last = .tunnel then none else x.pass }
      else s.entry? d := by
  unfold State.declareMissing
  rw [hx]
  simp only [hl]
  rw [entry_of_entries (raise_entries _ _), entry_updEntry, releaseAssignment_entry, removeEntry_entry, hx]
  simp only [Option.bind_some, hl, Option.some.injEq]
  split
  · rename_i hed
    subst hed
    by_cases ht : last = .tunnel
    · simp [ht, hx]
    · simp [ht, hx]
  · rename_i hed
    simp [hed]

/-- Configurations are kept by removal. -/
theorem removeFromSegment_config (s : State) (n m : SegNo) (e : EntryNo) :
    ((s.removeFromSegment n e).seg? m).map (·.config) = (s.seg? m).map (·.config) := by
  cases hg : s.seg? m with
  | some g => obtain ⟨h, h1, _, h3, _⟩ := removeFromSegment_keeps (n := n) (e := e) s hg; rw [h1]; simp [h3]
  | none =>
    unfold State.removeFromSegment
    split
    · rw [hg]
    · rename_i g0 h0
      have hnm : n ≠ m := by rintro rfl; rw [hg] at h0; cases h0
      have none_end : ∀ u : State, u.seg? m = none → (u.endTransfer n).seg? m = none := by
        intro u hu
        unfold State.endTransfer
        split
        · exact hu
        · dsimp only
          have h1 : (u.updSeg n fun g => { g with transfer := none }).seg? m = none := by rw [seg_updSeg, hu]; split <;> rfl
          split
          · exact h1
          · rename_i t _ _ d _
            have h2 := sameBelt_resolveBlocking ((u.updSeg n fun g => { g with transfer := none }).updSeg d fun g =>
              { g with reservedTransfer := if t.carried then g.reservedTransfer else g.reservedTransfer - 1 }) d m
            rw [seg_updSeg, h1] at h2
            simpa using h2
      split
      · refine congrArg (Option.map _) (none_end _ ?_); rw [seg_updSeg, hg]; split <;> rfl
      · rw [seg_updSeg, hg]; split <;> rfl

/-- The end of a transfer releases the reservation at its destination, but for a carried one (R12, R47). -/
theorem endTransfer_dest {s : State} {n d : SegNo} {g k : Segment} {r : Transfer} (hg : s.seg? n = some g)
    (hr : g.transfer = some r) (hd : r.dest = .segment d) (hne : d ≠ n) (hk : s.seg? d = some k) :
    ∃ h, (s.endTransfer n).seg? d = some h ∧ h.queue = k.queue ∧ h.transfer = k.transfer ∧
      h.reservedDispatch = k.reservedDispatch ∧
      h.reservedTransfer = if r.carried then k.reservedTransfer else k.reservedTransfer - 1 := by
  unfold State.endTransfer
  rw [hg]
  simp only [Option.bind_some, hr, hd]
  obtain ⟨h, h1, h2⟩ := (sameBelt_resolveBlocking ((s.updSeg n fun g => { g with transfer := none }).updSeg d fun g =>
        { g with reservedTransfer := if r.carried then g.reservedTransfer else g.reservedTransfer - 1 }) d).some (m := d)
        (g := { k with reservedTransfer := if r.carried then k.reservedTransfer else k.reservedTransfer - 1 })
        (by rw [seg_updSeg, if_pos rfl, seg_updSeg, if_neg (Ne.symm hne), hk]; rfl)
  obtain ⟨e1, e2, e3, e4, e5, e6, e7⟩ := belt_fields h2
  refine ⟨h, h1, e1, e7, e3, ?_⟩
  unfold Segment.belt at h2
  injection h2

end Sys2Proof.Machine
end

