-- ==== Sys2Proof/Laws/Sightings.lean ====
section
/-! SUPPORT. What the operations of the sighting reconciler can do: the insertion at a head (R66), the passing of entries
(R67), the taking of a rack out of its place (R65). -/

namespace Sys2Proof.Machine

/-- The arrival of a head (R32, R39), for a segment with a head. -/
theorem setHeadArrived_eq {s : State} {n : SegNo} {g : Segment} {e : EntryNo} {x : Entry} (hg : s.seg? n = some g)
    (hq : g.queue.head? = some e) (hx : s.entry? e = some x) :
    s.setHeadArrived n = (s.updSeg n fun g =>
        { g with headArrived := true, unresolved := false,
                 window := if g.config.reader.isSome && s.mode != .configure && !x.placed
                  then .head Config.windowRounds e s.round?.isSome else g.window }).reportHead (!g.headArrived) g.config.kind x := by
  unfold State.setHeadArrived
  rw [hg]
  simp only [hq]
  have hx2 : ∀ f, (s.updSeg n f).entry? e = some x := fun f => hx
  rw [hx2]
  simp only [hx, Option.any_some]
  congr 1
  unfold State.updSeg
  rw [hg]
  rfl

/-- The reason STRANGER given to a segment that is there (R70). -/
theorem addStranger_eq {s : State} {n : SegNo} {g : Segment} (hg : s.seg? n = some g) (seen : Option Tag) :
    s.addStranger n seen = (s.updSeg n fun g => g.giveStranger seen).raiseIf (!g.stranger.isSome) .stranger := by
  unfold State.addStranger
  rw [hg]

/-- R76: a tag stays a stranger where the record of the segment holds it. -/
theorem strangerTag_iff {s : State} {n : SegNo} {g : Segment} {t : Tag} (hg : s.seg? n = some g) :
    s.strangerTag n t = true ↔ ∃ r, g.stranger = some r ∧ t ∈ r.given := by
  unfold State.strangerTag
  rw [hg, Option.any_some, List.contains_iff_mem, mem_strangerTags]

/-- A removal behind the head leaves the head. -/
theorem head_erase {l : List EntryNo} {e d : EntryNo} (h : l.head? = some e) (hd : d ≠ e) : (l.erase d).head? = some e := by
  cases l with
  | nil => cases h
  | cons a l =>
    cases h
    rw [List.erase_cons_tail (by simpa using Ne.symm hd)]
    rfl

/-- No blocking is resolved at a segment with a queue (R32). -/
theorem resolveBlocking_occupied {s : State} {n m : SegNo} {g : Segment} (hg : s.seg? m = some g) (hq : g.queue ≠ []) :
    (s.resolveBlocking n).seg? m = some g := by
  by_cases h : n = m
  · subst h
    unfold State.resolveBlocking
    rw [hg]
    simp only []
    rw [if_neg (by simp [hq]), hg]
  · rw [resolveBlocking_seg_ne s h, hg]

/-- The end of a transfer changes reservations and the gate alone of a segment with a queue. -/
theorem endTransfer_occupied {s : State} {n m : SegNo} {g : Segment} (hg : s.seg? m = some g) (hq : g.queue ≠ []) :
    ∃ t k, (s.endTransfer n).seg? m = some { g with transfer := t, reservedTransfer := k } := by
  unfold State.endTransfer
  split
  · exact ⟨g.transfer, g.reservedTransfer, hg⟩
  · rename_i r _
    dsimp only
    have h1 : ∃ t, (s.updSeg n fun g => { g with transfer := none }).seg? m = some { g with transfer := t } := by
      rw [seg_updSeg, hg]
      split
      · exact ⟨none, rfl⟩
      · exact ⟨g.transfer, rfl⟩
    obtain ⟨t, ht⟩ := h1
    split
    · exact ⟨t, g.reservedTransfer, ht⟩
    · rename_i d _
      generalize (s.updSeg n fun g => { g with transfer := none }) = u at ht ⊢
      have h2 : ∃ k, (u.updSeg d fun g => { g with reservedTransfer :=
          if r.carried then g.reservedTransfer else g.reservedTransfer - 1 }).seg? m =
            some { g with transfer := t, reservedTransfer := k } := by
        rw [seg_updSeg, ht]
        split
        · exact ⟨_, rfl⟩
        · exact ⟨g.reservedTransfer, rfl⟩
      obtain ⟨k, hk⟩ := h2
      exact ⟨t, k, resolveBlocking_occupied hk hq⟩

/-- Segment `m` keeps all but reservations, transfer and queue; `e` stays its head. -/
def KeepsHead (e : EntryNo) (g h : Segment) : Prop :=
  ∃ q t k d, h = { g with queue := q, transfer := t, reservedTransfer := k, reservedDispatch := d } ∧
    List.Sublist q g.queue ∧ q.head? = some e

theorem KeepsHead.trans {e : EntryNo} {a b c : Segment} (h : KeepsHead e a b) (k : KeepsHead e b c) : KeepsHead e a c := by
  obtain ⟨q, t, r, d, rfl, hs, hh⟩ := h
  obtain ⟨q', t', r', d', rfl, hs', hh'⟩ := k
  exact ⟨q', t', r', d', rfl, hs'.trans hs, hh'⟩

/-- A declaration of another entry leaves the head of a segment, and all else but queue, transfer and reservations. -/
theorem declareMissing_head {s : State} {m : SegNo} {g : Segment} {e d : EntryNo} (c : MissingCause)
    (hg : s.seg? m = some g) (hh : g.queue.head? = some e) (hd : d ≠ e) :
    ∃ h, (s.declareMissing d c).seg? m = some h ∧ KeepsHead e g h := by
  have hq : g.queue ≠ [] := by intro h; rw [h] at hh; cases hh
  unfold State.declareMissing
  split
  · exact ⟨g, hg, g.queue, g.transfer, _, _, rfl, List.Sublist.refl _, hh⟩
  split
  · exact ⟨g, hg, g.queue, g.transfer, _, _, rfl, List.Sublist.refl _, hh⟩
  dsimp only
  have h1 : ∃ h, (s.removeEntry d).seg? m = some h ∧ KeepsHead e g h := by
    unfold State.removeEntry
    split
    · rename_i n _
      unfold State.removeFromSegment
      split
      · exact ⟨g, hg, g.queue, g.transfer, _, _, rfl, List.Sublist.refl _, hh⟩
      · rename_i g0 hg0
        split
        · rename_i hd0
          have hne : n ≠ m := by
            rintro rfl
            rw [hg] at hg0; cases hg0
            rw [hh] at hd0; exact hd (Option.some.inj hd0).symm
          have h2 : (s.updSeg n fun g =>
            { g.unvouch with queue := g.queue.erase d, headArrived := false, window := .closed }).seg? m = some g := by
              rw [seg_updSeg, if_neg hne, hg]
          obtain ⟨t, k, h3⟩ := endTransfer_occupied (n := n) h2 hq
          exact ⟨_, h3, g.queue, t, k, _, rfl, List.Sublist.refl _, hh⟩
        · rw [seg_updSeg, hg]
          split
          · exact ⟨_, rfl, g.queue.erase d, g.transfer, _, _, rfl, List.erase_sublist, head_erase hh hd⟩
          · exact ⟨_, rfl, g.queue, g.transfer, _, _, rfl, List.Sublist.refl _, hh⟩
    · exact ⟨g, hg, g.queue, g.transfer, _, _, rfl, List.Sublist.refl _, hh⟩
    · exact ⟨g, hg, g.queue, g.transfer, _, _, rfl, List.Sublist.refl _, hh⟩
  obtain ⟨h, hh1, hk⟩ := h1
  obtain ⟨k, hk2⟩ := releaseAssignment_keeps (s.removeEntry d) d hh1
  obtain ⟨q, t, r, dd, rfl, hs, hhd⟩ := hk
  exact ⟨_, hk2, q, t, r, k, rfl, hs, hhd⟩

/-- So does the passing of another entry (R67). -/
theorem passEntry_head {s : State} {m : SegNo} {g : Segment} {e d : EntryNo}
    (hg : s.seg? m = some g) (hh : g.queue.head? = some e) (hd : d ≠ e) :
    ∃ h, (s.passEntry d).seg? m = some h ∧ KeepsHead e g h := by
  unfold State.passEntry
  split
  · exact ⟨g, hg, g.queue, g.transfer, _, _, rfl, List.Sublist.refl _, hh⟩
  split
  · exact ⟨g, hg, g.queue, g.transfer, _, _, rfl, List.Sublist.refl _, hh⟩
  · exact declareMissing_head .overtaken hg hh hd

/-- So does the passing of any that are not the head. -/
theorem passAll_head {m : SegNo} {e : EntryNo} (l : List EntryNo) (hl : e ∉ l) : ∀ {s : State} {g : Segment},
    s.seg? m = some g → g.queue.head? = some e →
    ∃ h, (s.forEach State.passEntry l).seg? m = some h ∧ KeepsHead e g h := by
  induction l with
  | nil => intro s g hg hh; exact ⟨g, hg, g.queue, g.transfer, _, _, rfl, List.Sublist.refl _, hh⟩
  | cons d l ih =>
    intro s g hg hh
    obtain ⟨h, h1, h2⟩ := passEntry_head hg hh (d := d) (by rintro rfl; exact hl List.mem_cons_self)
    obtain ⟨q, t, r, dd, rfl, hs, hhd⟩ := h2
    obtain ⟨h', h3, h4⟩ := ih (fun hm => hl (List.mem_cons_of_mem _ hm)) h1 hhd
    exact ⟨h', h3, KeepsHead.trans ⟨q, t, r, dd, rfl, hs, hhd⟩ h4⟩

theorem passEntry_entry_ne (s : State) {e d : EntryNo} (h : e ≠ d) : (s.passEntry e).entry? d = s.entry? d := by
  unfold State.passEntry
  split
  · rfl
  rename_i x hx
  split
  · rw [entry_updEntry, if_neg h]
  · cases hl : x.location with
    | none => simp only [State.declareMissing, hx, hl]
    | some last => rw [declareMissing_entry s e d x last .overtaken hx hl, if_neg h]

/-- Passing changes none but the entries passed. -/
theorem passAll_entry_ne (l : List EntryNo) {d : EntryNo} (h : d ∉ l) : ∀ s : State,
    (s.forEach State.passEntry l).entry? d = s.entry? d := by
  induction l with
  | nil => intro s; rfl
  | cons a l ih =>
    intro s
    exact (ih (fun hm => h (List.mem_cons_of_mem _ hm)) _).trans
      (passEntry_entry_ne s (by rintro rfl; exact h List.mem_cons_self))

/-- An entry passed is passed once, from the record it had. -/
theorem passAll_entry (l : List EntryNo) (hn : l.Nodup) {d : EntryNo} (h : d ∈ l) : ∀ s : State,
    ∃ u : State, u.entry? d = s.entry? d ∧ (s.forEach State.passEntry l).entry? d = (u.passEntry d).entry? d ∧
      ∃ l', s.forEach State.passEntry l = (u.passEntry d).forEach State.passEntry l' := by
  induction l with
  | nil => cases h
  | cons a l ih =>
    intro s
    rw [List.nodup_cons] at hn
    by_cases had : a = d
    · subst had
      exact ⟨s, rfl, passAll_entry_ne l hn.1 _, l, rfl⟩
    · have hdl : d ∈ l := by
        cases h with
        | head => exact absurd rfl had
        | tail _ h => exact h
      obtain ⟨u, h1, h2, h3⟩ := ih hn.2 hdl (s.passEntry a)
      exact ⟨u, h1.trans (passEntry_entry_ne s had), h2, h3⟩

/-- What a declaration leaves of a queue: the entry goes, where the record held it there (R12, R16). -/
theorem declareMissing_queue {s : State} {m : SegNo} {g : Segment} {d : EntryNo} {y : Entry} {c : MissingCause}
    (hg : s.seg? m = some g) (hy : s.entry? d = some y) :
    ∃ h, (s.declareMissing d c).seg? m = some h ∧
      h.queue = if y.location = some (.segment m) then g.queue.erase d else g.queue := by
  unfold State.declareMissing
  rw [hy]
  dsimp only
  cases hl : y.location with
  | none => exact ⟨g, hg, by simp⟩
  | some last =>
    dsimp only
    have h1 : ∃ h, (s.removeEntry d).seg? m = some h ∧
        h.queue = if some last = some (.segment m) then g.queue.erase d else g.queue := by
      unfold State.removeEntry
      rw [hy]
      simp only [Option.bind_some, hl]
      cases last with
      | tunnel => exact ⟨g, hg, by simp⟩
      | segment n =>
        obtain ⟨h, h1, h2, _⟩ := removeFromSegment_keeps s (n := n) (e := d) hg
        exact ⟨h, h1, by simpa using h2⟩
    obtain ⟨h, h2, h3⟩ := h1
    obtain ⟨k, hk⟩ := releaseAssignment_keeps (s.removeEntry d) d h2
    exact ⟨_, hk, h3⟩

/-- The entry leaves the queue of segment `m` when it is passed (R67). -/
def State.leavesPassed (s : State) (m : SegNo) (d : EntryNo) : Bool :=
  (s.entry? d).any fun y => y.overtaken != 0 && y.location == some (.segment m)

/-- What passing one entry leaves of a queue. -/
theorem passEntry_queue {s : State} {m : SegNo} {g : Segment} (d : EntryNo) (hg : s.seg? m = some g) :
    ∃ h, (s.passEntry d).seg? m = some h ∧ h.queue = if s.leavesPassed m d then g.queue.erase d else g.queue := by
  unfold State.passEntry State.leavesPassed
  cases hy : s.entry? d with
  | none => exact ⟨g, hg, rfl⟩
  | some y =>
    dsimp only
    by_cases h0 : y.overtaken = 0
    · rw [if_pos h0]
      exact ⟨g, hg, by simp [h0]⟩
    · rw [if_neg h0]
      obtain ⟨h, h1, h2⟩ := declareMissing_queue (c := .overtaken) hg hy
      refine ⟨h, h1, ?_⟩
      rw [h2]
      simp [h0]

/-- To erase what occurs once is to leave it out. -/
theorem erase_once {l : List EntryNo} {d : EntryNo} (h : l.count d ≤ 1) : l.erase d = l.filter fun a => a != d := by
  induction l with
  | nil => rfl
  | cons a l ih =>
    by_cases ha : a = d
    · subst ha
      rw [List.count_cons_self] at h
      have : a ∉ l := List.count_eq_zero.1 (Nat.le_zero.1 (Nat.le_of_succ_le_succ h))
      rw [List.erase_cons_head, List.filter_cons_of_neg (by simp)]
      exact (List.filter_eq_self.2 fun b hb => by simpa using fun hba : b = a => this (hba ▸ hb)).symm
    · rw [List.count_cons_of_ne ha] at h
      rw [List.erase_cons_tail (by simpa using ha), List.filter_cons_of_pos (by simpa using ha), ih h]

/-- The queue once a list of entries has been passed, none of which stands in it twice: without exactly those that are declared
MISSING there. -/
theorem passAll_queue {m : SegNo} (l : List EntryNo) (hl : l.Nodup) : ∀ {s : State} {g : Segment},
    s.seg? m = some g → (∀ d ∈ l, g.queue.count d ≤ 1) →
    ∃ h, (s.forEach State.passEntry l).seg? m = some h ∧
      h.queue = g.queue.filter fun d => !(l.contains d && s.leavesPassed m d) := by
  induction l with
  | nil => intro s g hg _; exact ⟨g, hg, by simp⟩
  | cons a l ih =>
    intro s g hg hn
    rw [List.nodup_cons] at hl
    obtain ⟨h, h1, h2⟩ := passEntry_queue a hg
    have hn' : ∀ d ∈ l, h.queue.count d ≤ 1 := by
      intro d hd
      rw [h2]
      split
      · exact Nat.le_trans (List.erase_sublist.count_le d) (hn d (List.mem_cons_of_mem a hd))
      · exact hn d (List.mem_cons_of_mem a hd)
    obtain ⟨k, k1, k2⟩ := ih hl.2 h1 hn'
    refine ⟨k, k1, k2.trans ?_⟩
    have same : ∀ d ∈ l, (s.passEntry a).leavesPassed m d = s.leavesPassed m d := by
      intro d hd
      unfold State.leavesPassed
      rw [passEntry_entry_ne s (by rintro rfl; exact hl.1 hd)]
    have inner : ∀ d, (l.contains d && (s.passEntry a).leavesPassed m d) = (l.contains d && s.leavesPassed m d) := by
      intro d
      by_cases hd : d ∈ l
      · rw [same d hd]
      · have : l.contains d = false := by simpa using hd
        rw [this]; rfl
    simp only [inner]
    rw [h2]
    by_cases ha : s.leavesPassed m a = true
    · rw [if_pos ha, erase_once (hn a List.mem_cons_self), List.filter_filter]
      apply List.filter_congr
      intro d _
      by_cases hda : d = a
      · subst hda; simp [ha]
      · simp [hda]
    · rw [if_neg ha]
      apply List.filter_congr
      intro d _
      by_cases hda : d = a
      · subst hda
        have : l.contains d = false := by simpa using hl.1
        simp [ha]
      · simp [hda]

theorem raise_keepsFlag (s : State) (a b : Source14) (h : (s.source a).flag = true) : ((s.raise b).source a).flag = true := by
  rw [raise_source]; split <;> simp [h]

theorem raiseIf_keepsFlag (s : State) (c : Bool) (a b : Source14) (h : (s.source a).flag = true) : ((s.raiseIf c b).source a).flag = true := by
  rw [raiseIf_flag, h]; rfl

/-- What raises, removes or declares leaves a flag that is set. -/
theorem addStranger_keepsFlag (s : State) (n seen) (a : Source14) (h : (s.source a).flag = true) : ((s.addStranger n seen).source a).flag = true := by
  unfold State.addStranger
  split
  · exact h
  · exact raiseIf_keepsFlag _ _ _ _ h

theorem untracked_keepsFlag (s : State) (n) (a : Source14) (h : (s.source a).flag = true) : ((s.untrackedArrival n).source a).flag = true := by
  unfold State.untrackedArrival
  repeat' split
  all_goals first | exact h | exact addStranger_keepsFlag _ _ _ _ h

theorem resolve_keepsFlag (s : State) (n) (a : Source14) (h : (s.source a).flag = true) : ((s.resolveBlocking n).source a).flag = true := by
  unfold State.resolveBlocking
  repeat' split
  all_goals first | exact h | exact untracked_keepsFlag _ _ _ h

theorem endTransfer_keepsFlag (s : State) (n) (a : Source14) (h : (s.source a).flag = true) : ((s.endTransfer n).source a).flag = true := by
  unfold State.endTransfer
  split
  · exact h
  dsimp only
  split
  · exact h
  · exact resolve_keepsFlag _ _ _ h

theorem removeEntry_keepsFlag (s : State) (e) (a : Source14) (h : (s.source a).flag = true) : ((s.removeEntry e).source a).flag = true := by
  unfold State.removeEntry State.removeFromSegment
  repeat' split
  all_goals first | exact h | exact endTransfer_keepsFlag _ _ _ h

theorem declareMissing_keepsFlag (s : State) (e c) (a : Source14) (h : (s.source a).flag = true) : ((s.declareMissing e c).source a).flag = true := by
  unfold State.declareMissing
  split
  · exact h
  split
  · exact h
  dsimp only
  apply raise_keepsFlag
  rw [updEntry_source]
  unfold State.releaseAssignment
  split
  · exact removeEntry_keepsFlag _ _ _ h
  · dsimp only
    split <;> exact removeEntry_keepsFlag _ _ _ h

theorem passAll_keepsFlag (l : List EntryNo) (a : Source14) : ∀ s : State, (s.source a).flag = true →
    ((s.forEach State.passEntry l).source a).flag = true := by
  induction l with
  | nil => intro s h; exact h
  | cons d l ih =>
    intro s h
    apply ih
    unfold State.passEntry
    repeat' split
    all_goals first | exact h | exact declareMissing_keepsFlag _ _ _ _ h

/-- Placement is the placed record, where the segment is there. -/
theorem placeEntry_eq {s : State} {n : SegNo} {g : Segment} (hg : s.seg? n = some g) (e : EntryNo) (p : Option RackState) (b : Bool) :
    s.placeEntry e n p b = s.updEntry e fun x => x.place n g.config.kind g.config.storeKind p b s.params.rewashLimit s.seconds := by
  unfold State.placeEntry; rw [hg]

/-- Everything an insertion at the head does (R66). -/
theorem insertHead_spec {s : State} {n : SegNo} {g : Segment} {e : EntryNo} {x : Entry} (hg : s.seg? n = some g)
    (hx : s.entry? e = some x) (p : Option RackState) (b : Bool) :
    (s.insertHead e n p b).seg? n = some { g.vouch e with queue := e :: g.queue, window := .closed, headArrived := true, unresolved := false } ∧
    (∀ m, m ≠ n → (s.insertHead e n p b).seg? m = s.seg? m) ∧
    (∀ d, (s.insertHead e n p b).entry? d = if e = d then some (x.place n g.config.kind g.config.storeKind p b s.params.rewashLimit s.seconds) else s.entry? d) ∧
    (s.insertHead e n p b).freeList = s.freeList := by
  let u := s.updSeg n fun g => { g.vouch e with queue := e :: g.queue, window := .closed, headArrived := false }
  have hu : u.seg? n = some { g.vouch e with queue := e :: g.queue, window := .closed, headArrived := false } := by
    show (s.updSeg n _).seg? n = _
    rw [seg_updSeg, if_pos rfl, hg]; rfl
  have hp : u.placeEntry e n p b = u.updEntry e fun x => x.place n g.config.kind g.config.storeKind p b s.params.rewashLimit s.seconds :=
    placeEntry_eq hu e p b
  have hv : (u.placeEntry e n p b).seg? n = some { g.vouch e with queue := e :: g.queue, window := .closed, headArrived := false } := by
    rw [hp]; exact hu
  have hy : (u.placeEntry e n p b).entry? e = some (x.place n g.config.kind g.config.storeKind p b s.params.rewashLimit s.seconds) := by
    rw [hp, entry_updEntry, if_pos rfl]
    show (s.entry? e).map _ = _
    rw [hx]; rfl
  have hi : s.insertHead e n p b = (u.placeEntry e n p b).setHeadArrived n := rfl
  rw [hi]
  refine ⟨?_, ?_, ?_, ?_⟩
  · rw [setHeadArrived_eq hv rfl hy]
    rw [State.reportHead, raiseIf_seg, raiseIf_seg, seg_updSeg, if_pos rfl, hv]
    simp [Entry.place, Segment.vouch]
  · intro m hm
    rw [setHeadArrived_seg_ne _ (Ne.symm hm), hp]
    show (s.updSeg n _).seg? m = _
    rw [seg_updSeg, if_neg (Ne.symm hm)]
  · intro d
    rw [(segsOnly_setHeadArrived _ n).entry]
    split
    · rename_i h; rw [← h]; exact hy
    · rename_i h
      rw [hp, entry_updEntry, if_neg h]; rfl
  · rw [(segsOnly_setHeadArrived _ n).freeList, hp]; rfl

/-- Taking a rack out of a segment changes segments and flags alone. -/
theorem pullFrom_only (s : State) (m : SegNo) (e : EntryNo) : SegsOnly s (s.pullFrom m e) := by
  unfold State.pullFrom
  split
  · exact SegsOnly.refl s
  dsimp only
  split
  · exact (segsOnly_removeFromSegment s m e).trans (segsOnly_setHeadArrived _ m)
  · exact segsOnly_removeFromSegment s m e

/-- Taking a rack out of its place changes its record alone, and only out of the tunnel (R65). -/
theorem takeOut_entry (s : State) (e d : EntryNo) (x : Entry) :
    (s.takeOut e x).entry? d = if e = d ∧ x.location = some .tunnel then (s.entry? d).map fun y => { y.mistrack with pass := none } else s.entry? d := by
  unfold State.takeOut
  split
  · rename_i h; rw [(pullFrom_only _ _ _).entry, h, if_neg (by simp)]
  · rename_i h
    rw [h, State.removeFromTunnel, entry_updEntry]
    by_cases hed : e = d
    · subst hed
      rw [if_pos rfl, if_pos ⟨rfl, rfl⟩]
      show ((s.updEntry e Entry.mistrack).entry? e).map _ = _
      rw [entry_updEntry, if_pos rfl]
      exact Option.map_map _ _ _
    · rw [if_neg hed, if_neg (fun h => hed h.1)]
      show (s.updEntry e Entry.mistrack).entry? d = _
      rw [entry_updEntry, if_neg hed]
  · rename_i h; rw [h, if_neg (by simp)]

/-- An arrival changes arrival, window and the unresolved mark of its segment. -/
theorem setHeadArrived_self {s : State} {n : SegNo} {g : Segment} (hg : s.seg? n = some g) :
    ∃ b w u, (s.setHeadArrived n).seg? n = some { g with headArrived := b, window := w, unresolved := u } := by
  unfold State.setHeadArrived
  rw [hg]
  dsimp only
  split
  · exact ⟨_, _, _, hg⟩
  · split
    · rw [State.reportHead, raiseIf_seg, raiseIf_seg, seg_updSeg, if_pos rfl, hg]; exact ⟨_, _, _, rfl⟩
    · rw [seg_updSeg, if_pos rfl, hg]; exact ⟨_, _, _, rfl⟩

/-- An untracked arrival takes no reason STRANGER away. -/
theorem untracked_stranger {s : State} {n m : SegNo} {g : Segment} (hg : s.seg? m = some g) :
    ∃ h, (s.untrackedArrival n).seg? m = some h ∧ h.belt = g.belt ∧ (g.stranger ≠ none → h.stranger ≠ none) := by
  by_cases hnm : n = m
  · subst hnm
    unfold State.untrackedArrival
    rw [hg]
    simp only []
    split
    · exact ⟨g, hg, rfl, id⟩
    · split
      · rw [seg_updSeg, if_pos rfl, hg]; exact ⟨_, rfl, rfl, id⟩
      · rw [addStranger_seg, if_pos rfl, hg]; exact ⟨_, rfl, rfl, fun _ => by simp⟩
  · rw [untrackedArrival_seg_ne s hnm, hg]; exact ⟨g, rfl, rfl, id⟩

theorem resolve_stranger {s : State} {n m : SegNo} {g : Segment} (hg : s.seg? m = some g) :
    ∃ h, (s.resolveBlocking n).seg? m = some h ∧ h.belt = g.belt ∧ (g.stranger ≠ none → h.stranger ≠ none) := by
  unfold State.resolveBlocking
  split
  · exact ⟨g, hg, rfl, id⟩
  split
  · by_cases hnm : n = m
    · subst hnm
      have : (s.updSeg n fun g => { g with unresolved := false }).seg? n = some { g with unresolved := false } := by
        rw [seg_updSeg, if_pos rfl, hg]; rfl
      obtain ⟨h, h1, h2, h3⟩ := untracked_stranger (n := n) this
      exact ⟨h, h1, h2, h3⟩
    · have : (s.updSeg n fun g => { g with unresolved := false }).seg? m = some g := by
        rw [seg_updSeg, if_neg hnm, hg]
      exact untracked_stranger (n := n) this
  · exact ⟨g, hg, rfl, id⟩

theorem endTransfer_stranger {s : State} {n m : SegNo} {g : Segment} (hg : s.seg? m = some g) :
    ∃ h, (s.endTransfer n).seg? m = some h ∧ h.queue = g.queue ∧ h.config = g.config ∧ (g.stranger ≠ none → h.stranger ≠ none) := by
  unfold State.endTransfer
  split
  · exact ⟨g, hg, rfl, rfl, id⟩
  rename_i r _
  dsimp only
  have h1 : ∃ h, (s.updSeg n fun g => { g with transfer := none }).seg? m = some h ∧ h.queue = g.queue ∧ h.config = g.config ∧ h.stranger = g.stranger := by
    rw [seg_updSeg, hg]; split <;> exact ⟨_, rfl, rfl, rfl, rfl⟩
  obtain ⟨h, ha, hb, hc, hd⟩ := h1
  split
  · exact ⟨h, ha, hb, hc, by rw [hd]; exact id⟩
  · rename_i d _
    generalize (s.updSeg n fun g => { g with transfer := none }) = u at ha ⊢
    have h2 : ∃ h', (u.updSeg d fun g => { g with reservedTransfer := if r.carried then g.reservedTransfer else g.reservedTransfer - 1 }).seg? m = some h' ∧ h'.queue = g.queue ∧ h'.config = g.config ∧ h'.stranger = g.stranger := by
      rw [seg_updSeg, ha]; split <;> exact ⟨_, rfl, hb, hc, hd⟩
    obtain ⟨h', a1, a2, a3, a4⟩ := h2
    obtain ⟨k, k1, k2, k3⟩ := resolve_stranger (n := d) a1
    obtain ⟨e1, e2, -⟩ := belt_fields k2
    exact ⟨k, k1, e1.trans a2, e2.trans a3, by rw [← a4]; exact k3⟩

theorem remove_stranger {s : State} {n m : SegNo} {g : Segment} {e : EntryNo} (hg : s.seg? m = some g) :
    ∃ h, (s.removeFromSegment n e).seg? m = some h ∧ h.queue = (if n = m then g.queue.erase e else g.queue) ∧ h.config = g.config ∧ (g.stranger ≠ none → h.stranger ≠ none) := by
  unfold State.removeFromSegment
  split
  · rename_i hn
    have : n ≠ m := by rintro rfl; rw [hn] at hg; cases hg
    exact ⟨g, hg, by rw [if_neg this], rfl, id⟩
  split
  · have h1 : ∃ h, (s.updSeg n fun g =>
          { g.unvouch with queue := g.queue.erase e, headArrived := false, window := .closed }).seg? m = some h ∧
          h.queue = (if n = m then g.queue.erase e else g.queue) ∧ h.config = g.config ∧ (g.stranger ≠ none → h.stranger ≠ none) := by
      rw [seg_updSeg, hg]; split
      · exact ⟨_, rfl, rfl, rfl, by simp [Segment.unvouch]⟩
      · exact ⟨_, rfl, rfl, rfl, id⟩
    obtain ⟨a, a1, a2, a3, a4⟩ := h1
    obtain ⟨k, k1, k2, k3, k4⟩ := endTransfer_stranger (n := n) a1
    exact ⟨k, k1, k2.trans a2, k3.trans a3, fun h => k4 (a4 h)⟩
  · rw [seg_updSeg, hg]; split
    · exact ⟨_, rfl, rfl, rfl, id⟩
    · exact ⟨_, rfl, rfl, rfl, id⟩

/-- What taking a rack out of its place leaves of a queue: the rack goes, where the record held it there (R12, R65). -/
theorem takeOut_queue {s : State} {n : SegNo} {g : Segment} {e : EntryNo} {x : Entry} (hg : s.seg? n = some g) :
    ∃ h, (s.takeOut e x).seg? n = some h ∧
      h.queue = if x.location = some (.segment n) then g.queue.erase e else g.queue := by
  unfold State.takeOut
  split
  · rename_i m hl
    rw [hl]
    unfold State.pullFrom
    split
    · rename_i hm
      have : m ≠ n := by
        rintro rfl
        rw [hm] at hg
        cases hg
      exact ⟨g, hg, by simp [this]⟩
    · obtain ⟨h, a1, a2, _⟩ := removeFromSegment_keeps s (n := m) (e := e) hg
      have hq : h.queue = if some (Place.segment m) = some (Place.segment n) then g.queue.erase e else g.queue := by
        rw [a2]
        simp
      dsimp only
      split
      · by_cases hm : m = n
        · subst hm
          obtain ⟨b, w, uu, hb⟩ := setHeadArrived_self a1
          exact ⟨_, hb, hq⟩
        · rw [setHeadArrived_seg_ne _ hm]
          exact ⟨h, a1, hq⟩
      · exact ⟨h, a1, hq⟩
  · rename_i hl
    exact ⟨g, hg, by simp [hl]⟩
  · rename_i hl
    exact ⟨g, hg, by simp [hl]⟩

/-- What relocation leaves of any segment before the insertion: its configuration, its queue in order, a reason STRANGER. -/
theorem pull_seg {s : State} {n : SegNo} {g : Segment} {e : EntryNo} {x : Entry} (hg : s.seg? n = some g) :
    ∃ h, (s.pull e x).seg? n = some h ∧ List.Sublist h.queue g.queue ∧ h.config = g.config ∧ (g.stranger ≠ none → h.stranger ≠ none) := by
  have h1 : ∃ h, (s.takeOut e x).seg? n = some h ∧ List.Sublist h.queue g.queue ∧ h.config = g.config ∧ (g.stranger ≠ none → h.stranger ≠ none) := by
    unfold State.takeOut
    split
    · rename_i m _
      unfold State.pullFrom
      split
      · exact ⟨g, hg, List.Sublist.refl _, rfl, id⟩
      · obtain ⟨h, a1, a2, a3, a4⟩ := remove_stranger (n := m) (e := e) hg
        have hs : List.Sublist h.queue g.queue := by
          rw [a2]; split
          · exact List.erase_sublist
          · exact List.Sublist.refl _
        dsimp only
        split
        · by_cases hm : m = n
          · subst hm
            obtain ⟨b, w, uu, hb⟩ := setHeadArrived_self a1
            exact ⟨_, hb, hs, a3, a4⟩
          · rw [setHeadArrived_seg_ne _ hm]; exact ⟨h, a1, hs, a3, a4⟩
        · exact ⟨h, a1, hs, a3, a4⟩
    · exact ⟨g, hg, List.Sublist.refl _, rfl, id⟩
    · exact ⟨g, hg, List.Sublist.refl _, rfl, id⟩
  obtain ⟨h, a1, a2, a3, a4⟩ := h1
  obtain ⟨k, hk⟩ := releaseAssignment_keeps (s.takeOut e x) e a1
  exact ⟨_, hk, a2, a3, a4⟩

theorem mem_takeWhile_ne {l : List EntryNo} {e : EntryNo} : e ∉ l.takeWhile (· != e) := by
  intro h
  have := List.mem_takeWhile_imp h
  simp at this

/-- The entry that comes into use is new; no other changes. -/
theorem takeFree_entry (s : State) (e d : EntryNo) (t : Tag) : (s.takeFree e t).entry? d = if e = d then some (Entry.new t) else s.entry? d := by
  unfold State.takeFree; rw [entry_putEntry]; rfl

theorem removed_head {s : State} {m : SegNo} {h : Segment} {e : EntryNo} (hh : s.seg? m = some h) (hd : h.queue.head? = some e) :
   ∃ k, (s.removeFromSegment m e).seg? m = some k ∧ k.queue = h.queue.erase e ∧ k.config = h.config ∧ k.transfer = none ∧ (h.transfer = none → k.headArrived = false) := by
  have h1 : (s.updSeg m fun g => { g.unvouch with queue := g.queue.erase e, headArrived := false, window := .closed }).seg? m = some { h.unvouch with queue := h.queue.erase e, headArrived := false, window := .closed } := by
    rw [seg_updSeg, if_pos rfl, hh]; rfl
  unfold State.removeFromSegment
  rw [hh]; simp only
  rw [if_pos hd]
  obtain ⟨k, k1, k2, k3, k4, k5, k6, k7, k8⟩ := endTransfer_keeps (n := m) _ h1
  refine ⟨k, k1, k2, k3, k8 rfl, ?_⟩
  intro ht
  unfold State.endTransfer at k1
  rw [h1] at k1
  have h2 : (some { h.unvouch with queue := h.queue.erase e, headArrived := false, window := .closed }).bind (·.transfer) = none := ht
  rw [h2] at k1
  simp only at k1
  have h3 := h1.symm.trans k1
  cases h3; rfl

end Sys2Proof.Machine
end

