-- ==== Sys2Proof/Laws/Arrivals.lean ====
section
/-! SUPPORT. What an arrival at a gate, the joining of a tail, removal behind a CLOSED gate and the end of a transfer leave: one
lemma for each of these operations. -/

namespace Sys2Proof.Machine

/-! ### Tables written twice -/

theorem updSeg_of {s : State} {n : SegNo} {g : Segment} (hg : s.seg? n = some g) (f : Segment → Segment) :
    s.updSeg n f = s.putSeg n (some (f g)) := by
  unfold State.updSeg
  rw [hg]
  rfl

theorem updEntry_of {s : State} {e : EntryNo} {x : Entry} (hx : s.entry? e = some x) (f : Entry → Entry) :
    s.updEntry e f = s.putEntry e (some (f x)) := by
  unfold State.updEntry
  rw [hx]
  rfl

theorem seg_putSeg_self (s : State) (n : SegNo) (g : Option Segment) : (s.putSeg n g).seg? n = g := by
  rw [seg_putSeg, if_pos rfl]

theorem entry_putEntry_self (s : State) (e : EntryNo) (x : Option Entry) : (s.putEntry e x).entry? e = x := by
  rw [entry_putEntry, if_pos rfl]

theorem vector_set_set {α : Type} {k : Nat} (v : Vector α k) (i : Nat) (h : i < k) (a b : α) :
    (v.set i a).set i b = v.set i b := by
  ext j hj
  simp only [Vector.getElem_set]
  split <;> rfl

theorem putSeg_putSeg (s : State) (n : SegNo) (g h : Option Segment) : (s.putSeg n g).putSeg n h = s.putSeg n h := by
  unfold State.putSeg
  simp only [vector_set_set]

theorem putEntry_putEntry (s : State) (e : EntryNo) (x y : Option Entry) :
    (s.putEntry e x).putEntry e y = s.putEntry e y := by
  unfold State.putEntry
  simp only [vector_set_set]

/-! ### Arrivals -/

theorem putSeg_source (s : State) (n : SegNo) (g : Option Segment) (a : Source14) :
    (s.putSeg n g).source a = s.source a := rfl

theorem holdsAside_eq (k : SegKind) : k.holdsAside = (k != .outfeed && k != .exit && k != .rewash) := by
  cases k <;> rfl

/-- The reports of a head whose arrival has been written: `g` with the arrival. -/
theorem arrived_report {s : State} {n : SegNo} {g : Segment} {e : EntryNo} {x : Entry} :
    ArrivedHead s ((s.putSeg n (some
      { g with
        headArrived := true, unresolved := false
        window := if g.config.reader.isSome && s.mode != .configure && !x.placed
          then .head Config.windowRounds e s.round?.isSome else g.window })).reportHead (!g.headArrived) g.config.kind x)
      n g e x := by
  unfold State.reportHead
  refine ⟨?_, ?_, ?_, ?_, ?_, ?_⟩
  · rw [raiseIf_seg, raiseIf_seg, seg_putSeg_self]
    congr 2
    cases g.config.reader <;> cases x.placed <;> by_cases hm : s.mode = .configure <;> simp [hm, Config.windowRounds]
  · rw [raiseIf_flag, raiseIf_flag, putSeg_source]
    simp
  · rw [raiseIf_flag, raiseIf_flag, putSeg_source, holdsAside_eq]
    simp [Bool.and_assoc]
  · intro a h1 h2
    rw [raiseIf_source, raiseIf_source, if_neg (fun h => h2 h.2.symm), if_neg (fun h => h1 h.2.symm)]
    rfl
  · intro m hm
    rw [raiseIf_seg, raiseIf_seg, seg_putSeg, if_neg (Ne.symm hm)]
  · exact (segsOnly_putSeg s n _).trans ((segsOnly_raiseIf _ _ _).trans (segsOnly_raiseIf _ _ _))

/-- `State.setHeadArrived` written out over the segment and the record it reads. -/
theorem setHeadArrived_put {s : State} {n : SegNo} {g : Segment} {e : EntryNo} {x : Entry} (hg : s.seg? n = some g)
    (hq : g.queue.head? = some e) (hx : s.entry? e = some x) :
    s.setHeadArrived n = (s.putSeg n (some
      { g with
        headArrived := true, unresolved := false
        window := if g.config.reader.isSome && s.mode != .configure && !x.placed
          then .head Config.windowRounds e s.round?.isSome else g.window })).reportHead (!g.headArrived) g.config.kind x := by
  rw [setHeadArrived_eq hg hq hx, updSeg_of hg]

/-- The insertion at the head, over the record and the segment as it leaves them for the arrival (R66). -/
theorem insertHead_eq {s : State} {n : SegNo} {g : Segment} {e : EntryNo} {x : Entry} (hg : s.seg? n = some g)
    (hx : s.entry? e = some x) (prior : Option RackState) (exceeds : Bool) :
    s.insertHead e n prior exceeds = ((s.putEntry e (some (x.place n g.config.kind g.config.storeKind prior exceeds
      s.params.rewashLimit s.seconds))).putSeg n (some
        { g with
          queue := e :: g.queue, window := .closed, headArrived := false
          stranger := g.stranger.map fun r => { r with vouched := some e } })).setHeadArrived n := by
  unfold State.insertHead
  rw [updSeg_of hg, placeEntry_eq (seg_putSeg_self _ _ _)]
  refine congrArg (fun u => State.setHeadArrived u n) ?_
  exact updEntry_of (s := s.putSeg n (some { g.vouch e with queue := e :: g.queue, window := .closed, headArrived := false }))
    hx _

theorem reportHead_putSeg (s : State) (b : Bool) (k : SegKind) (x : Entry) (n : SegNo) (g : Option Segment) :
    (s.reportHead b k x).putSeg n g = (s.putSeg n g).reportHead b k x := by
  unfold State.reportHead
  cases b && x.hold.isSome <;> cases b && x.state == .setAside && k.holdsAside <;> rfl

/-! ### Joining a tail -/

/-- Everything that joining the tail by departure or exit does (R44, R63, R90). -/
theorem appendTo_joins {s : State} {d : SegNo} {h : Segment} {e : EntryNo} {x : Entry} (hh : s.seg? d = some h)
    (hx : s.entry? e = some x) : JoinsTail false s (s.appendTo d e) d h e x := by
  have ha : s.appendTo d e =
      let u := s.putSeg d (some
        { h with queue := h.queue ++ [e], window := if h.queue.isEmpty then .closed else h.window })
      if h.queue.isEmpty && s.eyes.get h.config.eye then u.setHeadArrived d else u := by
    unfold State.appendTo
    rw [hh]
    dsimp only
    rw [updSeg_of hh]
    have : (s.putSeg d (some
        { h with queue := h.queue ++ [e], window := if h.queue.isEmpty then .closed else h.window })).eyeBlocked d =
        s.eyes.get h.config.eye := by
      unfold State.eyeBlocked
      rw [seg_putSeg_self]
      rfl
    rw [this]
  rw [ha]
  refine ⟨fun hq hb => ?_, fun hq => ?_⟩
  · simp only [Bool.false_eq_true, if_false, hq, hb, List.isEmpty_nil, Bool.and_self, if_true, List.nil_append]
    rw [setHeadArrived_put (e := e) (x := x) (seg_putSeg_self _ _ _) rfl hx]
    exact arrived_report
  · dsimp only
    rw [if_neg]
    rcases hq with hq | hq
    · simp [hq]
    · simp [hq]

/-- Everything that placement at the tail does (R13, R63, R72). -/
theorem placeAtTail_joins {s : State} {n : SegNo} {g : Segment} {e : EntryNo} {x : Entry} (hg : s.seg? n = some g)
    (hx : s.entry? e = some x) (prior : Option RackState) :
    let y := x.place n g.config.kind g.config.storeKind prior false s.params.rewashLimit s.seconds
    JoinsTail true (s.putEntry e (some y)) (s.placeAtTail e n prior) n g e y := by
  intro y
  have hp : (s.updSeg n fun g => { g with queue := g.queue ++ [e] }).placeEntry e n prior false =
      (s.putEntry e (some y)).putSeg n (some { g with queue := g.queue ++ [e] }) := by
    rw [updSeg_of hg, placeEntry_eq (seg_putSeg_self _ _ _)]
    exact updEntry_of (s := s.putSeg n (some { g with queue := g.queue ++ [e] })) hx _
  unfold State.placeAtTail
  rw [hg]
  dsimp only
  rw [hp]
  generalize hs' : s.putEntry e (some y) = s'
  have he : s'.eyes = s.eyes := by rw [← hs']; rfl
  have hy : s'.entry? e = some y := by rw [← hs', entry_putEntry_self]
  have hc : (s'.putSeg n (some { g with queue := g.queue ++ [e] })).closeWindow n =
      s'.putSeg n (some { g with queue := g.queue ++ [e], window := .closed }) := by
    unfold State.closeWindow
    rw [updSeg_of (seg_putSeg_self _ _ _), putSeg_putSeg]
  have hb : ∀ k : Segment, k.config = g.config →
      (s'.putSeg n (some k)).eyeBlocked n = s'.eyes.get g.config.eye := by
    intro k hk
    unfold State.eyeBlocked
    rw [seg_putSeg_self]
    show s'.eyes.get k.config.eye = _
    rw [hk]
  rw [hc]
  refine ⟨fun hq hbl => ?_, fun hq => ?_⟩
  · have hbl' : s'.eyes.get g.config.eye = true := hbl
    have hr := arrived_report (s := s'.putSeg n (some
        { g with
          queue := [e], window := .closed
          stranger := g.stranger.map fun r => { r with vouched := some e } })) (n := n) (g :=
        { g with
          queue := [e], window := .closed
          stranger := g.stranger.map fun r => { r with vouched := some e } }) (e := e) (x := y)
    rw [putSeg_putSeg] at hr
    simp only [if_true, hq, List.isEmpty_nil, List.nil_append]
    rw [hb { g with queue := [e], window := .closed } rfl, if_pos hbl',
      setHeadArrived_put (e := e) (x := y) (seg_putSeg_self _ _ _) rfl hy, putSeg_putSeg,
      updSeg_of (g := { g with queue := [e], headArrived := true, unresolved := false, window := .closed }),
      reportHead_putSeg, putSeg_putSeg]
    · have hw : (if g.config.reader.isSome && (s'.putSeg n (some
          { g with
            queue := [e], window := .closed
            stranger := g.stranger.map fun r => { r with vouched := some e } })).mode != .configure && !y.placed
          then Window.head Config.windowRounds e (s'.putSeg n (some
          { g with
            queue := [e], window := .closed
            stranger := g.stranger.map fun r => { r with vouched := some e } })).round?.isSome else .closed) = .closed := by
        rw [if_neg (by simp [y, Entry.place])]
      simp only [hw] at hr
      exact hr
    · rw [State.reportHead, raiseIf_seg, raiseIf_seg, seg_putSeg_self]
      simp [y, Entry.place]
  · rcases hq with hq | hq
    · rw [if_neg (by simpa using hq)]
      simp [hq]
    · have hq' : s'.eyes.get g.config.eye = false := hq
      rw [hb { g with queue := g.queue ++ [e], window := .closed } rfl, hq']
      simp only [Bool.false_eq_true, if_false]
      cases g.queue <;> rfl

/-- What becomes of a blocking held unresolved (R32), over the segment it stands in. -/
theorem resolveBlocking_eq {s : State} {n : SegNo} {g : Segment} (hg : s.seg? n = some g) :
    s.resolveBlocking n =
      if g.unresolved && g.queue.isEmpty && s.eyes.get g.config.eye && !s.inbound n then
        (s.putSeg n (some { g with unresolved := false })).untrackedArrival n
      else s := by
  have he : s.eyeBlocked n = s.eyes.get g.config.eye := by
    unfold State.eyeBlocked
    rw [hg]
  unfold State.resolveBlocking
  rw [hg]
  dsimp only
  rw [he, updSeg_of hg]

/-! ### Removal behind a CLOSED gate, and the end of a transfer -/

/-- The end of a transfer toward the tunnel: the gate closes, nothing else. -/
theorem endTransfer_tunnel {s : State} {n : SegNo} {g : Segment} {r : Transfer} (hg : s.seg? n = some g)
    (hr : g.transfer = some r) (hd : r.dest = .tunnel) :
    s.endTransfer n = s.putSeg n (some { g with transfer := none }) := by
  unfold State.endTransfer
  rw [hg]
  simp only [Option.bind_some, hr, hd]
  rw [updSeg_of hg]

/-- The end of a transfer toward another segment (R12, R30, R32, R47): the gate closes, its reservation is released unless it is
a carried one, and a blocking that waited there is resolved. -/
theorem endTransfer_segment {s : State} {n d : SegNo} {g k : Segment} {r : Transfer} (hg : s.seg? n = some g)
    (hr : g.transfer = some r) (hd : r.dest = .segment d) (hne : n ≠ d) (hk : s.seg? d = some k) :
    s.endTransfer n = ((s.putSeg n (some { g with transfer := none })).putSeg d (some
      { k with reservedTransfer := if r.carried then k.reservedTransfer else k.reservedTransfer - 1 })).resolveBlocking d := by
  unfold State.endTransfer
  rw [hg]
  simp only [Option.bind_some, hr, hd]
  rw [updSeg_of hg, updSeg_of (g := k) (by rw [seg_putSeg, if_neg hne, hk])]

/-- Removal of the head at a CLOSED gate (R12, R72), and of an entry behind the head (R12). -/
theorem removeFromSegment_closed {s : State} {n : SegNo} {g : Segment} {e : EntryNo} (hg : s.seg? n = some g)
    (hc : g.queue.head? = some e → g.transfer = none) :
    s.removeFromSegment n e = s.putSeg n (some
      (if g.queue.head? = some e then
        { g with
          queue := g.queue.erase e, headArrived := false, window := .closed
          stranger := g.stranger.map fun r => { r with vouched := none } }
       else { g with queue := g.queue.erase e })) := by
  unfold State.removeFromSegment
  rw [hg]
  dsimp only
  rw [updSeg_of hg, updSeg_of hg]
  split
  · rename_i hh
    unfold State.endTransfer
    rw [seg_putSeg_self]
    have : ((some { g.unvouch with queue := g.queue.erase e, headArrived := false, window := .closed }).bind
        (·.transfer)) = none := hc hh
    rw [this]
    rfl
  · rfl

/-- Removal of the head at an OPEN gate toward another segment (R12): its transfer is abandoned. -/
theorem removeFromSegment_open {s : State} {n d : SegNo} {g k : Segment} {e : EntryNo} {r : Transfer}
    (hg : s.seg? n = some g) (hh : g.queue.head? = some e) (hr : g.transfer = some r) (hd : r.dest = .segment d) (hne : n ≠ d)
    (hk : s.seg? d = some k) :
    s.removeFromSegment n e = ((s.putSeg n (some
        { g with
          queue := g.queue.erase e, headArrived := false, window := .closed, transfer := none
          stranger := g.stranger.map fun r => { r with vouched := none } })).putSeg d (some
        { k with reservedTransfer := if r.carried then k.reservedTransfer else k.reservedTransfer - 1 })).resolveBlocking d := by
  unfold State.removeFromSegment
  rw [hg]
  dsimp only
  rw [if_pos hh, updSeg_of hg]
  have hu := endTransfer_segment (s := s.putSeg n (some
      { g.unvouch with queue := g.queue.erase e, headArrived := false, window := .closed })) (seg_putSeg_self _ _ _)
    (show g.transfer = some r from hr) hd hne (show _ = some k by rw [seg_putSeg, if_neg hne, hk])
  rw [putSeg_putSeg] at hu
  exact hu

/-- An entry that no gate carries heads no OPEN gate (R20, R22). -/
theorem closed_of_inTransfer {s : State} {e : EntryNo} (h : s.inTransfer e = false) {n : SegNo} {g : Segment}
    (hg : s.seg? n = some g) (hh : g.queue.head? = some e) : g.transfer = none := by
  cases ht : g.transfer with
  | none => rfl
  | some r =>
    have : s.inTransfer e = true :=
      segsWhere_nonempty.2 ⟨n, g, hg, by simp [Segment.isOpen, ht, hh]⟩
    rw [h] at this
    cases this

end Sys2Proof.Machine
end

