-- ==== Sys2Proof/Laws/Assignments.lean ====
section
/-! SUPPORT. What the clearing of assignments can do (R41, R45, R178): one, and each of a list. -/

namespace Sys2Proof.Machine

/-- A segment but for its reservations and what its transfer carries. -/
def Segment.unreserved (g : Segment) : Segment :=
  { g with reservedTransfer := 0, reservedDispatch := 0, transfer := g.transfer.map fun r => { r with carried := false } }

/-- The segments differ in reservations alone. -/
def SameButReserved (s t : State) : Prop := ∀ n, (t.seg? n).map Segment.unreserved = (s.seg? n).map Segment.unreserved

theorem SameButReserved.trans {s t u : State} (h : SameButReserved s t) (k : SameButReserved t u) : SameButReserved s u :=
  fun n => (k n).trans (h n)

theorem sameButReserved_updSeg (s : State) (n : SegNo) (f : Segment → Segment) (h : ∀ g, (f g).unreserved = g.unreserved) :
    SameButReserved s (s.updSeg n f) := by
  intro m
  rw [seg_updSeg]
  split
  · cases s.seg? m with
    | none => rfl
    | some g => exact congrArg some (h g)
  · rfl

/-- What segments that differ in reservations alone share. -/
theorem unreserved_fields {g h : Segment} (k : h.unreserved = g.unreserved) : h.queue = g.queue ∧ h.config = g.config ∧
    h.transfer.isSome = g.transfer.isSome ∧ h.jammed = g.jammed ∧ h.heldBySupervisor = g.heldBySupervisor ∧
    h.stranger = g.stranger ∧ h.headArrived = g.headArrived ∧ h.window = g.window ∧ h.unresolved = g.unresolved ∧
    h.mergePointer = g.mergePointer := by
  unfold Segment.unreserved at k
  injection k with a b c d e f
  have := congrArg Option.isSome e
  simp only [Option.isSome_map] at this
  simp_all

theorem SameButReserved.fwd {s t : State} (h : SameButReserved s t) {n : SegNo} {g : Segment} (hg : s.seg? n = some g) :
    ∃ k, t.seg? n = some k ∧ k.unreserved = g.unreserved := by
  have := h n
  rw [hg] at this
  cases hk : t.seg? n with
  | none => simp [hk] at this
  | some k => rw [hk] at this; exact ⟨k, rfl, Option.some.inj this⟩

theorem SameButReserved.back {s t : State} (h : SameButReserved s t) {n : SegNo} {k : Segment} (hk : t.seg? n = some k) :
    ∃ g, s.seg? n = some g ∧ k.unreserved = g.unreserved := by
  have := h n
  rw [hk] at this
  cases hg : s.seg? n with
  | none => simp [hg] at this
  | some g => rw [hg] at this; exact ⟨g, rfl, Option.some.inj this⟩

/-- The park of a node depends on the configurations alone. -/
theorem parkOf_congr_config {s t : State}
    (h : ∀ m, (t.seg? m).map (·.config) = (s.seg? m).map (·.config)) (n : NodeNo) :
    t.parkOf n = s.parkOf n := by
  have : ∀ m, (t.seg? m).any (fun g => g.config.kind == .park && g.config.owner == some n) =
      (s.seg? m).any fun g => g.config.kind == .park && g.config.owner == some n := by
    intro m
    have := h m
    cases hs : s.seg? m <;> cases ht : t.seg? m <;> simp_all
  unfold State.parkOf State.findSeg State.segsWhere
  simp only [this]

theorem SameButReserved.parkOf {s t : State} (h : SameButReserved s t) (n : NodeNo) : t.parkOf n = s.parkOf n := by
  refine parkOf_congr_config (fun m => ?_) n
  cases hg : s.seg? m with
  | none =>
    cases hk : t.seg? m with
    | none => rfl
    | some k => obtain ⟨g, h1, _⟩ := h.back hk; rw [hg] at h1; cases h1
  | some g =>
    obtain ⟨k, h1, h2⟩ := h.fwd hg
    rw [h1]; simp only [Option.map_some, (unreserved_fields h2).2.1]

/-- R41, spelled out. -/
theorem waitsInStore_iff {s : State} {e : EntryNo} {x : Entry} (hx : s.entry? e = some x) :
    s.waitsInStore e = true ↔ StandsInStore s e x := by
  unfold State.waitsInStore StandsInStore
  simp only [hx]
  cases hl : x.location with
  | none => simp
  | some l =>
    cases l with
    | tunnel => simp
    | segment n =>
      simp only [Option.any_eq_true, Bool.and_eq_true, beq_iff_eq, Bool.not_eq_true', Segment.isOpen]
      have key : ∀ g : Segment, (g.transfer.isSome && g.queue.head? == some e) = false ↔
          ¬ (g.transfer ≠ none ∧ g.queue.head? = some e) := by
        intro g
        rw [← Bool.not_eq_true, Bool.and_eq_true, Option.isSome_iff_ne_none, beq_iff_eq]
      constructor
      · rintro ⟨g, hg, ⟨h1, h2⟩, h3⟩
        exact ⟨h2, n, g, rfl, hg, h1, (key g).1 h3⟩
      · rintro ⟨h2, n', g', h4, h5, h1, h3⟩
        cases h4
        exact ⟨g', h5, ⟨h1, h2⟩, (key g').2 h3⟩

theorem SameButReserved.standsInStore {s t : State} (h : SameButReserved s t) {e : EntryNo} {x : Entry} :
    StandsInStore t e x ↔ StandsInStore s e x := by
  unfold StandsInStore
  constructor
  · rintro ⟨h1, m, k, h2, h3, h4, h5⟩
    obtain ⟨g, g1, g2⟩ := h.back h3
    obtain ⟨q, c, tr, -⟩ := unreserved_fields g2
    refine ⟨h1, m, g, h2, g1, c ▸ h4, ?_⟩
    rwa [← Option.isSome_iff_ne_none, ← tr, ← q, Option.isSome_iff_ne_none]
  · rintro ⟨h1, m, g, h2, h3, h4, h5⟩
    obtain ⟨k, k1, k2⟩ := h.fwd h3
    obtain ⟨q, c, tr, -⟩ := unreserved_fields k2
    refine ⟨h1, m, k, h2, k1, c ▸ h4, ?_⟩
    rwa [← Option.isSome_iff_ne_none, tr, q, Option.isSome_iff_ne_none]

/-- Only the rack and segment tables differ. -/
def TablesOnly (s t : State) : Prop := t = { s with entries := t.entries, segments := t.segments }

theorem TablesOnly.refl (s : State) : TablesOnly s s := rfl

theorem TablesOnly.trans {s t u : State} (h : TablesOnly s t) (k : TablesOnly t u) : TablesOnly s u := by
  unfold TablesOnly at *
  rw [k, h]

/-- Without an assignment there is nothing to clear. -/
theorem cancelAssignment_none {s : State} {e : EntryNo} (h : (s.entry? e).bind (·.assignment) = none) : s.cancelAssignment e = s := by
  unfold State.cancelAssignment; rw [h]

theorem convertCarried_entry (s : State) (c : SegNo) (d : EntryNo) : (s.convertCarried c).entry? d = s.entry? d := by
  unfold State.convertCarried; split <;> rfl

/-- The clearing of an assignment, where there is one. -/
theorem cancelAssignment_eq {s : State} {e : EntryNo} {x : Entry} {n : NodeNo} (hx : s.entry? e = some x)
    (ha : x.assignment = some n) : s.cancelAssignment e =
      let u := match s.carrier e with
        | some c => (s.releaseAssignment e).convertCarried c
        | none => s.releaseAssignment e
      if s.waitsInStore e then u.updEntry e (·.withState .stored) else u := by
  have hb : (s.entry? e).bind (·.assignment) = some n := by rw [hx]; exact ha
  unfold State.cancelAssignment
  rewrite [hb]
  rfl

theorem withState_stored (x : Entry) : x.withState .stored = { x with state := .stored } := by
  cases hx : x.state <;> simp [Entry.withState, RackState.checked]

/-- The entry part of the clearing of an assignment. -/
theorem cancelAssignment_entry {s : State} {e : EntryNo} {x : Entry} {n : NodeNo} (hx : s.entry? e = some x)
    (ha : x.assignment = some n) (d : EntryNo) :
    (s.cancelAssignment e).entry? d = if e = d then
      some { x with assignment := none, state := if s.waitsInStore e then .stored else x.state } else s.entry? d := by
  have hr : ∀ d, (s.releaseAssignment e).entry? d = if e = d then some { x with assignment := none } else s.entry? d := by
    intro d
    rw [releaseAssignment_entry]
    split
    · rename_i h; subst h; rw [hx]; rfl
    · rfl
  rw [cancelAssignment_eq hx ha]
  have he : ∀ d, (match s.carrier e with
        | some c => (s.releaseAssignment e).convertCarried c
        | none => s.releaseAssignment e).entry? d = (s.releaseAssignment e).entry? d := by
    intro d; split
    · exact convertCarried_entry _ _ _
    · rfl
  dsimp only
  split
  · rw [entry_updEntry, he, hr]
    split
    · rw [Option.map_some, withState_stored]
    · rfl
  · rw [he, hr]

/-- Clearing an assignment releases the reservation of its park segment (R16). -/
theorem releaseAssignment_seg {s : State} {e : EntryNo} {x : Entry} (hx : s.entry? e = some x) (m : SegNo) :
    (s.releaseAssignment e).seg? m = (s.seg? m).map fun g => { g with reservedDispatch :=
      (if x.assignment.bind s.parkOf = some m then g.reservedDispatch - 1 else g.reservedDispatch) } := by
  unfold State.releaseAssignment
  rw [hx]
  cases ha : x.assignment with
  | none => simp [ha]
  | some n =>
    simp only [Option.bind_some, ha]
    have hp : (s.updEntry e fun x => { x with assignment := none }).parkOf n = s.parkOf n := rfl
    rw [hp]
    have h0 : (s.updEntry e fun x => { x with assignment := none }).seg? m = s.seg? m := rfl
    split
    · rename_i p hpp
      simp only [hpp]
      rw [seg_updSeg, h0]
      by_cases h : p = m
      · simp [h]
      · simp [h]
    · rename_i hpp; simp [hpp, h0]

theorem releaseAssignment_reserved (s : State) (e : EntryNo) : SameButReserved s (s.releaseAssignment e) := by
  unfold State.releaseAssignment
  split
  · intro n; rfl
  · dsimp only
    split
    · exact sameButReserved_updSeg (s.updEntry e fun x => { x with assignment := none }) _ _ fun _ => rfl
    · intro n; rfl

theorem convertCarried_reserved (s : State) (c : SegNo) : SameButReserved s (s.convertCarried c) := by
  unfold State.convertCarried
  split
  · refine (sameButReserved_updSeg _ _ _ ?_).trans (sameButReserved_updSeg _ _ _ fun _ => rfl)
    intro g
    unfold Segment.unreserved
    cases g.transfer <;> rfl
  · intro n; rfl

/-- The clearing changes segments in their reservations alone. -/
theorem cancelAssignment_reserved (s : State) (e : EntryNo) : SameButReserved s (s.cancelAssignment e) := by
  unfold State.cancelAssignment
  split
  · intro n; rfl
  dsimp only
  have h := releaseAssignment_reserved s e
  have K : ∀ u : State, SameButReserved s u → SameButReserved s (if s.waitsInStore e = true then u.updEntry e (·.withState .stored) else u) := by
    intro u hu; split
    · exact hu
    · exact hu
  apply K
  split
  · exact h.trans (convertCarried_reserved _ _)
  · exact h

/-- The clearing touches the rack and the segment tables alone. -/
theorem tablesOnly_cancel (s : State) (e : EntryNo) : TablesOnly s (s.cancelAssignment e) := by
  have hr : TablesOnly s (s.releaseAssignment e) := by
    unfold State.releaseAssignment
    split
    · rfl
    · dsimp only; split <;> rfl
  have hc : ∀ (u : State) c, TablesOnly u (u.convertCarried c) := by
    intro u c; unfold State.convertCarried; split <;> rfl
  unfold State.cancelAssignment
  split
  · rfl
  dsimp only
  have K : ∀ u : State, TablesOnly s u → TablesOnly s (if s.waitsInStore e = true then u.updEntry e (·.withState .stored) else u) := by
    intro u hu; split
    · exact hu.trans rfl
    · exact hu
  apply K
  split
  · exact hr.trans (hc _ _)
  · exact hr

/-- The segment part: the dispatch reservation of the node's park, and no more where no transfer carries it. -/
theorem cancelAssignment_dispatch {s : State} {e : EntryNo} {x : Entry} {n : NodeNo} (hx : s.entry? e = some x)
    (ha : x.assignment = some n) {p : SegNo} {g : Segment} (hg : s.seg? p = some g) :
    ∃ h, (s.cancelAssignment e).seg? p = some h ∧
      h.reservedDispatch = (if s.parkOf n = some p then g.reservedDispatch - 1 else g.reservedDispatch) ∧
      (s.carrier e = none → h = { g with reservedDispatch := h.reservedDispatch }) := by
  have hb : (s.entry? e).bind (·.assignment) = some n := by rw [hx]; exact ha
  have h1 : (s.releaseAssignment e).seg? p = some { g with reservedDispatch := if s.parkOf n = some p then g.reservedDispatch - 1 else g.reservedDispatch } := by
    unfold State.releaseAssignment
    rw [hb]; dsimp only
    have hp : (s.updEntry e fun x => { x with assignment := none }).parkOf n = s.parkOf n := rfl
    rw [hp]
    have h0 : (s.updEntry e fun x => { x with assignment := none }).seg? p = some g := hg
    split
    · rename_i q hq
      rw [seg_updSeg, h0, hq]
      by_cases hqp : q = p
      · simp [hqp]
      · simp [hqp]
    · rename_i hq; rw [h0, hq]; simp
  rw [cancelAssignment_eq hx ha]; dsimp only
  have K : ∀ u : State, (if s.waitsInStore e = true then u.updEntry e (·.withState .stored) else u).seg? p = u.seg? p := by
    intro u; split <;> rfl
  rw [K]
  cases hc : s.carrier e with
  | none => exact ⟨_, h1, rfl, fun _ => rfl⟩
  | some c =>
    dsimp only
    unfold State.convertCarried
    split
    · rw [seg_updSeg, seg_updSeg, h1]
      repeat' split
      all_goals exact ⟨_, rfl, rfl, fun h => by cases h⟩
    · exact ⟨_, h1, rfl, fun h => by cases h⟩

/-- Where no gate is OPEN no transfer carries a reservation. -/
theorem carrier_none {s : State} {e : EntryNo} (h : s.anyOpen = false) : s.carrier e = none := by
  unfold State.carrier
  cases hc : s.findSeg fun g => g.transfer.any (·.carried) && g.queue.head? == some e with
  | none => rfl
  | some c =>
    obtain ⟨g, h1, h2⟩ := findSeg_spec hc
    have := anyOpen_false h h1
    rw [this] at h2
    simp at h2

theorem SameButReserved.anyOpen {s t : State} (h : SameButReserved s t) (ho : s.anyOpen = false) : t.anyOpen = false := by
  cases ht : t.anyOpen with
  | false => rfl
  | true =>
    unfold State.anyOpen at ht
    obtain ⟨n, g, h1, h2⟩ := segsWhere_nonempty.1 ht
    obtain ⟨k, k1, k2⟩ := h.back h1
    have := (unreserved_fields k2).2.2.1
    unfold Segment.isOpen at h2
    rw [h2, anyOpen_false ho k1] at this
    cases this

/-- The record that is left is the one R41 and R178 give. -/
theorem cancelled_of {s : State} {e : EntryNo} {x : Entry} (hx : s.entry? e = some x) :
    Cancelled s e x { x with assignment := none, state := if s.waitsInStore e then .stored else x.state } := by
  refine ⟨?_, ?_⟩
  · intro h; rw [if_pos ((waitsInStore_iff hx).2 h)]
  · intro h; rw [if_neg (fun k => h ((waitsInStore_iff hx).1 k))]

/-- What the clearing of the assignments of a list of entries leaves. -/
theorem cancelEach (l : List EntryNo) (hn : l.Nodup) : ∀ s : State, (∀ e ∈ l, ∃ x n, s.entry? e = some x ∧ x.assignment = some n) →
    let t := s.forEach State.cancelAssignment l
    (∀ e, e ∉ l → t.entry? e = s.entry? e) ∧
    (∀ e x, e ∈ l → s.entry? e = some x → ∃ y, t.entry? e = some y ∧ Cancelled s e x y) ∧
    SameButReserved s t ∧ TablesOnly s t ∧
    (∀ p g, s.seg? p = some g → ∃ h, t.seg? p = some h ∧
      h.reservedDispatch = g.reservedDispatch - (l.filter fun e => (s.entry? e).any fun y => y.assignment.any fun n => s.parkOf n == some p).length ∧
      (s.anyOpen = false → h = { g with reservedDispatch := h.reservedDispatch })) := by
  induction l with
  | nil =>
    intro s _
    exact ⟨fun _ _ => rfl, (by intro e x h; cases h), fun _ => rfl, rfl, fun p g hg => ⟨g, hg, rfl, fun _ => rfl⟩⟩
  | cons a l ih =>
    intro s hs
    rw [List.nodup_cons] at hn
    obtain ⟨xa, na, hxa, haa⟩ := hs a List.mem_cons_self
    have hent := cancelAssignment_entry hxa haa
    have hsame := cancelAssignment_reserved s a
    have hne : ∀ e ∈ l, a ≠ e := fun e he h => hn.1 (h ▸ he)
    obtain ⟨i1, i2, i3, i4, i5⟩ := ih hn.2 (s.cancelAssignment a) (by
      intro e he
      obtain ⟨x, n, h1, h2⟩ := hs e (List.mem_cons_of_mem _ he)
      exact ⟨x, n, by rw [hent, if_neg (hne e he), h1], h2⟩)
    have hfe : s.forEach State.cancelAssignment (a :: l) = (s.cancelAssignment a).forEach State.cancelAssignment l := rfl
    dsimp only
    rw [hfe]
    refine ⟨?_, ?_, hsame.trans i3, (tablesOnly_cancel s a).trans i4, ?_⟩
    · intro e he
      rw [i1 e (fun h => he (List.mem_cons_of_mem _ h)), hent, if_neg (by rintro rfl; exact he List.mem_cons_self)]
    · intro e x he hx
      by_cases hae : a = e
      · subst hae
        rw [hxa] at hx; cases hx
        rw [i1 a hn.1, hent, if_pos rfl]
        exact ⟨_, rfl, cancelled_of hxa⟩
      · have hel : e ∈ l := by
          cases he with
          | head => exact absurd rfl hae
          | tail _ h => exact h
        obtain ⟨y, y1, y2, y3⟩ := i2 e x hel (by rw [hent, if_neg hae, hx])
        exact ⟨y, y1, fun h => y2 (hsame.standsInStore.2 h), fun h => y3 (fun k => h (hsame.standsInStore.1 k))⟩
    · intro p g hg
      obtain ⟨h, h1, h2, h3⟩ := cancelAssignment_dispatch hxa haa hg
      obtain ⟨h', k1, k2, k3⟩ := i5 p h h1
      refine ⟨h', k1, ?_, ?_⟩
      · have hfil : (l.filter fun e => ((s.cancelAssignment a).entry? e).any fun y => y.assignment.any fun n => (s.cancelAssignment a).parkOf n == some p) =
            (l.filter fun e => (s.entry? e).any fun y => y.assignment.any fun n => s.parkOf n == some p) := by
          apply List.filter_congr
          intro e he
          rw [hent, if_neg (hne e he)]
          simp only [hsame.parkOf]
        rw [k2, hfil, h2, List.filter_cons]
        rw [hxa]
        simp only [Option.any_some, haa, beq_iff_eq]
        by_cases hp : s.parkOf na = some p
        · simp only [hp, if_true, List.length_cons]; omega
        · simp only [hp, if_false]
      · intro ho
        have e1 := h3 (carrier_none ho)
        have e2 := k3 (hsame.anyOpen ho)
        rw [e2, e1]

/-! ### Every assignment -/

theorem entriesWhere_mem {s : State} {p : Entry → Bool} {e : EntryNo} : e ∈ s.entriesWhere p ↔ ∃ x, s.entry? e = some x ∧ p x = true := by
  simp [State.entriesWhere, Option.any_eq_true]

theorem entriesWhere_nodup (s : State) (p : Entry → Bool) : (s.entriesWhere p).Nodup := (List.nodup_finRange 128).filter _

/-- Everything the clearing of every assignment does (R178). -/
theorem cancelAll_spec (s : State) :
    let t := s.cancelAll
    (∀ e, s.entry? e = none → t.entry? e = none) ∧
    (∀ e x, s.entry? e = some x → x.assignment = none → t.entry? e = some x) ∧
    (∀ e x, s.entry? e = some x → x.assignment ≠ none → ∃ y, t.entry? e = some y ∧ Cancelled s e x y) ∧
    SameButReserved s t ∧ TablesOnly s t ∧
    (∀ p g, s.seg? p = some g → ∃ h, t.seg? p = some h ∧ ParkReleased s p g h (fun _ => true) ∧
      (s.anyOpen = false → h = { g with reservedDispatch := h.reservedDispatch })) := by
  have hm : ∀ e ∈ s.entriesWhere (fun x => x.assignment.isSome), ∃ x n, s.entry? e = some x ∧ x.assignment = some n := by
    intro e he
    obtain ⟨x, h1, h2⟩ := entriesWhere_mem.1 he
    obtain ⟨n, h3⟩ := Option.isSome_iff_exists.1 h2
    exact ⟨x, n, h1, h3⟩
  obtain ⟨c1, c2, c3, c4, c5⟩ := cancelEach _ (entriesWhere_nodup s _) s hm
  refine ⟨?_, ?_, ?_, c3, c4, ?_⟩
  · intro e he
    rw [State.cancelAll, c1 e, he]
    intro h; obtain ⟨x, h1, _⟩ := entriesWhere_mem.1 h; rw [he] at h1; cases h1
  · intro e x hx ha
    rw [State.cancelAll, c1 e, hx]
    intro h; obtain ⟨y, h1, h2⟩ := entriesWhere_mem.1 h; rw [hx] at h1; cases h1; rw [ha] at h2; cases h2
  · intro e x hx ha
    exact c2 e x (entriesWhere_mem.2 ⟨x, hx, Option.isSome_iff_ne_none.2 ha⟩) hx
  · intro p g hg
    obtain ⟨h, h1, h2, h3⟩ := c5 p g hg
    refine ⟨h, h1, ?_, h3⟩
    unfold ParkReleased
    rw [h2]
    congr 2
    unfold State.entriesWhere
    rw [List.filter_filter]
    apply List.filter_congr
    intro e _
    cases hx : s.entry? e with
    | none => rfl
    | some x =>
      simp only [Option.any_some, Bool.true_and]
      cases x.assignment <;> simp

theorem cancelled_congr {s t : State} (h : SameButReserved s t) {e x y} : Cancelled t e x y ↔ Cancelled s e x y := by
  unfold Cancelled; rw [h.standsInStore]

/-- What these conditions say depends on the two tables alone. -/
theorem parkReleased_congr {s t : State} (he : t.entries = s.entries) (hs : t.segments = s.segments) {p g h f} : ParkReleased t p g h f ↔ ParkReleased s p g h f := by
  unfold ParkReleased State.entry? State.parkOf State.findSeg State.segsWhere State.seg?
  rw [he, hs]

theorem cancelled_congr2 {s t : State} (hs : t.segments = s.segments) {e x y} : Cancelled t e x y ↔ Cancelled s e x y := by
  unfold Cancelled StandsInStore State.seg?
  rw [hs]

/-- The rack and the segment tables are the same. -/
def SameTables (s t : State) : Prop := t.entries = s.entries ∧ t.segments = s.segments

theorem SameTables.updEntry {s t : State} (h : SameTables s t) (e : EntryNo) (f : Entry → Entry) :
    SameTables (s.updEntry e f) (t.updEntry e f) := by
  unfold SameTables State.updEntry State.putEntry State.entry? at *
  exact ⟨by simp only [h.1], h.2⟩

theorem SameTables.updSeg {s t : State} (h : SameTables s t) (n : SegNo) (f : Segment → Segment) :
    SameTables (s.updSeg n f) (t.updSeg n f) := by
  unfold SameTables State.updSeg State.putSeg State.seg? at *
  exact ⟨h.1, by simp only [h.2]⟩

theorem SameTables.reads {s t : State} (h : SameTables s t) : (∀ e, t.entry? e = s.entry? e) ∧
    (∀ n, t.seg? n = s.seg? n) ∧ (∀ n, t.parkOf n = s.parkOf n) ∧ (∀ e, t.carrier e = s.carrier e) ∧
    (∀ e, t.waitsInStore e = s.waitsInStore e) := by
  have he := entry_of_entries h.1
  have hs := seg_of_segments h.2
  refine ⟨he, hs, ?_, ?_, ?_⟩
  · intro n; unfold State.parkOf State.findSeg State.segsWhere; simp only [hs]
  · intro e; unfold State.carrier State.findSeg State.segsWhere; simp only [hs]
  · intro e; unfold State.waitsInStore; simp only [he, hs]

theorem SameTables.releaseAssignment {s t : State} (h : SameTables s t) (e : EntryNo) :
    SameTables (s.releaseAssignment e) (t.releaseAssignment e) := by
  obtain ⟨h1, -, h3, -⟩ := h.reads
  have hp : ∀ (u : State) f n, (u.updEntry e f).parkOf n = u.parkOf n := fun _ _ _ => rfl
  unfold State.releaseAssignment
  rw [h1]
  split
  · exact h
  · simp only [hp, h3]
    split
    · exact (h.updEntry e _).updSeg _ _
    · exact h.updEntry e _

theorem SameTables.convertCarried {s t : State} (h : SameTables s t) (c : SegNo) :
    SameTables (s.convertCarried c) (t.convertCarried c) := by
  unfold State.convertCarried
  rw [h.reads.2.1]
  split
  · exact (h.updSeg _ _).updSeg _ _
  · exact h

/-- What the clearing of an assignment does to the two tables depends on them alone. -/
theorem SameTables.cancelAssignment {s t : State} (h : SameTables s t) (e : EntryNo) :
    SameTables (s.cancelAssignment e) (t.cancelAssignment e) := by
  obtain ⟨h1, -, -, h4, h5⟩ := h.reads
  unfold State.cancelAssignment
  rw [h1]
  split
  · exact h
  · dsimp only
    rw [h4, h5]
    have hr := h.releaseAssignment e
    repeat' split
    all_goals first
      | exact (hr.convertCarried _).updEntry e _
      | exact hr.convertCarried _
      | exact hr.updEntry e _
      | exact hr

theorem SameTables.cancelEach (l : List EntryNo) {s t : State} (h : SameTables s t) :
    SameTables (s.forEach State.cancelAssignment l) (t.forEach State.cancelAssignment l) := by
  induction l generalizing s t with
  | nil => exact h
  | cons a l ih => exact ih (h.cancelAssignment a)

/-- A claim that meets the condition is dropped, the state CLEARED again (R7); no other entry changes. -/
theorem dropClaims_entry (s : State) (p : NodeNo → Bool) (e : EntryNo) :
    (s.dropClaims p).entry? e = (s.entry? e).map fun x => if x.claim.any p then x.unclaim else x := by
  have each : ∀ l : List EntryNo, l.Nodup → ∀ u : State,
      (u.forEach (fun s e => s.updEntry e Entry.unclaim) l).entry? e =
        if e ∈ l then (u.entry? e).map Entry.unclaim else u.entry? e := by
    intro l
    induction l with
    | nil => intro _ u; simp [State.forEach]
    | cons a l ih =>
      intro hn u
      rw [List.nodup_cons] at hn
      have hf : u.forEach (fun s e => s.updEntry e Entry.unclaim) (a :: l) =
          (u.updEntry a Entry.unclaim).forEach (fun s e => s.updEntry e Entry.unclaim) l := rfl
      rw [hf, ih hn.2, entry_updEntry]
      by_cases h : a = e
      · subst h
        simp [hn.1]
      · simp [h, Ne.symm h]
  unfold State.dropClaims
  rw [each _ (entriesWhere_nodup s _)]
  cases hx : s.entry? e with
  | none => split <;> rfl
  | some x =>
    by_cases hc : x.claim.any p = true
    · rw [if_pos (entriesWhere_mem.2 ⟨x, hx, hc⟩)]
      simp [hc]
    · rw [if_neg fun h => by
        obtain ⟨y, h1, h2⟩ := entriesWhere_mem.1 h
        rw [hx] at h1
        cases h1
        exact hc h2]
      simp [hc]

/-- Dropping claims touches the rack table alone. -/
theorem dropClaims_rest (s : State) (p : NodeNo → Bool) :
    s.dropClaims p = { s with entries := (s.dropClaims p).entries } := by
  unfold State.dropClaims
  generalize s.entriesWhere _ = l
  induction l generalizing s with
  | nil => rfl
  | cons a l ih => exact ih (s.updEntry a Entry.unclaim)

/-! ### Windows closed together -/

theorem closeAll_seg (l : List SegNo) : ∀ (s : State) (n : SegNo),
    (s.forEach State.closeWindow l).seg? n = if n ∈ l then (s.seg? n).map (fun g => { g with window := .closed }) else s.seg? n := by
  induction l with
  | nil => intro s n; simp [State.forEach]
  | cons a l ih =>
    intro s n
    have : s.forEach State.closeWindow (a :: l) = (s.closeWindow a).forEach State.closeWindow l := rfl
    rw [this, ih]
    unfold State.closeWindow
    rw [seg_updSeg]
    by_cases h : a = n
    · subst h
      by_cases h2 : a ∈ l <;> simp [h2, Option.map_map, Function.comp_def]
    · by_cases h2 : n ∈ l <;> simp [h, Ne.symm h, h2]

theorem closeAll_rest (l : List SegNo) : ∀ s : State, s.forEach State.closeWindow l = { s with segments := (s.forEach State.closeWindow l).segments } := by
  induction l with
  | nil => intro s; rfl
  | cons a l ih => intro s; exact ih (s.closeWindow a)

theorem closeAll_entries (l : List SegNo) (s : State) : (s.forEach State.closeWindow l).entries = s.entries :=
  by have h := congrArg State.entries (closeAll_rest l s); exact h

theorem closeAll_link (l : List SegNo) (s : State) : (s.forEach State.closeWindow l).link = s.link :=
  by have h := congrArg State.link (closeAll_rest l s); exact h

end Sys2Proof.Machine
end

