-- ==== Sys2Proof/Laws/Commands.lean ====
section
/-! SUPPORT. One lemma for each way a command ends, so that a statement about a command cites it in place of unfolding:
`takes_of`, `takesAlone_of`, `tells_of`, `tellsBad_of` for the port, `happens_of` for events, `stationTakes_of` and
`stationTells_of` for stations. -/

namespace Sys2Proof.Machine

/-! ### A request taken changes the port and the idle timer alone -/

theorem taken_eq (s : State) (c : Instr) : ∃ p i, s.taken c = { s with port := p, idle := i } := by
  unfold State.taken State.touchIdle State.beginTransaction
  split
  · exact ⟨_, _, rfl⟩
  · exact ⟨_, _, rfl⟩

theorem requested_eq (s : State) (n : NodeNo) (q : RackRequest) : ∃ t i, s.requested n q =
    { s with nodes := t, idle := i } ∧ t = (s.updNode n fun x => { x with request := some q }).nodes := by
  unfold State.requested State.touchIdle
  split
  · exact ⟨_, _, rfl, rfl⟩
  · exact ⟨_, _, rfl, rfl⟩

@[simp] theorem taken_entry (s : State) (c : Instr) (e : EntryNo) : (s.taken c).entry? e = s.entry? e := by
  obtain ⟨p, i, h⟩ := taken_eq s c
  rw [h]
  rfl

@[simp] theorem taken_seg (s : State) (c : Instr) (n : SegNo) : (s.taken c).seg? n = s.seg? n := by
  obtain ⟨p, i, h⟩ := taken_eq s c
  rw [h]
  rfl

@[simp] theorem taken_node (s : State) (c : Instr) (n : NodeNo) : (s.taken c).node? n = s.node? n := by
  obtain ⟨p, i, h⟩ := taken_eq s c
  rw [h]
  rfl

@[simp] theorem taken_find (s : State) (c : Instr) (t : Tag) : (s.taken c).find t = s.find t := by
  obtain ⟨p, i, h⟩ := taken_eq s c
  rw [h]
  rfl

@[simp] theorem taken_mode (s : State) (c : Instr) : (s.taken c).mode = s.mode := by
  obtain ⟨p, i, h⟩ := taken_eq s c
  rw [h]

@[simp] theorem taken_freeList (s : State) (c : Instr) : (s.taken c).freeList = s.freeList := by
  obtain ⟨p, i, h⟩ := taken_eq s c
  rw [h]

@[simp] theorem taken_params (s : State) (c : Instr) : (s.taken c).params = s.params := by
  obtain ⟨p, i, h⟩ := taken_eq s c
  rw [h]

@[simp] theorem taken_tunnel (s : State) (c : Instr) : (s.taken c).tunnel = s.tunnel := by
  obtain ⟨p, i, h⟩ := taken_eq s c
  rw [h]

@[simp] theorem taken_link (s : State) (c : Instr) : (s.taken c).link = s.link := by
  obtain ⟨p, i, h⟩ := taken_eq s c
  rw [h]

@[simp] theorem taken_stopLatch (s : State) (c : Instr) : (s.taken c).stopLatch = s.stopLatch := by
  obtain ⟨p, i, h⟩ := taken_eq s c
  rw [h]

@[simp] theorem taken_seconds (s : State) (c : Instr) : (s.taken c).seconds = s.seconds := by
  obtain ⟨p, i, h⟩ := taken_eq s c
  rw [h]

@[simp] theorem requested_entry (s : State) (n : NodeNo) (q : RackRequest) (e : EntryNo) :
    (s.requested n q).entry? e = s.entry? e := by
  obtain ⟨t, i, h, _⟩ := requested_eq s n q
  rw [h]
  rfl

@[simp] theorem requested_seg (s : State) (n : NodeNo) (q : RackRequest) (m : SegNo) :
    (s.requested n q).seg? m = s.seg? m := by
  obtain ⟨t, i, h, _⟩ := requested_eq s n q
  rw [h]
  rfl

@[simp] theorem requested_find (s : State) (n : NodeNo) (q : RackRequest) (t : Tag) :
    (s.requested n q).find t = s.find t := by
  obtain ⟨_, i, h, _⟩ := requested_eq s n q
  rw [h]
  rfl

@[simp] theorem requested_mode (s : State) (n : NodeNo) (q : RackRequest) : (s.requested n q).mode = s.mode := by
  obtain ⟨_, i, h, _⟩ := requested_eq s n q
  rw [h]

@[simp] theorem requested_params (s : State) (n : NodeNo) (q : RackRequest) : (s.requested n q).params = s.params := by
  obtain ⟨_, i, h, _⟩ := requested_eq s n q
  rw [h]

@[simp] theorem requested_stopLatch (s : State) (n : NodeNo) (q : RackRequest) :
    (s.requested n q).stopLatch = s.stopLatch := by
  obtain ⟨_, i, h, _⟩ := requested_eq s n q
  rw [h]

@[simp] theorem requested_safeStop (s : State) (n : NodeNo) (q : RackRequest) :
    (s.requested n q).safeStop = s.safeStop := by
  obtain ⟨_, i, h, _⟩ := requested_eq s n q
  rw [h]

/-- A summary is read off entries, segments and the tunnel alone. -/
theorem summary_congr {s t : State} (he : t.entries = s.entries) (hs : t.segments = s.segments)
    (ht : t.tunnel = s.tunnel) (e : Option EntryNo) : t.summary? e = s.summary? e := by
  have hz : ∀ x, t.zoneOf x = s.zoneOf x := by
    intro x
    simp only [State.zoneOf, State.position, ht]
  have hp : ∀ e x, t.summaryPlace e x = s.summaryPlace e x := by
    intro e x
    simp only [State.summaryPlace, hz, seg_of_segments hs]
  have h1 : ∀ e, t.summary e = s.summary e := by
    intro e
    funext x
    unfold State.summary
    rw [hp]
  cases e with
  | none => simp only [State.summary?, Option.bind_none]
  | some e =>
    simp only [State.summary?, Option.bind_some, entry_of_entries he]
    rw [h1]

theorem taken_summary (s : State) (c : Instr) (e : Option EntryNo) : (s.taken c).summary? e = s.summary? e := by
  obtain ⟨p, i, h⟩ := taken_eq s c
  rw [h]
  exact summary_congr rfl rfl rfl e

theorem taken_summaryBytes (s : State) (c : Instr) (e : Option EntryNo) :
    (s.taken c).summaryBytes e = s.summaryBytes e := by
  simp only [State.summaryBytes, taken_summary]

theorem requested_summary (s : State) (n : NodeNo) (q : RackRequest) (e : Option EntryNo) :
    (s.requested n q).summary? e = s.summary? e := by
  obtain ⟨_, i, h, _⟩ := requested_eq s n q
  rw [h]
  exact summary_congr rfl rfl rfl e

theorem refreshOutputs_summary (s : State) (e : Option EntryNo) : s.refreshOutputs.summary? e = s.summary? e :=
  summary_congr (refreshOutputs_entries s) (refreshOutputs_segments s) (refreshOutputs_tunnel s) e

/-! ### The port -/

theorem takes_of {c : Instr} {act : State → Taken} {s s' : State} {body : State → List Byte}
    (he : exec c s = portDo c act s) (hp : s.port.turnaround = false) (ha : act (s.taken c) = .did s' body)
    (hs : s'.port = (s.taken c).port) : Takes c s s' body := by
  unfold Takes
  rw [he]
  exact portDo_did c act s s' body hp ha (hs.trans (touchIdle_port _))

theorem takesAlone_of {c : Instr} {act : State → Taken} {s s' : State} {body : State → List Byte} {bytes : List Byte}
    (he : exec c s = portDo c act s) (hp : s.port.turnaround = false) (ha : act (s.taken c) = .did s' body)
    (hs : s'.port = (s.taken c).port) (hb : body s'.refreshOutputs = bytes) (hd : s'.demand = [])
    (hx : ∀ n g h, s.seg? n = some g → s'.seg? n = some h → g.exempt = true → h.exempt = true)
    (hi : s'.mode = .quiet ∨ s'.idle = 0) : TakesAlone c s s' bytes := by
  unfold TakesAlone
  rw [he, ← hb]
  refine portDo_alone hp ha (hs.trans (touchIdle_port _)) (settle_alone hd ?_ (hi.imp_right Or.inr))
  intro n g h hg
  exact hx n g h ((taken_seg s c n).symm.trans hg)

theorem tells_of {c : Instr} {act : State → Taken} {s : State} {r : Result} {body : State → List Byte}
    (he : exec c s = portDo c act s) (hp : s.port.turnaround = false) (hr : r ≠ .badRequest)
    (ha : act (s.taken c) = .told r body) : Tells c s r (body (s.taken c)) := by
  unfold Tells
  rw [he]
  exact portDo_told c act s r body hp hr ha

theorem tellsBad_of {c : Instr} {act : State → Taken} {s : State} (he : exec c s = portDo c act s)
    (hp : s.port.turnaround = false) (ha : act (s.taken c) = tell .badRequest) : TellsBad c s := by
  unfold TellsBad
  rw [he]
  exact portDo_bad c act s noBody hp ha

/-! ### Events -/

theorem happens_of {c : Instr} {s s' : State} (he : exec c s = done s s') : Happens c s s' := by
  unfold Happens
  rw [he]
  exact done_settled s s'

/-! ### Stations -/

theorem hears_of {s : State} {n : NodeNo} {x : Node} (h : Heard s n x) : s.hears n = true := by
  obtain ⟨hn, hp, _, r, hr⟩ := h
  simp only [State.hears, hn, Option.any_some, hp, beq_self_eq_true, Bool.true_and, State.listens, hr]

/-- What a heard station's request comes to. -/
theorem takeRequest_of {s : State} {n : NodeNo} {x : Node} (h : Heard s n x) (q : RackRequest) :
    s.takeRequest n q = (s.requested n q).carryStation n x.role q := by
  simp [State.takeRequest, h.1, h.2.2.1, State.requested]

theorem restartLink_out (u : State) (o : Outputs) :
    ({ u with out := o } : State).restartLink = { u.restartLink with out := o } := by
  unfold State.restartLink
  dsimp only
  split_ifs <;> rfl

theorem endMarks_out (u : State) (o : Outputs) :
    ({ u with out := o } : State).endMarks = { u.endMarks with out := o } := by
  unfold State.endMarks State.round?
  dsimp only
  split_ifs <;> rfl

theorem wake_out (u : State) (o : Outputs) : ({ u with out := o } : State).wake true = { u.wake true with out := o } := by
  unfold State.wake
  dsimp only
  split_ifs
  · have h := (congrArg State.restartLink (endMarks_out ({ u.setMode .run with idle := 0 }) o)).trans (restartLink_out _ o)
    exact congrArg (fun v : State => v.raiseIf true .modeChange) h
  · rfl

theorem queueAnswer_out (s : State) (o : Outputs) (n : NodeNo) (q : RackRequest) (r : Result) (m : Option Summary) :
    ({ s with out := o } : State).queueAnswer n q r m = { s.queueAnswer n q r m with out := o } := rfl

theorem refreshOutputs_of_out (s : State) (o : Outputs) :
    ({ s with out := o } : State).refreshOutputs = s.refreshOutputs := rfl

/-- The lines after a wake are those of the state, whatever they were before. -/
theorem wake_queueAnswer_refresh (s : State) (n : NodeNo) (q : RackRequest) (r : Result) (m : Option Summary) :
    ((s.refreshOutputs.queueAnswer n q r m).wake true).refreshOutputs =
      ((s.queueAnswer n q r m).wake true).refreshOutputs := by
  have h : s.refreshOutputs = { s with out := s.outputs } := rfl
  rw [h]
  generalize s.outputs = o
  rw [queueAnswer_out, wake_out, refreshOutputs_of_out]

theorem stationTells_of {c : Instr} {s : State} {n : NodeNo} {x : Node} {q : RackRequest} {r : Request} {res : Result}
    {m : Option Summary} (he : exec c s = rackCommand c (.station n) q s) (h : Heard s n x)
    (hq : RackRequest.parse q = some r) (hj : judgeStation (s.requested n q) n x.role r = .told res m) :
    StationTells c n q s res m := by
  unfold StationTells
  rw [he]
  simp only [rackCommand, hears_of h, if_true, takeRequest_of h, State.carryStation, hq, hj]

theorem stationTakes_of {c : Instr} {s s' : State} {n : NodeNo} {x : Node} {q : RackRequest} {r : Request}
    {m : State → Option Summary} (he : exec c s = rackCommand c (.station n) q s) (h : Heard s n x)
    (hq : RackRequest.parse q = some r) (hj : judgeStation (s.requested n q) n x.role r = .did s' m)
    (hm : ∀ u : State, m u.refreshOutputs = m u) : StationTakes c n q s s' m := by
  refine ⟨(State.settle (s.requested n q) s').refreshOutputs, ?_,
    (settledFrom_settle _ _).of_segments fun m => (requested_seg s n q m).symm⟩
  rw [he]
  simp only [rackCommand, hears_of h, if_true, takeRequest_of h, State.carryStation, hq, hj, hm]
  rw [wake_queueAnswer_refresh]

/-! ### Reading a rack request -/

/-- An expected state that is absent or the entry's own is read, and is no mismatch. -/
theorem expects_in {expected : Option Byte} {st : RackState} (h : Expects expected st) :
    ∃ ex : Option RackState, inRange (fun b => RackState.ofCode b.toNat) expected = some ex ∧ (ex.any fun st' => st' != st) = false := by
  cases expected with
  | none => exact ⟨none, rfl, rfl⟩
  | some b =>
    refine ⟨some st, ?_, by simp⟩
    unfold inRange
    simp [h b rfl]

/-- A code of 1 to 11 is a state. -/
theorem code_in {expected : Option Byte} (h : ∀ b, expected = some b → 1 ≤ b.toNat ∧ b.toNat ≤ 11) :
    ∃ ex : Option RackState, inRange (fun b => RackState.ofCode b.toNat) expected = some ex := by
  cases expected with
  | none => exact ⟨none, rfl⟩
  | some b =>
    have hb := h b rfl
    have : ∃ st, RackState.ofCode b.toNat = some st := by
      have h1 := hb.1; have h2 := hb.2
      generalize b.toNat = k at h1 h2
      interval_cases k <;> exact ⟨_, rfl⟩
    obtain ⟨st, hst⟩ := this
    exact ⟨some st, by unfold inRange; simp [hst]⟩

/-- How a request that names a tag is read. -/
theorem parse_reason {k : Byte} {t : Tag} {expected reason : Option Byte} {ex r} {op : RackOp} (hi : inRange (fun b => RackState.ofCode b.toNat) expected = some ex)
    (hr : inRange (fun b => HoldReason.ofCode b.toNat) reason = some r)
    (hk : rackOp k.toNat r = some op) (h1 : k.toNat ≠ 1) : RackRequest.parse ⟨k, .tag t, expected, reason⟩ = some (.onRack op (some t) ex) := by
  unfold RackRequest.parse
  rw [hi, hr]
  simp only [Option.bind_eq_bind, Option.bind_some]
  split <;> simp_all

theorem taken_about (s : State) (c : Instr) (r : Result) (e : EntryNo) : (s.taken c).about r e = .told r (s.summary? (some e)) := by
  unfold State.about; rw [taken_summary]

/-- The body of a supervisor's answer about a tag: the tag, then the summary. -/
theorem echo_tag (k : Byte) (t : Tag) (ex r : Option Byte) (s : State) (e : Option EntryNo) : echoBody ⟨k, .tag t, ex, r⟩ (s.summary? e) = t.bytes ++ s.summaryBytes e := by
  unfold echoBody argumentBytes State.summaryBytes
  cases s.summary? e <;> rfl

theorem requested_parkOf (s : State) (n : NodeNo) (q : RackRequest) (m : NodeNo) : (s.requested n q).parkOf m = s.parkOf m := by
  obtain ⟨_, i, h, _⟩ := requested_eq s n q
  rw [h]; rfl

theorem about_requested (s : State) (n : NodeNo) (q : RackRequest) (r : Result) (e : EntryNo) : (s.requested n q).about r e = .told r (s.summary? (some e)) := by
  unfold State.about; rw [requested_summary]

end Sys2Proof.Machine
end

