-- ==== Sys2Proof/Laws/Layout.lean ====
section
/-! SUPPORT. What each layout check answers: `check<k>_meets` says that check `k` passes where `CheckPasses` holds and
names what `Offends` gives (R56, R57); `firstCheck` what the first failing one of a list of checks is. -/

namespace Sys2Proof.Machine

/-! ### Searches of the tables -/

theorem find?_finRange {k : Nat} {p : Fin k → Bool} {n : Fin k} :
    (List.finRange k).find? p = some n ↔ p n = true ∧ ∀ m, m < n → p m = false := by
  have hs : (List.finRange k).Pairwise (· < ·) := List.pairwise_lt_finRange k
  rw [List.find?_eq_some_iff_append]
  constructor
  · rintro ⟨h1, as, bs, h2, h3⟩
    refine ⟨h1, fun m hm => ?_⟩
    have hmem : m ∈ as ++ n :: bs := by rw [← h2]; exact List.mem_finRange m
    rw [h2] at hs
    rcases List.mem_append.1 hmem with h | h
    · simpa using h3 m h
    · rcases List.mem_cons.1 h with h | h
      · exact absurd hm (by rw [h]; exact lt_irrefl _)
      · have := (List.pairwise_cons.1 (List.pairwise_append.1 hs).2.1).1 m h
        exact absurd hm (lt_asymm this)
  · rintro ⟨h1, h2⟩
    obtain ⟨as, bs, h3⟩ := List.append_of_mem (List.mem_finRange n)
    refine ⟨h1, as, bs, h3, fun a ha => ?_⟩
    rw [h3] at hs
    have := (List.pairwise_append.1 hs).2.2 a ha n List.mem_cons_self
    simp [h2 a this]

theorem find?_finRange_none {k : Nat} {p : Fin k → Bool} : (List.finRange k).find? p = none ↔ ∀ n, p n = false := by
  rw [List.find?_eq_none]
  simp

theorem isKind_iff {s : State} {k : SegKind} {n : SegNo} : s.isKind k n = true ↔ OfKind s k n := by
  simp [State.isKind, OfKind, Option.any_eq_true]

theorem placeIs_iff {s : State} {k : SegKind} {g : Segment} :
    s.placeIs k g.config.successor = true ↔ SuccessorIs s g k := by
  unfold State.placeIs SuccessorIs
  split
  · rename_i n h; rw [isKind_iff, h]; simp
  · rename_i h
    constructor
    · intro h; cases h
    · rintro ⟨m, h1, _⟩; exact absurd h1 (h m)

theorem alternateIs_iff {s : State} {k : SegKind} {g : Segment} :
    s.alternateIs k g.config.alternate = true ↔ AlternateIs s g k := by
  unfold State.alternateIs AlternateIs
  split
  · rename_i n h; rw [isKind_iff, h]; simp
  · rename_i h; simp [h]

/-- A check's answer is right: nothing where the layout passes check `k`, else what offends it. -/
def Meets (r : Option Offender) (s : State) (k : Nat) : Prop :=
  (r = none ↔ CheckPasses s k) ∧ ∀ o, r = some o ↔ Offends s k o

/-- The lowest-numbered segment that fails check `k`. -/
theorem lowest_spec {s : State} {k : Nat} {p : SegNo → Bool} (h : ∀ n, p n = false ↔ NumberPasses s k n) :
    (((List.finRange 32).find? p).map Offender.segment = none ↔ ∀ n, NumberPasses s k n) ∧
    ∀ o, ((List.finRange 32).find? p).map Offender.segment = some o ↔
      ∃ n, o = .segment n ∧ ¬ NumberPasses s k n ∧ ∀ m, m < n → NumberPasses s k m := by
  have h' : ∀ n, p n = true ↔ ¬ NumberPasses s k n := fun n => by rw [← h n, Bool.not_eq_false]
  refine ⟨?_, fun o => ?_⟩
  · rw [Option.map_eq_none_iff, find?_finRange_none]
    exact forall_congr' h
  · rw [Option.map_eq_some_iff]
    constructor
    · rintro ⟨n, h1, rfl⟩
      obtain ⟨h2, h3⟩ := find?_finRange.1 h1
      exact ⟨n, rfl, (h' n).1 h2, fun m hm => (h m).1 (h3 m hm)⟩
    · rintro ⟨n, rfl, h2, h3⟩
      exact ⟨n, find?_finRange.2 ⟨(h' n).2 h2, fun m hm => (h m).2 (h3 m hm)⟩, rfl⟩

/-- Where what a check asks of no one segment holds, its answer is the lowest-numbered segment that fails it. -/
theorem meets_lowest {s : State} {k : Nat} {p : SegNo → Bool} (hk : TablePasses s k)
    (h : ∀ n, p n = false ↔ NumberPasses s k n) : Meets (((List.finRange 32).find? p).map .segment) s k := by
  obtain ⟨f1, f2⟩ := lowest_spec h
  refine ⟨f1.trans ⟨fun a => ⟨hk, a⟩, fun a => a.2⟩, fun o => (f2 o).trans ?_⟩
  constructor
  · rintro ⟨n, rfl, a, b⟩
    exact ⟨fun _ => hk, Or.inl ⟨a, b⟩⟩
  · intro ho
    cases o with
    | missingKind kind =>
      obtain ⟨rfl, h1, before, after, h2, _⟩ := ho
      obtain ⟨n, hn⟩ := hk kind (by rw [h2]; simp)
      exact absurd hn (h1 n)
    | tunnel =>
      obtain ⟨rfl, h1⟩ := ho
      exact absurd h1 hk
    | node m =>
      obtain ⟨rfl, ⟨h1, h2⟩, _⟩ := ho
      obtain ⟨n, g, e1, e2, e3⟩ := hk m h1
      exact absurd e3 (h2 n g e1 e2)
    | segment n =>
      rcases ho.2 with ⟨a, b⟩ | ⟨rfl, _, a, _⟩
      · exact ⟨n, rfl, a, b⟩
      · exact absurd hk a

/-- A segment number that does not fail a test of segments. -/
theorem failing_passes {s : State} {test : SegNo → Segment → Bool} (n : SegNo) :
    ((s.seg? n).any fun g => !test n g) = false ↔ ∀ g, s.seg? n = some g → test n g = true := by
  cases s.seg? n <;> simp

/-- A check that is one test of every segment. -/
theorem meets_plain {s : State} {k : Nat} {test : SegNo → Segment → Bool} (hk : TablePasses s k)
    (h : ∀ n, (∀ g, s.seg? n = some g → test n g = true) ↔ NumberPasses s k n) : Meets (s.failing test) s k :=
  meets_lowest hk fun n => (failing_passes n).trans (h n)

/-- The lowest segment that meets a condition. -/
theorem head_segsWhere {s : State} {p : Segment → Bool} {n : SegNo} (hn : (s.seg? n).any p = true) :
    (s.segsWhere p).head? = some n ↔ ∀ m h, m < n → s.seg? m = some h → p h = false := by
  have : (s.segsWhere p).head? = (List.finRange 32).find? fun n => (s.seg? n).any p := by
    unfold State.segsWhere; rw [List.head?_filter]
  rw [this, find?_finRange]
  constructor
  · rintro ⟨_, h⟩ m k hm hk
    have := h m hm
    rw [hk] at this; simpa using this
  · intro h
    refine ⟨hn, fun m hm => ?_⟩
    cases hk : s.seg? m with
    | none => rfl
    | some k => simpa using h m k hm hk

theorem namedByClean_iff {s : State} {n : SegNo} : (s.namedByClean n == 1) = true ↔ NamedByOneClean s n := by
  unfold State.namedByClean NamedByOneClean
  rw [beq_iff_eq, List.length_eq_one_iff]
  have hm : ∀ c, c ∈ s.segsWhere (fun g => g.config.kind == .clean && g.config.alternate == some n) ↔
      ∃ g, s.seg? c = some g ∧ g.config.kind = .clean ∧ g.config.alternate = some n := by
    intro c; rw [mem_segsWhere]; simp
  have hnd : (s.segsWhere (fun g => g.config.kind == .clean && g.config.alternate == some n)).Nodup :=
    (List.nodup_finRange 32).filter _
  constructor
  · rintro ⟨c, hc⟩
    refine ⟨c, (hm c).1 (by rw [hc]; exact List.mem_singleton_self c), fun d hd => ?_⟩
    have := (hm d).2 hd
    rw [hc] at this; exact List.mem_singleton.1 this
  · rintro ⟨c, h1, h2⟩
    refine ⟨c, ?_⟩
    have hall : ∀ d ∈ s.segsWhere (fun g => g.config.kind == .clean && g.config.alternate == some n), d = c :=
      fun d hd => h2 d ((hm d).1 hd)
    have hc := (hm c).2 h1
    generalize s.segsWhere _ = l at hnd hall hc
    match l, hnd, hall, hc with
    | [a], _, h, _ => rw [h a List.mem_cons_self]
    | a :: b :: l, hn, h, _ =>
      rw [h a List.mem_cons_self, h b (by simp)] at hn
      simp at hn

theorem isLoadNode_iff {s : State} {m : NodeNo} : (s.node? m).any (·.role.isLoad) = true ↔ IsLoadNode s m := by
  unfold IsLoadNode
  cases s.node? m with
  | none => simp
  | some x => cases hr : x.role <;> simp [Role.isLoad, hr]

theorem ownedByLoad_iff {s : State} {o : Option NodeNo} :
    s.ownedByLoad o = true ↔ ∃ m, o = some m ∧ IsLoadNode s m := by
  unfold State.ownedByLoad
  cases o with
  | none => simp
  | some m => rw [Option.bind_some, isLoadNode_iff]; simp

/-! ### Check 7: the way through COLLECT -/

/-- A path through COLLECT to ENTRY is found with fuel for one step more than it has segments. -/
theorem reachesEntry_of_path {s : State} : ∀ (path : List SegNo) (last : SegNo) (fuel : Nat) (n : SegNo),
    (path ++ [last]).head? = some n → (∀ m ∈ path, OfKind s .collect m) → OfKind s .entry last →
    List.IsChain (FollowedBy s) (path ++ [last]) → path.length < fuel →
    s.reachesEntry fuel n = true := by
  intro path
  induction path with
  | nil =>
    intro last fuel n h _ ⟨g, hg, hk⟩ _ hf
    obtain ⟨f, rfl⟩ : ∃ f, fuel = f + 1 := ⟨fuel - 1, by simp at hf; omega⟩
    simp at h; subst h
    unfold State.reachesEntry
    rw [hg]; simp only [hk]
  | cons a path ih =>
    intro last fuel n h hc he hch hf
    obtain ⟨f, rfl⟩ : ∃ f, fuel = f + 1 := ⟨fuel - 1, by simp at hf; omega⟩
    simp at h; subst h
    obtain ⟨g, hg, hk⟩ := hc a List.mem_cons_self
    obtain ⟨b, hb⟩ : ∃ b, (path ++ [last]).head? = some b := by cases path <;> simp
    have hch2 : FollowedBy s a b ∧ List.IsChain (FollowedBy s) (path ++ [last]) := by
      have : a :: path ++ [last] = a :: (path ++ [last]) := rfl
      rw [this] at hch
      cases hpl : path ++ [last] with
      | nil => rw [hpl] at hb; cases hb
      | cons c l =>
        rw [hpl] at hch hb
        cases hb
        exact ⟨(List.isChain_cons_cons.1 hch).1, (List.isChain_cons_cons.1 hch).2⟩
    obtain ⟨⟨g', hg', hs⟩, hch3⟩ := hch2
    rw [hg] at hg'; cases hg'
    unfold State.reachesEntry
    rw [hg]; simp only [hk, hs]
    exact ih last f b hb (fun m hm => hc m (List.mem_cons_of_mem _ hm)) he hch3 (by simp at hf; omega)

/-- The path with which the search succeeds. -/
theorem path_of_reachesEntry {s : State} : ∀ (fuel : Nat) (n : SegNo), s.reachesEntry fuel n = true →
    OfKind s .entry n ∨ ∃ path last, path.head? = some n ∧ path.length < fuel ∧ (∀ m ∈ path, OfKind s .collect m) ∧
      OfKind s .entry last ∧ List.IsChain (FollowedBy s) (path ++ [last]) := by
  intro fuel
  induction fuel with
  | zero => intro n h; cases h
  | succ fuel ih =>
    intro n h
    unfold State.reachesEntry at h
    split at h
    · cases h
    · rename_i g hg
      split at h
      · rename_i hk; exact Or.inl ⟨g, hg, hk⟩
      · rename_i m hk hs
        right
        have hf : FollowedBy s n m := ⟨g, hg, hs⟩
        rcases ih m h with he | ⟨path, last, h1, h2, h3, h4, h5⟩
        · exact ⟨[n], m, rfl, by
            cases fuel with
            | zero => cases h
            | succ f => simp, by simpa using ⟨g, hg, hk⟩, he, by simpa using hf⟩
        · refine ⟨n :: path, last, rfl, by simpa using h2, ?_, h4, ?_⟩
          · intro k hk'
            rcases List.mem_cons.1 hk' with rfl | h
            · exact ⟨g, hg, hk⟩
            · exact h3 k h
          · cases path with
            | nil => cases h1
            | cons a l =>
              cases h1
              exact List.isChain_cons_cons.2 ⟨hf, h5⟩
      · cases h

/-- Where there is a path there is one that meets no segment twice: cut out what stands between two meetings. -/
theorem leadsToEntry_of_path {s : State} : ∀ (k : Nat) (n : SegNo) (path : List SegNo) (last : SegNo),
    path.length ≤ k → path.head? = some n → (∀ m ∈ path, OfKind s .collect m) → OfKind s .entry last →
    List.IsChain (FollowedBy s) (path ++ [last]) → LeadsToEntry s n := by
  intro k
  induction k with
  | zero => intro n path last h1 h2; cases path <;> simp_all
  | succ k ih =>
    intro n path last h1 h2 h3 h4 h5
    by_cases hn : path.Nodup
    · exact ⟨path, last, h2, hn, h3, h4, h5⟩
    · have : ∃ a l1 l2 l3, path = l1 ++ a :: l2 ++ a :: l3 := by
        clear h1 h2 h3 h4 h5 ih
        induction path with
        | nil => simp at hn
        | cons b path ihp =>
          by_cases hb : b ∈ path
          · obtain ⟨l2, l3, h⟩ := List.append_of_mem hb
            exact ⟨b, [], l2, l3, by simp [h]⟩
          · obtain ⟨a, l1, l2, l3, h⟩ := ihp (fun hp => hn (List.nodup_cons.2 ⟨hb, hp⟩))
            exact ⟨a, b :: l1, l2, l3, by simp [h]⟩
      obtain ⟨a, l1, l2, l3, rfl⟩ := this
      refine ih n (l1 ++ a :: l3) last (by simp at h1 ⊢; omega) ?_ ?_ h4 ?_
      · cases l1 <;> simpa using h2
      · intro m hm; apply h3; simp at hm ⊢; tauto
      · have e1 : l1 ++ a :: l2 ++ a :: l3 ++ [last] = (l1 ++ [a]) ++ ((l2 ++ [a]) ++ (l3 ++ [last])) := by simp
        have e3 : l1 ++ a :: l2 ++ a :: l3 ++ [last] = (l1 ++ a :: l2) ++ (a :: (l3 ++ [last])) := by simp
        have e2 : l1 ++ a :: l3 ++ [last] = l1 ++ a :: (l3 ++ [last]) := by simp
        rw [e2]
        have h6 : List.IsChain (FollowedBy s) (a :: (l3 ++ [last])) := by rw [e3] at h5; exact (List.isChain_append.1 h5).2.1
        have h7 : List.IsChain (FollowedBy s) (l1 ++ [a]) := by rw [e1] at h5; exact (List.isChain_append.1 h5).1
        rw [List.isChain_append]
        refine ⟨(List.isChain_append.1 h7).1, h6, ?_⟩
        intro x hx y hy
        simp only [List.head?_cons, Option.mem_def, Option.some.injEq] at hy
        subst hy
        exact (List.isChain_append.1 h7).2.2 x hx a (by simp)

theorem leadsToEntry_iff {s : State} {n : SegNo} (hn : OfKind s .collect n) :
    s.reachesEntry 33 n = true ↔ LeadsToEntry s n := by
  constructor
  · intro h
    rcases path_of_reachesEntry 33 n h with he | ⟨path, last, h1, h2, h3, h4, h5⟩
    · obtain ⟨g, hg, hk⟩ := hn
      obtain ⟨g', hg', hk'⟩ := he
      rw [hg] at hg'; cases hg'; rw [hk] at hk'; cases hk'
    · exact leadsToEntry_of_path path.length n path last le_rfl h1 h3 h4 h5
  · rintro ⟨path, last, h1, h2, h3, h4, h5⟩
    refine reachesEntry_of_path path last 33 n ?_ h3 h4 h5 ?_
    · cases path <;> simp_all
    · have := h2.length_le_card
      simp at this; omega

/-! ### Each check -/

/-- A test that only a kind must pass. -/
theorem guarded {k k' : SegKind} {b : Bool} {P : Prop} (h : b = true ↔ P) : (k != k' || b) = true ↔ (k = k' → P) := by
  rw [Bool.or_eq_true, bne_iff_ne, ← h]; tauto

theorem isNone_iff {α : Type} {o : Option α} : o.isNone = true ↔ o = none := by cases o <;> simp

theorem check2_meets (s : State) : Meets s.check2 s 2 := by
  refine meets_plain trivial ?_
  intro n
  refine forall_congr' fun g => forall_congr' fun _ => ?_
  rw [Bool.and_eq_true]
  refine and_congr ?_ ?_
  · unfold State.successorDefined
    cases g.config.successor with
    | none => simp
    | some q => cases q <;> simp [Option.isSome_iff_ne_none]
  · cases g.config.alternate <;> simp [Option.isSome_iff_ne_none]

theorem check4_meets (s : State) : Meets s.check4 s 4 := by
  refine meets_plain trivial ?_
  intro n
  refine forall_congr' fun g => forall_congr' fun _ => guarded ?_
  rw [Bool.and_eq_true, placeIs_iff, alternateIs_iff]

theorem check5_meets (s : State) : Meets s.check5 s 5 := by
  refine meets_plain trivial ?_
  intro n
  refine forall_congr' fun g => forall_congr' fun _ => guarded ?_
  rw [Bool.and_eq_true, placeIs_iff, alternateIs_iff]

theorem check6_meets (s : State) : Meets s.check6 s 6 := by
  refine meets_plain trivial ?_
  intro n
  refine forall_congr' fun g => forall_congr' fun _ => guarded ?_
  rw [Bool.and_eq_true, placeIs_iff, alternateIs_iff]

theorem check7_meets (s : State) : Meets s.check7 s 7 := by
  refine meets_plain trivial ?_
  intro n
  refine forall_congr' fun g => forall_congr' fun hg => ?_
  rw [Bool.or_eq_true, bne_iff_ne, Bool.and_eq_true, isNone_iff]
  by_cases hk : g.config.kind = .collect
  · rw [leadsToEntry_iff ⟨g, hg, hk⟩]; tauto
  · tauto

theorem check8_meets (s : State) : Meets s.check8 s 8 := by
  refine meets_plain trivial ?_
  intro n
  refine forall_congr' fun g => forall_congr' fun hg => ?_
  rw [Bool.or_eq_true, bne_iff_ne]
  by_cases hk : g.config.kind = .park
  · rw [Bool.and_eq_true, Bool.and_eq_true, Bool.and_eq_true, Bool.and_eq_true, namedByClean_iff, isNone_iff,
      placeIs_iff, ownedByLoad_iff, beq_iff_eq,
      head_segsWhere (by rw [hg]; simp [hk])]
    simp
    tauto
  · tauto

theorem check11_meets (s : State) : Meets s.check11 s 11 := by
  refine meets_plain trivial ?_
  intro n
  refine forall_congr' fun g => forall_congr' fun hg => ?_
  rw [Bool.or_eq_true, bne_iff_ne]
  by_cases hk : g.config.kind = .store
  · rw [Bool.and_eq_true, Bool.and_eq_true, Bool.and_eq_true, namedByClean_iff, isNone_iff, placeIs_iff, beq_iff_eq,
      head_segsWhere (by rw [hg]; simp [hk])]
    simp
    tauto
  · tauto

theorem firstWith_iff {s : State} {line : Segment → Option LineNo} {n : SegNo} {g : Segment} (hg : s.seg? n = some g) :
    s.firstWith line n g = true ↔ (line g ≠ none → ∀ m h, m < n → s.seg? m = some h → line h ≠ line g) := by
  unfold State.firstWith
  rw [Bool.or_eq_true, isNone_iff, beq_iff_eq, head_segsWhere (by rw [hg]; simp)]
  simp
  tauto

theorem check12_meets (s : State) : Meets s.check12 s 12 := by
  refine meets_plain trivial ?_
  intro n
  refine forall_congr' fun g => forall_congr' fun hg => ?_
  rw [Bool.and_eq_true, Bool.and_eq_true, firstWith_iff hg, firstWith_iff hg, firstWith_iff hg]
  constructor
  · rintro ⟨⟨h1, h2⟩, h3⟩ m h hm hh
    have a := h1 (by simp) m h hm hh
    have b := h2 (by simp) m h hm hh
    refine ⟨?_, ?_, ?_⟩
    · intro e; exact a (by rw [e])
    · intro e; exact b (by rw [e])
    · intro e; exact h3 e m h hm hh
  · intro h
    exact ⟨⟨fun _ m x hm hx e => (h m x hm hx).1 (Option.some.inj e),
      fun _ m x hm hx e => (h m x hm hx).2.1 (Option.some.inj e)⟩, fun hd m x hm hx => (h m x hm hx).2.2 hd⟩

theorem check3_meets (s : State) : Meets s.check3 s 3 := by
  unfold State.check3
  split
  · rename_i h
    rw [isNone_iff] at h
    refine ⟨⟨fun a => (by cases a), fun a => absurd h a.1⟩, fun o => ?_⟩
    constructor
    · intro a; cases a; exact ⟨rfl, h⟩
    · intro a
      cases o with
      | missingKind k => exact absurd a.1 (by decide)
      | tunnel => rfl
      | node k => exact absurd a.1 (by decide)
      | segment k => exact absurd h (a.1 (Or.inr rfl))
  · rename_i h
    rw [isNone_iff] at h
    refine meets_plain h ?_
    intro n
    refine forall_congr' fun g => forall_congr' fun _ => guarded ?_
    rw [Bool.and_eq_true, isNone_iff, beq_iff_eq]

theorem mem_nodesWhere {s : State} {p : Node → Bool} {n : NodeNo} :
    n ∈ s.nodesWhere p ↔ ∃ x, s.node? n = some x ∧ p x = true := by
  simp [State.nodesWhere, Option.any_eq_true]

theorem role_gate_iff {r : Role} {n : SegNo} : r.gate? = some n ↔ r = .reader n := by
  cases r <;> simp [Role.gate?]

theorem check13_meets (s : State) : Meets s.check13 s 13 := by
  refine meets_lowest trivial fun n => ?_
  rw [Bool.not_eq_false', Bool.and_eq_true]
  refine and_congr ?_ ?_
  · unfold State.readerAgrees
    simp only [Option.all_eq_true, Option.any_eq_true, beq_iff_eq, role_gate_iff]
    exact ⟨fun a g r h1 h2 => a g h1 r h2, fun a g h1 r h2 => a g r h1 h2⟩
  · unfold State.readersNamed
    rw [List.all_eq_true]
    simp only [mem_nodesWhere, Option.any_eq_true, beq_iff_eq, role_gate_iff]
    exact ⟨fun a r x h1 h2 => a r ⟨x, h1, h2⟩, fun a r ⟨x, h1, h2⟩ => a r x h1 h2⟩

theorem mem_ofKind {s : State} {k : SegKind} {n : SegNo} : n ∈ s.ofKind k ↔ OfKind s k n := by
  unfold State.ofKind OfKind; rw [mem_segsWhere]; simp

theorem ofKind_empty {s : State} {k : SegKind} : (s.ofKind k).isEmpty = true ↔ ∀ n, ¬ OfKind s k n := by
  rw [List.isEmpty_iff, List.eq_nil_iff_forall_not_mem]
  exact forall_congr' fun n => not_congr mem_ofKind

theorem head_ofKind {s : State} {k : SegKind} {n : SegNo} (hn : OfKind s k n) :
    (s.ofKind k).head? = some n ↔ ∀ m, m < n → ¬ OfKind s k m := by
  obtain ⟨g, hg, hk⟩ := hn
  unfold State.ofKind
  rw [head_segsWhere (by rw [hg]; simp [hk])]
  constructor
  · rintro h m hm ⟨x, hx, he⟩
    have := h m x hm hx
    rw [he] at this; simp at this
  · intro h m x hm hx
    have := h m hm
    cases he : (x.config.kind == k)
    · rfl
    · exact absurd ⟨x, hx, by simpa using he⟩ this

theorem check1_meets (s : State) : Meets s.check1 s 1 := by
  unfold State.check1
  show Meets (match soleKinds.find? _ with | some k => _ | none => _) s 1
  split
  · rename_i kind h
    rw [List.find?_eq_some_iff_append] at h
    obtain ⟨h1, as, bs, h2, h3⟩ := h
    rw [ofKind_empty] at h1
    have hb : ∀ j ∈ as, ∃ n, OfKind s j n := by
      intro j hj
      have := h3 j hj
      by_contra hc
      rw [not_exists] at hc
      rw [(ofKind_empty).2 hc] at this
      cases this
    have hno : ¬ TablePasses s 1 := fun a => by
      obtain ⟨n, hn⟩ := a kind (by rw [h2]; simp)
      exact h1 n hn
    refine ⟨⟨fun a => (by cases a), fun a => absurd a.1 hno⟩, fun o => ?_⟩
    constructor
    · intro a; cases a; exact ⟨rfl, h1, as, bs, h2, hb⟩
    · intro a
      cases o with
      | tunnel => exact absurd a.1 (by decide)
      | node k => exact absurd a.1 (by decide)
      | segment n => exact absurd (a.1 (Or.inl rfl)) hno
      | missingKind k =>
        obtain ⟨_, c1, xs, ys, c2, c3⟩ := a
        congr 2
        have hf : soleKinds.find? (fun k => (s.ofKind k).isEmpty) = some k := by
          rw [List.find?_eq_some_iff_append]
          refine ⟨ofKind_empty.2 c1, xs, ys, c2, fun j hj => ?_⟩
          cases he : (s.ofKind j).isEmpty
          · rfl
          · obtain ⟨n, hn⟩ := c3 j hj
            exact absurd hn (ofKind_empty.1 he n)
        have hf' : soleKinds.find? (fun k => (s.ofKind k).isEmpty) = some kind := by
          rw [List.find?_eq_some_iff_append]
          exact ⟨ofKind_empty.2 h1, as, bs, h2, h3⟩
        rw [hf'] at hf; cases hf; rfl
  · rename_i h
    rw [List.find?_eq_none] at h
    have ht : TablePasses s 1 := by
      intro k hk
      by_contra hc
      rw [not_exists] at hc
      exact h k hk (ofKind_empty.2 hc)
    refine meets_lowest ht fun n => ?_
    show (soleKinds.any fun k => s.isKind k n && (s.ofKind k).head? != some n) = false ↔ _
    rw [List.any_eq_false]
    constructor
    · intro a g hg hk m hm hc
      have := a _ hk
      simp only [Bool.and_eq_true, bne_iff_ne, not_and, not_not] at this
      have hn : OfKind s g.config.kind n := ⟨g, hg, rfl⟩
      exact (head_ofKind hn).1 (this (isKind_iff.2 hn)) m hm hc
    · intro a k hk
      simp only [Bool.and_eq_true, bne_iff_ne, not_and, not_not]
      intro hn
      have hn' := isKind_iff.1 hn
      obtain ⟨g, hg, rfl⟩ := hn'
      exact (head_ofKind ⟨g, hg, rfl⟩).2 (a g hg hk)

theorem parkOf_none {s : State} {m : NodeNo} :
    (s.parkOf m).isNone = true ↔ ∀ n g, s.seg? n = some g → g.config.kind = .park → g.config.owner ≠ some m := by
  unfold State.parkOf State.findSeg
  rw [isNone_iff, List.head?_eq_none_iff, List.eq_nil_iff_forall_not_mem]
  simp only [mem_segsWhere]
  simp

theorem check9_meets (s : State) : Meets s.check9 s 9 := by
  obtain ⟨p, e, key⟩ : ∃ p : NodeNo → Bool, s.check9 = ((List.finRange 16).find? p).map .node ∧ ∀ m, p m = true ↔
      IsLoadNode s m ∧ ∀ n g, s.seg? n = some g → g.config.kind = .park → g.config.owner ≠ some m := by
    refine ⟨fun m => (s.node? m).any (·.role.isLoad) && (s.parkOf m).isNone, ?_,
      fun m => by rw [Bool.and_eq_true, isLoadNode_iff, parkOf_none]⟩
    unfold State.check9 State.nodesWhere
    rw [List.find?_filter]
    simp only [Bool.decide_and, Bool.decide_eq_true]
  have key' := fun m => Bool.not_eq_true (p m) ▸ not_congr (key m)
  rw [e]
  refine ⟨?_, fun o => ?_⟩
  · rw [Option.map_eq_none_iff, find?_finRange_none]
    refine (forall_congr' key').trans ⟨fun a => ⟨fun m hm => ?_, fun n => trivial⟩, fun a m hm => ?_⟩
    · by_contra hc
      push Not at hc
      exact a m ⟨hm, hc⟩
    · obtain ⟨n, g, h1, h2, h3⟩ := a.1 m hm.1
      exact hm.2 n g h1 h2 h3
  · rw [Option.map_eq_some_iff]
    constructor
    · rintro ⟨n, h1, rfl⟩
      obtain ⟨h2, h3⟩ := find?_finRange.1 h1
      exact ⟨rfl, (key n).1 h2, fun m hm => (key' m).1 (h3 m hm)⟩
    · intro ho
      cases o with
      | missingKind k => exact absurd ho.1 (by decide)
      | tunnel => exact absurd ho.1 (by decide)
      | node k => exact ⟨k, find?_finRange.2 ⟨(key k).2 ho.2.1, fun m hm => (key' m).2 (ho.2.2 m hm)⟩, rfl⟩
      | segment n =>
        rcases ho.2 with ⟨a, _⟩ | ⟨a, _⟩
        · exact absurd trivial a
        · exact absurd a (by decide)

/-! ### Check 10: the one ring -/

/-- The segment that follows, the segment itself where none does. -/
def nextOf (s : State) (a : SegNo) : SegNo :=
  match (s.seg? a).bind (·.config.successor) with
  | some (.segment b) => b
  | _ => a

theorem followed_next {s : State} {a b : SegNo} : FollowedBy s a b → nextOf s a = b := by
  rintro ⟨g, h1, h2⟩; unfold nextOf; rw [h1]; simp [h2]

theorem clean_next {s : State} (hc : ∀ n, NumberPasses s 10 n) {a : SegNo} (ha : OfKind s .clean a) :
    FollowedBy s a (nextOf s a) ∧ OfKind s .clean (nextOf s a) := by
  obtain ⟨g, hg, hk⟩ := ha
  obtain ⟨⟨m, h1, h2⟩, _⟩ := hc a g hg hk
  have hf : FollowedBy s a m := ⟨g, hg, h1⟩
  rw [followed_next hf]; exact ⟨hf, h2⟩

theorem clean_iterate {s : State} (hc : ∀ n, NumberPasses s 10 n) {a : SegNo} (ha : OfKind s .clean a) (i : Nat) :
    OfKind s .clean ((nextOf s)^[i] a) := by
  induction i with
  | zero => exact ha
  | succ i ih => rw [Function.iterate_succ_apply']; exact (clean_next hc ih).2

theorem path_iterate {s : State} (hc : ∀ n, NumberPasses s 10 n) (k : Nat) :
    ∀ {a : SegNo}, OfKind s .clean a → s.successorPath k a = List.iterate (nextOf s) a k := by
  induction k with
  | zero => intro a _; rfl
  | succ k ih =>
    intro a ha
    obtain ⟨⟨g, hg, h1⟩, h2⟩ := clean_next hc ha
    rw [List.iterate, ← ih h2]
    show (a :: match (s.seg? a).bind (·.config.successor) with
      | some (.segment m) => s.successorPath k m
      | _ => []) = _
    rw [hg]; simp [h1]

theorem reaches_iff {s : State} (hc : ∀ n, NumberPasses s 10 n) {a b : SegNo} (ha : OfKind s .clean a) :
    Relation.ReflTransGen (FollowedBy s) a b ↔ ∃ i, (nextOf s)^[i] a = b := by
  constructor
  · intro h
    induction h with
    | refl => exact ⟨0, rfl⟩
    | tail _ hf ih =>
      obtain ⟨i, rfl⟩ := ih
      exact ⟨i + 1, by rw [Function.iterate_succ_apply']; exact followed_next hf⟩
  · rintro ⟨i, rfl⟩
    induction i with
    | zero => exact .refl
    | succ i ih => rw [Function.iterate_succ_apply']; exact ih.tail (clean_next hc (clean_iterate hc ha i)).1

theorem oneRing_iff {s : State} (hc : ∀ n, NumberPasses s 10 n) : s.oneRing = true ↔ TablePasses s 10 := by
  unfold State.oneRing
  split
  · rename_i h
    refine ⟨fun _ a b ha _ => ?_, fun _ => rfl⟩
    have := mem_ofKind.2 ha
    rw [h] at this; cases this
  · rename_i first rest h
    have hL : ∀ n, n ∈ first :: rest ↔ OfKind s .clean n := fun n => by rw [← h]; exact mem_ofKind
    have hf : OfKind s .clean first := (hL first).1 List.mem_cons_self
    have hnd : (first :: rest).Nodup := by
      rw [← h]
      unfold State.ofKind State.segsWhere
      exact (List.nodup_finRange 32).filter _
    rw [path_iterate hc _ hf]
    have hk : rest.length + 1 = (first :: rest).length := rfl
    simp only [Bool.and_eq_true, beq_iff_eq, List.all_eq_true, List.contains_iff_mem]
    rw [List.getElem?_eq_getElem (by simp), List.getElem_iterate, List.take_iterate, Option.some.injEq]
    have e : min (rest.length + 1) (rest.length + 2) = rest.length + 1 := by omega
    rw [e]
    constructor
    · rintro ⟨h1, h2⟩ a b ha hb
      rw [reaches_iff hc ha]
      have ha' := h2 a ((hL a).2 ha)
      have hb' := h2 b ((hL b).2 hb)
      rw [List.mem_iterate] at ha' hb'
      obtain ⟨i, hi, rfl⟩ := ha'
      obtain ⟨j, hj, rfl⟩ := hb'
      refine ⟨j + (rest.length + 1 - i), ?_⟩
      rw [← Function.iterate_add_apply]
      have : j + (rest.length + 1 - i) + i = j + (rest.length + 1) := by omega
      rw [this, Function.iterate_add_apply, h1]
    · intro hr
      have hper : first ∈ Function.periodicPts (nextOf s) := by
        obtain ⟨i, hi⟩ := (reaches_iff hc (clean_next hc hf).2).1 (hr _ first (clean_next hc hf).2 hf)
        exact ⟨i + 1, by omega, by rw [Function.IsPeriodicPt, Function.IsFixedPt, Function.iterate_succ_apply]; exact hi⟩
      have hpos := Function.minimalPeriod_pos_of_mem_periodicPts hper
      have hmem : ∀ n, n ∈ List.iterate (nextOf s) first (Function.minimalPeriod (nextOf s) first) ↔
          n ∈ first :: rest := by
        intro n
        rw [hL, List.mem_iterate]
        constructor
        · rintro ⟨i, _, rfl⟩; exact clean_iterate hc hf i
        · intro hn
          obtain ⟨i, rfl⟩ := (reaches_iff hc hf).1 (hr first n hf hn)
          exact ⟨i % Function.minimalPeriod (nextOf s) first, Nat.mod_lt _ hpos,
            Function.iterate_mod_minimalPeriod_eq.symm⟩
      have hnd2 : (List.iterate (nextOf s) first (Function.minimalPeriod (nextOf s) first)).Nodup := by
        rw [List.nodup_iff_injective_getElem]
        intro i j hij
        simp only [List.getElem_iterate] at hij
        have hi := i.isLt; have hj := j.isLt
        simp only [List.length_iterate] at hi hj
        exact Fin.ext (Function.iterate_injOn_Iio_minimalPeriod hi hj hij)
      have hp := (List.perm_ext_iff_of_nodup hnd2 hnd).2 hmem
      have hlen := hp.length_eq
      rw [List.length_iterate] at hlen
      refine ⟨?_, ?_⟩
      · rw [hk, ← hlen]; exact Function.iterate_minimalPeriod
      · intro n hn
        rw [hk, ← hlen]; exact (hmem n).2 hn

theorem check10_meets (s : State) : Meets s.check10 s 10 := by
  have hiff : ∀ n, (∀ g, s.seg? n = some g → (g.config.kind != .clean || (s.placeIs .clean g.config.successor &&
          g.config.alternate.all fun a => s.isKind .park a || s.isKind .store a)) = true) ↔ NumberPasses s 10 n := by
    intro n
    refine forall_congr' fun g => forall_congr' fun hg => guarded ?_
    rw [Bool.and_eq_true, placeIs_iff, Option.all_eq_true]
    simp only [Bool.or_eq_true, isKind_iff]
  obtain ⟨f1, f2⟩ := lowest_spec fun n => (failing_passes (test := fun _ g => g.config.kind != .clean ||
    (s.placeIs .clean g.config.successor && g.config.alternate.all fun a => s.isKind .park a || s.isKind .store a))
      n).trans (hiff n)
  unfold State.check10
  split
  · rename_i o h
    obtain ⟨n, rfl, h1, h2⟩ := (f2 o).1 h
    refine ⟨⟨fun a => (by cases a), fun a => absurd (a.2 n) h1⟩, fun q => ?_⟩
    constructor
    · intro a; cases a
      exact ⟨fun h => absurd h (by decide), Or.inl ⟨h1, h2⟩⟩
    · intro ho
      cases q with
      | missingKind k => exact absurd ho.1 (by decide)
      | tunnel => exact absurd ho.1 (by decide)
      | node k => exact absurd ho.1 (by decide)
      | segment m =>
        rcases ho.2 with ⟨a, b⟩ | ⟨_, a, _⟩
        · rw [← h]; exact (f2 _).2 ⟨m, rfl, a, b⟩
        · exact absurd (a n) h1
  · rename_i h
    have hc := f1.1 h
    have hr := oneRing_iff hc
    by_cases ho : s.oneRing = true
    · rw [if_pos ho]
      refine ⟨⟨fun _ => ⟨hr.1 ho, hc⟩, fun _ => rfl⟩, fun q => ⟨fun a => (by cases a), fun hq => ?_⟩⟩
      cases q with
      | missingKind k => exact absurd hq.1 (by decide)
      | tunnel => exact absurd hq.1 (by decide)
      | node k => exact absurd hq.1 (by decide)
      | segment m =>
        rcases hq.2 with ⟨a, b⟩ | ⟨_, _, a, _⟩
        · exact absurd (hc m) a
        · exact absurd (hr.1 ho) a
    · rw [if_neg ho]
      have hne : s.ofKind .clean ≠ [] := by
        intro he; apply ho; unfold State.oneRing; rw [he]
      obtain ⟨n, hn⟩ : ∃ n, (s.ofKind .clean).head? = some n := by
        cases hl : s.ofKind .clean with
        | nil => exact absurd hl hne
        | cons a l => exact ⟨a, rfl⟩
      have hcn : OfKind s .clean n := mem_ofKind.1 (List.mem_of_head? hn)
      rw [hn]
      refine ⟨⟨fun a => (by cases a), fun a => absurd (hr.2 a.1) ho⟩, fun q => ?_⟩
      constructor
      · intro a; cases a
        exact ⟨fun h => absurd h (by decide), Or.inr ⟨rfl, hc, fun a => ho (hr.2 a), hcn, (head_ofKind hcn).1 hn⟩⟩
      · intro hq
        cases q with
        | missingKind k => exact absurd hq.1 (by decide)
        | tunnel => exact absurd hq.1 (by decide)
        | node k => exact absurd hq.1 (by decide)
        | segment m =>
          rcases hq.2 with ⟨a, b⟩ | ⟨_, _, _, a, b⟩
          · exact absurd (hc m) a
          · rw [(head_ofKind a).2 b] at hn; cases hn; rfl

/-- The first check of a list that fails. -/
theorem firstCheck {s : State} :
    ∀ (l : List (Nat × Option Offender)), (∀ c ∈ l, Meets c.2 s c.1) → l.Pairwise (fun c d => c.1 < d.1) →
    ((l.findSome? fun c => c.2.map fun o => (c.1, o)) = none ↔ ∀ c ∈ l, CheckPasses s c.1) ∧
    ∀ k o, (l.findSome? fun c => c.2.map fun o => (c.1, o)) = some (k, o) ↔
      (∃ c ∈ l, c.1 = k) ∧ Offends s k o ∧ ∀ c ∈ l, c.1 < k → CheckPasses s c.1 := by
  intro l
  induction l with
  | nil => intro _ _; simp
  | cons c l ih =>
    intro hm hp
    obtain ⟨hp1, hp2⟩ := List.pairwise_cons.1 hp
    obtain ⟨i1, i2⟩ := ih (fun d hd => hm d (List.mem_cons_of_mem _ hd)) hp2
    obtain ⟨m1, m2⟩ := hm c List.mem_cons_self
    rw [List.findSome?_cons]
    cases hc : c.2 with
    | none =>
      have hpass := m1.1 hc
      simp only [Option.map_none]
      refine ⟨i1.trans ⟨fun a d hd => ?_, fun a d hd => a d (List.mem_cons_of_mem _ hd)⟩,
        fun k o => (i2 k o).trans ?_⟩
      · rcases List.mem_cons.1 hd with rfl | h
        · exact hpass
        · exact a d h
      · constructor
        · rintro ⟨⟨d, hd, rfl⟩, h2, h3⟩
          refine ⟨⟨d, List.mem_cons_of_mem _ hd, rfl⟩, h2, fun x hx hlt => ?_⟩
          rcases List.mem_cons.1 hx with rfl | h
          · exact hpass
          · exact h3 x h hlt
        · rintro ⟨⟨d, hd, rfl⟩, h2, h3⟩
          refine ⟨⟨d, ?_, rfl⟩, h2, fun x hx hlt => h3 x (List.mem_cons_of_mem _ hx) hlt⟩
          rcases List.mem_cons.1 hd with rfl | h
          · have := (m2 o).2 h2
            rw [hc] at this; cases this
          · exact h
    | some q =>
      simp only [Option.map_some]
      refine ⟨⟨fun a => (by cases a), fun a => ?_⟩, fun k o => ?_⟩
      · have := m1.2 (a c List.mem_cons_self)
        rw [hc] at this; cases this
      · constructor
        · intro a
          simp only [Option.some.injEq, Prod.mk.injEq] at a
          obtain ⟨rfl, rfl⟩ := a
          refine ⟨⟨c, List.mem_cons_self, rfl⟩, (m2 q).1 hc, fun d hd hlt => ?_⟩
          rcases List.mem_cons.1 hd with rfl | h
          · omega
          · have := hp1 d h; omega
        · rintro ⟨⟨d, hd, rfl⟩, h2, h3⟩
          rcases List.mem_cons.1 hd with rfl | h
          · have := (m2 o).2 h2
            rw [hc] at this; cases this; rfl
          · have := m1.2 (h3 c List.mem_cons_self (hp1 d h))
            rw [hc] at this; cases this

end Sys2Proof.Machine
end

