-- ==== Sys2Proof/Laws/Offers.lean ====
section
/-! SUPPORT. What the dispatcher's searches find: the best item (R169, R175), the store that offers (R173), the assignment
made next, and that settling leaves none to make. -/

namespace Sys2Proof.Machine

/-- R175, spelled out. -/
theorem servable_iff {s : State} {i : DemandItem} : s.servable i = true ↔ Servable s i := by
  unfold State.servable Servable State.freeSpace
  constructor
  · intro h
    split at h
    · rename_i p hp
      cases hg : s.seg? p with
      | none => rw [hg] at h; simp at h
      | some g => rw [hg] at h; exact ⟨p, g, hp, hg, by simpa using h⟩
    · cases h
  · rintro ⟨p, g, h1, h2, h3⟩
    rw [h1]; simp only [h2]; simpa using h3

/-- What a search finds is the first that meets the condition. -/
theorem find?_first {α : Type} {l : List α} {p : α → Bool} {a : α} : l.find? p = some a ↔ ∃ before after, l = before ++ a :: after ∧ p a = true ∧ ∀ b ∈ before, p b = false := by
  rw [List.find?_eq_some_iff_append]
  constructor
  · rintro ⟨h1, as, bs, h2, h3⟩; exact ⟨as, bs, h2, h1, fun b hb => by simpa using h3 b hb⟩
  · rintro ⟨as, bs, h2, h1, h3⟩; exact ⟨h1, as, bs, h2, fun b hb => by simpa using h3 b hb⟩

/-- The head a store offers, spelled out (R173). -/
theorem offeredHead_iff {s : State} {g : Segment} {e : EntryNo} : s.offeredHead g = some e ↔ g.config.kind = .store ∧ g.headArrived = true ∧
    g.jammed = false ∧ g.heldBySupervisor = false ∧ g.stranger = none ∧ g.queue.head? = some e ∧ ∃ x, s.entry? e = some x ∧ x.state = .stored ∧ x.hold = none := by
  unfold State.offeredHead Segment.isHeld
  constructor
  · intro h
    split at h
    · rename_i hc
      simp only [Bool.and_eq_true, beq_iff_eq, Bool.not_eq_true', Bool.or_eq_false_iff] at hc
      obtain ⟨⟨⟨h1, h2⟩, h3⟩, h4, h5⟩ := hc
      obtain ⟨d, hd, h6⟩ := Option.bind_eq_some_iff.1 h
      split at h6
      · rename_i hx
        cases h6
        obtain ⟨x, hx1, hx2⟩ := Option.any_eq_true _ _ |>.1 hx
        simp only [Bool.and_eq_true, beq_iff_eq, Bool.not_eq_true'] at hx2
        exact ⟨h1, h2, h3, h4, by simpa using h5, hd, x, hx1, hx2.1, by simpa using hx2.2⟩
      · cases h6
    · cases h
  · rintro ⟨h1, h2, h3, h4, h5, h6, x, h7, h8, h9⟩
    rw [if_pos (by simp [h1, h2, h3, h4, h5]), h6]
    simp [h7, h8, h9]

/-- What a kind is offered by a store that offers its head. -/
theorem offerOf_some {s : State} {k : Kind} {e : EntryNo} (h : s.offerOf k = some e) : StoreOffers s k e := by
  unfold State.offerOf at h
  split at h
  · rename_i hc
    obtain ⟨n, _, h1⟩ := List.exists_of_findSome?_eq_some h
    obtain ⟨g, hg, h2⟩ := Option.bind_eq_some_iff.1 h1
    split at h2
    · rename_i hk
      obtain ⟨a1, a2, a3, a4, a5, a6, x, a7, a8, a9⟩ := offeredHead_iff.1 h2
      exact ⟨n, g, x, hg, a1, hk, a2, a3, a4, a5, a6, a7, a8, a9, hc⟩
    · cases h2
  · cases h

/-- Where a kind is offered nothing, no store of it offers. -/
theorem offerOf_none {s : State} {k : Kind} (h : s.offerOf k = none) (e : EntryNo) : ¬ StoreOffers s k e := by
  rintro ⟨n, g, x, hg, a1, hk, a2, a3, a4, a5, a6, a7, a8, a9, hc⟩
  unfold State.offerOf at h
  rw [if_pos hc, List.findSome?_eq_none_iff] at h
  have := h n (List.mem_finRange n)
  rw [hg] at this
  simp only [Option.bind_some, hk, if_true] at this
  have h2 := offeredHead_iff.2 ⟨a1, a2, a3, a4, a5, a6, x, a7, a8, a9⟩
  rw [h2] at this
  cases this

/-- The assignment made next (R173). -/
theorem nextOffer_some {s : State} {e : EntryNo} {i : DemandItem} (h : s.nextOffer = some (e, i)) : StoreOffers s i.kind e ∧ ∃ before after, s.demand = before ++ i :: after ∧
      Servable s i ∧ ∀ j ∈ before, Servable s j → ∀ d, ¬ StoreOffers s j.kind d := by
  unfold State.nextOffer at h
  rw [List.findSome?_eq_some_iff] at h
  obtain ⟨as, j, bs, h1, h2, h3⟩ := h
  split at h2
  · rename_i hs
    obtain ⟨d, h4, h5⟩ := Option.map_eq_some_iff.1 h2
    cases h5
    refine ⟨offerOf_some h4, as, bs, h1, servable_iff.1 hs, ?_⟩
    intro j hj hsj
    have := h3 j hj
    rw [if_pos (servable_iff.2 hsj)] at this
    exact offerOf_none (Option.map_eq_none_iff.1 this)
  · cases h2

/-- Where none is made next, no store offers to a servable item. -/
theorem nextOffer_none {s : State} (h : s.nextOffer = none) : ∀ i ∈ s.demand, Servable s i → ∀ e, ¬ StoreOffers s i.kind e := by
  intro i hi hs
  unfold State.nextOffer at h
  rw [List.findSome?_eq_none_iff] at h
  have := h i hi
  rw [if_pos (servable_iff.2 hs)] at this
  exact offerOf_none (Option.map_eq_none_iff.1 this)

/-- As many offers as the queue is long leave none to make: each takes an item off it. -/
theorem offerStores_ends (k : Nat) : ∀ s : State, s.demand.length ≤ k → (State.offerStores k s).nextOffer = none := by
  induction k with
  | zero =>
    intro s h
    have : s.demand = [] := List.length_eq_zero_iff.1 (by omega)
    simp [State.offerStores, State.nextOffer, this]
  | succ k ih =>
    intro s h
    cases hn : s.nextOffer with
    | none => simp only [State.offerStores, hn]
    | some p =>
      obtain ⟨e, i⟩ := p
      simp only [State.offerStores, hn]
      apply ih
      rw [assign_demand]
      obtain ⟨_, b, a, h1, _⟩ := nextOffer_some hn
      have : (dropItem s.demand i.station i.kind).length < s.demand.length := by
        unfold dropItem
        apply List.length_filter_lt_length_iff_exists.2
        exact ⟨i, by rw [h1]; simp, by simp⟩
      omega

end Sys2Proof.Machine
end

