-- ==== Sys2Proof/Laws/PerInstr.lean ====
section
/-! SUPPORT. For every command: where it is a request of the port, its message fits the 64 bytes that R185 lets a
message have. -/

namespace Sys2Proof

theorem bigEndian_length (n v : Nat) : (bigEndian n v).length = n := by
  induction n with
  | zero => rfl
  | succ n ih => simp [bigEndian, ih]

theorem optBytes_length (o : Option Byte) : (optBytes o).length ≤ 2 := by
  cases o <;> simp [optBytes]

theorem tagBytes_length (t : Tag) : t.bytes.length = 3 := bigEndian_length 3 _

theorem halfBytes_length (h : Half) : (halfBytes h).length = 2 := bigEndian_length 2 _

end Sys2Proof

namespace Sys2Proof.Laws.PortRequest

/-- A well-formed command that is a request of the port makes a message of at most 64 bytes (R185). -/
def Statement (i : Instr) : Prop :=
  i.wf = true → ∀ kind body, i.portBody = some (kind, body) → body.length + 3 ≤ 64

theorem powerOn (stopAsserted : Bool) : Statement (.powerOn stopAsserted) := by
  intro _ _ _ h
  cases h

theorem nop (more : List Byte) : Statement (.nop more) := by
  intro _ _ _ h
  cases h
  simp

theorem mode (code : Byte) (more : List Byte) : Statement (.mode code more) := by
  intro _ _ _ h
  cases h
  simp

theorem setParam (id : Byte) (value : Half) (more : List Byte) : Statement (.setParam id value more) := by
  intro _ _ _ h
  cases h
  simp [halfBytes_length]

theorem readCounts (more : List Byte) : Statement (.readCounts more) := by
  intro _ _ _ h
  cases h
  simp

theorem readEntry (sel : EntrySelector) (more : List Byte) : Statement (.readEntry sel more) := by
  intro _ _ _ h
  cases sel <;> cases h <;> simp [tagBytes_length]

theorem readSegment (seg : Byte) (start : Byte) (more : List Byte) : Statement (.readSegment seg start more) := by
  intro _ _ _ h
  cases h
  simp

theorem readTunnel (start : Byte) (more : List Byte) : Statement (.readTunnel start more) := by
  intro _ _ _ h
  cases h
  simp

theorem readNode (address : Byte) (more : List Byte) : Statement (.readNode address more) := by
  intro _ _ _ h
  cases h
  simp

theorem readDemand (start : Byte) (more : List Byte) : Statement (.readDemand start more) := by
  intro _ _ _ h
  cases h
  simp

theorem readAttention (more : List Byte) : Statement (.readAttention more) := by
  intro _ _ _ h
  cases h
  simp

theorem setAttention (settings : List Byte) (more : List Byte) : Statement (.setAttention settings more) := by
  intro w _ _ h
  cases h
  simp only [Instr.wf, decide_eq_true_eq] at w
  omega

theorem ack (sources : Half) (more : List Byte) : Statement (.ack sources more) := by
  intro _ _ _ h
  cases h
  simp [halfBytes_length]

theorem ackNode (address : Byte) (more : List Byte) : Statement (.ackNode address more) := by
  intro _ _ _ h
  cases h
  simp

theorem admitRack (tag : Tag) (seg : Byte) (more : List Byte) : Statement (.admitRack tag seg more) := by
  intro _ _ _ h
  cases h
  simp [tagBytes_length]

theorem retire (tag : Tag) (more : List Byte) : Statement (.retire tag more) := by
  intro _ _ _ h
  cases h
  simp [tagBytes_length]

theorem restore (tag : Tag) (seg : Byte) (clean : Byte) (more : List Byte) : Statement (.restore tag seg clean more) := by
  intro _ _ _ h
  cases h
  simp [tagBytes_length]

theorem clearTable (more : List Byte) : Statement (.clearTable more) := by
  intro _ _ _ h
  cases h
  simp

theorem defineSegment (number : Byte) (fields : Option RawSegment) (more : List Byte) : Statement (.defineSegment number fields more) := by
  intro _ _ _ h
  cases h
  cases fields with
  | none => simp [segmentBody]
  | some f =>
    have h1 := optBytes_length f.successor
    have h2 := optBytes_length f.alternate
    have h3 := optBytes_length f.diverter
    have h4 := optBytes_length f.reader
    have h5 := optBytes_length f.storeKind
    have h6 := optBytes_length f.owner
    have h7 := optBytes_length f.reach
    simp only [segmentBody, List.length_cons, List.length_append]
    omega

theorem segmentHold (seg : Byte) (more : List Byte) : Statement (.segmentHold seg more) := by
  intro _ _ _ h
  cases h
  simp

theorem segmentRelease (seg : Byte) (more : List Byte) : Statement (.segmentRelease seg more) := by
  intro _ _ _ h
  cases h
  simp

theorem clearJam (src : Source) (seg : Byte) : Statement (.clearJam src seg) := by
  intro _ _ _ h
  cases src <;> cases h <;> simp

theorem stepGate (seg : Byte) (more : List Byte) : Statement (.stepGate seg more) := by
  intro _ _ _ h
  cases h
  simp

theorem resume (src : Source) : Statement (.resume src) := by
  intro _ _ _ h
  cases src <;> cases h <;> simp

theorem clearStranger (seg : Byte) (more : List Byte) : Statement (.clearStranger seg more) := by
  intro _ _ _ h
  cases h
  simp

theorem defineTunnel (fields : RawTunnel) (more : List Byte) : Statement (.defineTunnel fields more) := by
  intro _ _ _ h
  cases h
  have h1 := optBytes_length fields.paceBase
  have h2 := optBytes_length fields.trim
  simp only [tunnelBody, List.length_cons, List.length_append, halfBytes_length]
  omega

theorem clearTunnelFault (more : List Byte) : Statement (.clearTunnelFault more) := by
  intro _ _ _ h
  cases h
  simp

theorem defineNode (address : Byte) (fields : Option RawNode) (more : List Byte) : Statement (.defineNode address fields more) := by
  intro _ _ _ h
  cases h
  cases fields with
  | none => simp [nodeBody]
  | some f =>
    have h1 := optBytes_length f.chain
    have h2 := optBytes_length f.gate
    simp only [nodeBody, List.length_cons, List.length_append]
    omega

theorem linkReset (more : List Byte) : Statement (.linkReset more) := by
  intro _ _ _ h
  cases h
  simp

theorem steer (on : Byte) (more : List Byte) : Statement (.steer on more) := by
  intro _ _ _ h
  cases h
  simp

theorem lookup (src : Source) (tag : Tag) : Statement (.lookup src tag) := by
  intro _ _ _ h
  cases src <;> cases h <;> simp [tagBytes_length]

theorem send (src : Source) (tag : Option Tag) (expected : Option Byte) : Statement (.send src tag expected) := by
  intro _ _ _ h
  have h1 := optBytes_length expected
  cases src <;> cases tag <;> cases h <;> simp only [List.length_cons, List.length_append, tagBytes_length] <;> omega

theorem claim (src : Source) (tag : Tag) (expected : Option Byte) : Statement (.claim src tag expected) := by
  intro _ _ _ h
  have h1 := optBytes_length expected
  cases src <;> cases h
  simp only [List.length_append, tagBytes_length]
  omega

theorem unloadDone (src : Source) (tag : Tag) (expected : Option Byte) : Statement (.unloadDone src tag expected) := by
  intro _ _ _ h
  have h1 := optBytes_length expected
  cases src <;> cases h
  simp only [List.length_append, tagBytes_length]
  omega

theorem rewash (src : Source) (tag : Tag) (expected : Option Byte) : Statement (.rewash src tag expected) := by
  intro _ _ _ h
  have h1 := optBytes_length expected
  cases src <;> cases h
  simp only [List.length_append, tagBytes_length]
  omega

theorem release (src : Source) (tag : Tag) (expected : Option Byte) : Statement (.release src tag expected) := by
  intro _ _ _ h
  have h1 := optBytes_length expected
  cases src <;> cases h
  simp only [List.length_append, tagBytes_length]
  omega

theorem hold (src : Source) (tag : Tag) (expected : Option Byte) (reason : Option Byte) : Statement (.hold src tag expected reason) := by
  intro _ _ _ h
  have h1 := optBytes_length expected
  have h2 := optBytes_length reason
  cases src <;> cases h
  simp only [List.length_append, tagBytes_length]
  omega

theorem unhold (src : Source) (tag : Tag) (expected : Option Byte) (reason : Option Byte) : Statement (.unhold src tag expected reason) := by
  intro _ _ _ h
  have h1 := optBytes_length expected
  have h2 := optBytes_length reason
  cases src <;> cases h
  simp only [List.length_append, tagBytes_length]
  omega

theorem forceRelease (src : Source) (tag : Tag) (expected : Option Byte) : Statement (.forceRelease src tag expected) := by
  intro _ _ _ h
  have h1 := optBytes_length expected
  cases src <;> cases h
  simp only [List.length_append, tagBytes_length]
  omega

theorem badCheckMessage (bytes : List Byte) : Statement (.badCheckMessage bytes) := by
  intro _ _ _ h
  cases h

theorem unknownRequest (bytes : List Byte) : Statement (.unknownRequest bytes) := by
  intro _ _ _ h
  cases h

theorem tooSoonTransaction (bytes : List Byte) : Statement (.tooSoonTransaction bytes) := by
  intro _ _ _ h
  cases h

theorem turnaroundEnd : Statement .turnaroundEnd := by
  intro _ _ _ h
  cases h

theorem roundStart : Statement .roundStart := by
  intro _ _ _ h
  cases h

theorem headerSent : Statement .headerSent := by
  intro _ _ _ h
  cases h

theorem roundEnd : Statement .roundEnd := by
  intro _ _ _ h
  cases h

theorem sightingWindowRunOut (seg : SegNo) : Statement (.sightingWindowRunOut seg) := by
  intro _ _ _ h
  cases h

theorem windowEnd (node : NodeNo) (seen : List (Branch × WindowActivity)) : Statement (.windowEnd node seen) := by
  intro _ _ _ h
  cases h

theorem validReply (window : Nat) (branch : Branch) (reply : Reply) : Statement (.validReply window branch reply) := by
  intro _ _ _ h
  cases h

theorem branchWake (branch : Branch) : Statement (.branchWake branch) := by
  intro _ _ _ h
  cases h

theorem resetPulseEnd : Statement .resetPulseEnd := by
  intro _ _ _ h
  cases h

theorem eyeBlock (input : LineNo) : Statement (.eyeBlock input) := by
  intro _ _ _ h
  cases h

theorem eyeClear (input : LineNo) : Statement (.eyeClear input) := by
  intro _ _ _ h
  cases h

theorem gateOpen (seg : SegNo) : Statement (.gateOpen seg) := by
  intro _ _ _ h
  cases h

theorem jam (seg : SegNo) : Statement (.jam seg) := by
  intro _ _ _ h
  cases h

theorem safeStop (asserted : Bool) : Statement (.safeStop asserted) := by
  intro _ _ _ h
  cases h

theorem secondsTick : Statement .secondsTick := by
  intro _ _ _ h
  cases h

theorem stale (entry : EntryNo) : Statement (.stale entry) := by
  intro _ _ _ h
  cases h

theorem promotion (node : NodeNo) (kind : Kind) : Statement (.promotion node kind) := by
  intro _ _ _ h
  cases h

theorem autoQuiet : Statement .autoQuiet := by
  intro _ _ _ h
  cases h

theorem paceTick : Statement .paceTick := by
  intro _ _ _ h
  cases h

theorem paceCounterZero : Statement .paceCounterZero := by
  intro _ _ _ h
  cases h

theorem encoderCount : Statement .encoderCount := by
  intro _ _ _ h
  cases h

theorem pitchReached : Statement .pitchReached := by
  intro _ _ _ h
  cases h

theorem exitEyeBlock : Statement .exitEyeBlock := by
  intro _ _ _ h
  cases h

theorem exitEyeClear : Statement .exitEyeClear := by
  intro _ _ _ h
  cases h

theorem machineLineChange (line : MachineLine) (asserted : Bool) : Statement (.machineLineChange line asserted) := by
  intro _ _ _ h
  cases h

theorem rinseOkAssert : Statement .rinseOkAssert := by
  intro _ _ _ h
  cases h

theorem rinseOkDeassert : Statement .rinseOkDeassert := by
  intro _ _ _ h
  cases h

theorem dropout (entry : EntryNo) : Statement (.dropout entry) := by
  intro _ _ _ h
  cases h

theorem dwellMillisecond : Statement .dwellMillisecond := by
  intro _ _ _ h
  cases h

end Sys2Proof.Laws.PortRequest
end

