-- ==== Sys2Proof/Laws/Replies.lean ====
section
/-! SUPPORT. What taking a reply can do to the link and the nodes (R129, R134): the reconciler, the dispatcher and the request
engine leave them alone (`LinkKept`), but for what a demand set and a request write at the node that sent them (`HeardOnly`);
the round in progress stays what it is. -/

namespace Sys2Proof.Machine

/-- The link and the nodes of `t` are those of `s`. -/
structure LinkKept (s t : State) : Prop where
  link : t.link = s.link
  nodes : t.nodes = s.nodes

theorem LinkKept.refl (s : State) : LinkKept s s := ⟨rfl, rfl⟩

theorem LinkKept.trans {s t u : State} (h : LinkKept s t) (k : LinkKept t u) : LinkKept s u :=
  ⟨k.link.trans h.link, k.nodes.trans h.nodes⟩

theorem Outer.linkKept {s t : State} (h : Outer s t) : LinkKept s t := ⟨h.link, h.nodes⟩

theorem linkKept_updEntry (s : State) (e : EntryNo) (f : Entry → Entry) : LinkKept s (s.updEntry e f) := ⟨rfl, rfl⟩

theorem linkKept_forEach {α : Type} (f : State → α → State) (hf : ∀ s x, LinkKept s (f s x)) (l : List α) :
    ∀ s : State, LinkKept s (s.forEach f l) := by
  induction l with
  | nil => exact LinkKept.refl
  | cons a l ih => exact fun s => (hf s a).trans (ih (f s a))

/-! ### The reconciler -/

theorem linkKept_insertHead (s : State) (e : EntryNo) (n : SegNo) (p : Option RackState) (b : Bool) :
    LinkKept s (s.insertHead e n p b) :=
  ((outer_updSeg s n _).trans ((outer_placeEntry _ e n p b).trans (outer_setHeadArrived _ n))).linkKept

theorem linkKept_passEntry (s : State) (e : EntryNo) : LinkKept s (s.passEntry e) := by
  unfold State.passEntry
  split
  · exact LinkKept.refl s
  · split
    · exact linkKept_updEntry s e _
    · exact (outer_declareMissing s e _).linkKept

theorem linkKept_displace (s : State) (n : SegNo) : LinkKept s (s.displace n) := by
  unfold State.displace
  split
  · exact LinkKept.refl s
  · split
    · split
      · exact (outer_declareMissing s _ _).linkKept
      · exact LinkKept.refl s
    · exact LinkKept.refl s

theorem linkKept_takeOut (s : State) (e : EntryNo) (x : Entry) : LinkKept s (s.takeOut e x) := by
  unfold State.takeOut
  split
  · unfold State.pullFrom
    split
    · exact LinkKept.refl s
    · dsimp only
      split
      · exact ((outer_removeFromSegment s _ e).trans (outer_setHeadArrived _ _)).linkKept
      · exact (outer_removeFromSegment s _ e).linkKept
  · exact (linkKept_updEntry s e _).trans (outer_removeFromTunnel _ e).linkKept
  · exact LinkKept.refl s

theorem linkKept_relocate (s : State) (n : SegNo) (e : EntryNo) : LinkKept s (s.relocate n e) := by
  unfold State.relocate
  split
  · exact LinkKept.refl s
  · exact ((((linkKept_takeOut s e _).trans (outer_releaseAssignment _ e).linkKept).trans (linkKept_insertHead _ e n _ _)).trans
      (linkKept_forEach _ linkKept_passEntry _ _)).trans (linkKept_displace _ n)

theorem linkKept_autoAdmit (s : State) (n : SegNo) (e : EntryNo) (t : Tag) : LinkKept s (s.autoAdmit n e t) :=
  (((show LinkKept s (s.takeFree e t) from ⟨rfl, rfl⟩).trans (linkKept_insertHead _ e n _ _)).trans
    (linkKept_forEach _ linkKept_passEntry _ _)).trans (linkKept_displace _ n)

/-- A report leaves the link and the nodes as they are (R59 to R70). -/
theorem linkKept_report (s : State) (node : NodeNo) (tags : List Tag) : LinkKept s (s.report node tags) := by
  have first : ∀ n t, LinkKept s (s.firstTag n t) := by
    intro n t
    unfold State.firstTag
    split
    · split
      · exact (linkKept_updEntry s _ _).trans (outer_updSeg _ n _).linkKept
      · exact linkKept_relocate s n _
    · split
      · exact linkKept_autoAdmit s n _ t
      · exact ((outer_addStranger s n _).trans (outer_raiseIf _ _ _)).linkKept
  have second : ∀ (s : State) n t t', LinkKept s (s.secondTag n t t') := by
    intro s n t t'
    unfold State.secondTag
    repeat' split
    all_goals first
      | exact LinkKept.refl s
      | exact linkKept_updEntry s _ _
  unfold State.report
  repeat' split
  all_goals first
    | exact LinkKept.refl s
    | exact first _ _
    | exact (first _ _).trans (second _ _ _ _)

/-! ### The request engine -/

theorem linkKept_clearJam (s : State) (n : SegNo) (g : Segment) : LinkKept s (s.clearJam n g) := by
  have h := outer_updSeg s n fun g => { g with jammed := false }
  unfold State.clearJam
  dsimp only
  repeat' split
  all_goals first
    | exact h.linkKept
    | exact (h.trans (outer_setHeadArrived _ n)).linkKept
    | exact (h.trans (outer_declareMissing _ _ _)).linkKept

theorem linkKept_resume (s : State) : LinkKept s s.resume :=
  (show LinkKept s { s with stopLatch := false } from ⟨rfl, rfl⟩).trans
    (linkKept_forEach _ (fun s e => linkKept_updEntry s e _) _ _)

/-- A rack request carried out leaves the link and the nodes as they are (R146 to R160). -/
theorem linkKept_judged {s s' : State} {n : NodeNo} {role : Role} {q : Request} {m : State → Option Summary}
    (h : judgeStation s n role q = .did s' m) : LinkKept s s' := by
  have offered : ∀ e x, LinkKept s ((s.updEntry e Entry.unloaded).offerReturned e x) := by
    intro e x
    unfold State.offerReturned
    repeat' split
    · exact linkKept_updEntry s e _
    · exact (linkKept_updEntry s e _).trans (outer_assign _ _ _).linkKept
    · exact linkKept_updEntry s e _
  have entry : ∀ {op e x s' m}, onEntry s (.station n) op e x = .did s' m → LinkKept s s' := by
    intro op e x s' m h
    cases op <;> simp only [onEntry, refusePassOrMissing, doSend, doClaim, doHold, doUnhold, doForceRelease, holderOnly,
      doUnloadDone, doRewash, State.change, State.about] at h <;> repeat' split at h
    all_goals first
      | cases h; done
      | (injection h with h _; subst h
         first
         | exact offered _ _
         | exact linkKept_updEntry s e _
         | exact (linkKept_updEntry s e _).trans (outer_raiseIf _ _ _).linkKept)
  have tested : ∀ {op ex e s' m}, testExpected s (.station n) op ex e = .did s' m → LinkKept s s' := by
    intro op ex e s' m h
    unfold testExpected at h
    split at h
    · cases h
    · split at h
      · cases h
      · exact entry h
  unfold judgeStation at h
  split at h
  · cases h
  · split at h
    · unfold carryOut at h
      split at h
      · split at h <;> cases h
      · split at h
        · cases h
        · exact tested h
      · split at h
        · cases h
        · exact tested h
      · split at h
        · cases h
        · split at h
          · injection h with h _
            exact h ▸ linkKept_clearJam _ _ _
          · cases h
      · split at h
        · cases h
        · split at h
          · injection h with h _
            exact h ▸ linkKept_resume s
          · cases h
    · cases h

/-! ### A reply -/

/-- What a node's reply fixes beside its demand set and its request (R118, R129, R130). -/
def Node.heardFields (x : Node) : Role × Option Branch × Nat × Option LinkError × Presence :=
  (x.role, x.branch, x.errorRun, x.lastError, x.presence)

/-- Every node but `n` is as it was, and `n` in what its reply fixes. -/
structure HeardOnly (n : NodeNo) (s t : State) : Prop where
  others : ∀ m, m ≠ n → t.node? m = s.node? m
  own : (t.node? n).map Node.heardFields = (s.node? n).map Node.heardFields

theorem HeardOnly.trans {n : NodeNo} {s t u : State} (h : HeardOnly n s t) (k : HeardOnly n t u) : HeardOnly n s u :=
  ⟨fun m hm => (k.others m hm).trans (h.others m hm), k.own.trans h.own⟩

theorem heardOnly_of_nodes {s t : State} (n : NodeNo) (h : t.nodes = s.nodes) : HeardOnly n s t :=
  ⟨fun m _ => node_of_nodes h m, by rw [node_of_nodes h]⟩

theorem heardOnly_updNode (s : State) (n : NodeNo) (f : Node → Node) (hf : ∀ x, (f x).heardFields = x.heardFields) :
    HeardOnly n s (s.updNode n f) := by
  refine ⟨fun m hm => by rw [node_updNode, if_neg (Ne.symm hm)], ?_⟩
  rw [node_updNode, if_pos rfl]
  cases s.node? n <;> simp [hf]

theorem takeRequest_kept (s : State) (n : NodeNo) (q : RackRequest) :
    (s.takeRequest n q).link = s.link ∧ HeardOnly n s (s.takeRequest n q) := by
  have mark : ∀ (s : State) f, (s.updNode n f).link = s.link := fun _ _ => rfl
  unfold State.takeRequest
  split
  · exact ⟨rfl, heardOnly_of_nodes n rfl⟩
  · rename_i x _
    split
    · exact ⟨rfl, heardOnly_updNode s n _ fun _ => rfl⟩
    · let u := (s.updNode n fun y => { y with request := some q }).touchIdle
      have hu : LinkKept (s.updNode n fun y => { y with request := some q }) u := (outer_touchIdle _).linkKept
      have h : HeardOnly n s u :=
        (heardOnly_updNode s n (fun y => { y with request := some q }) fun _ => rfl).trans (heardOnly_of_nodes n hu.nodes)
      suffices k : (u.carryStation n x.role q).link = u.link ∧ HeardOnly n u (u.carryStation n x.role q) from
        ⟨k.1.trans hu.link, h.trans k.2⟩
      unfold State.carryStation
      split
      · exact ⟨rfl, (heardOnly_updNode u n (fun y => { y with badRequest := true }) fun _ => rfl).trans
          (heardOnly_of_nodes n rfl)⟩
      · split
        · exact ⟨rfl, heardOnly_of_nodes n rfl⟩
        · rename_i s' m hj
          have k := (linkKept_judged hj).trans (outer_settle u s').linkKept
          exact ⟨k.link, heardOnly_of_nodes n k.nodes⟩

theorem handDemand_kept (s : State) (role : Role) (reply : Reply) :
    (s.handDemand role reply).link = s.link ∧ HeardOnly reply.node s (s.handDemand role reply) := by
  unfold State.handDemand
  split
  · rename_i chain x _
    have h := linkKept_forEach (fun s k => s.takeFlag reply.node chain (reply.demand.getD x.lastDemand) k)
      (fun s k => by
        unfold State.takeFlag
        split
        · split
          · unfold State.admitItem State.touchIdle
            split <;> exact ⟨rfl, rfl⟩
          · exact LinkKept.refl s
        · exact ⟨rfl, rfl⟩) [.plate, .cup, .cutlery, .tray]
      (s.updNode reply.node fun y => { y with lastDemand := reply.demand.getD x.lastDemand })
    exact ⟨h.link, (heardOnly_updNode s reply.node (fun y => { y with lastDemand := reply.demand.getD x.lastDemand })
      fun _ => rfl).trans (heardOnly_of_nodes _ h.nodes)⟩
  · exact ⟨rfl, heardOnly_of_nodes _ rfl⟩

/-- A wake leaves the nodes as they are, and the windows of a round in progress and steering too (R206). -/
theorem wake_windows {s : State} {r : Round} (h : s.link.phase = .windows r) (b : Bool) :
    (s.wake b).nodes = s.nodes ∧ (s.wake b).link.phase = .windows r ∧ (s.wake b).link.steering = s.link.steering := by
  unfold State.wake
  split
  · have raised : ∀ u : State, (u.raiseIf b .modeChange).nodes = u.nodes ∧ (u.raiseIf b .modeChange).link = u.link := by
      intro u
      cases b <;> exact ⟨rfl, rfl⟩
    rw [(raised _).1, (raised _).2]
    simp [State.setMode, State.endMarks, State.restartLink, State.updRound, LinkPhase.mapRound, State.round?, h]
  · exact ⟨rfl, h, rfl⟩

/-- A reply taken in the windows of a round: its node counts as heard there, and nothing else of the round, no steering mark
and no other node changes (R129, R134). -/
theorem takeReply_kept {s : State} {r : Round} (h : s.link.phase = .windows r) (br : Branch) (role : Role) (reply : Reply) :
    (s.takeReply br role reply).link.phase = .windows { r with heard := reply.node :: r.heard } ∧
    (s.takeReply br role reply).link.steering = s.link.steering ∧
    HeardOnly reply.node (s.updNode reply.node fun x => x.heardOn br reply.ready) (s.takeReply br role reply) := by
  let u := (s.updNode reply.node fun x => x.heardOn br reply.ready).updRound fun r => { r with heard := reply.node :: r.heard }
  have hu : u.link = { s.link with phase := .windows { r with heard := reply.node :: r.heard } } := by
    have : (s.updNode reply.node fun x => x.heardOn br reply.ready).link = s.link := rfl
    unfold u State.updRound
    rw [this, h]
    rfl
  have hn : HeardOnly reply.node (s.updNode reply.node fun x => x.heardOn br reply.ready) u := heardOnly_of_nodes _ rfl
  suffices k : ∀ t : State, t = s.takeReply br role reply → t.link.phase = u.link.phase ∧ t.link.steering = u.link.steering ∧
      HeardOnly reply.node u t by
    obtain ⟨k1, k2, k3⟩ := k _ rfl
    rw [hu] at k1 k2
    exact ⟨k1, k2, hn.trans k3⟩
  rintro t rfl
  show (if reply.ready then u.handOn role reply else State.settle u (u.dropItemsOf reply.node)).link.phase = _ ∧
    (if reply.ready then u.handOn role reply else State.settle u (u.dropItemsOf reply.node)).link.steering = _ ∧
    HeardOnly reply.node u (if reply.ready then u.handOn role reply else State.settle u (u.dropItemsOf reply.node))
  split
  · have sighted : LinkKept u (u.handSightings role reply) := by
      unfold State.handSightings
      repeat' split
      all_goals first
        | exact LinkKept.refl u
        | exact linkKept_report u _ _
    let s1 := State.settle u (u.handSightings role reply)
    have h1 : LinkKept u s1 := sighted.trans (outer_settle _ _).linkKept
    let s2 := State.settle s1 (s1.handDemand role reply)
    have d := handDemand_kept s1 role reply
    have k2 : LinkKept (s1.handDemand role reply) s2 := (outer_settle _ _).linkKept
    have h2 : s2.link = u.link ∧ HeardOnly reply.node u s2 :=
      ⟨k2.link.trans (d.1.trans h1.link),
        (heardOnly_of_nodes _ h1.nodes).trans (d.2.trans (heardOnly_of_nodes _ k2.nodes))⟩
    let s3 := s2.handRequest reply
    have h3 : s3.link = u.link ∧ HeardOnly reply.node u s3 := by
      show (s2.handRequest reply).link = _ ∧ HeardOnly reply.node u (s2.handRequest reply)
      unfold State.handRequest
      split
      · exact h2
      · have k := takeRequest_kept s2 reply.node
        exact ⟨(k _).1.trans h2.1, h2.2.trans (k _).2⟩
    show (if _ then s3.wake true else s3).link.phase = _ ∧ (if _ then s3.wake true else s3).link.steering = _ ∧
      HeardOnly reply.node u (if _ then s3.wake true else s3)
    split
    · have hw := wake_windows (s := s3) (r := { r with heard := reply.node :: r.heard }) (by rw [h3.1, hu]) true
      refine ⟨by rw [hw.2.1, hu], by rw [hw.2.2, h3.1], h3.2.trans (heardOnly_of_nodes _ hw.1)⟩
    · exact ⟨by rw [h3.1], by rw [h3.1], h3.2⟩
  · have k := (outer_settle u (u.dropItemsOf reply.node)).linkKept
    exact ⟨by rw [k.link]; rfl, by rw [k.link]; rfl, heardOnly_of_nodes _ k.nodes⟩

end Sys2Proof.Machine
end

