-- ==== Sys2Proof/Tests/Slice0.lean ====
section
/-! SUPPORT. The tests of the model: ill-formed terms that the well-formedness check refuses, messages written out from
R209 and R210, a state and operands that meet the hypotheses of each statement, and single steps. -/

open Sys2Proof Sys2Proof.Machine

namespace Sys2Proof.Tests

set_option Elab.async false

/-! ### A small state: a layout that passes validation, four nodes, seven racks, one of them in the tunnel -/

/-- Configured fields without optional ones. -/
def plainConfig (kind : SegKind) (line : LineNo) (successor : Option Place) : SegConfig :=
  { kind := kind, capacity := 4, successor := successor, alternate := none, eye := line, drive := line, diverter := none,
    reader := none, storeKind := none, owner := none, reach := 1 }

/-- Configured fields with an alternate. -/
def forked (kind : SegKind) (line : LineNo) (successor alternate : SegNo) : SegConfig :=
  { plainConfig kind line (some (.segment successor)) with alternate := some alternate, diverter := some line }

/-- A segment with a queue. -/
def belt (c : SegConfig) (queue : List EntryNo) : Segment := { Segment.new c with queue := queue }

def park : Segment := belt { plainConfig .park 0 (some (.segment 1)) with owner := some 0 } [0]
def collect : Segment := belt { plainConfig .collect 1 (some (.segment 2)) with reader := some 2 } []
def entrySeg : Segment := belt (plainConfig .entry 2 (some .tunnel)) [4]
def outfeedSeg : Segment := belt (forked .outfeed 3 4 5) []
def exitSeg : Segment := belt { forked .exit 4 6 5 with reach := 2 } [1, 2]
def rewashSeg : Segment := belt (forked .rewash 5 2 7) []
def cleanSeg : Segment := belt (forked .clean 6 9 0) []
def asideSeg : Segment := belt (plainConfig .aside 7 none) []
def storeSeg : Segment := belt { plainConfig .store 8 (some (.segment 6)) with storeKind := some .plate } [6]
def cleanSeg2 : Segment := belt (forked .clean 9 6 8) []

/-- A plate rack's tag. -/
def plate (n : BitVec 22) : Tag := ⟨.plate, n⟩

/-- A rack in a segment. -/
def rackIn (n : BitVec 22) (seg : SegNo) (st : RackState) : Entry :=
  { Entry.new (plate n) with state := st, location := some (.segment seg), confirmed := true }

/-- A rack in the tunnel with the record of its pass. -/
def washing (n : BitVec 22) (p : PassRecord) : Entry :=
  { Entry.new (plate n) with state := .washing, location := some .tunnel, passes := 1, pass := some p }

/-- The record of a pass that has just begun. -/
def passFrom (mark : BitVec 24) : PassRecord :=
  { mark := mark, dwell := 0, dropoutTimer := 0, dropoutMark := false, overLimit := false, fixed := .no }

/-- A MISSING rack. -/
def lost (n : BitVec 22) : Entry := { Entry.new (plate n) with missing := some ⟨.lifted, .loaded, .segment 1⟩ }

/-- A PRESENT node on branch A. -/
def station (role : Role) : Node := { Node.new role with presence := .present, branch := some .a }

def tunnelConfig : TunnelConfig :=
  { capacity := 4, pitch := 10, finalStart := 100, finalEnd := 200, exitDistance := 300, exitTolerance := 20,
    haltMargin := 30, paceBase := 36, trim := 5 }

/-- RUN, no gate OPEN, nothing commanded, a round about to begin. -/
def demo : State :=
  { State.reset with
    mode := .run
    freeList := (List.finRange 128).drop 7
    entries := ((((((State.reset.entries.set 0 (some (rackIn 1 0 .staged))).set 1 (some (rackIn 2 4 .cleared))).set 2
      (some { rackIn 3 4 .unloading with claim := some 1 })).set 3 (some (lost 4))).set 4 (some (rackIn 5 2 .queued))).set 5
      (some (washing 6 (passFrom 0)))).set 6 (some (rackIn 7 8 .stored))
    segments := (((((((((State.reset.segments.set 0 (some park)).set 1 (some collect)).set 2 (some entrySeg)).set 3
      (some outfeedSeg)).set 4 (some exitSeg)).set 5 (some rewashSeg)).set 6 (some cleanSeg)).set 7 (some asideSeg)).set 8
      (some storeSeg)).set 9 (some cleanSeg2)
    nodes := (((State.reset.nodes.set 0 (some (station (.load .low)))).set 1 (some (station .unload))).set 2
      (some (station (.reader 1)))).set 3 (some (station .floor))
    tunnel := { Tunnel.reset with config := some tunnelConfig, list := [5], encoder := 150, machineRun := true, washOk := true }
    link := { Link.reset with phase := .between } }

/-- The same in CONFIGURE, nothing in the tunnel. -/
def demoConfigure : State := { demo with mode := .configure, tunnel := { demo.tunnel with list := [] } }
/-- The same in SERVICE. -/
def demoService : State := { demo with mode := .service }
/-- The same in RUN with nothing in the tunnel. -/
def demoEmpty : State := { demo with tunnel := { demo.tunnel with list := [] } }
/-- The same in QUIET, silent. -/
def demoQuiet : State := { demoEmpty with mode := .quiet, link := { demo.link with phase := .silent } }

/-- Steered round of three windows on branch A. -/
def round : Round :=
  { steered := true, map := [(0, some .a), (1, some .a), (2, some .a)], length := 20, carried := [], heard := [], judged := [],
    removed := [], steady := true }

/-- A round is in its windows. -/
def demoRound : State := { demo with link := { demo.link with phase := .windows round } }

/-- What a test finds true of every entry is true of each. -/
theorem of_all {α : Type} {o : Option α} {P : α → Prop} [DecidablePred P] {x : α}
    (h : o.all (fun x => decide (P x)) = true) (hx : o = some x) : P x := by
  subst hx
  exact of_decide_eq_true h

theorem test_layoutPasses : demo.validate = none := by decide +kernel

/-! ### Ill-formed commands -/

theorem test_wf_setAttentionLength : (Instr.setAttention []).wf = false := by decide
theorem test_wf_removalHasNoFields :
    (Instr.defineSegment 0 (some ⟨0, 1, none, none, 0, 0, none, none, none, none, none⟩)).wf = false := by decide
theorem test_wf_nodeRemovalHasNoFields : (Instr.defineNode 1 (some ⟨0, none, none⟩)).wf = false := by decide
theorem test_wf_sendExpected : (Instr.send (.station 0) none (some 16)).wf = false := by decide
theorem test_wf_claimExpected : (Instr.claim (.station 0) (plate 1) (some 0)).wf = false := by decide
theorem test_wf_unloadDoneExpected : (Instr.unloadDone (.station 0) (plate 1) (some 16)).wf = false := by decide
theorem test_wf_rewashExpected : (Instr.rewash (.station 0) (plate 1) (some 16)).wf = false := by decide
theorem test_wf_releaseExpected : (Instr.release (.station 0) (plate 1) (some 16)).wf = false := by decide
theorem test_wf_forceReleaseExpected : (Instr.forceRelease (.station 0) (plate 1) (some 16)).wf = false := by decide
theorem test_wf_holdReason : (Instr.hold (.station 0) (plate 1) none (some 4)).wf = false := by decide
theorem test_wf_unholdReason : (Instr.unhold (.station 0) (plate 1) none (some 0)).wf = false := by decide
theorem test_wf_replyWindow : (Instr.validReply 16 .a ⟨0, true, none, [], none⟩).wf = false := by decide
theorem test_wf_replySightings :
    (Instr.validReply 0 .a ⟨0, true, none, [plate 1, plate 2, plate 3], none⟩).wf = false := by decide
theorem test_wf_replyRequestKind :
    (Instr.validReply 0 .a ⟨0, true, none, [], some ⟨16, .none, none, none⟩⟩).wf = false := by decide
theorem test_wf_replyRequestKindZero :
    (Instr.validReply 0 .a ⟨0, true, none, [], some ⟨0, .none, none, none⟩⟩).wf = false := by decide
theorem test_wf_frameEmpty : (Instr.windowEnd 0 [(.a, .frame [])]).wf = false := by decide
theorem test_wf_frameOdd : (Instr.windowEnd 0 [(.a, .frame [1])]).wf = false := by decide
theorem test_wf_branchTwice : (Instr.windowEnd 0 [(.a, .unfinished), (.a, .heldActive)]).wf = false := by decide

/-! ### Messages written out from R209, R210 and 11.1 -/

theorem test_message_nop : takeMessage [0x03, 0x01, 0xFC] = .request .nop := by decide
/-- A byte clocked beyond the length is no part of the message, and stands in the request buffer (R185). -/
theorem test_message_beyond : takeMessage [0x03, 0x01, 0xFC, 0xAA] = .request (.nop [0xAA]) := by decide
theorem test_requestBuffer :
    (match exec (.nop [0xAA]) State.reset with
     | .next t => decide (t.port.request = [0x03, 0x01, 0xFC, 0xAA])
     | _ => false) = true := by decide +kernel
theorem test_message_mode : takeMessage [0x04, 0x02, 0x01, 0xF9] = .request (.mode 1) := by decide
theorem test_message_setParam : takeMessage [0x06, 0x03, 0x01, 0x0F, 0xA0, 0x47] = .request (.setParam 1 4000) := by decide
theorem test_message_admit :
    takeMessage [0x07, 0x10, 0x40, 0x01, 0xA1, 0x05, 0x02] = .request (.admitRack ⟨.cup, 417⟩ 5) := by decide
theorem test_message_badCheck : takeMessage [0x03, 0x01, 0xFD] = .badCheck := by decide
theorem test_message_unknown : takeMessage [0x03, 0x7F, 0x7E] = .unknown 0x7F := by decide
/-- A reply of node 3, ready, one sighting, no request: R208. -/
theorem test_frame_sighting :
    judgeFrame [0x29, 0x00, 0x00, 0x00, 0x07, 0xD0] = .good ⟨2, true, none, [plate 7], none⟩ := by decide

/-- Bits are bytes from the most significant bit on; the three bits of a ninth byte are discarded (R183). -/
theorem test_wholeBytes :
    wholeBytes [false, false, false, false, false, false, true, true, true, false, true] = [0x03] := by decide
/-- The longest header and the longest reply fit (R208). -/
theorem test_frameTimes :
    frameMicroseconds (List.replicate 44 0) = 5984 ∧ frameMicroseconds (List.replicate 13 0) = 1904 := by decide
theorem test_linkDrive :
    State.reset.linkDrive = .pulse ∧ demoQuiet.linkDrive = .released ∧ Port.reset.outByte 63 = 0x00 := by decide +kernel
/-- Released, PORT_DO is not driven; selected, it shows the most significant bit first (R183). -/
theorem test_doLine : (let p : Port := { Port.reset with shown := [0x05] }
    p.doLine none = none ∧ p.doLine (some 0) = some false ∧ p.doLine (some 5) = some true ∧ p.doLine (some 7) = some true ∧
      p.doLine (some 8) = some false) := by decide

/-! ### States and operands that meet the hypotheses of the statements

`witness_<Name>` is about Obligations.<Name>; a clause with hypotheses of its own has its part. -/

theorem witness_StepOnEmptyQueue :
    (demo.pending = [] ∧ demo.internal? = some .roundStart) ∧
    (let s : State := { demo with link := Link.reset, tunnel := { demo.tunnel with pace := 3 } }
     s.pending = [] ∧ s.internal? = none ∧ s.stopLatch = false ∧ s.tunnel.machineRun = true) := by decide +kernel

/-- A step from a state whose lines agree with it. -/
theorem steps_with_lines (s : State) :
    let u := { s with pending := [.turnaroundEnd] }.refreshOutputs
    OutputsAgree u ∧ ∃ t, step u = .next t :=
  ⟨refreshOutputs_out _, _, rfl⟩

theorem witness_OutputsFollowState : ∃ s t : State, OutputsAgree s ∧ step s = .next t :=
  ⟨_, (steps_with_lines demo).2.choose, (steps_with_lines demo).1, (steps_with_lines demo).2.choose_spec⟩

theorem witness_FreeListComplete : ∃ s t : State, FreeListSound s ∧ step s = .next t := by
  refine ⟨{ demo with pending := [.turnaroundEnd] }, _, ⟨by decide +kernel, ?_⟩, rfl⟩
  show ∀ e : Fin 128, e ∈ demo.freeList ↔ demo.entry? e = none
  decide +kernel

theorem witness_TagsStayDistinct : ∃ s t : State, TagsDistinct s ∧ step s = .next t := by
  refine ⟨{ (State.reset.putEntry 0 (some (rackIn 1 0 .staged))).putEntry 1 (some (rackIn 2 0 .staged)) with
    pending := [.turnaroundEnd] }, _, ?_, rfl⟩
  have h : ∀ e : Fin 128, 2 ≤ e.val → ((State.reset.putEntry 0 (some (rackIn 1 0 .staged))).putEntry 1
      (some (rackIn 2 0 .staged))).entry? e = none := by decide +kernel
  have small : ∀ e x, ((State.reset.putEntry 0 (some (rackIn 1 0 .staged))).putEntry 1
      (some (rackIn 2 0 .staged))).entry? e = some x → (e = 0 ∧ x = rackIn 1 0 .staged) ∨ (e = 1 ∧ x = rackIn 2 0 .staged) := by
    intro e x hx
    by_cases he : 2 ≤ e.val
    · rw [h e he] at hx
      cases hx
    · have : e = 0 ∨ e = 1 := by
        rcases e with ⟨_ | _ | k, hk⟩
        · exact .inl rfl
        · exact .inr rfl
        · exact absurd (Nat.le_add_left 2 k) he
      rcases this with rfl | rfl
      · exact .inl ⟨rfl, (Option.some.inj hx).symm⟩
      · exact .inr ⟨rfl, (Option.some.inj hx).symm⟩
  intro e d x y hx hy ht
  rcases small e x hx with ⟨rfl, rfl⟩ | ⟨rfl, rfl⟩ <;> rcases small d y hy with ⟨rfl, rfl⟩ | ⟨rfl, rfl⟩
  · rfl
  · exact absurd ht (by decide)
  · exact absurd ht (by decide)
  · rfl

theorem witness_AttentionLines : ∃ s t : State, OutputsAgree s ∧ step s = .next t := witness_OutputsFollowState

theorem witness_PortMessagesDecode :
    (Instr.mode 1).wf = true ∧ (Instr.mode 1).portBody = some (2, [1]) ∧
    (Instr.defineSegment 31 none).wf = true ∧ (Instr.defineSegment 31 none).portBody = some (0x14, [31, 0]) := by decide

theorem witness_PortTransactions :
    demo.port.turnaround = false ∧ ({ demo.port with turnaround := true } : Port).turnaround = true ∧
    (Instr.nop).portBody = some (1, []) ∧ takeMessage [] = .badCheck ∧ takeMessage [0x03, 0x01, 0xFD] = .badCheck ∧
    takeMessage [0x03, 0x7F, 0x7E] = .unknown 0x7F := by decide +kernel

theorem witness_ReadsOfThePort :
    let t : State := demo
    t.port.turnaround = false ∧
    (7#8).toNat = (7 : EntryNo).val ∧ t.entry? 7 = none ∧ (127#8).toNat = (127 : EntryNo).val ∧ t.entry? 127 = none ∧
    (0#8).toNat = (0 : EntryNo).val ∧ t.entry? 0 = some (rackIn 1 0 .staged) ∧ t.find (plate 1) = some 0 ∧
    (4#8).toNat = (4 : SegNo).val ∧ t.seg? 4 = some exitSeg ∧ t.tunnel.config = some tunnelConfig ∧
    (1#8).toNat = (0 : NodeNo).val + 1 ∧ t.node? 0 = some (station (.load .low)) ∧
    127 < (128#8).toNat ∧ t.find (plate 99) = none ∧ 31 < (32#8).toNat ∧
    (31#8).toNat = (31 : SegNo).val ∧ t.seg? 31 = none ∧ State.reset.tunnel.config = none ∧
    16 < (17#8).toNat ∧ (16#8).toNat = (15 : NodeNo).val + 1 ∧ t.node? 15 = none := by decide +kernel

theorem witness_ReadAttentionAnswers : ∃ s : State, s.port.turnaround = false ∧ OutputsAgree s :=
  ⟨demo.refreshOutputs, rfl, refreshOutputs_out _⟩

theorem witness_SetAttentionReplaces :
    demo.port.turnaround = false ∧ (List.replicate 13 (0#8)).length ≠ 14 ∧ (List.replicate 14 (3#8)).length = 14 := by
  decide +kernel

theorem witness_AckClears : demo.port.turnaround = false ∧ (0#16) = 0 ∧ (0x2000#16).getLsbD 13 = true := by decide +kernel

theorem witness_AckNodeClearsMark :
    demo.port.turnaround = false ∧ 16 < (17#8).toNat ∧
    (16#8).toNat = (15 : NodeNo).val + 1 ∧ demo.node? 15 = none ∧
    (1#8).toNat = (0 : NodeNo).val + 1 ∧ demo.node? 0 = some (station (.load .low)) := by decide +kernel

theorem witness_SetParam :
    demo.port.turnaround = false ∧
    500 ≤ (500#16).toNat ∧ (10000#16).toNat ≤ 10000 ∧ (1#16).toNat ≤ 1 ∧ 60 ≤ (60#16).toNat ∧ (3600#16).toNat ≤ 3600 ∧
    1000 ≤ (1000#16).toNat ∧ (60000#16).toNat ≤ 60000 ∧ (2000#16).toNat ≤ 2000 ∧ (3#16).toNat ≤ 3 ∧
    10 ≤ (10#16).toNat ∧ (50#16).toNat ≤ 50 ∧ (600#16).toNat ≤ 600 ∧ (120#16).toNat ≤ 120 ∧
    (499#16).toNat < 500 ∧ 10000 < (10001#16).toNat ∧ (59#16).toNat < 60 ∧ 3600 < (3601#16).toNat ∧ 120 < (121#16).toNat ∧
    9 < (10#8).toNat := by decide +kernel

/-- The rewash limit may fall where no entry in circulation exceeds it. -/
theorem witness_SetParam_rewashLimit :
    (0#16).toNat < demo.params.rewashLimit ∧
    ∀ e x, demo.entry? e = some x → x.state ≠ .setAside → x.state ≠ .missing → x.rewashes ≤ 0 := by
  refine ⟨by decide, fun e x hx _ _ => ?_⟩
  have h : ∀ e : Fin 128, (demo.entry? e).all (fun x => decide (x.rewashes ≤ 0)) = true := by decide +kernel
  exact of_all (P := fun x => x.rewashes ≤ 0) (h e) hx

theorem witness_SetParam_occupied :
    let s := demo.putEntry 1 (some { rackIn 2 4 .cleared with rewashes := 2 })
    s.port.turnaround = false ∧ (1#16).toNat < s.params.rewashLimit ∧
    s.entry? 1 = some { rackIn 2 4 .cleared with rewashes := 2 } ∧
    (∀ d y, d < (1 : EntryNo) → s.entry? d = some y → y.state = .setAside ∨ y.state = .missing ∨ y.rewashes ≤ 1) := by
  refine ⟨rfl, by decide, by decide +kernel, fun d y hd hy => ?_⟩
  have h : ∀ d : Fin 128, ((demo.putEntry 1 (some { rackIn 2 4 .cleared with rewashes := 2 })).entry? d).all
      (fun y => decide (d < (1 : Fin 128) → y.state = .setAside ∨ y.state = .missing ∨ y.rewashes ≤ 1)) = true := by decide +kernel
  exact of_all (h d) hy hd

theorem witness_AdmitTakesRack :
    demo.port.turnaround = false ∧ demo.find (plate 9) = none ∧ (1#8).toNat = (1 : SegNo).val ∧
    demo.seg? 1 = some collect ∧ demo.freeList.head? = some 7 ∧ collect.freeSpace ≠ 0 ∧ collect.queue = [] ∧
    (demo.eyes.set 1 true).get collect.config.eye = true ∧ demo.eyes.get collect.config.eye = false ∧ park.queue ≠ [] := by
  decide +kernel

theorem witness_RetireFreesEntry :
    demo.port.turnaround = false ∧ demo.find (plate 4) = some 3 ∧ demo.entry? 3 = some (lost 4) ∧
    (lost 4).state = .missing ∧ demo.inTransfer 3 = false ∧
    demoConfigure.find (plate 1) = some 0 ∧ demoConfigure.entry? 0 = some (rackIn 1 0 .staged) ∧
    demoConfigure.mode = .configure ∧ demoConfigure.inTransfer 0 = false ∧
    (rackIn 1 0 .staged).location = some (.segment 0) ∧ demoConfigure.seg? 0 = some park ∧
    park.queue.head? = some 0 ∧ (lost 4).location = none ∧
    (let s : State := demo.putEntry 2 (some (rackIn 3 4 .setAside))
     s.find (plate 3) = some 2 ∧ s.inTransfer 2 = false ∧ (rackIn 3 4 .setAside).location = some (.segment 4) ∧
     s.seg? 4 = some exitSeg ∧ exitSeg.queue.head? ≠ some 2) := by decide +kernel

theorem witness_RestorePlacesRack :
    demo.port.turnaround = false ∧ demo.find (plate 4) = some 3 ∧ demo.entry? 3 = some (lost 4) ∧
    (1#8).toNat = (1 : SegNo).val ∧ demo.seg? 1 = some collect ∧ (0#8) = (if false then 1 else 0) ∧
    (1#8) = (if true then 1 else 0) ∧ (lost 4).state = .missing ∧ demo.inTransfer 3 = false ∧
    (collect.queue.erase 3).length + (collect.reservedTransfer + collect.reservedDispatch) < collect.config.capacity ∧
    (lost 4).location = none := by
  decide +kernel

/-- A rack taken out from behind a head for COLLECT, whose eye is blocked, and a head placed at the tail of its own queue. -/
theorem witness_RestorePlacesRack_removal :
    (let s : State := { demo.putEntry 2 (some (rackIn 3 4 .setAside)) with eyes := demo.eyes.set 1 true }
     s.find (plate 3) = some 2 ∧ s.entry? 2 = some (rackIn 3 4 .setAside) ∧ s.inTransfer 2 = false ∧
     (rackIn 3 4 .setAside).location = some (.segment 4) ∧ s.seg? 4 = some exitSeg ∧ exitSeg.queue.head? ≠ some 2 ∧
     s.seg? 1 = some collect ∧ collect.queue = [] ∧ s.eyes.get collect.config.eye = true) ∧
    (let s : State := demo.putEntry 1 (some (rackIn 2 4 .setAside))
     s.find (plate 2) = some 1 ∧ s.entry? 1 = some (rackIn 2 4 .setAside) ∧ s.inTransfer 1 = false ∧
     (4#8).toNat = (4 : SegNo).val ∧ s.seg? 4 = some exitSeg ∧ exitSeg.queue.head? = some 1 ∧ exitSeg.queue.erase 1 ≠ [] ∧
     (exitSeg.queue.erase 1).length + (exitSeg.reservedTransfer + exitSeg.reservedDispatch) < exitSeg.config.capacity) := by
  decide +kernel

/-- A rack SET_ASIDE at the head of an OPEN gate. -/
def asideInTransfer : State :=
  (demo.putEntry 0 (some (rackIn 1 0 .setAside))).putSeg 0 (some { park with transfer := some ⟨.segment 1, false, 10⟩ })

theorem witness_RackTableRefusals :
    demo.port.turnaround = false ∧ 32 < (33#8).toNat ∧ (32#8).toNat ≤ 32 ∧ demo.find (plate 1) = some 0 ∧
    demo.find (plate 9) = none ∧ (32#8).toNat = 0x20 ∧ (31#8).toNat = (31 : SegNo).val ∧ demo.seg? 31 = none ∧
    (0#8).toNat = (0 : SegNo).val ∧ demo.seg? 0 = some park ∧ ({ demo with freeList := [] } : State).freeList = [] ∧
    ({ park with config := { park.config with capacity := 1 } } : Segment).freeSpace = 0 ∧
    demo.find (plate 6) = some 5 ∧ demo.entry? 5 = some (washing 6 (passFrom 0)) ∧
    demo.entry? 0 = some (rackIn 1 0 .staged) ∧ demo.mode ≠ .configure ∧
    asideInTransfer.find (plate 1) = some 0 ∧ asideInTransfer.entry? 0 = some (rackIn 1 0 .setAside) ∧
    asideInTransfer.inTransfer 0 = true ∧ 1 < (2#8).toNat ∧ (1#8).toNat ≤ 1 ∧
    demo.find (plate 4) = some 3 ∧ demo.entry? 3 = some (lost 4) ∧ demo.inTransfer 3 = false ∧
    (let g : Segment := { park with config := { park.config with capacity := 1 } }
     g.config.capacity ≤ (g.queue.erase 3).length + (g.reservedTransfer + g.reservedDispatch)) := by decide +kernel

/-- Each part of the found table applies to some record. -/
theorem witness_FoundTable :
    (lost 4).verdict = .none ∧ ({ lost 4 with verdict := .pass 12000 false } : Entry).verdict = .pass 12000 false ∧
    ({ lost 4 with verdict := .fail .rinse 0 true } : Entry).verdict = .fail .rinse 0 true ∧
    2 < ({ lost 4 with rewashes := 3 } : Entry).rewashes ∧ (lost 4).rewashes + 1 ≤ 2 ∧
    (some Kind.plate = some (lost 4).tag.kind) := by decide

theorem witness_DeclarationAsMissing :
    demo.entry? 0 = some (rackIn 1 0 .staged) ∧ (rackIn 1 0 .staged).location = some (.segment 0) ∧
    demo.seg? 0 = some park ∧ park.queue.head? = some 0 ∧
    demo.entry? 5 = some (washing 6 (passFrom 0)) ∧ (washing 6 (passFrom 0)).location = some .tunnel := by decide +kernel

theorem witness_ClearTableFreesAll :
    demo.port.turnaround = false ∧ demo.mode ≠ .configure ∧ demoConfigure.port.turnaround = false ∧
    demoConfigure.mode = .configure := by decide +kernel

/-- A message that defines a PARK. -/
def rawPark : RawSegment := ⟨1, 4, some 1, none, 10, 10, none, none, none, some 1, none⟩

/-- What it defines. -/
def parkFields : SegFields := ⟨.park, 4, some (.segment 1), none, 10, 10, none, none, none, some 0, none⟩

theorem witness_DefineSegment :
    demoConfigure.port.turnaround = false ∧ demoConfigure.mode = .configure ∧ demo.mode ≠ .configure ∧
    segFields rawPark = some parkFields ∧
    (31#8).toNat = (31 : SegNo).val ∧ parkFields.consistent 31 = true ∧ demoConfigure.seg? 31 = none ∧
    (0#8).toNat = (0 : SegNo).val ∧ parkFields.consistent 0 = true ∧ demoConfigure.seg? 0 = some park ∧
    park.config.kind = parkFields.kind ∧ park.queue.length ≤ parkFields.capacity ∧ park.queue ≠ [] ∧
    31 < (32#8).toNat ∧ segFields { rawPark with kind := 10 } = none ∧
    segFields { rawPark with owner := none } = some { parkFields with owner := none } ∧
    SegFields.consistent { parkFields with owner := none } 31 = false ∧
    demoConfigure.seg? 2 = some entrySeg ∧ entrySeg.queue ≠ [] ∧ entrySeg.config.kind ≠ parkFields.kind := by decide +kernel

theorem witness_DefineSegment_removal : ∀ g, demoConfigure.seg? 1 = some g → g.queue = [] := by
  intro g hg
  have h : (demoConfigure.seg? 1).all (fun g => decide (g.queue = [])) = true := by decide +kernel
  exact of_all (P := fun g => g.queue = []) h hg

theorem witness_SegmentHoldAndRelease :
    demo.port.turnaround = false ∧ 31 < (32#8).toNat ∧ (31#8).toNat = (31 : SegNo).val ∧ demo.seg? 31 = none ∧
    (0#8).toNat = (0 : SegNo).val ∧ demo.seg? 0 = some park := by decide +kernel

/-- The ENTRY head has arrived. -/
def entryArrived : State := demo.putSeg 2 (some { entrySeg with headArrived := true })
/-- A LOADED head has arrived at the park's gate. -/
def parkArrived : State :=
  (demo.putEntry 0 (some (rackIn 1 0 .loaded))).putSeg 0 (some { park with headArrived := true })

theorem mayLeave_tunnel (s : State) (h : s.stopLatch = false) (hr : s.route entrySeg (rackIn 5 2 .queued) = some .tunnel)
    (he : s.entry? 4 = some (rackIn 5 2 .queued)) (ht : s.tunnelReady = true) :
    MayLeave s { entrySeg with headArrived := true } 4 (rackIn 5 2 .queued) .tunnel :=
  ⟨h, rfl, rfl, rfl, rfl, he, rfl, rfl, rfl, hr, nofun, fun _ => ht⟩

theorem witness_GateOpening_tunnel :
    entryArrived.mode = .run ∧ entryArrived.seg? 2 = some { entrySeg with headArrived := true } ∧
    MayLeave entryArrived { entrySeg with headArrived := true } 4 (rackIn 5 2 .queued) .tunnel ∧
    (∀ d, Place.tunnel = .segment d → entryArrived.arbiterPick d = some 2) ∧ Place.tunnel ≠ .segment 2 ∧
    entrySeg.config.kind = .entry ∧ entryArrived.tunnel.config = some tunnelConfig :=
  ⟨rfl, by decide +kernel, mayLeave_tunnel _ rfl rfl (by decide +kernel) (by decide +kernel), nofun, nofun, rfl, rfl⟩

theorem witness_GateOpening_segment :
    parkArrived.mode = .run ∧ parkArrived.seg? 0 = some { park with headArrived := true } ∧
    MayLeave parkArrived { park with headArrived := true } 0 (rackIn 1 0 .loaded) (.segment 1) ∧
    (∀ d, Place.segment 1 = .segment d → parkArrived.arbiterPick d = some 0) ∧ Place.segment 1 ≠ .segment 0 ∧
    parkArrived.seg? 1 = some collect := by
  refine ⟨rfl, by decide +kernel, ⟨rfl, rfl, rfl, rfl, rfl, by decide +kernel, rfl, rfl, rfl, rfl, ?_, nofun⟩, ?_, by decide,
    by decide +kernel⟩
  · intro d hd
    cases hd
    exact ⟨collect, by decide +kernel, rfl, .inl (by decide)⟩
  · intro d hd
    cases hd
    decide +kernel

theorem witness_GateOpening_step :
    let s : State := { entryArrived with mode := .service }
    s.port.turnaround = false ∧ s.mode = .service ∧ (2#8).toNat = (2 : SegNo).val ∧
    s.seg? 2 = some { entrySeg with headArrived := true } ∧
    MayLeave s { entrySeg with headArrived := true } 4 (rackIn 5 2 .queued) .tunnel :=
  ⟨rfl, rfl, rfl, by decide +kernel, mayLeave_tunnel _ rfl rfl (by decide +kernel) (by decide +kernel)⟩

/-- A rack RETURNING for node 0 or for none. -/
def returning (n : BitVec 22) (seg : SegNo) (node : Option NodeNo) : Entry :=
  { rackIn n seg .returning with assignment := node }

/-- One segment of each kind routes; a CLEAN segment's head to its own PARK, to the STORE of its kind, and to neither. -/
theorem witness_GateOpening_routing :
    park.config.kind = .park ∧ entrySeg.config.kind = .entry ∧ outfeedSeg.config.kind = .outfeed ∧
    exitSeg.config.kind = .exit ∧ storeSeg.config.kind = .store ∧ rewashSeg.config.kind = .rewash ∧
    asideSeg.config.kind = .aside ∧ cleanSeg.config.kind = .clean ∧ (rackIn 7 6 .stored).state ≠ .returning ∧
    (cleanSeg.config.alternate = some 0 ∧ demo.seg? 0 = some park ∧ (returning 7 6 (some 0)).assignment = some 0 ∧
      park.config.owner = some 0 ∧ park.jammed = false) ∧
    (cleanSeg2.config.alternate = some 8 ∧ demo.seg? 8 = some storeSeg ∧ (returning 7 9 none).assignment = none ∧
      storeSeg.config.storeKind = some .plate ∧ (returning 7 9 none).tag.kind = .plate ∧ 1 ≤ storeSeg.freeSpace ∧
      storeSeg.jammed = false) ∧
    demo.route cleanSeg (returning 7 6 (some 1)) = some (.segment 9) := by decide +kernel

/-- Of two ready gates the one after the merge pointer is granted (R46). -/
theorem witness_GateOpening_arbiter :
    let s := (parkArrived.putEntry 3 (some (rackIn 4 9 .loaded))).putSeg 10
      (some { belt { plainConfig .park 10 (some (.segment 1)) with owner := some 9 } [3] with headArrived := true })
    let pointed (p : SegNo) := s.putSeg 1 (some { collect with mergePointer := p })
    (pointed 0).seg? 1 = some { collect with mergePointer := 0 } ∧ (pointed 0).arbiterPick 1 = some 10 ∧
    (pointed 31).arbiterPick 1 = some 0 ∧ (pointed 9).arbiterPick 1 = some 10 ∧ (pointed 10).arbiterPick 1 = some 0 := by
  decide +kernel

/-- In SERVICE, with a segment changed. -/
def servicing (n : SegNo) (g : Segment) : State := (demoService.putEntry 0 (some (rackIn 1 0 .loaded))).putSeg n (some g)

theorem witness_StepRefuses :
    demoService.port.turnaround = false ∧ 31 < (32#8).toNat ∧ (31#8).toNat = (31 : SegNo).val ∧ demo.mode ≠ .service ∧
    demoService.mode = .service ∧ demoService.seg? 31 = none ∧
    (servicing 0 { park with transfer := some ⟨.segment 1, false, 9⟩ }).seg? 0 =
      some { park with transfer := some ⟨.segment 1, false, 9⟩ } ∧
    park.transfer = none ∧ ({ demoService with stopLatch := true } : State).stopLatch = true ∧
    (servicing 0 { park with jammed := true }).seg? 0 = some { park with jammed := true } ∧
    demoService.seg? 0 = some park ∧ park.headArrived = false ∧
    (let g : Segment := { park with headArrived := true, heldBySupervisor := true }
     (servicing 0 g).seg? 0 = some g ∧ g.queue.head? = some 0 ∧ (servicing 0 g).entry? 0 = some (rackIn 1 0 .loaded)) ∧
    (let g : Segment := { park with headArrived := true }
     let s := (servicing 0 g).putEntry 0 (some (rackIn 1 0 .staged))
     s.route g (rackIn 1 0 .staged) = none) ∧
    (let g : Segment := { park with headArrived := true }
     let s := (servicing 0 g).putSeg 1 (some { collect with jammed := true })
     s.route g (rackIn 1 0 .loaded) = some (.segment 1) ∧ s.seg? 1 = some { collect with jammed := true }) ∧
    (let s : State := { demoService with tunnel := { demo.tunnel with washOk := false } }
     s.route entrySeg (rackIn 5 2 .queued) = some .tunnel ∧ s.tunnelReady = false) := by decide +kernel

/-- A transfer from the park to COLLECT is in flight. -/
def parkOpen : State := parkArrived.putSeg 0
  (some { park with headArrived := true, transfer := some ⟨.segment 1, false, 4000⟩ })

theorem witness_Departure :
    (let g : Segment := { park with headArrived := true, transfer := some ⟨.segment 1, false, 4000⟩ }
     (0 : SegNo) ≠ 1 ∧ parkOpen.seg? 0 = some g ∧ g.queue = [0] ∧ parkOpen.seg? 1 = some collect ∧
     parkOpen.entry? 0 = some (rackIn 1 0 .loaded)) ∧
    (let g : Segment := { park with headArrived := true, transfer := some ⟨.segment 1, true, 4000⟩ }
     (parkArrived.putSeg 0 (some g)).seg? 0 = some g) ∧
    (let g : Segment := { entrySeg with headArrived := true, transfer := some ⟨.tunnel, false, 4000⟩ }
     (demo.putSeg 2 (some g)).seg? 2 = some g ∧ g.queue = [4] ∧
     (demo.putSeg 2 (some g)).entry? 4 = some (rackIn 5 2 .queued)) := by decide +kernel

/-- A departure into COLLECT with its eye blocked, into a segment with a queue, and into ASIDE. -/
theorem witness_Departure_arrival :
    (collect.queue = [] ∧ ({ parkOpen with eyes := demo.eyes.set 1 true } : State).eyes.get collect.config.eye = true ∧
     parkOpen.eyes.get collect.config.eye = false ∧ entrySeg.queue ≠ []) ∧
    (let g : Segment := { rewashSeg with queue := [0], transfer := some ⟨.segment 7, false, 4000⟩ }
     let s : State := (demo.putSeg 5 (some g)).putEntry 0 (some (rackIn 1 5 .setAside))
     s.seg? 5 = some g ∧ s.seg? 7 = some asideSeg ∧ asideSeg.config.kind = .aside ∧
     s.entry? 0 = some (rackIn 1 5 .setAside)) := by decide +kernel

theorem witness_EyeBlocking :
    demo.eyes.get 0 = false ∧ (demo.eyes.set 0 true).get 0 = true ∧
    (demo.putSeg 0 (some { park with jammed := true })).seg? 0 = some { park with jammed := true } ∧
    demo.seg? 0 = some park ∧ park.jammed = false ∧ park.queue ≠ [] ∧ demo.seg? 1 = some collect ∧ collect.queue = [] ∧
    demo.inbound 1 = false ∧ parkOpen.seg? 1 = some collect ∧ parkOpen.inbound 1 = true ∧
    park.queue.head? = some 0 ∧ demo.entry? 0 = some (rackIn 1 0 .staged) ∧
    collect.config.reader ≠ none ∧ collect.jammed = false ∧ demo.mode ≠ .configure ∧ park.config.reader = none ∧
    demoConfigure.mode = .configure := by decide +kernel

/-- COLLECT with its eye blocked and the blocking held unresolved. -/
def unresolved : State := { parkOpen.putSeg 1 (some { collect with unresolved := true }) with
  eyes := (demo.eyes.set 0 true).set 1 true }

/-- The blocking waits for the park's transfer; after it nothing is waited for. -/
theorem witness_EyeBlocking_unresolved :
    (unresolved.seg? 1 = some { collect with unresolved := true } ∧ unresolved.eyes.get collect.config.eye = true ∧
     unresolved.inbound 1 = true) ∧
    ∀ m h r, (unresolved.putSeg 0 (some park)).seg? m = some h → h.transfer = some r → r.dest ≠ .segment 1 :=
  ⟨by decide +kernel, fun m h r hm hr hd => by
    have hi : (unresolved.putSeg 0 (some park)).inbound 1 = true := inbound_iff.2 ⟨m, h, r, hm, hr, hd⟩
    exact absurd hi (by decide +kernel)⟩

theorem witness_EyeClears :
    demo.eyes.get 0 = false ∧ (demo.eyes.set 31 true).get 31 = true ∧
    parkOpen.seg? 0 = some { park with headArrived := true, transfer := some ⟨.segment 1, false, 4000⟩ } ∧
    demo.seg? 0 = some park ∧ park.transfer = none ∧ park.headArrived = false ∧
    parkArrived.seg? 0 = some { park with headArrived := true } ∧ park.jammed = false ∧ park.queue.head? = some 0 := by
  decide +kernel

theorem witness_Jams :
    (let s : State := { parkOpen with eyes := demo.eyes.set 0 true }
     s.seg? 0 = some { park with headArrived := true, transfer := some ⟨.segment 1, false, 4000⟩ } ∧
     s.eyes.get park.config.eye = true ∧ s.stopLatch = false ∧ Place.segment 1 ≠ .segment 0 ∧ s.seg? 1 = some collect) ∧
    (let g : Segment := { entrySeg with headArrived := true, transfer := some ⟨.tunnel, false, 4000⟩ }
     let s : State := { demo.putSeg 2 (some g) with eyes := demo.eyes.set 2 true }
     s.seg? 2 = some g ∧ s.eyes.get g.config.eye = true ∧ s.stopLatch = false ∧ Place.tunnel ≠ .segment 2) ∧
    (let g : Segment := { park with headArrived := true, jammed := true }
     let s := demo.putSeg 0 (some g)
     s.seg? 0 = some g ∧ s.eyes.get g.config.eye = false ∧ g.headArrived = true ∧ g.queue.head? = some 0 ∧
     ({ s with eyes := demo.eyes.set 0 true } : State).eyes.get g.config.eye = true ∧ s.port.turnaround = false) ∧
    (0#8).toNat = (0 : SegNo).val ∧ (31#8).toNat = (31 : SegNo).val ∧ demo.seg? 31 = none ∧
    demoRound.node? 3 = some (station .floor) ∧ (station .floor).presence = .present ∧ (station .floor).request = none ∧
    demoRound.link.phase = .windows round ∧ (station .floor).role = .floor ∧ demoRound.mode ≠ .configure := by
  decide +kernel

theorem witness_SafetyStop :
    demo.port.turnaround = false ∧ ({ demo with safeStop := true } : State).safeStop = true ∧ demo.safeStop = false ∧
    demo.stopLatch = false ∧ ({ demo with stopLatch := true } : State).stopLatch = true ∧
    demoRound.node? 3 = some (station .floor) ∧ (station .floor).presence = .present ∧ (station .floor).request = none ∧
    demoRound.link.phase = .windows round ∧ (station .floor).role = .floor ∧ demoRound.mode ≠ .configure := by
  decide +kernel

/-- The store's rack is RETURNING for node 0, whose park holds the reservation. -/
def assigned : State :=
  (demoEmpty.putEntry 6 (some (returning 7 8 (some 0)))).putSeg 0 (some { park with reservedDispatch := 1 })

/-- The store's gate is OPEN for it, straight to that park. -/
def carrying : Segment := { storeSeg with transfer := some ⟨.segment 0, true, 4000⟩ }

/-- A head whose transfer has a reservation at another segment, an assigned head, one behind a head, and a segment that none
of this concerns. -/
theorem witness_DeclarationAsMissing_releases :
    (parkOpen.entry? 0 = some (rackIn 1 0 .loaded) ∧ (rackIn 1 0 .loaded).location = some (.segment 0) ∧
     parkOpen.seg? 0 = some { park with headArrived := true, transfer := some ⟨.segment 1, false, 4000⟩ } ∧
     parkOpen.seg? 1 = some collect ∧ (1 : SegNo) ≠ 0) ∧
    (assigned.entry? 6 = some (returning 7 8 (some 0)) ∧ (returning 7 8 (some 0)).location = some (.segment 8) ∧
     assigned.seg? 8 = some storeSeg ∧ storeSeg.queue.head? = some 6 ∧ storeSeg.transfer = none ∧
     (returning 7 8 (some 0)).assignment = some 0 ∧ assigned.parkOf 0 = some 0) ∧
    (demo.entry? 2 = some { rackIn 3 4 .unloading with claim := some 1 } ∧ demo.seg? 4 = some exitSeg ∧
     exitSeg.queue.head? ≠ some 2 ∧ exitSeg.transfer = none ∧ demo.seg? 3 = some outfeedSeg) ∧
    (unresolved.entry? 0 = some (rackIn 1 0 .loaded) ∧ unresolved.seg? 1 = some { collect with unresolved := true } ∧
     demo.entry? 5 = some (washing 6 (passFrom 0)) ∧ (washing 6 (passFrom 0)).location = some .tunnel) := by decide +kernel

/-- A segment that holds STRANGER. -/
def strange (vouched : Option EntryNo) : Segment :=
  { park with headArrived := vouched.isSome, stranger := some ⟨some (plate 50), vouched, [plate 50]⟩ }

theorem witness_StrangersAndWindows :
    demo.port.turnaround = false ∧ 31 < (32#8).toNat ∧ (31#8).toNat = (31 : SegNo).val ∧ demo.seg? 31 = none ∧
    (0#8).toNat = (0 : SegNo).val ∧ demo.seg? 0 = some park ∧ park.stranger = none ∧
    (demo.putSeg 0 (some (strange none))).seg? 0 = some (strange none) ∧ demo.eyes.get park.config.eye = false ∧
    (demo.eyes.set 0 true).get park.config.eye = true ∧ (strange none).headArrived = false ∧
    (strange (some 0)).headArrived = true ∧ (strange (some 0)).queue.head? = some 0 ∧
    (let g : Segment := { park with window := .head 0 0 false }
     (demo.putSeg 0 (some g)).seg? 0 = some g) ∧
    (let g : Segment := { collect with window := .untracked 0 false }
     (demo.putSeg 1 (some g)).seg? 1 = some g) := by decide +kernel

/-- A tag that is a stranger's stays one (R76); a report of two tags at the exit, whose rack 1 is the arrived head and rack 2
the next; one at a gate that is OPEN, one at an empty queue that a transfer comes to. -/
theorem witness_SightingJudged_reports :
    (let g : Segment := { collect with stranger := some ⟨some (plate 8), none, [plate 8, plate 9]⟩ }
     (demo.putSeg 1 (some g)).seg? 1 = some g ∧ plate 9 ∈ g.strangerTags) ∧
    plate 3 ≠ plate 2 ∧ demo.find (plate 2) ≠ none ∧ demo.find (plate 3) = some 2 ∧ exitSeg.queue[1]? = some 2 ∧
    demo.find (plate 9) = none ∧ demo.gateOfReader 2 = some 1 ∧ demo.seg? 1 = some collect ∧
    (let s : State := { demo with eyes := demo.eyes.set 1 true }
     s.eyes.get collect.config.eye = true ∧ collect.transfer = none ∧ ¬ (collect.queue = [] ∧ s.inbound 1 = true)) ∧
    demo.eyes.get collect.config.eye = false ∧ collect.queue = [] ∧ parkOpen.inbound 1 = true := by decide +kernel

/-- A rack from the tunnel, sighted at the exit, passes two: the first gains its count, the second was overtaken before. -/
theorem witness_SightingJudged_relocation :
    let s := demo.putEntry 2 (some { rackIn 3 4 .unloading with overtaken := 1 })
    s.seg? 4 = some exitSeg ∧ s.entry? 5 = some (washing 6 (passFrom 0)) ∧ exitSeg.queue.Nodup ∧
    exitSeg.queue.head? ≠ some 5 ∧ exitSeg.queue.takeWhile (· != 5) = [1, 2] ∧
    s.entry? 1 = some (rackIn 2 4 .cleared) ∧ (rackIn 2 4 .cleared).overtaken = 0 ∧
    s.entry? 2 = some { rackIn 3 4 .unloading with overtaken := 1 } ∧
    ({ rackIn 3 4 .unloading with overtaken := 1 } : Entry).location = some (.segment 4) := by decide +kernel

theorem witness_SightingJudged_risesOver : ¬ risesOver (washing 6 (passFrom 0)) 2 ∧ risesOver (washing 6 (passFrom 0)) 0 :=
  ⟨fun h => absurd h.2.2 (by decide), rfl, ⟨passFrom 0, rfl, nofun⟩, by decide⟩

/-- A rack that has no place, one in the tunnel, heads at a CLOSED gate with another rack behind them at a blocked eye and alone,
one behind a head, a head at an OPEN gate toward the tunnel and toward a segment; an assigned rack, with its park and without. -/
theorem witness_SightingJudged_takenOut :
    (demo.entry? 3 = some (lost 4) ∧ (lost 4).location = none) ∧
    (demo.entry? 5 = some (washing 6 (passFrom 0)) ∧ (washing 6 (passFrom 0)).location = some .tunnel) ∧
    (let g : Segment := { exitSeg with headArrived := true }
     let s : State := { demo.putSeg 4 (some g) with eyes := demo.eyes.set 4 true }
     s.entry? 1 = some (rackIn 2 4 .cleared) ∧ s.seg? 4 = some g ∧ g.transfer = none ∧ g.queue.head? = some 1 ∧
     g.headArrived = true ∧ g.stranger = none ∧ s.eyes.get g.config.eye = true ∧ (g.queue.erase 1).head? = some 2 ∧
     s.entry? 2 = some { rackIn 3 4 .unloading with claim := some 1 } ∧ g.queue.head? ≠ some 2) ∧
    (park.queue.head? = some 0 ∧ park.queue.erase 0 = [] ∧ park.transfer = none) ∧
    (let g : Segment := { entrySeg with headArrived := true, transfer := some ⟨.tunnel, false, 4000⟩ }
     let s : State := demo.putSeg 2 (some g)
     s.seg? 2 = some g ∧ g.queue.head? = some 4 ∧ s.entry? 4 = some (rackIn 5 2 .queued)) ∧
    (let g : Segment := { park with headArrived := true, transfer := some ⟨.segment 1, false, 4000⟩ }
     parkOpen.seg? 0 = some g ∧ g.queue.head? = some 0 ∧ (1 : SegNo) ≠ 0 ∧ parkOpen.seg? 1 = some collect ∧
     parkOpen.entry? 0 = some (rackIn 1 0 .loaded)) ∧
    (assigned.entry? 6 = some (returning 7 8 (some 0)) ∧ (returning 7 8 (some 0)).assignment = some 0 ∧
     assigned.parkOf 0 = some 0 ∧ assigned.seg? 0 = some { park with reservedDispatch := 1 } ∧
     (assigned.putSeg 0 none).parkOf 0 = none ∧ (lost 4).assignment = none) := by decide +kernel

/-- A new entry; a segment over its capacity, and one at it; a rack taken out as the head, with another behind it at a blocked
eye, and one from behind the head. -/
theorem witness_SightingJudged_rest :
    demo.seg? 0 = some park ∧ (7 : EntryNo) ∉ park.queue ∧ park.config.kind = .park ∧ park.queue.Nodup ∧
    (0 : EntryNo) ∈ park.queue ∧ demo.entry? 0 = some (rackIn 1 0 .staged) ∧ (rackIn 1 0 .staged).overtaken = 0 ∧
    (let x : Entry := { rackIn 1 0 .staged with overtaken := 1 }
     (demo.putEntry 0 (some x)).entry? 0 = some x ∧ x.overtaken ≠ 0 ∧ x.location = some (.segment 0)) ∧
    (let g : Segment := { park with reservedDispatch := 4 }
     (demo.putSeg 0 (some g)).seg? 0 = some g ∧
     g.config.capacity < g.queue.length + (g.reservedTransfer + g.reservedDispatch) ∧ g.queue.getLast? = some 0) ∧
    (let g : Segment := { park with reservedDispatch := 3 }
     g.queue.length + (g.reservedTransfer + g.reservedDispatch) ≤ g.config.capacity) ∧
    (rackIn 2 4 .cleared).location = some (.segment 4) ∧ demo.seg? 4 = some exitSeg ∧ exitSeg.queue.head? = some 1 ∧
    exitSeg.queue.erase 1 ≠ [] ∧ exitSeg.queue.head? ≠ some 2 := by decide +kernel

theorem witness_SightingJudged :
    demo.seg? 4 = some exitSeg ∧ demo.find (plate 2) = some 1 ∧ exitSeg.queue.head? = some 1 ∧
    demo.find (plate 3) = some 2 ∧ exitSeg.queue.head? ≠ some 2 ∧ demo.find (plate 9) = none ∧
    demo.params.autoAdmission = false ∧ demo.seg? 1 = some collect ∧
    (let s : State := { demo with params := { demo.params with autoAdmission := true } }
     s.params.autoAdmission = true ∧ collect.config.kind = .collect ∧ s.freeList.head? = some 7) ∧
    collect.stranger = none ∧ ({ demo with freeList := [] } : State).freeList = [] ∧
    demo.entry? 2 = some { rackIn 3 4 .unloading with claim := some 1 } := by decide +kernel

theorem witness_DefineTunnelTakes :
    (let f : RawTunnel := ⟨24, 10, 100, 200, 300, 20, 280, none, some 15⟩
     1 ≤ f.capacity.toNat ∧ f.capacity.toNat ≤ 24 ∧ f.pitch ≠ 0 ∧ f.finalStart ≠ 0 ∧ f.finalEnd ≠ 0 ∧ f.exitDistance ≠ 0 ∧
     f.paceBase ≠ some 0 ∧ (15#8).toNat ≤ 15 ∧ f.finalStart.toNat < f.finalEnd.toNat ∧
     f.finalEnd.toNat < f.exitDistance.toNat ∧ f.exitDistance.toNat + f.exitTolerance.toNat ≤ 65535 ∧
     f.exitTolerance.toNat < f.exitDistance.toNat - f.finalEnd.toNat ∧
     f.haltMargin.toNat ≤ f.exitDistance.toNat - f.exitTolerance.toNat) ∧
    ¬ (25#8).toNat ≤ 24 ∧ ¬ (281#16).toNat ≤ 280 ∧ demo.mode ≠ .configure ∧ demoConfigure.mode = .configure ∧
    demoConfigure.port.turnaround = false := by decide +kernel

theorem witness_TunnelFaults :
    demo.port.turnaround = false ∧ demo.tunnel.fault = none ∧
    ({ demo.tunnel with fault := some ⟨.phantom, .overrun, 255⟩ } : Tunnel).fault = some ⟨.phantom, .overrun, 255⟩ := by
  decide +kernel

/-- The tunnel of `demo` with the head's record and the encoder changed. -/
def inTunnel (p : PassRecord) (encoder : BitVec 24) : State :=
  { demo.putEntry 5 (some (washing 6 p)) with tunnel := { demo.tunnel with encoder := encoder } }

/-- At final end; a dwell of 12000 and of 11999 ms; a head one pulse beyond the latest exit, and one at it. -/
theorem witness_EncoderCount :
    demo.tunnel.config = some tunnelConfig ∧ State.reset.tunnel.config = none ∧
    (let p : PassRecord := { passFrom 0xFFFFFF with dwell := 12000 }
     (inTunnel p 199).entry? 5 = some (washing 6 p) ∧ (199#24 - p.mark).toNat = tunnelConfig.finalEnd ∧ p.fixed = .no ∧
     demo.params.minDwell ≤ p.dwell ∧ p.dropoutMark = false) ∧
    (let p : PassRecord := { passFrom 0 with dwell := 11999 }
     (inTunnel p 200).entry? 5 = some (washing 6 p) ∧ ¬ demo.params.minDwell ≤ p.dwell) ∧
    (inTunnel (passFrom 0) 321).tunnel.list = [5] ∧ (inTunnel (passFrom 0) 321).entry? 5 = some (washing 6 (passFrom 0)) ∧
    tunnelConfig.exitDistance + tunnelConfig.exitTolerance < (321#24 - (passFrom 0).mark).toNat ∧
    (320#24 - (passFrom 0).mark).toNat ≤ tunnelConfig.exitDistance + tunnelConfig.exitTolerance ∧
    demoEmpty.tunnel.list = [] := by decide +kernel

theorem witness_ExitEyeBlocks :
    ({ demo.tunnel with exitEye := true } : Tunnel).exitEye = true ∧ demo.tunnel.exitEye = false ∧
    demoConfigure.mode = .configure ∧ State.reset.tunnel.config = none ∧ demo.mode ≠ .configure ∧
    demo.tunnel.config = some tunnelConfig ∧ demoEmpty.tunnel.list = [] ∧ demo.tunnel.list = [5] ∧
    demo.entry? 5 = some (washing 6 (passFrom 0)) ∧ (washing 6 (passFrom 0)).pass = some (passFrom 0) ∧
    (279#24 - (passFrom 0).mark).toNat < tunnelConfig.exitDistance - tunnelConfig.exitTolerance ∧
    tunnelConfig.exitDistance - tunnelConfig.exitTolerance ≤ (280#24 - (passFrom 0).mark).toNat ∧
    (inTunnel (passFrom 0) 280).outfeed = some 3 ∧ (inTunnel (passFrom 0) 280).seg? 3 = some outfeedSeg ∧
    1 ≤ outfeedSeg.freeSpace ∧ outfeedSeg.queue = [] ∧ (demo.eyes.set 3 true).get outfeedSeg.config.eye = true ∧
    (inTunnel (passFrom 0) 280).eyes.get outfeedSeg.config.eye = false ∧
    (let g : Segment := { outfeedSeg with queue := [10, 11, 12, 13] }
     let s := (inTunnel (passFrom 0) 280).putSeg 3 (some g)
     s.outfeed = some 3 ∧ s.seg? 3 = some g ∧ g.freeSpace = 0) ∧
    (washing 6 (passFrom 0)).location = some .tunnel ∧
    ({ washing 6 (passFrom 0) with verdict := .pass 12000 false } : Entry).verdict = .pass 12000 false ∧
    ({ passFrom 0 with overLimit := true } : PassRecord).overLimit = true := by decide +kernel

theorem witness_TunnelLinesAndPace :
    (let s : State := { demo with tunnel := { demo.tunnel with pace := 1 } }
     s.tunnel.machineRun = true ∧ s.tunnel.pace ≠ 0 ∧ s.mode ≠ .quiet) ∧
    demo.tunnel.pace = 0 := by decide +kernel

theorem final_zone (s : State) (h : s.tunnel.config = some tunnelConfig) (he : s.tunnel.encoder = 150) :
    inFinalZone s (washing 6 (passFrom 0)) :=
  ⟨tunnelConfig, passFrom 0, h, rfl, by rw [he]; decide, by rw [he]; decide⟩

theorem witness_RinseMeasures :
    demo.tunnel.list.Nodup ∧ demo.tunnel.rinseOk = false ∧
    ({ demo with tunnel := { demo.tunnel with rinseOk := true } } : State).tunnel.rinseOk = true ∧
    (5 : EntryNo) ∈ demo.tunnel.list ∧ demo.entry? 5 = some (washing 6 (passFrom 0)) ∧
    inFinalZone demo (washing 6 (passFrom 0)) ∧ (0 : EntryNo) ∉ demo.tunnel.list ∧
    demo.entry? 0 = some (rackIn 1 0 .staged) :=
  ⟨by decide +kernel, rfl, rfl, by decide +kernel, by decide +kernel, final_zone _ rfl rfl, by decide +kernel,
    by decide +kernel⟩

theorem witness_DefineNodeTakes :
    demo.port.turnaround = false ∧ 16 < (17#8).toNat ∧ nodeFields ⟨5, none, none⟩ = none ∧
    nodeFields ⟨4, none, none⟩ = some ⟨4, none, none⟩ ∧ NodeFields.role? ⟨4, none, none⟩ = some .floor ∧
    nodeFields ⟨4, some 1, none⟩ = some ⟨4, some .high, none⟩ ∧ NodeFields.role? ⟨4, some .high, none⟩ = none ∧
    (16#8).toNat = (15 : NodeNo).val + 1 ∧ demo.mode ≠ .configure ∧ demoConfigure.mode = .configure ∧
    demoConfigure.holdsClaim 1 = true ∧ demoConfigure.holdsClaim 0 = false ∧ demoConfigure.node? 15 = none ∧
    demoConfigure.node? 3 = some (station .floor) ∧ (station .floor).role.code = Role.floor.code ∧
    demoConfigure.node? 1 = some (station .unload) ∧ (station .unload).role.code ≠ Role.floor.code ∧
    ({ demoConfigure with link := { demo.link with phase := .windows round } } : State).round? = some round := by
  decide +kernel

theorem witness_SteerTakes :
    demo.port.turnaround = false ∧ 1 < (2#8).toNat ∧
    (let s := demo.putNode 0 (some (Node.new .floor))
     s.node? 0 = some (Node.new .floor) ∧ (Node.new .floor).branch = none) := by decide +kernel

theorem witness_SteerTakes_learned : ∀ n x, demo.node? n = some x → x.branch ≠ none := by
  intro n x hx
  have h : ∀ n : Fin 16, (demo.node? n).all (fun x => decide (x.branch ≠ none)) = true := by decide +kernel
  exact of_all (P := fun x => x.branch ≠ none) (h n) hx

theorem witness_LinkReset :
    demo.port.turnaround = false ∧ demo.entry? 2 = some { rackIn 3 4 .unloading with claim := some 1 } ∧
    demo.seg? 0 = some park ∧ State.reset.link.phase = .pulse ∧ demo.mode ≠ .quiet ∧ demoQuiet.mode = .quiet ∧
    ({ demoQuiet with link := Link.reset } : State).link.phase = .pulse ∧ demoQuiet.link.phase ≠ .pulse ∧
    demoQuiet.link.phase = .silent ∧ demoQuiet.link.coldDue = true ∧
    ({ demoQuiet.link with coldDue := false } : Link).coldDue = false ∧
    (let s : State := { demoQuiet with link := { demo.link with phase := .windows round } }
     s.mode = .quiet ∧ s.link.phase = .windows round ∧ s.link.phase ≠ .pulse) ∧
    assigned.entry? 6 = some (returning 7 8 (some 0)) ∧ (returning 7 8 (some 0)).claim = none ∧
    (returning 7 8 (some 0)).assignment ≠ none ∧
    demo.entry? 9 = none ∧ demo.seg? 31 = none ∧ (assigned.putSeg 8 (some carrying)).seg? 8 = some carrying := by
  decide +kernel

theorem witness_RoundStarts :
    demo.link.phase = .between ∧ demo.mode ≠ .quiet ∧ demo.link.steering = false ∧
    ({ demo.link with steering := true } : Link).steering = true := by decide +kernel

/-- An answer that waits for node 0. -/
def waiting : StationAnswer :=
  { node := 0, kind := 1, argument := .tag (plate 1), result := .done, badMark := false, summary := none }

theorem witness_HeaderAndRoundEnd :
    (let r : Round := { round with carried := [(waiting, false)] }
     let s : State := { demo with answers := [waiting], link := { demo.link with phase := .header r } }
     s.link.phase = .header r ∧ r.carried.map Prod.fst = s.answers.take r.carried.length) ∧
    demoRound.link.phase = .windows round := by decide +kernel

/-- A reply of a node that carries nothing. -/
def bare (n : NodeNo) (ready : Bool) : Reply := ⟨n, ready, none, [], none⟩

theorem witness_WindowWithoutReply :
    demoRound.link.phase = .windows round ∧ demoRound.node? 1 = some (station .unload) ∧ ((1, some .a) ∈ round.map) ∧
    (1 : NodeNo) ∉ round.heard ∧ (1 : NodeNo) ∉ round.judged ∧ (1 : NodeNo) ∉ round.removed ∧
    judgeFrame [0x20, 0x00, 0xE0, 0x00, 0x00, 0x00] = .long ∧ judgeFrame [0x20, 0x00, 0xE1, 0x00] = .check ∧
    judgeFrame [0xF0, 0x00, 0x10, 0x00] = .good ⟨15, false, none, [], none⟩ ∧ demoRound.node? 15 = none ∧
    (station .unload).errorRun < 2 ∧ (station .unload).presence ≠ .absent ∧
    (demo.putNode 1 (some { station .unload with errorRun := 2 })).node? 1 = some { station .unload with errorRun := 2 } ∧
    demo.entry? 2 = some { rackIn 3 4 .unloading with claim := some 1 } ∧
    (assigned.putNode 0 (some { station (.load .low) with errorRun := 2 })).node? 0 =
      some { station (.load .low) with errorRun := 2 } ∧
    assigned.entry? 6 = some (returning 7 8 (some 0)) ∧ (returning 7 8 (some 0)).claim ≠ some 0 ∧
    (returning 7 8 (some 0)).assignment = some 0 := by decide +kernel

/-- An unsteered round of one window. -/
def unsteered : Round := { round with steered := false, map := [(1, none)] }

/-- Activity judged on the branch where it began first, and on the owner's own branch; a branch that stays silent; a frame
that names another defined node, learned on the owner's branch and on another. -/
theorem witness_WindowWithoutReply_judged :
    judgedBy unsteered 1 [(.c, .unfinished), (.a, .heldActive)] .unfinished ∧
    judgedBy round 1 [(.c, .unfinished), (.a, .heldActive)] .heldActive ∧
    (round.steered = true ∧ (round.map.find? fun p => p.1 == 1) = some (1, some .a) ∧
      ∀ p ∈ [(Branch.c, WindowActivity.unfinished)], p.1 ≠ .a) ∧
    judgeFrame [0x00, 0x00, 0x00, 0x00] = .good (bare 0 false) ∧ demo.node? 0 = some (station (.load .low)) ∧
    (station (.load .low)).branch = some .a ∧ ({ station (.load .low) with branch := some .b } : Node).branch ≠ some .a ∧
    judgeFrame [0x10, 0x00, 0xF0, 0x00] = .good (bare 1 false) :=
  ⟨.inl ⟨rfl, .c, _, rfl⟩, .inr ⟨rfl, .a, [(.c, .unfinished)], [], by decide, rfl, by decide⟩, ⟨rfl, by decide, by decide⟩,
    by decide, by decide +kernel, rfl, by decide, by decide⟩

/-- Without a transfer, and with one that carries the reservation to the park. -/
theorem witness_WindowWithoutReply_assignment :
    assigned.entry? 6 = some (returning 7 8 (some 0)) ∧ assigned.parkOf 0 = some 0 ∧
    assigned.seg? 0 = some { park with reservedDispatch := 1 } ∧ assigned.carrier 6 = none ∧
    (let s := assigned.putSeg 8 (some carrying)
     s.seg? 8 = some carrying ∧ carrying.transfer = some ⟨.segment 0, true, 4000⟩ ∧ carrying.queue.head? = some 6 ∧
     s.carrier 6 = some 8 ∧ (8 : SegNo) ≠ 0 ∧ s.parkOf 0 = some 0) := by decide +kernel

/-- A READER's reply outside CONFIGURE, and a LOAD node's. -/
theorem witness_ValidReply_handsOn :
    demoRound.node? (bare 2 true).node = some (station (.reader 1)) ∧ (round.owners .a)[2]? = some (bare 2 true).node ∧
    (station (.reader 1)).role = .reader 1 ∧ demoRound.mode ≠ .configure ∧ (bare 2 true).ready = true ∧
    demoRound.node? (bare 0 true).node = some (station (.load .low)) ∧ (round.owners .a)[0]? = some (bare 0 true).node ∧
    0 < round.windowCount ∧ (station (.load .low)).role = .load .low ∧ demoRound.link.phase = .windows round := by
  decide +kernel

theorem witness_HandedOnAsCommands :
    rackRow (.resume (.station 3)) = some (.station 3, ⟨10, .none, none, none⟩) ∧ Heard demoRound 3 (station .floor) :=
  ⟨rfl, by decide +kernel, rfl, rfl, round, rfl⟩

theorem witness_ValidReply :
    demoRound.link.phase = .windows round ∧ demoRound.node? (bare 1 true).node = some (station .unload) ∧
    1 < round.windowCount ∧ (round.owners .a)[1]? = some (bare 1 true).node ∧
    (bare 1 true).node ∉ round.heard ∧ (bare 1 true).node ∉ round.judged ∧ (bare 1 true).node ∉ round.removed ∧
    (bare 1 false).ready = false ∧ demoRound.node? (bare 15 true).node = none ∧ round.windowCount ≤ 3 ∧
    (1 : NodeNo) ∈ ({ round with heard := [1] } : Round).heard ∧
    (round.owners .b)[1]? ≠ some (bare 1 true).node ∧ round.steered = true ∧
    (station .unload).branch ≠ some Branch.b ∧ (round.owners .a)[2]? ≠ some (bare 1 true).node ∧
    (station .unload).branch = some Branch.a := by decide +kernel

theorem heard_load : Heard demoRound 0 (station (.load .low)) := ⟨by decide +kernel, rfl, rfl, round, rfl⟩
theorem heard_unload : Heard demoRound 1 (station .unload) := ⟨by decide +kernel, rfl, rfl, round, rfl⟩
theorem heard_reader : Heard demoRound 2 (station (.reader 1)) := ⟨by decide +kernel, rfl, rfl, round, rfl⟩
theorem heard_floor : Heard demoRound 3 (station .floor) := ⟨by decide +kernel, rfl, rfl, round, rfl⟩

/-- In the closing round of QUIET a station is still heard. -/
theorem heard_closingRound :
    Heard { demoRound with mode := .quiet } 1 (station .unload) := ⟨by decide +kernel, rfl, rfl, round, rfl⟩

/-- An expected state that is the entry's. -/
theorem expects_own : Expects none .staged ∧ Expects (some 1) .staged ∧ Expects (some 11) .missing := by
  refine ⟨nofun, ?_, ?_⟩ <;> intro b h <;> cases h <;> rfl

theorem witness_LookupReports :
    demoRound.port.turnaround = false ∧ demoRound.find (plate 1) = some 0 ∧ demoRound.find (plate 9) = none ∧
    ∃ n x, Heard demoRound n x := ⟨rfl, by decide +kernel, by decide +kernel, 0, _, heard_load⟩

theorem witness_Send :
    Heard demoRound 0 (station (.load .low)) ∧ (station (.load .low)).role = .load .low ∧ demoRound.mode ≠ .configure ∧
    demoRound.parkOf 0 = some 0 ∧ demoRound.find (plate 1) = some 0 ∧ demoRound.seg? 0 = some park ∧ park.queue.head? = some 0 ∧
    demoRound.entry? 0 = some (rackIn 1 0 .staged) ∧ (rackIn 1 0 .staged).location = some (.segment 0) ∧
    Expects (some 1) .staged ∧
    (let s := demoRound.putSeg 0 (some { park with queue := [] })
     s.parkOf 0 = some 0 ∧ s.seg? 0 = some { park with queue := [] }) ∧
    demoRound.find (plate 2) = some 1 ∧ demoRound.entry? 1 = some (rackIn 2 4 .cleared) ∧
    (demoRound.putSeg 0 none).parkOf 0 = none ∧
    (parkArrived.entry? 0 = some (rackIn 1 0 .loaded) ∧ (rackIn 1 0 .loaded).state ≠ .staged ∧ parkArrived.parkOf 0 = some 0) ∧
    (demoRound.find (plate 6) = some 5 ∧ demoRound.entry? 5 = some (washing 6 (passFrom 0)) ∧
      (washing 6 (passFrom 0)).state = .washing) ∧
    (rackIn 2 4 .cleared).state ≠ .staged ∧
    (RackState.ofCode (2#8).toNat = some .loaded ∧ (rackIn 1 0 .staged).state ≠ .loaded) :=
  ⟨heard_load, rfl, nofun, by decide +kernel, by decide +kernel, by decide +kernel, rfl, by decide +kernel, rfl,
    expects_own.2.1, by decide +kernel, by decide +kernel, by decide +kernel, by decide +kernel, by decide +kernel,
    by decide +kernel, nofun, rfl, nofun⟩

/-- A rack CLEARED at position 1, within the reach; one claimed by node 1; one claimed by another; one not CLEARED. -/
theorem witness_ClaimTakes :
    Heard demoRound 1 (station .unload) ∧ (station .unload).role = .unload ∧ demoRound.mode ≠ .configure ∧
    demoRound.find (plate 2) = some 1 ∧ demoRound.entry? 1 = some (rackIn 2 4 .cleared) ∧ demoRound.seg? 4 = some exitSeg ∧
    exitSeg.config.kind = .exit ∧ (1 : EntryNo) ∈ exitSeg.queue ∧ exitSeg.queue.idxOf 1 + 1 ≤ exitSeg.config.reach ∧
    exitSeg.queue.idxOf 2 + 1 = exitSeg.config.reach ∧
    demoRound.find (plate 3) = some 2 ∧ demoRound.entry? 2 = some { rackIn 3 4 .unloading with claim := some 1 } ∧
    (demoRound.putEntry 2 (some { rackIn 3 4 .unloading with claim := some 9 })).entry? 2 =
      some { rackIn 3 4 .unloading with claim := some 9 } ∧
    demoRound.find (plate 1) = some 0 ∧ demoRound.entry? 0 = some (rackIn 1 0 .staged) ∧ Expects none .cleared ∧
    demoRound.find (plate 6) = some 5 ∧ demoRound.entry? 5 = some (washing 6 (passFrom 0)) :=
  ⟨heard_unload, rfl, nofun, by decide +kernel, by decide +kernel, by decide +kernel, rfl, by decide +kernel,
    by decide +kernel, by decide +kernel, by decide +kernel, by decide +kernel, by decide +kernel, by decide +kernel,
    by decide +kernel, nofun, by decide +kernel, by decide +kernel⟩

theorem witness_HolderRequestsTake :
    Heard demoRound 1 (station .unload) ∧ (station .unload).role = .unload ∧ demoRound.mode ≠ .configure ∧
    demoRound.find (plate 3) = some 2 ∧ demoRound.entry? 2 = some { rackIn 3 4 .unloading with claim := some 1 } ∧
    Expects none .unloading ∧ demoRound.find (plate 2) = some 1 ∧ demoRound.entry? 1 = some (rackIn 2 4 .cleared) ∧
    demoRound.find (plate 6) = some 5 ∧ demoRound.entry? 5 = some (washing 6 (passFrom 0)) ∧
    (washing 6 (passFrom 0)).state = .washing :=
  ⟨heard_unload, rfl, nofun, by decide +kernel, by decide +kernel, nofun, by decide +kernel, by decide +kernel,
    by decide +kernel, by decide +kernel, rfl⟩

theorem witness_HoldAndUnhold :
    demoRound.port.turnaround = false ∧ demoRound.find (plate 1) = some 0 ∧ demoRound.entry? 0 = some (rackIn 1 0 .staged) ∧
    (rackIn 1 0 .staged).state ≠ .missing ∧ (rackIn 1 0 .staged).hold = none ∧ Expects none .staged ∧
    (let g : Segment := { park with headArrived := true }
     let s := demoRound.putSeg 0 (some g)
     s.seg? 0 = some g ∧ s.entry? 0 = some (rackIn 1 0 .staged) ∧ g.transfer = none ∧ g.queue.head? = some 0) ∧
    (demoRound.putEntry 0 (some { rackIn 1 0 .staged with hold := some .supervisor })).entry? 0 =
      some { rackIn 1 0 .staged with hold := some .supervisor } ∧
    (demoRound.putEntry 0 (some { rackIn 1 0 .staged with hold := some .inspect })).entry? 0 =
      some { rackIn 1 0 .staged with hold := some .inspect } ∧
    Heard demoRound 3 (station .floor) ∧ (station .floor).role = .floor ∧ demoRound.mode ≠ .configure ∧
    demoRound.find (plate 4) = some 3 ∧ demoRound.entry? 3 = some (lost 4) ∧ (lost 4).state = .missing ∧ Expects (some 11) .missing :=
  ⟨rfl, by decide +kernel, by decide +kernel, nofun, rfl, nofun, by decide +kernel, by decide +kernel, by decide +kernel,
    heard_floor, rfl, nofun, by decide +kernel, by decide +kernel, rfl, expects_own.2.2⟩

theorem witness_SupervisorRights :
    demoRound.port.turnaround = false ∧ demoRound.find (plate 3) = some 2 ∧
    demoRound.entry? 2 = some { rackIn 3 4 .unloading with claim := some 1 } ∧ Expects none .unloading ∧
    demoRound.find (plate 4) = some 3 ∧ demoRound.entry? 3 = some (lost 4) ∧ (lost 4).state ≠ .unloading ∧
    1 ≤ (1#8).toNat ∧ (11#8).toNat ≤ 11 :=
  ⟨rfl, by decide +kernel, by decide +kernel, nofun, by decide +kernel, by decide +kernel, nofun, by decide, by decide⟩

/-- A malformed request; one of every group that a role may not make; a tag of no entry; another state than expected; a
request of a node that is pending. -/
theorem witness_StationTests :
    (∃ n x, Heard demoRound n x) ∧
    rackRow (.clearJam (.station 3) 32) = some (.station 3, ⟨9, .segment 32, none, none⟩) ∧
    RackRequest.parse ⟨9, .segment 32, none, none⟩ = none ∧
    Heard { demoRound with mode := .configure } 3 (station .floor) ∧
    ({ demoRound with mode := .configure } : State).mode = .configure ∧
    rackRow (.resume (.station 3)) = some (.station 3, ⟨10, .none, none, none⟩) ∧
    RackRequest.parse ⟨10, .none, none, none⟩ = some .resume ∧ demoRound.mode ≠ .configure ∧
    Heard demoRound 2 (station (.reader 1)) ∧
    RackRequest.parse ⟨2, .none, none, none⟩ = some (.onRack .send none none) ∧
    RackRequest.parse ⟨3, .tag (plate 1), none, none⟩ = some (.onRack .claim (some (plate 1)) none) ∧
    RackRequest.parse ⟨7, .tag (plate 1), none, some 2⟩ = some (.onRack (.hold (some .supervisor)) (some (plate 1)) none) ∧
    RackRequest.parse ⟨8, .tag (plate 1), some 11, none⟩ =
      some (.onRack (.unhold none) (some (plate 1)) (some .missing)) ∧
    RackRequest.parse ⟨11, .tag (plate 1), none, none⟩ = some (.onRack .forceRelease (some (plate 1)) none) ∧
    rackRow (.unhold .supervisor (plate 1) (some 11) none) = some (.supervisor, ⟨8, .tag (plate 1), some 11, none⟩) ∧
    supervisorMay (.onRack (.unhold none) (some (plate 1)) (some .missing)) = true ∧ demoRound.port.turnaround = false ∧
    demoRound.find (plate 9) = none ∧ demoRound.find (plate 1) = some 0 ∧ demoRound.entry? 0 = some (rackIn 1 0 .staged) ∧
    (rackIn 1 0 .staged).state ≠ .missing ∧
    Role.floor.may (.onRack (.unhold none) (some (plate 1)) (some .missing)) = true ∧
    (let x : Node := { station .floor with request := some ⟨10, .none, none, none⟩ }
     (demoRound.putNode 3 (some x)).node? 3 = some x ∧ x.presence = .present ∧ x.request ≠ none ∧ demoRound.mode ≠ .quiet) ∧
    demoRound.link.phase = .windows round ∧ demo.link.phase = .between ∧ demoRound.node? 9 = none := by
  refine ⟨⟨_, _, heard_floor⟩, rfl, by decide, ⟨by decide +kernel, rfl, rfl, round, rfl⟩, rfl, rfl, by decide, nofun, heard_reader,
    ?_⟩
  decide +kernel

/-- A demand item of node 0. -/
def item (k : Kind) (chain : Chain) : DemandItem :=
  { station := 0, kind := k, chain := chain, entryTime := 0, promoted := false, order := 0 }

theorem witness_DemandAndAssignment :
    DemandSet.flag ⟨true, false, false, false⟩ .cup = false ∧ DemandSet.flag ⟨true, false, false, false⟩ .plate = true ∧
    (demo.mode ≠ .configure ∧ (∀ i ∈ demo.demand, i.station ≠ 0 ∨ i.kind ≠ .plate) ∧ demo.parkOf 0 = some 0 ∧
     demo.seg? 0 = some park ∧
     park.queue.length + (park.reservedTransfer + park.reservedDispatch) +
       (demo.demand.filter fun i => i.station == 0).length < park.config.capacity ∧ demo.demand.length < 32) ∧
    demoConfigure.mode = .configure ∧
    demo.entry? 6 = some (rackIn 7 8 .stored) ∧ demo.parkOf (item .plate .low).station = some 0 := by decide +kernel

/-- The arrived STORED head of the plate store, offered to an item of node 0. -/
def offering : State :=
  { demo.putSeg 8 (some { storeSeg with headArrived := true }) with demand := [item .cup .high, item .plate .low] }

theorem witness_DemandAndAssignment_offer :
    Servable offering (item .plate .low) ∧ StoreOffers offering .plate 6 ∧
    offering.bestItem .plate = some (item .plate .low) ∧ offering.bestItem .tray = none ∧
    offering.nextOffer = some (6, item .plate .low) ∧ demo.nextOffer = none ∧ item .plate .low ∈ offering.demand :=
  ⟨⟨0, park, by decide +kernel, by decide +kernel, by decide⟩,
    ⟨8, { storeSeg with headArrived := true }, rackIn 7 8 .stored, by decide +kernel, rfl, rfl, rfl, rfl, rfl, rfl, rfl, by decide +kernel, rfl, rfl,
      by decide +kernel⟩,
    by decide +kernel, by decide +kernel, by decide +kernel, by decide +kernel, by decide +kernel⟩

/-- A rack that is stale, due and in a segment that is not exempt. -/
def staleState : State :=
  { demo.putEntry 4 (some { rackIn 5 2 .queued with staleAge := 901 }) with
    due := { stale := [4], staleLimit := 900, promote := [(0, .plate)], promotionLimit := 120, autoQuiet := false }, demand := [item .plate .low], seconds := 121 }

theorem witness_DueBySeconds :
    ((4 : EntryNo) ∈ staleState.due.stale ∧
     staleState.entry? 4 = some { rackIn 5 2 .queued with staleAge := 901 } ∧ staleState.mode = .run ∧
     staleState.stopLatch = false ∧ staleState.due.staleLimit ≠ 0 ∧ staleState.due.staleLimit < 901 ∧
     (rackIn 5 2 .queued).location = some (.segment 2) ∧ staleState.seg? 2 = some entrySeg ∧
     entrySeg.headArrived = false ∧ entrySeg.heldBySupervisor = false ∧ entrySeg.stranger = none ∧
     entrySeg.jammed = false) ∧
    ((0, Kind.plate) ∈ staleState.due.promote ∧
     staleState.demand.find? (fun j => j.station == 0 && j.kind == .plate && staleState.starves staleState.due.promotionLimit j) =
       some (item .plate .low)) ∧
    (let s : State := { demoEmpty with due := { demo.due with autoQuiet := true }, idle := 1200 }
     s.due.autoQuiet = true ∧ s.mode = .run ∧ s.params.idleLimit ≠ 0 ∧ s.tunnel.list = [] ∧ s.demand = [] ∧
     s.anyOpen = false ∧ s.stopLatch = false ∧ s.params.idleLimit * 60 ≤ s.idle ∧ s.link.phase = .between ∧
     ({ s with link := { s.link with phase := .windows round } } : State).link.phase ≠ .between) := by
  decide +kernel

theorem witness_SecondsStep :
    demo.entry? 0 = some (rackIn 1 0 .staged) ∧ demo.mode = .run ∧ demoEmpty.params.idleLimit ≠ 0 ∧
    demoEmpty.tunnel.list = [] ∧ demoEmpty.demand = [] ∧ demoEmpty.anyOpen = false ∧ demoEmpty.stopLatch = false ∧
    demo.tunnel.list ≠ [] ∧ demoQuiet.mode = .quiet := by decide +kernel

theorem witness_ModeChanges :
    demo.port.turnaround = false ∧ demoConfigure.mode = .configure ∧ demoConfigure.validate = none ∧ demo.mode = .run ∧
    demoService.mode = .service ∧ demoEmpty.mode = .run ∧ demoEmpty.anyOpen = false ∧ demoEmpty.tunnel.list = [] ∧
    demoEmpty.link.phase = .between ∧ demoQuiet.mode = .quiet ∧ demoQuiet.anyOpen = false ∧ demoQuiet.tunnel.list = [] ∧
    demoEmpty.entry? 0 = some (rackIn 1 0 .staged) ∧ demoEmpty.seg? 0 = some park ∧
    assigned.anyOpen = false ∧ assigned.mode ≠ .configure ∧ assigned.tunnel.list = [] ∧
    assigned.entry? 6 = some (returning 7 8 (some 0)) ∧ (returning 7 8 (some 0)).assignment ≠ none ∧
    demoEmpty.seg? 31 = none ∧ demoEmpty.entry? 7 = none ∧ demoEmpty.link.phase ≠ .silent ∧
    demoQuiet.link.phase = .silent ∧ demoQuiet.link.coldDue = true := by decide +kernel

theorem witness_ModeRefusals :
    demo.port.turnaround = false ∧ 3 < (4#8).toNat ∧ (1#8).toNat = demo.mode.code ∧ demoConfigure.mode = .configure ∧
    demoService.mode = .service ∧ demoQuiet.mode = .quiet ∧ State.reset.validate = some (1, .missingKind .entry) ∧
    parkOpen.mode = .run ∧
    parkOpen.seg? 0 = some { park with headArrived := true, transfer := some ⟨.segment 1, false, 4000⟩ } ∧
    demo.anyOpen = false ∧ demo.tunnel.list ≠ [] := by decide +kernel

/-- Layouts that fail: without a tunnel; a LOAD node without a PARK; a CLEAN segment that follows itself, so that there is no
one ring. -/
theorem witness_ModeRefusals_layouts :
    ({ demo with tunnel := { demo.tunnel with config := none } } : State).validate = some (3, .tunnel) ∧
    (demo.putNode 5 (some (station (.load .high)))).validate = some (9, .node 5) ∧
    (demo.putSeg 9 (some (belt (forked .clean 9 9 8) []))).validate = some (10, .segment 6) := by decide +kernel

/-- No segment lies below number 0. -/
theorem witness_ModeRefusals_lowest : ∀ m h, m < (0 : SegNo) → parkOpen.seg? m = some h → h.transfer = none :=
  fun m _ hm => absurd hm (Nat.not_lt_zero m.val)

/-! ### Single steps -/

/-- What a test finds true of the state a command answers. -/
def after (c : Instr) (s : State) (p : State → Bool) : Bool :=
  match exec c s with
  | .next t => p t
  | _ => false

/-- The result and the body of the answer a port command gives. -/
def answered (c : Instr) (s : State) (r : Result) (body : List Byte) : Bool :=
  after c s fun t => decide (t.port.answer.result = r) && decide (t.port.answer.body = body)

/-- The result of the last answer a station command gives. -/
def stationAnswered (c : Instr) (s : State) (r : Result) : Bool :=
  after c s fun t => decide (t.answers.getLast?.map (·.result) = some r)

theorem test_powerOn : after (.powerOn true) demo (fun t => t.out.haltRequest && t.stopLatch) = true := by decide +kernel
theorem test_nop : after .nop demo (fun t => decide (t.port.shown = [0x05, 0x00, 0x01, 0x81, 0x79])) = true := by decide +kernel
theorem test_admit : after (.admitRack (plate 9) 1) demo (fun t =>
    decide ((t.entry? 7).map (·.state) = some .loaded) && decide ((t.seg? 1).map (·.queue) = some [7]) &&
      decide (t.freeList.head? = some 8)) = true := by decide +kernel
theorem test_admitDuplicate : after (.admitRack (plate 1) 1) demo (fun t =>
    decide (t.port.answer.result = .duplicate)) = true := by decide +kernel
theorem test_retireConfigure : after (.retire (plate 1)) demoConfigure (fun t =>
    decide (t.entry? 0 = none) && decide (t.freeList.getLast? = some 0)) = true := by decide +kernel
theorem test_restoreClean : after (.restore (plate 4) 8 1) demo (fun t =>
    decide ((t.entry? 3).map (·.state) = some .stored) && decide ((t.entry? 3).map (·.verdict) = some .manual)) = true := by
  decide +kernel
/-- Placement at a blocked eye is an arrival without a window, vouched for at a stranger (R13, R72). -/
theorem test_restoreArrives : after (.restore (plate 4) 1 0)
    { demo.putSeg 1 (some { collect with stranger := some ⟨none, none, []⟩ }) with eyes := demo.eyes.set 1 true } (fun t =>
    decide (t.seg? 1 = some
      { collect with queue := [3], headArrived := true, stranger := some ⟨none, some 3, []⟩ })) = true := by decide +kernel
/-- The jam ends the last inbound transfer: the blocking held unresolved is an untracked arrival (R32, R47). -/
theorem test_jamResolves : after (.jam 0) unresolved (fun t =>
    decide (t.seg? 1 = some { collect with window := .untracked 2 false }) && (t.seg? 0).any (·.jammed)) = true := by
  decide +kernel
/-- A station's request outside the reply windows, after the round and in the header, is disregarded (R117, R142). -/
theorem test_outsideWindows :
    after (.resume (.station 3)) demo (fun t => decide (t = demo)) = true ∧
    (let s : State := { demo with link := { demo.link with phase := .header round } }
     after (.resume (.station 3)) s (fun t => decide (t = s)) = true) := by decide +kernel
theorem test_setParamLow : answered (.setParam 1 499) demo .badRequest [] = true := by decide +kernel
theorem test_setParam : answered (.setParam 1 500) demo .done [0x01, 0xF4] = true := by decide +kernel
theorem test_readSegmentUndefined : answered (.readSegment 31 1) demo .notFound [] = true := by decide +kernel
theorem test_modeBusy : answered (.mode 0) demo .busy [1, 0, 0, 0x20] = true := by decide +kernel
theorem test_modeToRun : answered (.mode 1) demoConfigure .done [1, 0, 0] = true := by decide +kernel
theorem test_modeBadLayout : answered (.mode 1) State.reset .badLayout [0, 0, 0, 1, 3] = true := by decide +kernel
theorem test_stepClosed : answered (.stepGate 0) demoService .notArrived [] = true := by decide +kernel

/-- The gate to the tunnel opens; the first reload takes 36 ticks at trim 5. -/
theorem test_gateOpen : after (.gateOpen 2) entryArrived (fun t =>
    decide ((t.seg? 2).bind (·.transfer) = some ⟨.tunnel, false, 4000⟩) && decide (t.tunnel.pace = 36) &&
      t.out.entryRelease) = true := by decide +kernel
theorem test_departure : after (.eyeClear 0) { parkOpen with eyes := demo.eyes.set 0 true } (fun t =>
    decide ((t.seg? 0).map (·.queue) = some []) && decide ((t.seg? 1).map (·.queue) = some [0]) &&
      decide ((t.entry? 0).map (·.location) = some (some (.segment 1)))) = true := by decide +kernel
theorem test_lifted : after (.eyeClear 0) { parkArrived with eyes := demo.eyes.set 0 true } (fun t =>
    decide ((t.entry? 0).bind (·.missing) = some ⟨.lifted, .loaded, .segment 0⟩)) = true := by decide +kernel
theorem test_arrival : after (.eyeBlock 0) demo (fun t => (t.seg? 0).any (·.headArrived)) = true := by decide +kernel
theorem test_safeStop : after (.safeStop true) demo (fun t =>
    t.stopLatch && t.out.haltRequest && !(t.out.drives.get 0) && (t.source .safetyStop).flag) = true := by decide +kernel
theorem test_finalEnd : after .encoderCount (inTunnel { passFrom 0 with dwell := 12000 } 199) (fun t =>
    decide ((t.entry? 5).map (·.verdict) = some (.pass 12000 false))) = true := by decide +kernel
theorem test_overdue : after .encoderCount (inTunnel (passFrom 0) 320) (fun t =>
    decide ((t.entry? 5).bind (·.missing) = some ⟨.overdue, .washing, .tunnel⟩) && decide (t.tunnel.list = [])) = true := by
  decide +kernel
theorem test_exit : after .exitEyeBlock { inTunnel (passFrom 0) 280 with
      entries := demo.entries.set 5 (some { washing 6 (passFrom 0) with verdict := .pass 12000 false }) } (fun t =>
    decide ((t.entry? 5).map (·.state) = some .cleared) && decide ((t.seg? 3).map (·.queue) = some [5])) = true := by
  decide +kernel
theorem test_phantom : after .exitEyeBlock (inTunnel (passFrom 0) 279) (fun t =>
    decide (t.tunnel.fault = some ⟨.phantom, .phantom, 1⟩)) = true := by decide +kernel
theorem test_dwell : after .dwellMillisecond { demo with tunnel := { demo.tunnel with rinseOk := true } } (fun t =>
    decide ((t.entry? 5).bind (·.pass) = some { passFrom 0 with dwell := 1 })) = true := by decide +kernel
/-- A first header after power-on: count 0, COLD, unsteered, CONFIGURE, no answer. -/
theorem test_header : after .roundStart { State.reset with link := { Link.reset with phase := .between } } (fun t =>
    decide (t.link.header = [0x00, 0x40, 0x00, 0xC0])) = true := by decide +kernel
/-- The second rack of the exit, sighted at COLLECT's gate. -/
theorem test_relocation : after (.validReply 2 .a ⟨2, true, none, [plate 3], none⟩)
    { demoRound with eyes := demo.eyes.set 1 true } (fun t =>
    decide ((t.seg? 1).map (·.queue) = some [2]) && decide ((t.seg? 4).map (·.queue) = some [1]) &&
      decide ((t.entry? 2).map (·.state) = some .loaded)) = true := by decide +kernel
/-- A stay is reported once: a second blocking, of a new clear eye, reports nothing (R39). -/
theorem test_oneReportPerStay : after (.eyeBlock 0) (demo.putSeg 0 (some { park with headArrived := true }) |>.putEntry 0
    (some { rackIn 1 0 .staged with hold := some .inspect })) (fun t => !(t.source .holdReached).flag) = true := by
  decide +kernel
/-- The vouched entry loses its force when it ceases to be the head (R72). -/
theorem test_vouchedWithdrawn : after (.eyeClear 0) { demo.putSeg 0 (some (strange (some 0))) with eyes := demo.eyes.set 0 true }
    (fun t => decide ((t.seg? 0).bind (·.stranger) = some ⟨some (plate 50), none, [plate 50]⟩)) = true := by decide +kernel
/-- The tag that made a segment a stranger's is not admitted once auto-admission is on, though another was seen after it
(R76). -/
theorem test_strangerStays : after (.validReply 2 .a ⟨2, true, none, [plate 9], none⟩)
    { demoRound.putSeg 1 (some { collect with stranger := some ⟨some (plate 8), none, [plate 8, plate 9]⟩ }) with
      eyes := demo.eyes.set 1 true, params := { demo.params with autoAdmission := true } } (fun t =>
    decide (t.find (plate 9) = none)) = true := by decide +kernel
/-- Check 13 names the lower segment, though its reader has the higher address (R57). -/
theorem test_check13Order : ((demo.putNode 4 (some (station (.reader 9)))).putNode 5 (some (station (.reader 3)))).validate =
    some (13, .segment 3) := by decide +kernel
/-- Branch C spoke first, with an unfinished frame; branch A was held active (R127). -/
theorem test_firstBranchJudged : after (.windowEnd 1 [(.c, .unfinished), (.a, .heldActive)])
    { demo with link := { demo.link with phase := .windows unsteered } } (fun t =>
    decide ((t.node? 1).bind (·.lastError) = some .long)) = true := by decide +kernel
/-- A wake in the closing round ends the marks still to come (R206). -/
theorem test_wakeEndsMarks : after (.mode 1) { demoQuiet with link := { demo.link with phase := .windows round } } (fun t =>
    decide (t.link.restartLeft = 0) && decide (t.mode = .run)) = true := by decide +kernel
/-- A store's rack whose assignment is cleared at entry to CONFIGURE is STORED again, the reservation released (R41, R178). -/
theorem test_enterConfigure : after (.mode 0) assigned (fun t =>
    decide ((t.entry? 6).map (·.state) = some .stored) && decide ((t.seg? 0).map (·.reservedDispatch) = some 0)) = true := by
  decide +kernel
/-- A link reset with a store's rack assigned: the same (R135). -/
theorem test_linkReset : after .linkReset assigned (fun t =>
    decide ((t.entry? 6).map (·.state) = some .stored) && decide ((t.seg? 0).map (·.reservedDispatch) = some 0)) = true := by
  decide +kernel
/-- A timer that has run out with the eye clear jams at the blocking (notes/assumptions/43.md). -/
theorem test_jamAtBlocking : (let s := parkArrived.putSeg 0 (some
      { park with headArrived := true, transfer := some ⟨.segment 1, false, 0⟩ })
    { s with eyes := s.eyes.set 0 false }.dueJam = none ∧ { s with eyes := s.eyes.set 0 true }.dueJam = some (.jam 0)) := by
  decide +kernel
/-- The owner's reply after a branch fault in its own steered window is disregarded (notes/assumptions/45.md). -/
theorem test_replyAfterFault : demoRound.placeOfReply { round with judged := [1] } 1 .a 1 = .disregarded ∧
    demoRound.placeOfReply round 1 .a 1 = .own := by decide +kernel
/-- A refused supervisor request carries the argument of its echo (R164). -/
theorem test_clearJamEcho : answered (.clearJam .supervisor 31) demo .notFound [31] = true := by decide +kernel
theorem test_absent : after (.windowEnd 1 []) (demoRound.putNode 1 (some { station .unload with errorRun := 2 }))
    (fun t => decide ((t.node? 1).map (·.presence) = some .absent) && decide ((t.entry? 2).map (·.state) = some .cleared)) =
    true := by decide +kernel
theorem test_claim : after (.claim (.station 1) (plate 2) (some 5)) demoRound (fun t =>
    decide ((t.entry? 1).map (·.claim) = some (some 1)) && decide (t.answers.map (·.result) = [.done])) = true := by
  decide +kernel
theorem test_claimMismatch : stationAnswered (.claim (.station 1) (plate 2) (some 6)) demoRound .mismatch = true := by
  decide +kernel
theorem test_sendHead : after (.send (.station 0) none none) demoRound (fun t =>
    decide ((t.entry? 0).map (·.state) = some .loaded)) = true := by decide +kernel
theorem test_unloadDone : after (.unloadDone (.station 1) (plate 3) none) { demoRound with demand := [item .plate .low] } (fun t =>
    decide ((t.entry? 2).map (·.assignment) = some (some 0)) && decide (t.demand = []) &&
      decide ((t.seg? 0).map (·.reservedDispatch) = some 1)) = true := by decide +kernel
theorem test_stale : after (.stale 4) staleState (fun t =>
    decide ((t.entry? 4).bind (·.missing) = some ⟨.stale, .queued, .segment 2⟩)) = true := by decide +kernel
theorem test_promotion : after (.promotion 0 .plate) staleState (fun t =>
    decide (t.demand.map (·.chain) = [.high])) = true := by decide +kernel
theorem test_resume : answered (.resume .supervisor) { demo with stopLatch := true, safeStop := true } .stopActive [] = true := by
  decide +kernel
theorem test_clearTunnelFault : answered .clearTunnelFault
    { demo with tunnel := { demo.tunnel with fault := some ⟨.phantom, .overdue, 2⟩ } } .done [1, 2, 2] = true := by
  decide +kernel

end Sys2Proof.Tests
end

section
/-! PROOF. The invariants of the rack table (R3, R4): every command carries the soundness of the free list and the
distinctness of the tags from the state it begins in to the state it leaves. -/

open Sys2Proof Sys2Proof.Machine

namespace Sys2Proof.Machine

/-! ### Keeping the two invariants -/

/-- Where `s` meets an invariant of the rack table (R3, R4), `t` meets it too. -/
structure KeepsRacks (s t : State) : Prop where
  free : FreeListSound s → FreeListSound t
  distinct : TagsDistinct s → TagsDistinct t

theorem KeepsRacks.refl (s : State) : KeepsRacks s s := ⟨id, id⟩

theorem KeepsRacks.trans {s t u : State} (h : KeepsRacks s t) (k : KeepsRacks t u) : KeepsRacks s u :=
  ⟨fun x => k.free (h.free x), fun x => k.distinct (h.distinct x)⟩

/-- Both invariants speak of the free list and of the tag each place carries alone. -/
theorem keepsRacks_of_tags {s t : State} (ht : ∀ e, (t.entry? e).map Entry.tag = (s.entry? e).map Entry.tag)
    (hf : t.freeList = s.freeList) : KeepsRacks s t where
  free := by
    rintro ⟨hn, hm⟩
    have free_iff : ∀ e, t.entry? e = none ↔ s.entry? e = none := fun e => by
      rw [← Option.map_eq_none_iff (f := Entry.tag), ht, Option.map_eq_none_iff]
    exact ⟨hf ▸ hn, fun e => by rw [hf, hm, free_iff]⟩
  distinct := by
    intro h e d x y hx hy hxy
    have back : ∀ {c z}, t.entry? c = some z → ∃ w, s.entry? c = some w ∧ w.tag = z.tag := fun {c z} hz => by
      simpa [hz, eq_comm] using ht c
    obtain ⟨x', hx', ex⟩ := back hx
    obtain ⟨y', hy', ey⟩ := back hy
    exact h e d x' y' hx' hy' (ex.trans (hxy.trans ey.symm))

theorem keepsRacks_of_tables {s t : State} (he : t.entries = s.entries) (hf : t.freeList = s.freeList) :
    KeepsRacks s t :=
  keepsRacks_of_tags (fun e => congrArg _ (entry_of_entries he e)) hf

theorem Outer.keepsRacks {s t : State} (h : Outer s t) : KeepsRacks s t := keepsRacks_of_tags h.tags h.freeList

theorem keepsRacks_forEach {α : Type} {f : State → α → State} (hf : ∀ s x, KeepsRacks s (f s x)) (xs : List α)
    (s : State) : KeepsRacks s (s.forEach f xs) := by
  induction xs generalizing s with
  | nil => exact KeepsRacks.refl s
  | cons x xs ih => exact (hf s x).trans (ih (f s x))

/-! ### What changes which places are in use -/

theorem find_none {s : State} {t : Tag} (h : s.find t = none) {e : EntryNo} {x : Entry} (hx : s.entry? e = some x) :
    x.tag ≠ t := by
  have := List.find?_eq_none.1 h e (List.mem_finRange e)
  simpa [hx] using this

/-- The head of the free list comes into use with a tag that no entry carries (R4, R18, R69). -/
theorem keepsRacks_takeFree {s : State} {e : EntryNo} {t : Tag} (hf : s.freeList.head? = some e)
    (ht : s.find t = none) : KeepsRacks s (s.takeFree e t) where
  free := by
    rintro ⟨hn, hm⟩
    obtain ⟨rest, hl⟩ : ∃ rest, s.freeList = e :: rest := List.head?_eq_some_iff.1 hf
    have list : (s.takeFree e t).freeList = rest := by simp [State.takeFree, hl]
    rw [hl, List.nodup_cons] at hn
    refine ⟨list ▸ hn.2, fun d => ?_⟩
    rw [list, takeFree_entry]
    by_cases hd : e = d
    · subst hd
      simpa using hn.1
    · rw [if_neg hd, ← hm d, hl, List.mem_cons, or_iff_right (Ne.symm hd)]
  distinct := by
    intro h a b x y hx hy hxy
    rw [takeFree_entry] at hx hy
    by_cases ha : e = a
    · by_cases hb : e = b
      · exact ha.symm.trans hb
      · rw [if_pos ha] at hx
        rw [if_neg hb] at hy
        cases hx
        exact absurd hxy.symm (find_none ht hy)
    · rw [if_neg ha] at hx
      by_cases hb : e = b
      · rw [if_pos hb] at hy
        cases hy
        exact absurd hxy (find_none ht hx)
      · rw [if_neg hb] at hy
        exact h a b x y hx hy hxy

/-- A place whose entry leaves the table joins the free list (R4, R20). -/
theorem keepsRacks_free {s : State} {e : EntryNo} {x : Entry} (hx : s.entry? e = some x) :
    KeepsRacks s { s.putEntry e none with freeList := s.freeList ++ [e] } where
  free := by
    rintro ⟨hn, hm⟩
    have used : e ∉ s.freeList := fun h => by simp [(hm e).1 h] at hx
    refine ⟨hn.append (List.nodup_singleton e) (by simpa using used), fun d => ?_⟩
    show d ∈ s.freeList ++ [e] ↔ (s.putEntry e none).entry? d = none
    rw [entry_putEntry, List.mem_append, List.mem_singleton, hm]
    by_cases hd : e = d <;> simp [hd, eq_comm]
  distinct := by
    intro h a b y z hy hz hyz
    have kept : ∀ {c w}, (s.putEntry e none).entry? c = some w → s.entry? c = some w := fun {c w} hw => by
      rw [entry_putEntry] at hw
      split at hw
      · cases hw
      · exact hw
    exact h a b y z (kept hy) (kept hz) hyz

theorem keepsRacks_freeEntry {s : State} {e : EntryNo} {x : Entry} (hx : s.entry? e = some x) :
    KeepsRacks s (s.freeEntry e) := by
  have removed := outer_removeEntry s e
  obtain ⟨y, hy⟩ := Option.isSome_iff_exists.1 ((removed.inUse e).trans (by rw [hx]; rfl))
  have h := removed.keepsRacks.trans (keepsRacks_free hy)
  rwa [removed.freeList] at h

/-- A table with every place free and in order, as power-on and CLEAR_TABLE leave it (R4, R24, R26). -/
theorem keepsRacks_of_cleared {s t : State} (he : ∀ e, t.entry? e = none) (hf : t.freeList = List.finRange 128) :
    KeepsRacks s t where
  free _ := ⟨hf ▸ List.nodup_finRange 128, fun e => by simp [hf, he]⟩
  distinct _ := fun e _ x _ hx => by simp [he] at hx


/-! ### Endings -/

/-- What an outcome must be for a command: whatever state it answers keeps the invariants of `s`. -/
def OutcomeKeeps (s : State) (o : Host.Outcome State Fault Refusal) : Prop := ∀ t, o = .next t → KeepsRacks s t

/-- The change that a port request comes to, if any, keeps the invariants. -/
def TakenKeeps (s : State) (a : Taken) : Prop := ∀ u body, a = .did u body → KeepsRacks s u

/-- The change that a rack request comes to, if any, keeps the invariants. -/
def JudgedKeeps (s : State) (j : Judged) : Prop := ∀ u m, j = .did u m → KeepsRacks s u

theorem outcomeKeeps_next {s t : State} (h : KeepsRacks s t) : OutcomeKeeps s (.next t) := by
  rintro _ ⟨⟩
  exact h

theorem takenKeeps_did {s u : State} {body : State → List Byte} (h : KeepsRacks s u) : TakenKeeps s (.did u body) := by
  rintro _ _ ⟨⟩
  exact h

theorem takenKeeps_told (s : State) (r : Result) (body : State → List Byte) : TakenKeeps s (.told r body) := by
  rintro _ _ ⟨⟩

theorem judgedKeeps_did {s u : State} {m : State → Option Summary} (h : KeepsRacks s u) : JudgedKeeps s (.did u m) := by
  rintro _ _ ⟨⟩
  exact h

theorem judgedKeeps_told (s : State) (r : Result) (m : Option Summary) : JudgedKeeps s (.told r m) := by
  rintro _ _ ⟨⟩

theorem keepsRacks_refresh (s : State) : KeepsRacks s s.refreshOutputs :=
  keepsRacks_of_tables (by simp) (by simp)

theorem outcomeKeeps_refresh {s t : State} (h : KeepsRacks s t) : OutcomeKeeps s (.next t.refreshOutputs) :=
  outcomeKeeps_next (h.trans (keepsRacks_refresh t))

/-- Nothing that follows a change in its step touches the invariants (R75, R173, R205). -/
theorem KeepsRacks.settled {s u : State} (h : KeepsRacks s u) (before : State) :
    KeepsRacks s (State.settle before u) :=
  h.trans (outer_settle before u).keepsRacks

theorem outcomeKeeps_done {before s u : State} (h : KeepsRacks s u) : OutcomeKeeps s (done before u) :=
  outcomeKeeps_refresh (h.settled before)

theorem keepsRacks_answer (s : State) (echo : Byte) (r : Result) (body : List Byte) :
    KeepsRacks s (s.answer echo r body) :=
  keepsRacks_of_tables rfl rfl

theorem keepsRacks_begin (s : State) (bytes : List Byte) : KeepsRacks s (s.beginTransaction bytes) :=
  keepsRacks_of_tables rfl rfl

theorem keepsRacks_tooSoon (s : State) (bytes : List Byte) : KeepsRacks s (s.tooSoon bytes) :=
  keepsRacks_of_tables rfl rfl

/-- A request of the port keeps what its own rule keeps. -/
theorem outcomeKeeps_portDo {c : Instr} {act : State → Taken} (ha : ∀ u, TakenKeeps u (act u)) (s : State) :
    OutcomeKeeps s (portDo c act s) := by
  have begun := keepsRacks_begin s (portBytes c)
  have active := begun.trans (outer_touchIdle _).keepsRacks
  unfold portDo
  split
  · exact outcomeKeeps_next (keepsRacks_tooSoon _ _)
  dsimp only
  split
  · exact outcomeKeeps_next (begun.trans (keepsRacks_answer _ _ _ _))
  · exact outcomeKeeps_next (active.trans (keepsRacks_answer _ _ _ _))
  case h_3 u body h =>
    have changed := active.trans (ha _ u body h)
    exact outcomeKeeps_next (((changed.settled _).trans (keepsRacks_refresh _)).trans (keepsRacks_answer _ _ _ _))

theorem outcomeKeeps_portRead (c : Instr) (r : State → Result × List Byte) (s : State) :
    OutcomeKeeps s (portRead c r s) := fun t h => by
  rw [portRead_frame c r s t h]
  exact keepsRacks_of_tables rfl rfl

theorem takenKeeps_onSegment {act : State → SegNo → Segment → Taken} (seg : Byte) (s : State)
    (ha : ∀ n g, TakenKeeps s (act s n g)) : TakenKeeps s (onSegment seg act s) := by
  unfold onSegment
  split
  · exact takenKeeps_told _ _ _
  split
  · exact takenKeeps_told _ _ _
  · exact ha _ _

/-! ### The rack table's own requests -/

theorem takenKeeps_admit (s : State) (t : Tag) (seg : Byte) : TakenKeeps s (admitTaken s t seg) := by
  unfold admitTaken
  split
  · exact takenKeeps_told _ _ _
  · exact takenKeeps_told _ _ _
  · exact takenKeeps_told _ _ _
  case h_4 n _ unknown =>
    unfold admitInto
    split
    · exact takenKeeps_told _ _ _
    · exact takenKeeps_told _ _ _
    case h_3 hf =>
      split
      · exact takenKeeps_told _ _ _
      · exact takenKeeps_did ((keepsRacks_takeFree hf unknown).trans (outer_placeAtTail _ _ _ _).keepsRacks)

theorem takenKeeps_retire (s : State) (t : Tag) : TakenKeeps s (retireTaken s t) := by
  unfold retireTaken
  split
  · exact takenKeeps_told _ _ _
  split
  · exact takenKeeps_told _ _ _
  case h_2 hx =>
    split
    · exact takenKeeps_told _ _ _
    split
    · exact takenKeeps_told _ _ _
    split
    · exact takenKeeps_told _ _ _
    · exact takenKeeps_did (keepsRacks_freeEntry hx)

theorem outer_restoreAt (s : State) (e : EntryNo) (x : Entry) (n : SegNo) (g : Segment) (clean : Bool) :
    Outer s (s.restoreAt e x n g clean) :=
  ((outer_removeEntry s e).trans (outer_updEntry _ e _ fun y => by unfold Entry.cleaned; split <;> rfl)).trans
    (outer_placeAtTail _ _ _ _)

theorem takenKeeps_restore (s : State) (t : Tag) (seg clean : Byte) : TakenKeeps s (restoreTaken s t seg clean) := by
  unfold restoreTaken
  split
  case h_2 => exact takenKeeps_told _ _ _
  split
  · exact takenKeeps_told _ _ _
  split
  · exact takenKeeps_told _ _ _
  split
  case h_2 => exact takenKeeps_told _ _ _
  unfold restoreInto
  split
  · exact takenKeeps_told _ _ _
  split
  · exact takenKeeps_told _ _ _
  split
  · exact takenKeeps_told _ _ _
  split
  · exact takenKeeps_told _ _ _
  · exact takenKeeps_did (outer_restoreAt _ _ _ _ _ _).keepsRacks

theorem keepsRacks_clearTable (s : State) : KeepsRacks s s.clearTable :=
  keepsRacks_of_cleared (fun _ => Vector.getElem_replicate _) rfl

/-! ### The sighting reconciler -/

theorem outer_takeOut (s : State) (e : EntryNo) (x : Entry) : Outer s (s.takeOut e x) := by
  unfold State.takeOut
  split
  · unfold State.pullFrom
    split
    · exact Outer.refl s
    dsimp only
    split
    · exact (outer_removeFromSegment _ _ _).trans (outer_setHeadArrived _ _)
    · exact outer_removeFromSegment _ _ _
  · refine (outer_updEntry s e Entry.mistrack fun x => ?_).trans (outer_removeFromTunnel _ _)
    unfold Entry.mistrack
    split
    · rfl
    · split <;> rfl
  · exact Outer.refl s

theorem outer_insertHead (s : State) (e : EntryNo) (n : SegNo) (p : Option RackState) (b : Bool) :
    Outer s (s.insertHead e n p b) :=
  ((outer_updSeg _ _ _).trans (outer_placeEntry _ _ _ _ _)).trans (outer_setHeadArrived _ _)

theorem outer_passEntry (s : State) (e : EntryNo) : Outer s (s.passEntry e) := by
  unfold State.passEntry
  split
  · exact Outer.refl s
  split
  · exact outer_updEntry _ _ _ fun _ => rfl
  · exact outer_declareMissing _ _ _

theorem outer_displace (s : State) (n : SegNo) : Outer s (s.displace n) := by
  unfold State.displace
  split
  · exact Outer.refl s
  split
  · split
    · exact outer_declareMissing _ _ _
    · exact Outer.refl s
  · exact Outer.refl s

/-- The insertion at a head, the counting of the entries passed and the displacement of the tail (R66 to R68). -/
theorem outer_atHead (s : State) (e : EntryNo) (n : SegNo) (p : Option RackState) (b : Bool) (passed : List EntryNo) :
    Outer s (((s.insertHead e n p b).forEach State.passEntry passed).displace n) :=
  ((outer_insertHead _ _ _ _ _).trans (outer_forEach _ outer_passEntry _ _)).trans (outer_displace _ _)

theorem outer_relocate (s : State) (n : SegNo) (e : EntryNo) : Outer s (s.relocate n e) := by
  unfold State.relocate
  split
  · exact Outer.refl s
  · exact ((outer_takeOut _ _ _).trans (outer_releaseAssignment _ _)).trans (outer_atHead _ _ _ _ _ _)

theorem outer_confirm (s : State) (e : EntryNo) : Outer s (s.updEntry e fun x => x.confirm s.seconds) :=
  outer_updEntry s e _ fun _ => rfl

theorem autoEntry_head {s : State} {n : SegNo} {t : Tag} {e : EntryNo} (h : s.autoEntry n t = some e) :
    s.freeList.head? = some e := by
  unfold State.autoEntry at h
  split at h
  · exact h
  · cases h

theorem keepsRacks_firstTag (s : State) (n : SegNo) (t : Tag) : KeepsRacks s (s.firstTag n t) := by
  unfold State.firstTag
  split
  · split
    · exact ((outer_confirm s _).trans (outer_updSeg _ _ _)).keepsRacks
    · exact (outer_relocate _ _ _).keepsRacks
  case h_2 unknown =>
    split
    case h_1 he => exact (keepsRacks_takeFree (autoEntry_head he) unknown).trans (outer_atHead _ _ _ _ _ _).keepsRacks
    case h_2 => exact ((outer_addStranger _ _ _).trans (outer_raiseIf _ _ _)).keepsRacks

theorem keepsRacks_secondTag (s : State) (n : SegNo) (first t : Tag) : KeepsRacks s (s.secondTag n first t) := by
  unfold State.secondTag
  split
  · exact KeepsRacks.refl s
  split
  · exact KeepsRacks.refl s
  split
  · exact (outer_confirm s _).keepsRacks
  · exact KeepsRacks.refl s

theorem keepsRacks_report (s : State) (node : NodeNo) (tags : List Tag) : KeepsRacks s (s.report node tags) := by
  unfold State.report
  split
  · exact KeepsRacks.refl s
  split
  case isFalse => exact KeepsRacks.refl s
  split
  · exact KeepsRacks.refl s
  · exact keepsRacks_firstTag _ _ _
  · exact (keepsRacks_firstTag _ _ _).trans (keepsRacks_secondTag _ _ _ _)

theorem outcomeKeeps_windowRunsOut (n : SegNo) (s : State) : OutcomeKeeps s (execSightingWindowRunOut n s) := by
  unfold execSightingWindowRunOut
  split
  case h_2 => exact outcomeKeeps_next (KeepsRacks.refl s)
  case h_1 u h =>
    refine outcomeKeeps_done ?_
    unfold State.windowRunsOut at h
    split at h
    case h_1 e _ _ =>
      cases h
      have unconfirmed := outer_updEntry s e (fun x => { x with confirmed := false }) fun _ => rfl
      exact (unconfirmed.trans (outer_closeWindow _ n)).keepsRacks
    · cases h
      exact (outer_addStranger s n none).keepsRacks
    · cases h

theorem takenKeeps_clearStranger (s : State) (n : SegNo) (g : Segment) : TakenKeeps s (clearStrangerTaken s n g) := by
  unfold clearStrangerTaken
  split
  · exact takenKeeps_told _ _ _
  split
  · exact takenKeeps_did (outer_updSeg _ _ _).keepsRacks
  · exact takenKeeps_told _ _ _

theorem outcomeKeeps_stale (e : EntryNo) (s : State) : OutcomeKeeps s (execStale e s) := by
  have taken : ∀ d : Due, KeepsRacks s { s with due := d } := fun _ => keepsRacks_of_tables rfl rfl
  unfold execStale
  split
  case isFalse => exact outcomeKeeps_next (KeepsRacks.refl s)
  dsimp only
  split
  · exact outcomeKeeps_done ((taken _).trans (outer_declareMissing _ _ _).keepsRacks)
  · exact outcomeKeeps_next (taken _)


/-! ### The request engine -/

theorem judgedKeeps_change (s : State) (e : EntryNo) {f : Entry → Entry} (hf : ∀ x, (f x).tag = x.tag) :
    JudgedKeeps s (s.change e f) :=
  judgedKeeps_did (outer_updEntry s e f hf).keepsRacks

theorem judgedKeeps_passOrMissing {s : State} {act : Judged} (h : JudgedKeeps s act) (e : EntryNo) (x : Entry) :
    JudgedKeeps s (refusePassOrMissing s e x act) := by
  unfold refusePassOrMissing
  split
  · exact judgedKeeps_told _ _ _
  split
  · exact judgedKeeps_told _ _ _
  · exact h

theorem judgedKeeps_holderOnly {s : State} {act : Judged} (h : JudgedKeeps s act) (n : NodeNo) (e : EntryNo)
    (x : Entry) : JudgedKeeps s (holderOnly s n e x act) := by
  unfold holderOnly
  split
  · exact judgedKeeps_told _ _ _
  split
  · exact h
  · exact judgedKeeps_told _ _ _

theorem judgedKeeps_send (s : State) (n : NodeNo) (e : EntryNo) (x : Entry) : JudgedKeeps s (doSend s n e x) := by
  unfold doSend
  split
  · exact judgedKeeps_change s e fun _ => rfl
  · exact judgedKeeps_told _ _ _

theorem judgedKeeps_claim (s : State) (n : NodeNo) (e : EntryNo) (x : Entry) : JudgedKeeps s (doClaim s n e x) := by
  unfold doClaim
  split
  · split <;> exact judgedKeeps_told _ _ _
  split
  · exact judgedKeeps_change s e fun _ => rfl
  · exact judgedKeeps_told _ _ _

theorem outer_offerReturned (s : State) (e : EntryNo) (x : Entry) : Outer s (s.offerReturned e x) := by
  unfold State.offerReturned
  split
  · exact Outer.refl s
  split
  · exact outer_assign _ _ _
  · exact Outer.refl s

theorem judgedKeeps_unloadDone (s : State) (e : EntryNo) (x : Entry) : JudgedKeeps s (doUnloadDone s e x) :=
  judgedKeeps_did ((outer_updEntry s e Entry.unloaded fun _ => rfl).trans (outer_offerReturned _ _ _)).keepsRacks

theorem judgedKeeps_rewash (s : State) (e : EntryNo) : JudgedKeeps s (doRewash s e) :=
  judgedKeeps_change s e fun _ => rfl

theorem judgedKeeps_release (s : State) (e : EntryNo) : JudgedKeeps s (s.change e Entry.unclaim) :=
  judgedKeeps_change s e fun _ => rfl

theorem judgedKeeps_hold (s : State) (e : EntryNo) (x : Entry) (reason : Option HoldReason) :
    JudgedKeeps s (doHold s e x reason) := by
  unfold doHold
  split
  · exact judgedKeeps_told _ _ _
  · have held := outer_updEntry s e (fun y => { y with hold := some (rankHold y.hold (reason.getD .inspect)) })
      fun _ => rfl
    exact judgedKeeps_did (held.trans (outer_raiseIf _ _ _)).keepsRacks

theorem judgedKeeps_unhold (s : State) (src : Source) (e : EntryNo) (x : Entry) :
    JudgedKeeps s (doUnhold s src e x) := by
  unfold doUnhold
  split
  · exact judgedKeeps_told _ _ _
  split
  · exact judgedKeeps_told _ _ _
  split
  · exact judgedKeeps_told _ _ _
  · exact judgedKeeps_change s e fun _ => rfl

theorem judgedKeeps_forceRelease (s : State) (e : EntryNo) (x : Entry) : JudgedKeeps s (doForceRelease s e x) := by
  unfold doForceRelease
  split
  · exact judgedKeeps_change s e fun _ => rfl
  · exact judgedKeeps_told _ _ _

theorem judgedKeeps_onEntry (s : State) (src : Source) (op : RackOp) (e : EntryNo) (x : Entry) :
    JudgedKeeps s (onEntry s src op e x) := by
  unfold onEntry
  split
  · exact judgedKeeps_hold _ _ _ _
  · exact judgedKeeps_unhold _ _ _ _
  · exact judgedKeeps_forceRelease _ _ _
  · exact judgedKeeps_passOrMissing (judgedKeeps_send _ _ _ _) _ _
  · exact judgedKeeps_passOrMissing (judgedKeeps_claim _ _ _ _) _ _
  · exact judgedKeeps_passOrMissing (judgedKeeps_holderOnly (judgedKeeps_unloadDone _ _ _) _ _ _) _ _
  · exact judgedKeeps_passOrMissing (judgedKeeps_holderOnly (judgedKeeps_rewash _ _) _ _ _) _ _
  · exact judgedKeeps_passOrMissing (judgedKeeps_holderOnly (judgedKeeps_release _ _) _ _ _) _ _
  · exact judgedKeeps_told _ _ _

theorem judgedKeeps_testExpected (s : State) (src : Source) (op : RackOp) (expected : Option RackState) (e : EntryNo) :
    JudgedKeeps s (testExpected s src op expected e) := by
  unfold testExpected
  split
  · exact judgedKeeps_told _ _ _
  split
  · exact judgedKeeps_told _ _ _
  · exact judgedKeeps_onEntry _ _ _ _ _

theorem outer_clearJam (s : State) (n : SegNo) (g : Segment) : Outer s (s.clearJam n g) := by
  have cleared := outer_updSeg s n fun g => { g with jammed := false }
  unfold State.clearJam
  dsimp only
  split
  · split
    · exact cleared.trans (outer_setHeadArrived _ _)
    · exact cleared
  split
  · exact cleared.trans (outer_declareMissing _ _ _)
  · exact cleared

theorem keepsRacks_resume (s : State) : KeepsRacks s s.resume := by
  have cleared : KeepsRacks s { s with stopLatch := false } := keepsRacks_of_tables rfl rfl
  exact cleared.trans (outer_freshenQueue _ (List.finRange 128)).keepsRacks

theorem judgedKeeps_carryOut (s : State) (src : Source) (q : Request) : JudgedKeeps s (carryOut s src q) := by
  unfold carryOut
  split
  · split <;> exact judgedKeeps_told _ _ _
  · split
    · exact judgedKeeps_told _ _ _
    · exact judgedKeeps_testExpected _ _ _ _ _
  · split
    · exact judgedKeeps_told _ _ _
    · exact judgedKeeps_testExpected _ _ _ _ _
  · split
    · exact judgedKeeps_told _ _ _
    split
    · exact judgedKeeps_did (outer_clearJam _ _ _).keepsRacks
    · exact judgedKeeps_told _ _ _
  · split
    · exact judgedKeeps_told _ _ _
    split
    · exact judgedKeeps_did (keepsRacks_resume s)
    · exact judgedKeeps_told _ _ _

theorem judgedKeeps_station (s : State) (n : NodeNo) (role : Role) (q : Request) :
    JudgedKeeps s (judgeStation s n role q) := by
  unfold judgeStation
  split
  · exact judgedKeeps_told _ _ _
  split
  · exact judgedKeeps_carryOut _ _ _
  · exact judgedKeeps_told _ _ _

theorem takenKeeps_supervisor (q : RackRequest) (s : State) : TakenKeeps s (supervisorTaken q s) := by
  unfold supervisorTaken
  split
  · exact takenKeeps_told _ _ _
  split
  · exact takenKeeps_told _ _ _
  case h_2 u m h =>
    unfold judgeSupervisor at h
    split at h
    · exact takenKeeps_did (judgedKeeps_carryOut _ _ _ u m h)
    · cases h

theorem keepsRacks_queueAnswer (s : State) (n : NodeNo) (q : RackRequest) (r : Result) (m : Option Summary) :
    KeepsRacks s (s.queueAnswer n q r m) :=
  keepsRacks_of_tables rfl rfl

theorem keepsRacks_updNode (s : State) (n : NodeNo) (f : Node → Node) : KeepsRacks s (s.updNode n f) :=
  keepsRacks_of_tables rfl rfl

theorem keepsRacks_raise (s : State) (a : Source14) : KeepsRacks s (s.raise a) :=
  keepsRacks_of_tables rfl rfl

theorem keepsRacks_carryStation (s : State) (n : NodeNo) (role : Role) (q : RackRequest) :
    KeepsRacks s (s.carryStation n role q) := by
  unfold State.carryStation
  split
  · exact ((keepsRacks_updNode s n _).trans (keepsRacks_raise _ _)).trans (keepsRacks_queueAnswer _ _ _ _ _)
  split
  · exact keepsRacks_queueAnswer _ _ _ _ _
  case h_2 u m h =>
    exact ((judgedKeeps_station s n role _ u m h).settled s).trans (keepsRacks_queueAnswer _ _ _ _ _)

theorem keepsRacks_takeRequest (s : State) (n : NodeNo) (q : RackRequest) : KeepsRacks s (s.takeRequest n q) := by
  unfold State.takeRequest
  split
  · exact KeepsRacks.refl s
  split
  · exact keepsRacks_updNode _ _ _
  · exact ((keepsRacks_updNode s n _).trans (outer_touchIdle _).keepsRacks).trans (keepsRacks_carryStation _ _ _ _)

/-! ### Modes -/

theorem keepsRacks_setMode (s : State) (m : Mode) : KeepsRacks s (s.setMode m) := keepsRacks_of_tables rfl rfl

theorem keepsRacks_restartLink (s : State) : KeepsRacks s s.restartLink := by
  unfold State.restartLink
  split
  · split <;> exact keepsRacks_of_tables rfl rfl
  · exact KeepsRacks.refl s

theorem keepsRacks_endMarks (s : State) : KeepsRacks s s.endMarks := by
  unfold State.endMarks
  split
  · exact keepsRacks_of_tables rfl rfl
  · exact KeepsRacks.refl s

theorem keepsRacks_wake (s : State) (b : Bool) : KeepsRacks s (s.wake b) := by
  unfold State.wake
  split
  · have run : KeepsRacks s { s.setMode .run with idle := 0 } := keepsRacks_of_tables rfl rfl
    exact ((run.trans (keepsRacks_endMarks _)).trans (keepsRacks_restartLink _)).trans (outer_raiseIf _ _ _).keepsRacks
  · exact KeepsRacks.refl s

theorem outcomeKeeps_rackCommand (c : Instr) (src : Source) (q : RackRequest) (s : State) :
    OutcomeKeeps s (rackCommand c src q s) := by
  unfold rackCommand
  split
  · exact outcomeKeeps_portDo (takenKeeps_supervisor q) s
  split
  · exact outcomeKeeps_refresh ((keepsRacks_takeRequest _ _ _).trans (keepsRacks_wake _ _))
  · exact outcomeKeeps_next (KeepsRacks.refl s)

theorem keepsRacks_enterQuiet (s : State) : KeepsRacks s s.enterQuiet := by
  unfold State.enterQuiet
  dsimp only
  split
  · exact (keepsRacks_setMode s .quiet).trans (keepsRacks_of_tables rfl rfl)
  · exact keepsRacks_setMode s .quiet

theorem outer_cancelAll (s : State) : Outer s s.cancelAll := outer_forEach _ outer_cancelAssignment _ _

theorem keepsRacks_enterConfigure (s : State) : KeepsRacks s s.enterConfigure := by
  have entered : KeepsRacks s { s.setMode .configure with demand := [], idle := 0 } := keepsRacks_of_tables rfl rfl
  have cancelled := entered.trans (outer_cancelAll _).keepsRacks
  exact (cancelled.trans (outer_forEach _ outer_closeWindow _ _).keepsRacks).trans (keepsRacks_restartLink _)

theorem outer_examine (s : State) (n : SegNo) : Outer s (s.examine n) := by
  unfold State.examine
  split
  · exact Outer.refl s
  split
  · exact Outer.refl s
  split
  · split
    · exact outer_untrackedArrival _ _
    · exact Outer.refl s
  split
  · split
    · exact outer_updSeg _ _ _
    · exact Outer.refl s
  · exact Outer.refl s

theorem keepsRacks_leaveConfigure (s : State) : KeepsRacks s s.leaveConfigure := by
  have run : KeepsRacks s { s.setMode .run with idle := 0 } := keepsRacks_of_tables rfl rfl
  exact run.trans (outer_forEach _ outer_examine _ _).keepsRacks

theorem takenKeeps_unlessBusy {s u : State} (h : KeepsRacks s u) : TakenKeeps s (unlessBusy s u) := by
  unfold unlessBusy
  split
  · exact takenKeeps_told _ _ _
  · exact takenKeeps_did h

theorem takenKeeps_mode (s : State) (code : Byte) : TakenKeeps s (modeTaken s code) := by
  unfold modeTaken
  split
  · exact takenKeeps_told _ _ _
  unfold modeTo
  split
  · exact takenKeeps_told _ _ _
  split
  · unfold runTaken
    split
    · exact takenKeeps_told _ _ _
    · exact takenKeeps_did (keepsRacks_leaveConfigure s)
  · exact takenKeeps_did (keepsRacks_of_tables rfl rfl)
  · exact takenKeeps_did (keepsRacks_of_tables rfl rfl)
  · exact takenKeeps_unlessBusy (keepsRacks_enterQuiet s)
  · exact takenKeeps_did (keepsRacks_wake s false)
  · exact takenKeeps_unlessBusy (keepsRacks_enterConfigure s)
  · exact takenKeeps_unlessBusy (keepsRacks_enterConfigure s)
  · exact takenKeeps_unlessBusy (keepsRacks_enterConfigure s)
  · exact takenKeeps_told _ _ _

theorem keepsRacks_powerOn (s t : State) (he : t.entries = State.reset.entries) (hf : t.freeList = State.reset.freeList) :
    KeepsRacks s t :=
  keepsRacks_of_cleared (fun e => (entry_of_entries he e).trans (Vector.getElem_replicate _)) hf

theorem outcomeKeeps_powerOn (b : Bool) (s : State) : OutcomeKeeps s (execPowerOn b s) := by
  unfold execPowerOn
  dsimp only
  split
  · exact outcomeKeeps_next (keepsRacks_powerOn s _ (by simp) (by simp))
  · exact outcomeKeeps_next (keepsRacks_powerOn s _ rfl rfl)


/-! ### The link and the dispatcher -/

theorem keepsRacks_dropClaims (s : State) (p : NodeNo → Bool) : KeepsRacks s (s.dropClaims p) :=
  keepsRacks_forEach (fun u e => (outer_updEntry u e Entry.unclaim fun _ => rfl).keepsRacks) _ _

theorem keepsRacks_absent (s : State) (n : NodeNo) : KeepsRacks s (s.absent n) := by
  have silenced : KeepsRacks s (((s.updNode n fun x =>
      { x with presence := .absent, request := none, overrun := false, lastDemand := DemandSet.none }).dropAnswers
        n).dropItemsOf n) := keepsRacks_of_tables rfl rfl
  exact ((silenced.trans (outer_forEach State.cancelAssignment outer_cancelAssignment _ _).keepsRacks).trans
    (keepsRacks_dropClaims _ _)).trans (keepsRacks_raise _ _)

theorem keepsRacks_chargeError (s : State) (n : NodeNo) (kind : LinkError) : KeepsRacks s (s.chargeError n kind) := by
  unfold State.chargeError
  split
  · exact KeepsRacks.refl s
  dsimp only
  split
  · exact (keepsRacks_updNode _ _ _).trans (keepsRacks_absent _ _)
  · exact keepsRacks_updNode _ _ _

theorem keepsRacks_deliver (s : State) (a : StationAnswer) : KeepsRacks s (s.deliver a) := by
  unfold State.deliver
  split
  · exact keepsRacks_of_tables rfl rfl
  · exact KeepsRacks.refl s

theorem keepsRacks_updRound (s : State) (f : Round → Round) : KeepsRacks s (s.updRound f) := keepsRacks_of_tables rfl rfl

theorem outcomeKeeps_roundStart (s : State) : OutcomeKeeps s (execRoundStart s) := by
  unfold execRoundStart
  split
  · exact outcomeKeeps_next (keepsRacks_of_tables rfl rfl)
  · exact outcomeKeeps_next (KeepsRacks.refl s)

theorem outcomeKeeps_headerSent (s : State) : OutcomeKeeps s (execHeaderSent s) := by
  unfold execHeaderSent
  split
  case h_1 r _ =>
    have sent : KeepsRacks s { s with link := { s.link with phase := .windows r } } := keepsRacks_of_tables rfl rfl
    exact outcomeKeeps_refresh (sent.trans (keepsRacks_forEach (fun u (p : StationAnswer × Bool) => keepsRacks_deliver u p.1) _ _))
  case h_2 => exact outcomeKeeps_next (KeepsRacks.refl s)

theorem outcomeKeeps_roundEnd (s : State) : OutcomeKeeps s (execRoundEnd s) := by
  unfold execRoundEnd
  split
  · exact outcomeKeeps_refresh (keepsRacks_of_tables rfl rfl)
  · exact outcomeKeeps_next (KeepsRacks.refl s)

theorem outcomeKeeps_windowEnd (n : NodeNo) (seen : List (Branch × WindowActivity)) (s : State) :
    OutcomeKeeps s (execWindowEnd n seen s) := by
  unfold execWindowEnd
  split
  case h_2 => exact outcomeKeeps_next (KeepsRacks.refl s)
  split
  case isFalse => exact outcomeKeeps_next (KeepsRacks.refl s)
  split
  · exact outcomeKeeps_done ((keepsRacks_updRound _ _).trans (keepsRacks_chargeError _ _ _))
  · exact outcomeKeeps_next (KeepsRacks.refl s)

theorem keepsRacks_takeFlag (s : State) (n : NodeNo) (chain : Chain) (d : DemandSet) (k : Kind) :
    KeepsRacks s (s.takeFlag n chain d k) := by
  unfold State.takeFlag
  split
  · split
    · have admitted : KeepsRacks s { s with
          demand := joinQueue s.demand ⟨n, k, chain, s.seconds, false, s.nextOrder⟩
          nextOrder := s.nextOrder + 1 } := keepsRacks_of_tables rfl rfl
      exact admitted.trans (outer_touchIdle _).keepsRacks
    · exact KeepsRacks.refl s
  · exact keepsRacks_of_tables rfl rfl

theorem keepsRacks_handDemand (s : State) (role : Role) (reply : Reply) : KeepsRacks s (s.handDemand role reply) := by
  unfold State.handDemand
  split
  · exact (keepsRacks_updNode _ _ _).trans (keepsRacks_forEach (fun u k => keepsRacks_takeFlag u _ _ _ k) _ _)
  · exact KeepsRacks.refl s

theorem keepsRacks_handSightings (s : State) (role : Role) (reply : Reply) :
    KeepsRacks s (s.handSightings role reply) := by
  unfold State.handSightings
  split
  · split
    · exact KeepsRacks.refl s
    · exact keepsRacks_report _ _ _
  · exact KeepsRacks.refl s

theorem keepsRacks_handRequest (s : State) (reply : Reply) : KeepsRacks s (s.handRequest reply) := by
  unfold State.handRequest
  split
  · exact KeepsRacks.refl s
  · exact keepsRacks_takeRequest _ _ _

theorem keepsRacks_handOn (s : State) (role : Role) (reply : Reply) : KeepsRacks s (s.handOn role reply) := by
  have sighted := (keepsRacks_handSightings s role reply).settled s
  have demanded := (sighted.trans (keepsRacks_handDemand _ role reply)).settled
    (State.settle s (s.handSightings role reply))
  have asked := demanded.trans (keepsRacks_handRequest _ reply)
  unfold State.handOn
  dsimp only
  split
  · exact asked.trans (keepsRacks_wake _ _)
  · exact asked

theorem keepsRacks_dropItemsOf (s : State) (n : NodeNo) : KeepsRacks s (s.dropItemsOf n) := keepsRacks_of_tables rfl rfl

theorem keepsRacks_takeReply (s : State) (br : Branch) (role : Role) (reply : Reply) :
    KeepsRacks s (s.takeReply br role reply) := by
  have heard : KeepsRacks s ((s.updNode reply.node fun x => x.heardOn br reply.ready).updRound
    fun r => { r with heard := reply.node :: r.heard }) := keepsRacks_of_tables rfl rfl
  unfold State.takeReply
  dsimp only
  split
  · exact heard.trans (keepsRacks_handOn _ _ _)
  · exact (heard.trans (keepsRacks_dropItemsOf _ _)).settled _

theorem outcomeKeeps_validReply (window : Nat) (br : Branch) (reply : Reply) (s : State) :
    OutcomeKeeps s (execValidReply window br reply s) := by
  unfold execValidReply
  split
  case h_2 => exact outcomeKeeps_next (KeepsRacks.refl s)
  split
  · exact outcomeKeeps_refresh (keepsRacks_takeReply _ _ _ _)
  · have fault : ∀ o, KeepsRacks s (s.branchFault o) := fun _ => keepsRacks_of_tables rfl rfl
    exact outcomeKeeps_refresh ((fault _).trans (keepsRacks_takeReply _ _ _ _))
  · exact outcomeKeeps_next (KeepsRacks.refl s)

theorem takenKeeps_node (s : State) (address : Byte) (fields : Option RawNode) :
    TakenKeeps s (nodeTaken s address fields) := by
  have undefine : ∀ n, TakenKeeps s (undefineNodeTaken s n) := fun n => by
    unfold undefineNodeTaken
    split
    · exact takenKeeps_told _ _ _
    · exact takenKeeps_did (keepsRacks_of_tables rfl rfl)
  have define : ∀ n role, TakenKeeps s (defineNodeTaken s n role) := fun n role => by
    unfold defineNodeTaken
    split
    · exact takenKeeps_did (keepsRacks_of_tables rfl rfl)
    split
    · exact takenKeeps_did (keepsRacks_of_tables rfl rfl)
    split
    · exact takenKeeps_told _ _ _
    · exact takenKeeps_did (keepsRacks_of_tables rfl rfl)
  unfold nodeTaken
  split
  · exact takenKeeps_told _ _ _
  · split
    · exact takenKeeps_told _ _ _
    · exact undefine _
  split
  · exact takenKeeps_told _ _ _
  split
  · exact takenKeeps_told _ _ _
  split
  · exact takenKeeps_told _ _ _
  · exact define _ _

theorem takenKeeps_steer (s : State) (on : Byte) : TakenKeeps s (steerTaken s on) := by
  unfold steerTaken
  split
  · exact takenKeeps_told _ _ _
  · exact takenKeeps_did (keepsRacks_of_tables rfl rfl)
  split
  · exact takenKeeps_told _ _ _
  · exact takenKeeps_did (keepsRacks_of_tables rfl rfl)

theorem keepsRacks_linkReset (s : State) : KeepsRacks s s.linkReset := by
  have reset : KeepsRacks s { s with
      nodes := s.nodes.map (Option.map Node.afterReset), link := s.link.afterReset, answers := [], demand := [] } :=
    keepsRacks_of_tables rfl rfl
  exact ((reset.trans (outer_cancelAll _).keepsRacks).trans (keepsRacks_dropClaims _ _)).trans
    (keepsRacks_of_tables rfl rfl)

theorem outcomeKeeps_resetPulseEnd (s : State) : OutcomeKeeps s (execResetPulseEnd s) := by
  unfold execResetPulseEnd
  split
  · exact outcomeKeeps_next (keepsRacks_of_tables rfl rfl)
  · exact outcomeKeeps_next (KeepsRacks.refl s)

theorem outcomeKeeps_branchWake (br : Branch) (s : State) : OutcomeKeeps s (execBranchWake br s) := by
  unfold execBranchWake
  split
  · exact outcomeKeeps_done (keepsRacks_wake _ _)
  · exact outcomeKeeps_next (KeepsRacks.refl s)

theorem outcomeKeeps_promotion (n : NodeNo) (k : Kind) (s : State) : OutcomeKeeps s (execPromotion n k s) := by
  unfold execPromotion
  split
  · dsimp only
    split
    · exact outcomeKeeps_done (keepsRacks_of_tables rfl rfl)
    · exact outcomeKeeps_next (keepsRacks_of_tables rfl rfl)
  · exact outcomeKeeps_next (KeepsRacks.refl s)

theorem keepsRacks_advanceAges (s : State) : KeepsRacks s s.advanceAges := by
  unfold State.advanceAges
  split
  · refine keepsRacks_of_tags (fun e => ?_) rfl
    have aged : ∀ f : Option Entry → Option Entry,
        ({ s with entries := s.entries.map f } : State).entry? e = f (s.entry? e) := fun f => Vector.getElem_map f e.isLt
    rw [aged, Option.map_map]
    rfl
  · exact KeepsRacks.refl s

theorem keepsRacks_advanceIdle (s : State) : KeepsRacks s s.advanceIdle := by
  unfold State.advanceIdle
  split
  · exact keepsRacks_of_tables rfl rfl
  · exact (outer_holdIdle s).keepsRacks

theorem outcomeKeeps_secondsTick (s : State) : OutcomeKeeps s (execSecondsTick s) := by
  have counted : KeepsRacks s { s with seconds := s.seconds + 1 } := keepsRacks_of_tables rfl rfl
  have advanced := (counted.trans (keepsRacks_advanceAges _)).trans (keepsRacks_advanceIdle _)
  exact outcomeKeeps_refresh (advanced.trans (keepsRacks_of_tables rfl rfl))

theorem outcomeKeeps_autoQuiet (s : State) : OutcomeKeeps s (execAutoQuiet s) := by
  have taken : KeepsRacks s { s with due := { s.due with autoQuiet := false } } := keepsRacks_of_tables rfl rfl
  unfold execAutoQuiet
  split
  case isFalse => exact outcomeKeeps_next (KeepsRacks.refl s)
  dsimp only
  split
  · exact outcomeKeeps_done ((taken.trans (keepsRacks_enterQuiet _)).trans (keepsRacks_raise _ _))
  · exact outcomeKeeps_next taken

/-! ### Segments and gates -/

theorem keepsRacks_openGate (s : State) (n : SegNo) (dest : Place) : KeepsRacks s (s.openGate n dest) := by
  unfold State.openGate
  split
  · exact KeepsRacks.refl s
  dsimp only
  refine KeepsRacks.trans ?_ (outer_touchIdle _).keepsRacks
  split
  · split <;> exact keepsRacks_of_tables rfl rfl
  · split <;> exact keepsRacks_of_tables rfl rfl

theorem outcomeKeeps_gateOpen (n : SegNo) (s : State) : OutcomeKeeps s (execGateOpen n s) := by
  unfold execGateOpen
  split
  · exact outcomeKeeps_done (keepsRacks_openGate _ _ _)
  · exact outcomeKeeps_next (KeepsRacks.refl s)

theorem takenKeeps_step (s : State) (n : SegNo) (g : Segment) : TakenKeeps s (stepTaken s n g) := by
  unfold stepTaken
  split
  · exact takenKeeps_told _ _ _
  split
  · exact takenKeeps_told _ _ _
  · exact takenKeeps_did (keepsRacks_openGate _ _ _)

theorem outer_jamSegment (s : State) (n : SegNo) : Outer s (s.jamSegment n) :=
  ((outer_updSeg _ _ _).trans (outer_endTransfer _ _)).trans (outer_raise _ _)

theorem outcomeKeeps_jam (n : SegNo) (s : State) : OutcomeKeeps s (execJam n s) := by
  unfold execJam
  split
  · exact outcomeKeeps_done (outer_jamSegment _ _).keepsRacks
  · exact outcomeKeeps_next (KeepsRacks.refl s)

theorem outcomeKeeps_safeStop (b : Bool) (s : State) : OutcomeKeeps s (execSafeStop b s) := by
  unfold execSafeStop
  split
  · exact outcomeKeeps_done (keepsRacks_of_tables rfl rfl)
  · exact outcomeKeeps_next (keepsRacks_of_tables rfl rfl)

theorem takenKeeps_define (s : State) (n : SegNo) (f : SegFields) : TakenKeeps s (defineTaken s n f) := by
  unfold defineTaken
  split
  · exact takenKeeps_told _ _ _
  split
  · exact takenKeeps_told _ _ _
  split
  · exact takenKeeps_did (keepsRacks_of_tables rfl rfl)
  split
  · exact takenKeeps_told _ _ _
  · exact takenKeeps_did (keepsRacks_of_tables rfl rfl)

theorem takenKeeps_undefine (s : State) (n : SegNo) : TakenKeeps s (undefineTaken s n) := by
  unfold undefineTaken
  split
  · exact takenKeeps_told _ _ _
  split
  · exact takenKeeps_told _ _ _
  · exact takenKeeps_did (keepsRacks_of_tables rfl rfl)

theorem outcomeKeeps_defineSegment (number : Byte) (fields : Option RawSegment) (s : State) (more : List Byte) :
    OutcomeKeeps s (execDefineSegment number fields s more) := by
  refine outcomeKeeps_portDo (fun u => ?_) s
  split
  · exact takenKeeps_told _ _ _
  · exact takenKeeps_undefine _ _
  split
  · exact takenKeeps_told _ _ _
  · exact takenKeeps_define _ _ _

theorem outer_enterTunnel (s : State) (e : EntryNo) : Outer s (s.enterTunnel e) :=
  (outer_tunnel s _).trans (outer_updEntry _ e _ fun _ => rfl)

theorem outer_arriveAt (s : State) (e : EntryNo) (d : SegNo) : Outer s (s.arriveAt e d) := by
  unfold State.arriveAt
  split
  · exact Outer.refl s
  case h_2 h _ =>
    have arrived := outer_updEntry s e (fun x => x.arrive d h.config.kind s.seconds) fun _ => rfl
    exact (arrived.trans (outer_raiseIf _ _ _)).trans (outer_appendTo _ _ _)

theorem outer_depart (s : State) (n : SegNo) : Outer s (s.depart n) := by
  unfold State.depart
  split
  · exact Outer.refl s
  split
  case h_2 => exact Outer.refl s
  dsimp only
  split
  · exact (outer_updSeg _ _ _).trans (outer_enterTunnel _ _)
  · exact ((outer_updSeg _ _ _).trans (outer_updSeg _ _ _)).trans (outer_arriveAt _ _ _)

theorem outer_eyeBlocks (s : State) (n : SegNo) : Outer s (s.eyeBlocks n) := by
  unfold State.eyeBlocks
  split
  · exact Outer.refl s
  split
  · exact Outer.refl s
  split
  · exact outer_setHeadArrived _ _
  split
  · exact outer_updSeg _ _ _
  · exact outer_untrackedArrival _ _

theorem outer_eyeClears (s : State) (n : SegNo) : Outer s (s.eyeClears n) := by
  have cleared := outer_updSeg s n Segment.eyeCleared
  unfold State.eyeClears
  split
  · exact Outer.refl s
  dsimp only
  split
  · exact cleared.trans (outer_depart _ _)
  split
  · exact cleared
  split
  · split
    · exact cleared.trans (outer_declareMissing _ _ _)
    · exact cleared
  · exact cleared

theorem keepsRacks_wakeIf (s : State) (b : Prop) [Decidable b] : KeepsRacks s (if b then s.wake true else s) := by
  split
  · exact keepsRacks_wake s true
  · exact KeepsRacks.refl s

theorem keepsRacks_eyeEvent (s : State) (eyes : Vector Bool 32) {f : State → SegNo → State} (hf : ∀ u n, Outer u (f u n))
    (l : List SegNo) : KeepsRacks s ({ s with eyes := eyes }.forEach f l) := by
  have taken : KeepsRacks s { s with eyes := eyes } := keepsRacks_of_tables rfl rfl
  exact taken.trans (outer_forEach f hf l _).keepsRacks

theorem outcomeKeeps_eyeBlock (i : LineNo) (s : State) : OutcomeKeeps s (execEyeBlock i s) := by
  unfold execEyeBlock
  split
  · exact outcomeKeeps_next (KeepsRacks.refl s)
  · have judged := keepsRacks_eyeEvent s (s.eyes.set i true) outer_eyeBlocks (s.readersOf i)
    exact outcomeKeeps_done (judged.trans (keepsRacks_wakeIf _ _))

theorem outcomeKeeps_eyeClear (i : LineNo) (s : State) : OutcomeKeeps s (execEyeClear i s) := by
  unfold execEyeClear
  split
  · have judged := keepsRacks_eyeEvent s (s.eyes.set i false) outer_eyeClears (s.readersOf i)
    exact outcomeKeeps_done (judged.trans (keepsRacks_wakeIf _ _))
  · exact outcomeKeeps_next (KeepsRacks.refl s)

/-! ### The tunnel and the rinse -/

theorem outer_fixAt (s : State) (c : TunnelConfig) (e : EntryNo) : Outer s (s.fixAt c e) := by
  unfold State.fixAt
  split
  · exact Outer.refl s
  split
  · exact Outer.refl s
  split
  · refine (outer_updEntry s e _ fun x => ?_).trans (outer_raiseIf _ _ _)
    unfold Entry.fixVerdict
    split <;> rfl
  · exact Outer.refl s

theorem outer_tunnelFault (s : State) (cause : FaultCause) : Outer s (s.tunnelFault cause) :=
  (outer_tunnel s _).trans (outer_raise _ _)

theorem outer_declareOverdue (c : TunnelConfig) (k : Nat) (s : State) : Outer s (State.declareOverdue c k s) := by
  induction k generalizing s with
  | zero => exact Outer.refl s
  | succ k ih =>
    unfold State.declareOverdue
    split
    · exact ((outer_declareMissing _ _ _).trans (outer_tunnelFault _ _)).trans (ih _)
    · exact Outer.refl s

theorem outer_count1 (s : State) : Outer s s.count1 := by
  unfold State.count1
  dsimp only
  split
  · exact outer_tunnel s _
  · exact ((outer_tunnel s _).trans (outer_forEach _ (fun u e => outer_fixAt u _ e) _ _)).trans
      (outer_declareOverdue _ _ _)

theorem outer_exitTo (s : State) (e : EntryNo) (o : SegNo) : Outer s (s.exitTo e o) := by
  have left := outer_updEntry { s with tunnel := { s.tunnel with list := s.tunnel.list.erase e } } e
    (fun x => x.leaveTunnel o s.params.rewashLimit s.seconds) fun _ => rfl
  exact ((outer_tunnel s _).trans left).trans (outer_appendTo _ o e)

theorem outer_judgeExit (s : State) (c : TunnelConfig) : Outer s (s.judgeExit c) := by
  unfold State.judgeExit
  split
  · split
    · exact ((outer_declareMissing _ _ _).trans (outer_jamSegment _ _)).trans (outer_tunnelFault _ _)
    · exact outer_exitTo _ _ _
  · exact outer_tunnelFault _ _

theorem outcomeKeeps_exitEyeBlock (s : State) : OutcomeKeeps s (execExitEyeBlock s) := by
  unfold execExitEyeBlock
  split
  · exact outcomeKeeps_next (KeepsRacks.refl s)
  dsimp only
  split
  · split
    · exact outcomeKeeps_next (outer_tunnel s _).keepsRacks
    · exact outcomeKeeps_done ((outer_tunnel s _).trans (outer_judgeExit _ _)).keepsRacks
  · exact outcomeKeeps_next (outer_tunnel s _).keepsRacks

theorem takenKeeps_clearTunnelFault (s : State) :
    TakenKeeps s (match s.tunnel.fault with
      | none => tell .done
      | some l => .did { s with tunnel := { s.tunnel with fault := none } } fun _ => l.bytes) := by
  split
  · exact takenKeeps_told _ _ _
  · exact takenKeeps_did (outer_tunnel s _).keepsRacks

theorem takenKeeps_defineTunnel (s : State) (f : RawTunnel) : TakenKeeps s (defineTunnelTaken s f) := by
  unfold defineTunnelTaken
  split
  · exact takenKeeps_told _ _ _
  split
  · exact takenKeeps_told _ _ _
  split
  · exact takenKeeps_did (outer_tunnel s _).keepsRacks
  · exact takenKeeps_told _ _ _

theorem outer_inFinal (s : State) (f : PassRecord → PassRecord) : Outer s (s.inFinal f) := by
  refine outer_forEach _ (fun u e => ?_) _ s
  split
  · exact Outer.refl u
  split
  · exact outer_updEntry u e (fun y => { y with pass := y.pass.map f }) fun _ => rfl
  · exact Outer.refl u

theorem outcomeKeeps_rinseOkAssert (s : State) : OutcomeKeeps s (execRinseOkAssert s) := by
  unfold execRinseOkAssert
  split
  · exact outcomeKeeps_next (KeepsRacks.refl s)
  · exact outcomeKeeps_refresh ((outer_tunnel s _).trans (outer_inFinal _ _)).keepsRacks

theorem outcomeKeeps_dropout (e : EntryNo) (s : State) : OutcomeKeeps s (execDropout e s) := by
  unfold execDropout
  split
  · exact outcomeKeeps_next (KeepsRacks.refl s)
  split
  · split
    · exact outcomeKeeps_next (KeepsRacks.refl s)
    · exact outcomeKeeps_refresh
        (outer_updEntry s e (fun y => { y with pass := y.pass.map (·.markDropout s.params.grace) }) fun _ => rfl).keepsRacks
  · exact outcomeKeeps_next (KeepsRacks.refl s)

theorem outcomeKeeps_paceTick (s : State) : OutcomeKeeps s (execPaceTick s) := by
  unfold execPaceTick
  split
  · exact outcomeKeeps_next (outer_tunnel s _).keepsRacks
  · exact outcomeKeeps_next (KeepsRacks.refl s)

theorem outcomeKeeps_paceCounterZero (s : State) : OutcomeKeeps s (execPaceCounterZero s) := by
  unfold execPaceCounterZero
  split
  · exact outcomeKeeps_next (outer_tunnel s _).keepsRacks
  · exact outcomeKeeps_next (KeepsRacks.refl s)


/-! ### The port's own requests -/

theorem keepsRacks_inPort (s : State) (p : Port) : KeepsRacks s { s with port := p } := keepsRacks_of_tables rfl rfl

theorem outcomeKeeps_nop (s : State) (more : List Byte) : OutcomeKeeps s (execNop s more) := by
  refine outcomeKeeps_next ?_
  split
  · exact keepsRacks_tooSoon _ _
  · exact keepsRacks_begin _ _

theorem outcomeKeeps_badCheckMessage (bytes : List Byte) (s : State) :
    OutcomeKeeps s (execBadCheckMessage bytes s) := by
  unfold execBadCheckMessage
  split
  · exact outcomeKeeps_next (keepsRacks_tooSoon _ _)
  split
  · exact outcomeKeeps_next ((keepsRacks_begin _ _).trans (keepsRacks_answer _ _ _ _))
  · exact outcomeKeeps_next (KeepsRacks.refl s)

theorem outcomeKeeps_unknownRequest (bytes : List Byte) (s : State) :
    OutcomeKeeps s (execUnknownRequest bytes s) := by
  unfold execUnknownRequest
  split
  · exact outcomeKeeps_next (keepsRacks_tooSoon _ _)
  split
  · exact outcomeKeeps_next ((keepsRacks_begin _ _).trans (keepsRacks_answer _ _ _ _))
  · exact outcomeKeeps_next (KeepsRacks.refl s)

theorem outcomeKeeps_tooSoonTransaction (bytes : List Byte) (s : State) :
    OutcomeKeeps s (execTooSoonTransaction bytes s) := by
  unfold execTooSoonTransaction
  split
  · exact outcomeKeeps_next (keepsRacks_tooSoon _ _)
  · exact outcomeKeeps_next (KeepsRacks.refl s)

theorem takenKeeps_withParams (s : State) (p : Params) (written : List Byte) : TakenKeeps s (s.withParams p written) :=
  takenKeeps_did (keepsRacks_of_tables rfl rfl)

theorem takenKeeps_setGrace (s : State) (v : Nat) : TakenKeeps s (setGrace s v) := by
  unfold setGrace
  split
  · exact takenKeeps_told _ _ _
  · exact takenKeeps_did ((outer_inFinal s _).keepsRacks.trans (keepsRacks_of_tables rfl rfl))

theorem takenKeeps_setRewashLimit (s : State) (v : Nat) : TakenKeeps s (setRewashLimit s v) := by
  unfold setRewashLimit
  split
  · exact takenKeeps_told _ _ _
  split
  · exact takenKeeps_told _ _ _
  · exact takenKeeps_withParams _ _ _

/-- A parameter whose value is out of its range changes nothing. -/
theorem takenKeeps_inRange (s : State) (b : Prop) [Decidable b] (p : Params) (written : List Byte) :
    TakenKeeps s (if b then s.withParams p written else tell .badRequest) := by
  split
  · exact takenKeeps_withParams _ _ _
  · exact takenKeeps_told _ _ _

theorem takenKeeps_setParam (s : State) (id : Byte) (v : Nat) : TakenKeeps s (setParamTaken s id v) := by
  unfold setParamTaken
  split
  · exact takenKeeps_inRange _ _ _ _
  · exact takenKeeps_inRange _ _ _ _
  · exact takenKeeps_inRange _ _ _ _
  · exact takenKeeps_inRange _ _ _ _
  · exact takenKeeps_setGrace _ _
  · exact takenKeeps_setRewashLimit _ _
  · exact takenKeeps_inRange _ _ _ _
  · exact takenKeeps_inRange _ _ _ _
  · exact takenKeeps_inRange _ _ _ _
  · exact takenKeeps_told _ _ _

theorem takenKeeps_ackNode (s : State) (address : Byte) : TakenKeeps s (ackNodeTaken s address) := by
  unfold ackNodeTaken
  split
  · exact takenKeeps_told _ _ _
  split
  · exact takenKeeps_did (keepsRacks_updNode _ _ _)
  · exact takenKeeps_told _ _ _

/-- A change under a condition, refused where it fails. -/
theorem takenKeeps_ifElse {s u : State} (b : Prop) [Decidable b] (h : KeepsRacks s u) (body : State → List Byte)
    (r : Result) : TakenKeeps s (if b then .did u body else tell r) := by
  split
  · exact takenKeeps_did h
  · exact takenKeeps_told _ _ _

theorem keepsRacks_setAttention (s : State) (settings : List Byte) : KeepsRacks s (s.setAttention settings) :=
  keepsRacks_of_tables rfl rfl

theorem outcomeKeeps_ack (sources : Half) (s : State) (more : List Byte) : OutcomeKeeps s (execAck sources s more) := by
  unfold execAck
  split
  · exact outcomeKeeps_next (keepsRacks_tooSoon _ _)
  · exact outcomeKeeps_next (keepsRacks_of_tables rfl rfl)

theorem outcomeKeeps_step (seg : Byte) (s : State) (more : List Byte) : OutcomeKeeps s (execStep seg s more) := by
  refine outcomeKeeps_portDo (fun u => ?_) s
  split
  · exact takenKeeps_told _ _ _
  · exact takenKeeps_onSegment _ _ (takenKeeps_step u)

/-! ### Every command -/

/-- Every command keeps both invariants. -/
theorem outcomeKeeps_exec (c : Instr) (s : State) : OutcomeKeeps s (exec c s) := by
  cases c with
  | powerOn b => exact outcomeKeeps_powerOn b s
  | nop more => exact outcomeKeeps_nop s more
  | mode code more => exact outcomeKeeps_portDo (fun u => takenKeeps_mode u code) s
  | setParam id value more => exact outcomeKeeps_portDo (fun u => takenKeeps_setParam u id value.toNat) s
  | readCounts more => exact outcomeKeeps_portRead _ _ s
  | readEntry sel more => exact outcomeKeeps_portRead _ (fun u => u.readEntry sel) s
  | readSegment seg start more => exact outcomeKeeps_portRead _ (fun u => u.readSegment seg start) s
  | readTunnel start more => exact outcomeKeeps_portRead _ (fun u => u.readTunnel start) s
  | readNode address more => exact outcomeKeeps_portRead _ (fun u => u.readNode address) s
  | readDemand start more => exact outcomeKeeps_portRead _ (fun u => u.readDemand start) s
  | readAttention more => exact outcomeKeeps_portRead _ (fun u => (.done, u.attentionBytes)) s
  | setAttention settings more =>
    exact outcomeKeeps_portDo (fun u => takenKeeps_ifElse _ (keepsRacks_setAttention u settings) _ _) s
  | ack sources more => exact outcomeKeeps_ack sources s more
  | ackNode address more => exact outcomeKeeps_portDo (fun u => takenKeeps_ackNode u address) s
  | admitRack tag seg more => exact outcomeKeeps_portDo (fun u => takenKeeps_admit u tag seg) s
  | retire tag more => exact outcomeKeeps_portDo (fun u => takenKeeps_retire u tag) s
  | restore tag seg clean more => exact outcomeKeeps_portDo (fun u => takenKeeps_restore u tag seg clean) s
  | clearTable more => exact outcomeKeeps_portDo (fun u => takenKeeps_ifElse _ (keepsRacks_clearTable u) _ _) s
  | defineSegment number fields more => exact outcomeKeeps_defineSegment number fields s more
  | segmentHold seg more =>
    exact outcomeKeeps_portDo (fun u => takenKeeps_onSegment _ _ fun _ _ => takenKeeps_did (outer_updSeg u _ _).keepsRacks) s
  | segmentRelease seg more =>
    exact outcomeKeeps_portDo (fun u => takenKeeps_onSegment _ _ fun _ _ => takenKeeps_did (outer_updSeg u _ _).keepsRacks) s
  | clearJam src seg => exact outcomeKeeps_rackCommand _ src _ s
  | stepGate seg more => exact outcomeKeeps_step seg s more
  | resume src => exact outcomeKeeps_rackCommand _ src _ s
  | clearStranger seg more =>
    exact outcomeKeeps_portDo (fun u => takenKeeps_onSegment _ _ (takenKeeps_clearStranger u)) s
  | defineTunnel fields more => exact outcomeKeeps_portDo (fun u => takenKeeps_defineTunnel u fields) s
  | clearTunnelFault more => exact outcomeKeeps_portDo takenKeeps_clearTunnelFault s
  | defineNode address fields more => exact outcomeKeeps_portDo (fun u => takenKeeps_node u address fields) s
  | linkReset more => exact outcomeKeeps_portDo (fun u => takenKeeps_did (keepsRacks_linkReset u)) s
  | steer on more => exact outcomeKeeps_portDo (fun u => takenKeeps_steer u on) s
  | lookup src tag => exact outcomeKeeps_rackCommand _ src _ s
  | send src tag expected => exact outcomeKeeps_rackCommand _ src _ s
  | claim src tag expected => exact outcomeKeeps_rackCommand _ src _ s
  | unloadDone src tag expected => exact outcomeKeeps_rackCommand _ src _ s
  | rewash src tag expected => exact outcomeKeeps_rackCommand _ src _ s
  | release src tag expected => exact outcomeKeeps_rackCommand _ src _ s
  | hold src tag expected reason => exact outcomeKeeps_rackCommand _ src _ s
  | unhold src tag expected reason => exact outcomeKeeps_rackCommand _ src _ s
  | forceRelease src tag expected => exact outcomeKeeps_rackCommand _ src _ s
  | badCheckMessage bytes => exact outcomeKeeps_badCheckMessage bytes s
  | unknownRequest bytes => exact outcomeKeeps_unknownRequest bytes s
  | tooSoonTransaction bytes => exact outcomeKeeps_tooSoonTransaction bytes s
  | turnaroundEnd => exact outcomeKeeps_next (keepsRacks_inPort s _)
  | roundStart => exact outcomeKeeps_roundStart s
  | headerSent => exact outcomeKeeps_headerSent s
  | roundEnd => exact outcomeKeeps_roundEnd s
  | sightingWindowRunOut seg => exact outcomeKeeps_windowRunsOut seg s
  | windowEnd node seen => exact outcomeKeeps_windowEnd node seen s
  | validReply window branch reply => exact outcomeKeeps_validReply window branch reply s
  | branchWake branch => exact outcomeKeeps_branchWake branch s
  | resetPulseEnd => exact outcomeKeeps_resetPulseEnd s
  | eyeBlock input => exact outcomeKeeps_eyeBlock input s
  | eyeClear input => exact outcomeKeeps_eyeClear input s
  | gateOpen seg => exact outcomeKeeps_gateOpen seg s
  | jam seg => exact outcomeKeeps_jam seg s
  | safeStop asserted => exact outcomeKeeps_safeStop asserted s
  | secondsTick => exact outcomeKeeps_secondsTick s
  | stale entry => exact outcomeKeeps_stale entry s
  | promotion node kind => exact outcomeKeeps_promotion node kind s
  | autoQuiet => exact outcomeKeeps_autoQuiet s
  | paceTick => exact outcomeKeeps_paceTick s
  | paceCounterZero => exact outcomeKeeps_paceCounterZero s
  | encoderCount => exact outcomeKeeps_done (outer_count1 s).keepsRacks
  | pitchReached => exact outcomeKeeps_next (KeepsRacks.refl s)
  | exitEyeBlock => exact outcomeKeeps_exitEyeBlock s
  | exitEyeClear => exact outcomeKeeps_next (outer_tunnel s _).keepsRacks
  | machineLineChange line asserted => exact outcomeKeeps_next (outer_tunnel s _).keepsRacks
  | rinseOkAssert => exact outcomeKeeps_rinseOkAssert s
  | rinseOkDeassert => exact outcomeKeeps_next (outer_tunnel s _).keepsRacks
  | dropout entry => exact outcomeKeeps_dropout entry s
  | dwellMillisecond => exact outcomeKeeps_refresh (outer_inFinal s _).keepsRacks

/-- Every step keeps both invariants: a command, a step of the controller's own, a millisecond. -/
theorem outcomeKeeps_stepTaken (s : State) : OutcomeKeeps s (step s) := by
  unfold step
  split
  case h_1 c rest _ =>
    have taken : KeepsRacks s { s with pending := rest } := keepsRacks_of_tables rfl rfl
    exact fun t h => taken.trans (outcomeKeeps_exec c _ t h)
  split
  · exact outcomeKeeps_exec _ s
  · exact outcomeKeeps_refresh (keepsRacks_of_tables rfl rfl)

end Sys2Proof.Machine

/-- Settles O5: every command keeps the invariants of the rack table. -/
theorem freeListComplete : Obligations.FreeListComplete :=
  fun s t sound stepped => (outcomeKeeps_stepTaken s t stepped).free sound

/-- Settles O6: every command keeps the invariants of the rack table. -/
theorem tagsStayDistinct : Obligations.TagsStayDistinct :=
  fun s t distinct stepped => (outcomeKeeps_stepTaken s t stepped).distinct distinct
end

section
/-! PROOF. What power-on leaves (R26, R80, R193, R199), and the found table (R13 to R15, R110). -/

open Sys2Proof Sys2Proof.Machine

namespace Sys2Proof.Machine

/-! ### Power-on -/

theorem reset_entry (e : EntryNo) : State.reset.entry? e = none := Vector.getElem_replicate e.isLt

theorem reset_seg (n : SegNo) : State.reset.seg? n = none := Vector.getElem_replicate n.isLt

theorem reset_node (n : NodeNo) : State.reset.node? n = none := Vector.getElem_replicate n.isLt

/-- Without a segment no search of the segment table finds one. -/
theorem reset_segsWhere (p : Segment → Bool) : State.reset.segsWhere p = [] :=
  List.eq_nil_iff_forall_not_mem.2 fun n h => by
    obtain ⟨g, hg, -⟩ := mem_segsWhere.1 h
    rw [reset_seg] at hg
    cases hg

theorem reset_line (owns : Segment → LineNo → Bool) (k : LineNo) : State.reset.line owns k = false := by
  unfold State.line
  rw [reset_segsWhere]
  rfl

/-- A group of lines that are all off. -/
theorem ofFn_off {f : Fin 32 → Bool} (h : ∀ k, f k = false) : Vector.ofFn f = Vector.replicate 32 false := by
  ext i hi
  simp [h]

theorem reset_outputsAgree : OutputsAgree State.reset := by
  have off : ∀ chain, attentionLine chain State.reset.attention = false := fun chain => by cases chain <;> rfl
  unfold OutputsAgree State.outputs
  rw [ofFn_off (reset_line _), ofFn_off (reset_line _), ofFn_off (reset_line _), reset_segsWhere, off, off]
  rfl

theorem reset_freeListSound : FreeListSound State.reset :=
  ⟨List.nodup_finRange 128, fun e => iff_of_true (List.mem_finRange e) (reset_entry e)⟩

theorem reset_tagsDistinct : TagsDistinct State.reset := fun e d x y hx => by
  rw [reset_entry] at hx
  cases hx

theorem reset_source (a : Source14) : State.reset.source a =
    { flag := false, enable := false
      chain := if a = .jam ∨ a = .tunnelFault ∨ a = .safetyStop then .high else .low } := by
  cases a <;> rfl

theorem reset_linesOff (k : LineNo) : State.reset.out.drives.get k = false ∧ State.reset.out.gates.get k = false ∧
    State.reset.out.diverters.get k = false :=
  ⟨Vector.getElem_replicate k.isLt, Vector.getElem_replicate k.isLt, Vector.getElem_replicate k.isLt⟩

end Sys2Proof.Machine

/-- Settles O7. -/
theorem resetLeaves : Obligations.ResetLeaves := by
  refine ⟨?_, reset_outputsAgree, reset_freeListSound, reset_tagsDistinct⟩
  exact ⟨rfl, rfl, rfl, rfl, reset_entry, rfl, reset_seg, reset_node, rfl, rfl, rfl, rfl, rfl, rfl, rfl, rfl, rfl, rfl,
    rfl, rfl, rfl, rfl, rfl, rfl, rfl, reset_source, rfl, reset_linesOff, rfl, rfl, rfl, rfl⟩

namespace Sys2Proof.Machine

/-! ### The found table -/

theorem isClean_iff (v : Verdict) : v.isClean = true ↔ (∃ d m, v = .pass d m) ∨ v = .manual := by
  cases v <;> simp [Verdict.isClean]

theorem isFail_iff (v : Verdict) : v.isFail = true ↔ ∃ c d m, v = .fail c d m := by
  cases v <;> simp [Verdict.isFail]

/-- The prior states from which the found table takes a rack on the clean side (R14). -/
def CleanPrior (prior : Option RackState) : Prop :=
  prior = none ∨ prior = some .returning ∨ prior = some .stored ∨ prior = some .staged

/-- The rack had passed the tunnel: CLEARED or UNLOADING before, with a clean verdict (R14). -/
def PassedBefore (x : Entry) (prior : Option RackState) : Prop :=
  (prior = some .cleared ∨ prior = some .unloading) ∧ ((∃ d m, x.verdict = .pass d m) ∨ x.verdict = .manual)

/-- The verdict NONE becomes FAIL with cause MISTRACK (R15). -/
def Mistracked (x : Entry) (kind : SegKind) (prior : Option RackState) : Prop :=
  (kind = .outfeed ∨ kind = .exit) ∧ ¬ PassedBefore x prior ∧ x.verdict = .none

theorem passedBefore_iff (x : Entry) (prior : Option RackState) :
    ((prior == some .cleared || prior == some .unloading) && x.verdict.isClean) = true ↔ PassedBefore x prior := by
  rw [PassedBefore, ← isClean_iff]
  simp

theorem cleanSide_iff (x : Entry) (prior : Option RackState) :
    ((prior == none || prior == some .returning || prior == some .stored || prior == some .staged) &&
      !x.verdict.isFail) = true ↔ CleanPrior prior ∧ ¬ ∃ c d m, x.verdict = .fail c d m := by
  rw [← isFail_iff]
  simp [CleanPrior, or_assoc]

/-- The second column of the found table. -/
theorem foundState_mistrack (x : Entry) (kind : SegKind) (storeKind : Option Kind) (prior : Option RackState) :
    (foundState kind storeKind x prior).2 = true ↔ Mistracked x kind prior := by
  unfold foundState Mistracked
  cases kind
  case outfeed => simp only [← passedBefore_iff]; split <;> simp_all
  case exit => simp only [← passedBefore_iff]; split <;> simp_all
  all_goals simp

/-- The state found at OUTFEED and EXIT. -/
theorem foundState_exitSide (x : Entry) {kind : SegKind} (h : kind = .outfeed ∨ kind = .exit) (storeKind : Option Kind)
    (prior : Option RackState) :
    (PassedBefore x prior → (foundState kind storeKind x prior).1 = .cleared) ∧
    (¬ PassedBefore x prior → (foundState kind storeKind x prior).1 = .rewashDue) := by
  rw [← passedBefore_iff]
  obtain rfl | rfl := h <;> exact ⟨fun h => by simp [foundState, h], fun h => by simp [foundState, h]⟩

/-- The states found on the clean side: CLEAN, STORE and PARK (R14). -/
theorem foundState_cleanSide (x : Entry) (kind : SegKind) (storeKind : Option Kind) (prior : Option RackState) :
    let failed := ∃ c d m, x.verdict = .fail c d m
    let found := (foundState kind storeKind x prior).1
    (kind = .clean → (CleanPrior prior ∧ ¬ failed → found = .returning) ∧
      (¬ (CleanPrior prior ∧ ¬ failed) → found = .setAside)) ∧
    (kind = .store → (CleanPrior prior ∧ ¬ failed ∧ storeKind = some x.tag.kind → found = .stored) ∧
      (¬ (CleanPrior prior ∧ ¬ failed ∧ storeKind = some x.tag.kind) → found = .setAside)) ∧
    (kind = .park → (CleanPrior prior ∧ ¬ failed → found = .staged) ∧
      (¬ (CleanPrior prior ∧ ¬ failed) → found = .setAside)) := by
  have side := cleanSide_iff x prior
  unfold foundState
  dsimp only
  generalize ((prior == none || prior == some .returning || prior == some .stored || prior == some .staged) &&
    !x.verdict.isFail) = clean at side ⊢
  refine ⟨?_, ?_, ?_⟩ <;> rintro rfl <;> simp only [← and_assoc, ← side] <;> cases clean <;> simp

/-- The state that placement gives: SET_ASIDE over the rewash limit, else the one found (R15, R110). -/
theorem place_state (x : Entry) (n : SegNo) (kind : SegKind) (storeKind : Option Kind) (prior : Option RackState)
    (limit : Nat) (now : BitVec 32) :
    let y := x.place n kind storeKind prior false limit now
    (limit < y.rewashes ∨ (Mistracked x kind prior ∧ limit < x.rewashes + 1) → y.state = .setAside) ∧
    (y.rewashes ≤ limit → (Mistracked x kind prior → x.rewashes + 1 ≤ limit) →
      y.state = (foundState kind storeKind x prior).1) := by
  have mistrack := foundState_mistrack x kind storeKind prior
  simp only [Entry.place, overLimit, ← mistrack]
  refine ⟨fun h => if_pos ?_, fun h k => if_neg ?_⟩
  · simpa [or_comm] using h
  · simp only [Bool.false_or, Bool.or_eq_true, Bool.and_eq_true, decide_eq_true_eq, not_or, not_and, Nat.not_lt]
    exact ⟨k, h⟩

end Sys2Proof.Machine

/-- Settles O22: a placement takes its state from the found table, or SET_ASIDE over the limit. -/
theorem foundTable : Obligations.FoundTable := by
  intro x n kind storeKind prior limit now y cleanPrior passed failed mistracked
  have mistrack : (foundState kind storeKind x prior).2 = true ↔ mistracked := foundState_mistrack _ _ _ _
  obtain ⟨exceeded, within⟩ := place_state x n kind storeKind prior limit now
  obtain ⟨clean, store, park⟩ := foundState_cleanSide x kind storeKind prior
  refine ⟨⟨rfl, rfl, rfl, rfl, rfl, rfl, rfl, rfl, rfl, rfl⟩, fun h => ?_, fun h => ?_, exceeded, fun h k => ?_⟩
  · exact ⟨if_pos (mistrack.2 h), if_pos (mistrack.2 h)⟩
  · exact ⟨if_neg (h ∘ mistrack.1), if_neg (h ∘ mistrack.1)⟩
  · have state : y.state = (foundState kind storeKind x prior).1 := within h k
    rw [state]
    refine ⟨?_, ?_, ?_, fun e => foundState_exitSide x e storeKind prior, clean, store, park, ?_⟩
    · rintro rfl; rfl
    · rintro rfl; rfl
    · rintro rfl; rfl
    · rintro rfl; rfl
end

section
/-! PROOF. The rack table's own requests (R12 to R24): what ADMIT, RETIRE, RESTORE and CLEAR_TABLE leave, and what they
refuse in which order. -/

open Sys2Proof Sys2Proof.Machine

namespace Sys2Proof.Machine

/-! ### The arguments -/

theorem segOfByte_of {b : Byte} {n : SegNo} (h : b.toNat = n.val) : segOfByte b = some n := by
  simp [segOfByte, h]

theorem placeOfByte_segment {b : Byte} {n : SegNo} (h : b.toNat = n.val) : placeOfByte b = some (.segment n) := by
  have := n.isLt
  simp only [placeOfByte, segOfByte_of h, Config.tunnelCode]
  rw [if_neg (by omega)]
  rfl

theorem placeOfByte_tunnel {b : Byte} (h : b.toNat = 0x20) : placeOfByte b = some .tunnel := if_pos h

theorem placeOfByte_bad {b : Byte} (h : 32 < b.toNat) : placeOfByte b = none := by
  rw [placeOfByte, Config.tunnelCode, if_neg (by omega), segOfByte, dif_neg (by omega)]
  rfl

theorem placeOfByte_good {b : Byte} (h : b.toNat ≤ 32) : ∃ p, placeOfByte b = some p := by
  by_cases ht : b.toNat = 32
  · exact ⟨_, placeOfByte_tunnel ht⟩
  · exact ⟨_, placeOfByte_segment (n := ⟨b.toNat, by omega⟩) rfl⟩

theorem flagOfByte_of (flag : Bool) : flagOfByte (if flag then 1 else 0) = some flag := by
  cases flag <;> rfl

theorem flagOfByte_bad {b : Byte} (h : 1 < b.toNat) : flagOfByte b = none := by
  unfold flagOfByte
  split
  · omega
  · omega
  · rfl

theorem flagOfByte_good {b : Byte} (h : b.toNat ≤ 1) : ∃ f, flagOfByte b = some f := by
  obtain zero | one : b.toNat = 0 ∨ b.toNat = 1 := by omega
  · exact ⟨false, by simp [flagOfByte, zero]⟩
  · exact ⟨true, by simp [flagOfByte, one]⟩

/-- A transaction taken opens no gate (R185). -/
theorem taken_inTransfer (s : State) (c : Instr) (e : EntryNo) : (s.taken c).inTransfer e = s.inTransfer e := by
  simp only [State.inTransfer, State.segsWhere, taken_seg]

theorem tells_plain {c : Instr} {act : State → Taken} {s : State} {r : Result} (he : exec c s = portDo c act s)
    (hp : s.port.turnaround = false) (hr : r ≠ .badRequest) (ha : act (s.taken c) = tell r) : Tells c s r [] :=
  tells_of he hp hr ha

/-- A refusal that names an entry answers with its summary (R18). -/
theorem tells_summary {c : Instr} {act : State → Taken} {s : State} {r : Result} {e : EntryNo}
    (he : exec c s = portDo c act s) (hp : s.port.turnaround = false) (hr : r ≠ .badRequest)
    (ha : act (s.taken c) = .told r (summaryOf e)) : Tells c s r (s.summaryBytes (some e)) := by
  rw [← taken_summaryBytes s c]
  exact tells_of he hp hr ha

/-! ### Joining a tail -/

/-- Whoever joins a tail, only its segment and the attention flags change, and the segment keeps its fields but for the queue and
what an arrival sets. -/
theorem JoinsTail.frame {placed : Bool} {s t : State} {d : SegNo} {h : Segment} {e : EntryNo} {x : Entry}
    (j : JoinsTail placed s t d h e x) : SegsOnly s t ∧ (∀ m, m ≠ d → t.seg? m = s.seg? m) ∧
      ∃ k, t.seg? d = some k ∧ k.queue = h.queue ++ [e] ∧ k.config = h.config ∧
        k.reservedTransfer = h.reservedTransfer ∧ k.reservedDispatch = h.reservedDispatch := by
  obtain ⟨arrives, stays⟩ := j
  by_cases c : h.queue = [] ∧ s.eyes.get h.config.eye = true
  · obtain ⟨hseg, -, -, -, hrest, honly⟩ := arrives c.1 c.2
    refine ⟨(segsOnly_putSeg s d _).trans honly, fun m hm => ?_, _, hseg, rfl, rfl, rfl, rfl⟩
    rw [hrest m hm, seg_putSeg, if_neg (Ne.symm hm)]
  · have : h.queue ≠ [] ∨ s.eyes.get h.config.eye = false := by
      by_cases hq : h.queue = []
      · exact .inr (by simpa [hq] using c)
      · exact .inl hq
    rw [stays this]
    exact ⟨segsOnly_putSeg s d _, fun m hm => by rw [seg_putSeg, if_neg (Ne.symm hm)], _, seg_putSeg_self _ _ _, rfl, rfl,
      rfl, rfl⟩

/-! ### ADMIT -/

/-- The state, verdict and rewash count that the found table gives a new entry (R14, R15, R19). -/
def admittedFields (kind : SegKind) (storeKind : Option Kind) (tagKind : Kind) (limit : Nat) : RackState × Verdict × Nat :=
  match kind with
  | .collect => (.loaded, .none, 0)
  | .entry => (.queued, .none, 0)
  | .rewash => (.rewashDue, .none, 0)
  | .outfeed | .exit => (if limit = 0 then .setAside else .rewashDue, .fail .mistrack 0 false, 1)
  | .clean => (.returning, .none, 0)
  | .store => (if storeKind = some tagKind then .stored else .setAside, .none, 0)
  | .park => (.staged, .none, 0)
  | .aside => (.setAside, .none, 0)

theorem place_new (tag : Tag) (n : SegNo) (kind : SegKind) (storeKind : Option Kind) (limit : Nat) (now : BitVec 32) :
    let found := admittedFields kind storeKind tag.kind limit
    (Entry.new tag).place n kind storeKind none false limit now =
      { tag := tag, state := found.1, location := some (.segment n), hold := none, claim := none, assignment := none,
        passes := 0, verdict := found.2.1, rewashes := found.2.2, confirmed := true, overtaken := 0,
        lastConfirmed := now, staleAge := 0, pass := none, missing := none, placed := true } := by
  cases kind <;>
    simp [Entry.place, Entry.new, foundState, admittedFields, Verdict.isFail, overLimit, raiseRewash, Config.rewashLimitMax]

theorem takeFree_putEntry (s : State) (e : EntryNo) (t : Tag) (x : Option Entry) :
    (s.takeFree e t).putEntry e x = { s with freeList := s.freeList.tail }.putEntry e x :=
  putEntry_putEntry _ _ _ _

/-- An admission is a placement of the new entry at the tail (R13, R19). -/
theorem admitAt_joins {s : State} {tag : Tag} {n : SegNo} {g : Segment} {e : EntryNo} (hg : s.seg? n = some g) :
    let y := (Entry.new tag).place n g.config.kind g.config.storeKind none false s.params.rewashLimit s.seconds
    JoinsTail true ({ s with freeList := s.freeList.tail }.putEntry e (some y)) (s.admitAt e tag n) n g e y := by
  intro y
  have joins : JoinsTail true ((s.takeFree e tag).putEntry e (some y)) (s.admitAt e tag n) n g e y :=
    placeAtTail_joins (s := s.takeFree e tag) hg (entry_putEntry_self _ e _) none
  rwa [takeFree_putEntry] at joins

theorem admitPlacesRack : Says.AdmitPlacesRack := by
  intro s more tag seg n g e hp hfind hseg hg hfree hspace
  refine takes_of (act := fun u => admitTaken u tag seg) rfl hp ?_ ((outer_placeAtTail _ _ _ _).port)
  simp [admitTaken, placeOfByte_segment hseg, hfind, admitInto, hg, hfree, hspace]
  rfl

theorem admittedEntry : Says.AdmittedEntry := by
  intro s tag n g e hg t found record
  have hrecord : record = (Entry.new tag).place n g.config.kind g.config.storeKind none false s.params.rewashLimit
    s.seconds := (place_new tag n g.config.kind g.config.storeKind s.params.rewashLimit s.seconds).symm
  have joins : JoinsTail true ({ s with freeList := s.freeList.tail }.putEntry e (some record)) t n g e record :=
    hrecord ▸ admitAt_joins hg
  obtain ⟨only, others, h, hn, hqueue, hconfig, -, -⟩ := joins.frame
  refine ⟨?_, fun d hd => ?_, ⟨h, hn, hqueue, hconfig⟩, joins, others, only.freeList, only.seconds, only.tunnel, only.demand⟩
  · rw [only.entry, entry_putEntry_self]
  · rw [only.entry, entry_putEntry, if_neg (Ne.symm hd)]
    rfl

theorem admitRefuses : Says.AdmitRefuses := by
  intro s more tag seg hp c
  have he : exec c s = portDo c (fun u => admitTaken u tag seg) s := rfl
  refine ⟨fun hbad => tellsBad_of he hp ?_, fun e hgood hfind => tells_summary he hp (by decide) ?_, fun hfind => ⟨fun ht => ?_,
    fun n hn => ⟨fun hg => ?_, fun g hg => ⟨fun hfree => ?_, fun hfree hfull => ?_⟩⟩⟩⟩
  · simp [admitTaken, placeOfByte_bad hbad]
  · obtain ⟨p, hplace⟩ := placeOfByte_good hgood
    simp [admitTaken, hplace, hfind]
  · exact tells_plain he hp (by decide) (by simp [admitTaken, placeOfByte_tunnel ht, hfind])
  · exact tells_plain he hp (by decide) (by simp [admitTaken, placeOfByte_segment hn, hfind, admitInto, hg])
  · exact tells_plain he hp (by decide) (by simp [admitTaken, placeOfByte_segment hn, hfind, admitInto, hg, hfree])
  · obtain ⟨e, rest, hhead⟩ := List.exists_cons_of_ne_nil hfree
    exact tells_plain he hp (by decide)
      (by simp [admitTaken, placeOfByte_segment hn, hfind, admitInto, hg, hhead, hfull])

/-! ### RETIRE -/

theorem removeEntry_segment {s : State} {e : EntryNo} {x : Entry} {n : SegNo} (hx : s.entry? e = some x)
    (hl : x.location = some (.segment n)) : s.removeEntry e = s.removeFromSegment n e := by
  simp [State.removeEntry, hx, hl]

theorem removeEntry_nowhere {s : State} {e : EntryNo} {x : Entry} (hx : s.entry? e = some x) (hl : x.location = none) :
    s.removeEntry e = s := by
  simp [State.removeEntry, hx, hl]

/-- Removal of an entry that no gate carries from the segment it stands in (R12). -/
theorem removeEntry_closed {s : State} {e : EntryNo} {x : Entry} {n : SegNo} {g : Segment} (hx : s.entry? e = some x)
    (hl : x.location = some (.segment n)) (hg : s.seg? n = some g) (ht : s.inTransfer e = false) :
    s.removeEntry e = s.putSeg n (some (leftBehind g e)) :=
  (removeEntry_segment hx hl).trans (removeFromSegment_closed hg (closed_of_inTransfer ht hg))

theorem mayRetire_iff (m : Mode) (st : RackState) : mayRetire m st = true ↔
    st = .missing ∨ st = .setAside ∨ ((st = .staged ∨ st = .stored) ∧ m = .configure) := by
  cases st <;> simp [mayRetire]

theorem not_washing_of_retire {m : Mode} {st : RackState} (h : mayRetire m st = true) : st ≠ .washing := by
  rintro rfl
  cases h

theorem retireRefuses : Says.RetireRefuses := by
  intro s more tag hp
  have he : exec (.retire tag more) s = portDo (.retire tag more) (fun u => retireTaken u tag) s := rfl
  refine ⟨fun hfind => ?_, fun e x hfind hx => ⟨fun hw => ?_, fun hw hm ha hc => ?_, fun hst hb => ?_⟩⟩
  · exact tells_plain he hp (by decide) (by simp [retireTaken, hfind])
  · exact tells_plain he hp (by decide) (by simp [retireTaken, hfind, hx, hw])
  · have hmay : mayRetire s.mode x.state = false := by
      rw [Bool.eq_false_iff, ne_eq, mayRetire_iff]
      simp only [hm, ha, hc, or_self, not_false_eq_true]
    exact tells_plain he hp (by decide) (by simp [retireTaken, hfind, hx, hw, hmay])
  · have hmay := (mayRetire_iff s.mode x.state).2 hst
    have hw := not_washing_of_retire hmay
    exact tells_plain he hp (by decide) (by simp [retireTaken, hfind, hx, hw, hmay, taken_inTransfer, hb])

end Sys2Proof.Machine

/-- Settles O18. -/
theorem admitTakesRack : Obligations.AdmitTakesRack := ⟨admitPlacesRack, admittedEntry⟩

/-- Settles O19: behind a CLOSED gate the removal is what `leftBehind` says. -/
theorem retireFreesEntry : Obligations.RetireFreesEntry := by
  intro s more tag e x hp hfind hx hst ht u
  have hmay := (mayRetire_iff s.mode x.state).2 hst
  have hw := not_washing_of_retire hmay
  have hx' : (s.taken (.retire tag more)).entry? e = some x := by rw [taken_entry, hx]
  have ht' : (s.taken (.retire tag more)).inTransfer e = false := by rw [taken_inTransfer, ht]
  refine ⟨?_, entry_putEntry_self _ _ _, ?_, fun d hd => ?_, fun n g hl hg => ?_, fun hl => ?_⟩
  · refine takes_of (act := fun v => retireTaken v tag) rfl hp ?_ (outer_removeEntry _ _).port
    simp [retireTaken, hfind, hx, hw, hmay, ht', taken_summaryBytes, u]
  · simp [u, State.freeEntry]
  · show (State.putEntry _ e none).entry? d = _
    rw [entry_putEntry, if_neg (Ne.symm hd), removeEntry_entry, if_neg fun h => hd h.1.symm, taken_entry]
  · have hremoved := removeEntry_closed hx' hl (by rw [taken_seg, hg]) ht'
    have hu : u = { ((s.taken (.retire tag more)).putSeg n (some (leftBehind g e))).putEntry e none with
        freeList := s.freeList ++ [e] } := by
      simp only [u, State.freeEntry, hremoved, taken_freeList]
    refine ⟨⟨leftBehind g e, ?_, ?_⟩, hu⟩
    · rw [hu]
      exact seg_putSeg_self _ _ _
    · unfold leftBehind
      split <;> rfl
  · simp only [u, State.freeEntry, removeEntry_nowhere hx' hl, taken_freeList]

namespace Sys2Proof.Machine

/-! ### RESTORE -/

theorem restorePrior_eq (x : Entry) (kind : SegKind) (flag : Bool) : restorePrior x kind flag =
    if flag = true ∧ (kind = .clean ∨ kind = .store ∨ kind = .park) then none
    else some (match x.missing with | some m => m.prior | none => .setAside) := by
  unfold restorePrior
  simp only [Bool.and_eq_true, Bool.or_eq_true, beq_iff_eq, or_assoc]
  cases x.missing <;> rfl

/-- The record of a restored rack (R13 to R15, R23). -/
def Entry.restored (x : Entry) (n : SegNo) (g : Segment) (flag : Bool) (limit : Nat) (now : BitVec 32) : Entry :=
  (x.cleaned flag).place n g.config.kind g.config.storeKind (restorePrior x g.config.kind flag) false limit now

/-- Placement discards the tunnel fields, so it does not matter whether a removal did (R11, R13). -/
theorem restored_discard (x : Entry) (n : SegNo) (kind : SegKind) (storeKind : Option Kind) (prior : Option RackState)
    (flag : Bool) (limit : Nat) (now : BitVec 32) :
    ({ x with pass := none }.cleaned flag).place n kind storeKind prior false limit now =
      (x.cleaned flag).place n kind storeKind prior false limit now := by
  cases flag <;> rfl

/-- RESTORE is a placement at the tail of the segment as the removal leaves it (R12, R13, R23). -/
theorem restoreAt_joins {s v : State} {e : EntryNo} {x y : Entry} {n : SegNo} {g k : Segment} {flag : Bool}
    (hv : s.removeEntry e = v) (hy : v.entry? e = some y) (hxy : y = x ∨ y = { x with pass := none })
    (hk : v.seg? n = some k) (hc : k.config = g.config) :
    let record := x.restored n g flag s.params.rewashLimit s.seconds
    JoinsTail true (v.putEntry e (some record)) (s.restoreAt e x n g flag) n k e record := by
  intro record
  have removed := hv ▸ outer_removeEntry s e
  have hrecord : (y.cleaned flag).place n k.config.kind k.config.storeKind (restorePrior x g.config.kind flag) false
      v.params.rewashLimit v.seconds = record := by
    rw [removed.params, removed.seconds, hc]
    obtain rfl | rfl := hxy
    · rfl
    · exact restored_discard _ _ _ _ _ _ _ _
  have hat : s.restoreAt e x n g flag =
      (v.putEntry e (some (y.cleaned flag))).placeAtTail e n (restorePrior x g.config.kind flag) := by
    rw [State.restoreAt, hv, updEntry_of hy]
  have joins := placeAtTail_joins (s := v.putEntry e (some (y.cleaned flag))) (n := n) (g := k) hk
    (entry_putEntry_self _ e _) (restorePrior x g.config.kind flag)
  simp only [putEntry_params, putEntry_seconds, hrecord, putEntry_putEntry] at joins
  rw [hat]
  exact joins

/-- What a removal leaves of the entry's record and of any segment's configuration (R11, R12). -/
theorem removeEntry_rest {s : State} {e : EntryNo} {x : Entry} (hx : s.entry? e = some x) {n : SegNo} {g : Segment}
    (hg : s.seg? n = some g) :
    (∃ y, (s.removeEntry e).entry? e = some y ∧ (y = x ∨ y = { x with pass := none })) ∧
    ∃ k, (s.removeEntry e).seg? n = some k ∧ k.config = g.config := by
  refine ⟨?_, ?_⟩
  · rw [removeEntry_entry, hx]
    split
    · exact ⟨_, rfl, .inr rfl⟩
    · exact ⟨_, rfl, .inl rfl⟩
  · unfold State.removeEntry
    split
    case h_1 m _ =>
      have := removeFromSegment_config s m n e
      rw [hg] at this
      simpa using this
    case h_2 => exact ⟨g, hg, rfl⟩
    case h_3 => exact ⟨g, hg, rfl⟩

theorem restoreInto_takes {s : State} {e : EntryNo} {x : Entry} {n : SegNo} {g : Segment} {flag : Bool}
    (hst : x.state = .missing ∨ x.state = .setAside) (ht : s.inTransfer e = false)
    (hroom : (g.queue.erase e).length + (g.reservedTransfer + g.reservedDispatch) < g.config.capacity) :
    restoreInto s e x n g flag = .did (s.restoreAt e x n g flag) (summaryOf e) := by
  have hspace : restoreSpace g e ≠ 0 := by
    unfold restoreSpace
    omega
  obtain h | h := hst <;> simp [restoreInto, h, ht, hspace]

theorem restoreTaken_of {s : State} {tag : Tag} {seg clean : Byte} {flag : Bool} {e : EntryNo} {x : Entry} {n : SegNo}
    {g : Segment} (hn : seg.toNat = n.val) (hc : flagOfByte clean = some flag) (hfind : s.find tag = some e)
    (hx : s.entry? e = some x) (hg : s.seg? n = some g) :
    restoreTaken s tag seg clean = restoreInto s e x n g flag := by
  simp [restoreTaken, placeOfByte_segment hn, hc, hfind, hg, hx]

end Sys2Proof.Machine

/-- Settles O20: a removal behind a CLOSED gate, then a placement at the tail. -/
theorem restorePlacesRack : Obligations.RestorePlacesRack := by
  intro s more tag seg clean n g e x flag hp hfind hx hn hg hclean hst ht hroom c u prior record
  have hrecord : record = x.restored n g flag (s.taken c).params.rewashLimit (s.taken c).seconds := by
    rw [taken_params, taken_seconds, Entry.restored, restorePrior_eq]
    rfl
  have hx' : (s.taken c).entry? e = some x := (taken_entry _ _ _).trans hx
  have hg' : (s.taken c).seg? n = some g := (taken_seg _ _ _).trans hg
  have ht' : (s.taken c).inTransfer e = false := (taken_inTransfer _ _ _).trans ht
  refine ⟨?_, ?_, fun hno htunnel => ?_, fun m k hl hk => ?_⟩
  · refine takes_of (act := fun v => restoreTaken v tag seg clean) rfl hp ?_ (outer_restoreAt _ _ _ _ _ _).port
    rw [hclean]
    exact (restoreTaken_of hn (flagOfByte_of flag) ((taken_find _ _ _).trans hfind) hx' hg').trans
      (restoreInto_takes hst ht' hroom)
  · obtain ⟨⟨y, hy, hxy⟩, k, hk, hc⟩ := removeEntry_rest hx' hg'
    have joins := restoreAt_joins (flag := flag) rfl hy hxy hk hc
    rw [← hrecord] at joins
    exact (joins.frame.1.entry e).trans (entry_putEntry_self _ _ _)
  · have hl : x.location = none := by
      obtain hl | ⟨m | _, hl⟩ : x.location = none ∨ ∃ p, x.location = some p := by cases x.location <;> simp
      · exact hl
      · exact absurd hl (hno m)
      · exact absurd hl htunnel
    rw [hrecord]
    exact restoreAt_joins (removeEntry_nowhere hx' hl) hx' (.inl rfl) hg' rfl
  · have hk' : (s.taken c).seg? m = some k := (taken_seg _ _ _).trans hk
    intro left
    have hremoved : (s.taken c).removeEntry e = (s.taken c).putSeg m (some left) := removeEntry_closed hx' hl hk' ht'
    have hleft : left.config = k.config := by
      simp only [left]
      split <;> rfl
    rw [hrecord]
    refine restoreAt_joins hremoved hx' (.inl rfl) ?_ ?_
    · rw [seg_putSeg, hg']
      split <;> rfl
    · split
      case isTrue hmn =>
        subst hmn
        rw [hleft, Option.some.inj (hk'.symm.trans hg')]
      case isFalse => rfl

namespace Sys2Proof.Machine

theorem restoreRefuses : Says.RestoreRefuses := by
  intro s more tag seg clean hp c
  have he : exec c s = portDo c (fun u => restoreTaken u tag seg clean) s := rfl
  refine ⟨fun hbad => tellsBad_of he hp ?_, fun hseg hflag => ?_⟩
  · obtain hs | hf := hbad
    · simp [restoreTaken, placeOfByte_bad hs]
    · simp [restoreTaken, flagOfByte_bad hf]
  obtain ⟨place, hplace⟩ := placeOfByte_good hseg
  obtain ⟨flag, hflag⟩ := flagOfByte_good hflag
  refine ⟨fun hfind => ?_, fun e x hfind hx => ⟨fun ht => ?_, fun n hn => ⟨fun hg => ?_, fun g hg => ?_⟩⟩⟩
  · exact tells_plain he hp (by decide) (by simp [restoreTaken, hplace, hflag, hfind])
  · exact tells_plain he hp (by decide) (by simp [restoreTaken, placeOfByte_tunnel ht, hflag, hfind])
  · exact tells_plain he hp (by decide) (by simp [restoreTaken, placeOfByte_segment hn, hflag, hfind, hg])
  have into : ∀ r, r ≠ .badRequest → restoreInto (s.taken c) e x n g flag = tell r → Tells c s r [] := fun r hr h =>
    tells_plain he hp hr ((restoreTaken_of hn hflag ((taken_find _ _ _).trans hfind) ((taken_entry _ _ _).trans hx)
      ((taken_seg _ _ _).trans hg)).trans h)
  refine ⟨fun hw => ?_, fun hw hm ha => ?_, fun hst => ⟨fun hb => ?_, fun hb hfull => ?_⟩⟩
  · exact into .inPass (by decide) (by simp [restoreInto, hw])
  · exact into .notAllowed (by decide) (by simp [restoreInto, hw, hm, ha])
  · exact into .busy (by decide) (by obtain h | h := hst <;> simp [restoreInto, h, taken_inTransfer, hb])
  · have hspace : restoreSpace g e = 0 := by
      unfold restoreSpace
      omega
    exact into .full (by decide) (by obtain h | h := hst <;> simp [restoreInto, h, taken_inTransfer, hb, hspace])

end Sys2Proof.Machine

/-- Settles O21. -/
theorem rackTableRefusals : Obligations.RackTableRefusals := ⟨admitRefuses, retireRefuses, restoreRefuses⟩

/-- Settles O24. -/
theorem clearTableFreesAll : Obligations.ClearTableFreesAll := by
  intro s more hp
  have he : exec (.clearTable more) s = portDo (.clearTable more)
    (fun u => if u.mode = .configure then .did u.clearTable noBody else tell .mode) s := rfl
  refine ⟨fun hm => tells_plain he hp (by decide) (by simp [hm]), fun hm => ⟨(s.taken (.clearTable more)).clearTable, ?_,
    rfl, fun e => Vector.getElem_replicate e.isLt, rfl, fun n => ?_⟩⟩
  · exact takes_of he hp (if_pos ((taken_mode _ _).trans hm)) rfl
  · rw [← taken_seg s (.clearTable more)]
    exact Vector.getElem_map _ n.isLt
end

section
/-! PROOF. The step of the seconds counter (R10, R74, R170, R205), and the encoder count (R81, R93, R105, R106). -/

open Sys2Proof Sys2Proof.Machine

namespace Sys2Proof.Machine

/-! ### The seconds counter -/

theorem advanceAges_eq (s : State) : s.advanceAges = { s with entries := s.advanceAges.entries } := by
  unfold State.advanceAges
  split <;> rfl

theorem advanceAges_entry (s : State) (e : EntryNo) : s.advanceAges.entry? e = (s.entry? e).map fun x =>
    { x with staleAge := if s.mode = .run then min 65535 (x.staleAge + 1) else x.staleAge } := by
  unfold State.advanceAges
  split
  case isTrue => exact Vector.getElem_map _ e.isLt
  case isFalse => simp

theorem advanceIdle_eq (s : State) : s.advanceIdle =
    { s with idle := if s.idleCounts then min 7200 (s.idle + 1) else if s.mode = .quiet then s.idle else 0 } := by
  unfold State.advanceIdle
  split
  · rfl
  case isFalse h =>
    rw [holdIdle_eq]
    by_cases hm : s.mode = .quiet <;> simp [h, hm]

theorem idleCounts_iff (s : State) : s.idleCounts = true ↔ s.mode = .run ∧ s.params.idleLimit ≠ 0 ∧
    s.tunnel.list = [] ∧ s.demand = [] ∧ s.anyOpen = false ∧ s.stopLatch = false := by
  simp [State.idleCounts, and_assoc]

/-- SECONDS_TICK: the counter, the stale ages and the idle timer go on, and over the state `u` that they leave it is judged what is
due (R10, R74, R170, R205). -/
theorem secondsTick_next (s : State) : ∃ (u : State) (o : Outputs),
    exec .secondsTick s = .next { u with due := u.dueNow, out := o } ∧
    o = ({ u with due := u.dueNow, out := o } : State).outputs ∧
    u = { s with seconds := s.seconds + 1, entries := u.entries, idle := u.idle } ∧
    u.idle = (if s.idleCounts then min 7200 (s.idle + 1) else if s.mode = .quiet then s.idle else 0) ∧
    ∀ e, u.entry? e = (s.entry? e).map fun x =>
      { x with staleAge := if s.mode = .run then min 65535 (x.staleAge + 1) else x.staleAge } := by
  have aged := advanceAges_eq { s with seconds := s.seconds + 1 }
  have counts : { s with seconds := s.seconds + 1 }.advanceAges.idleCounts = s.idleCounts := by rw [aged]; rfl
  have next : exec .secondsTick s = .next (let u := { s with seconds := s.seconds + 1 }.advanceAges.advanceIdle
    { u with due := u.dueNow }.refreshOutputs) := rfl
  have passed := advanceIdle_eq { s with seconds := s.seconds + 1 }.advanceAges
  have entry := advanceAges_entry { s with seconds := s.seconds + 1 }
  rw [counts] at passed
  generalize { s with seconds := s.seconds + 1 }.advanceAges = v at next passed aged entry
  generalize v.advanceIdle = u at next passed
  refine ⟨u, _, next, refreshOutputs_out _, ?_, ?_, fun e => ?_⟩
  · rw [passed, aged]
  · rw [passed, aged]
  · rw [passed]
    exact entry e

/-- The items that starve after the step (R170). -/
theorem mem_promote_iff (s : State) (n : NodeNo) (k : Kind) : (n, k) ∈ s.dueNow.promote ↔
    ∃ i ∈ s.demand, i.station = n ∧ i.kind = k ∧ i.chain = .low ∧ (s.mode = .run ∨ s.mode = .service) ∧
      s.params.promotionLimit ≠ 0 ∧ s.params.promotionLimit < (s.seconds - i.entryTime).toNat := by
  simp only [State.dueNow, List.mem_map, List.mem_filter, Prod.mk.injEq, State.starves, Bool.and_eq_true,
    Bool.or_eq_true, beq_iff_eq, bne_iff_ne, decide_eq_true_eq]
  constructor
  · rintro ⟨i, ⟨hi, ⟨⟨hm, hl⟩, hc⟩, ha⟩, hn, hk⟩
    exact ⟨i, hi, hn, hk, hc, hm, hl, ha⟩
  · rintro ⟨i, hi, hn, hk, hc, hm, hl, ha⟩
    exact ⟨i, ⟨hi, ⟨⟨hm, hl⟩, hc⟩, ha⟩, hn, hk⟩

end Sys2Proof.Machine

/-- Settles O57. -/
theorem secondsStep : Obligations.SecondsStep := by
  intro s
  obtain ⟨u, o, next, lines, passed, idle, aged⟩ := secondsTick_next s
  have counts := idleCounts_iff s
  have counted : u.idleCounts = s.idleCounts := by rw [passed]; rfl
  have params : u.params = s.params := by rw [passed]
  refine ⟨_, next, ?_, aged, ⟨fun h => ?_, fun h hq => ?_, fun hq => ?_, ?_⟩, fun e => ?_, ?_, ?_, fun n k => ?_⟩
  · rw [← lines]
    exact congrArg (fun v : State => { v with due := u.dueNow, out := o }) passed
  · exact idle.trans (if_pos (counts.2 h))
  · exact idle.trans ((if_neg (h ∘ counts.1)).trans (if_neg hq))
  · have stands : ¬ s.idleCounts = true := fun h => by
      obtain ⟨run, -⟩ := counts.1 h
      rw [hq] at run
      cases run
    exact idle.trans ((if_neg stands).trans (if_pos hq))
  · show u.idleOut = true ↔ _
    rw [State.idleOut, counted, params, Bool.and_eq_true, decide_eq_true_eq, counts]
  · exact params ▸ entriesWhere_mem
  · exact congrArg Params.staleLimit params
  · exact congrArg Params.promotionLimit params
  · refine (mem_promote_iff u n k).trans ?_
    rw [passed]

namespace Sys2Proof.Machine

/-! ### The encoder count -/

/-- The encoder counter and the pitch count are the same (R80). -/
def SameCounts (s t : State) : Prop :=
  t.tunnel.encoder = s.tunnel.encoder ∧ t.tunnel.pitchCount = s.tunnel.pitchCount

theorem SameCounts.trans {s t u : State} (h : SameCounts s t) (k : SameCounts t u) : SameCounts s u :=
  ⟨k.1.trans h.1, k.2.trans h.2⟩

theorem sameCounts_of_tunnel {s t : State} (h : t.tunnel = s.tunnel) : SameCounts s t := by
  unfold SameCounts
  rw [h]
  exact ⟨rfl, rfl⟩

theorem releaseAssignment_tunnel (s : State) (e : EntryNo) : (s.releaseAssignment e).tunnel = s.tunnel := by
  unfold State.releaseAssignment
  split
  · rfl
  dsimp only
  split <;> rfl

theorem sameCounts_removeEntry (s : State) (e : EntryNo) : SameCounts s (s.removeEntry e) := by
  unfold State.removeEntry
  split
  · exact sameCounts_of_tunnel (segsOnly_removeFromSegment _ _ _).tunnel
  · exact ⟨rfl, rfl⟩
  · exact ⟨rfl, rfl⟩

theorem sameCounts_declareMissing (s : State) (e : EntryNo) (c : MissingCause) : SameCounts s (s.declareMissing e c) := by
  unfold State.declareMissing
  split
  · exact ⟨rfl, rfl⟩
  split
  · exact ⟨rfl, rfl⟩
  · exact (sameCounts_removeEntry s e).trans (sameCounts_of_tunnel (releaseAssignment_tunnel _ e))

theorem sameCounts_declareOverdue (c : TunnelConfig) (k : Nat) (s : State) :
    SameCounts s (State.declareOverdue c k s) := by
  induction k generalizing s with
  | zero => exact ⟨rfl, rfl⟩
  | succ k ih =>
    unfold State.declareOverdue
    split
    case h_1 e _ =>
      have faulted : SameCounts (s.declareMissing e .overdue) ((s.declareMissing e .overdue).tunnelFault .overdue) :=
        ⟨rfl, rfl⟩
      exact ((sameCounts_declareMissing s e .overdue).trans faulted).trans (ih _)
    case h_2 => exact ⟨rfl, rfl⟩

theorem fixAt_tunnel (s : State) (c : TunnelConfig) (e : EntryNo) : (s.fixAt c e).tunnel = s.tunnel := by
  unfold State.fixAt
  split
  · rfl
  split
  · rfl
  split
  · simp
  · rfl

theorem sameCounts_fixAll (c : TunnelConfig) (l : List EntryNo) (s : State) :
    SameCounts s (s.forEach (fun w e => w.fixAt c e) l) :=
  sameCounts_of_tunnel (forEach_keeps _ State.tunnel (fun w e => fixAt_tunnel w c e) l s)

theorem encoderCounts : Says.EncoderCounts := by
  intro s
  let v : State := { s with tunnel := { s.tunnel with
    encoder := s.tunnel.encoder + 1, pitchCount := min 65535 (s.tunnel.pitchCount + 1) } }
  have counted : s.count1 = match s.tunnel.config with
      | none => v
      | some c => (v.forEach (fun w e => w.fixAt c e) s.tunnel.list).declareOverdue c s.tunnel.list.length := rfl
  have same : SameCounts v s.count1 := by
    rw [counted]
    split
    · exact ⟨rfl, rfl⟩
    · exact (sameCounts_fixAll _ _ v).trans (sameCounts_declareOverdue _ _ _)
  exact ⟨s.count1, happens_of rfl, same.1, same.2, fun h => by rw [counted, h], fun c h => by rw [counted, h]⟩

/-- The verdict of a pass is PASS for enough dwell without a dropout (R105). -/
theorem passes_iff (p : PassRecord) (minDwell : Nat) :
    p.passes minDwell = true ↔ minDwell ≤ p.dwell ∧ p.dropoutMark = false := by
  simp [PassRecord.passes]

theorem verdictFixedAtFinalEnd : Says.VerdictFixedAtFinalEnd := by
  intro s c e x p hx hpass t passed
  have hfix : t = if s.position p = c.finalEnd ∧ p.fixed = .no then
      (s.updEntry e fun y => y.fixVerdict p s.params.minDwell s.params.rewashLimit).raiseIf
        (!p.passes s.params.minDwell) .rinseFail else s := by
    simp only [t, State.fixAt, hx, hpass]
  have hpasses : p.passes s.params.minDwell = true ↔ passed := passes_iff p _
  refine ⟨fun h => hfix.trans (if_neg ?_), fun hpos hno => ?_⟩
  · rintro ⟨hpos, hno⟩
    exact h.elim (fun h => h hpos) (fun h => h hno)
  have hat := hfix.trans (if_pos ⟨hpos, hno⟩)
  rw [updEntry_of hx] at hat
  refine ⟨fun hp => ?_, fun hp => ?_⟩
  · rw [hat, hpasses.2 hp, Entry.fixVerdict, if_pos (hpasses.2 hp), hp.2]
    rfl
  · have hno' : p.passes s.params.minDwell = false := by rwa [Bool.eq_false_iff, ne_eq, hpasses]
    rw [hat, hno', Entry.fixVerdict, hno', if_neg Bool.false_ne_true]
    rfl

/-- Where no head is overdue, none is declared. -/
theorem declareOverdue_none {s : State} {c : TunnelConfig} (h : s.overdueHead c = none) (k : Nat) :
    State.declareOverdue c k s = s := by
  cases k with
  | zero => rfl
  | succ k => simp [State.declareOverdue, h]

theorem overdueHeads : Says.OverdueHeads := by
  intro s c k
  refine ⟨fun hlist => declareOverdue_none (by simp [State.overdueHead, State.headPosition, hlist]) k,
    fun e rest x p hlist hx hpass => ?_⟩
  have head : s.overdueHead c = if c.exitDistance + c.exitTolerance < s.position p then some e else none := by
    simp [State.overdueHead, State.headPosition, hlist, hx, hpass]
  exact ⟨fun h => declareOverdue_none (head.trans (if_neg (Nat.not_lt.2 h))) k,
    fun h => by rw [State.declareOverdue, head.trans (if_pos h)]⟩

end Sys2Proof.Machine

/-- Settles O38. -/
theorem encoderCount : Obligations.EncoderCount := ⟨encoderCounts, verdictFixedAtFinalEnd, overdueHeads⟩
end

section
/-! PROOF. HOLD and UNHOLD from either source (R6, R39, R150, R157, R158). -/

open Sys2Proof Sys2Proof.Machine

namespace Sys2Proof.Machine

/-! ### A rack request that names a tag -/

/-- The tests of R146 from the fourth on, for a tag of the table and an expected state that is met. -/
theorem carryOut_tag {s : State} {t : Tag} {e : EntryNo} {y : Entry} {ex : Option RackState} (hfind : s.find t = some e)
    (hy : s.entry? e = some y) (hex : (ex.any fun st => st != y.state) = false) (src : Source) (op : RackOp) :
    carryOut s src (.onRack op (some t) ex) = onEntry s src op e y := by
  simp [carryOut, hfind, testExpected, hy, hex]

theorem supervisorTakes_of {c : Instr} {more : List Byte} {q : RackRequest} {r : Request} {s s' : State}
    {m : State → Option Summary} (he : exec c s = rackCommand c (.supervisor more) q s) (hp : s.port.turnaround = false)
    (hq : RackRequest.parse q = some r) (hmay : supervisorMay r = true)
    (hj : carryOut (s.taken c) (.supervisor []) r = .did s' m) (hs : s'.port = (s.taken c).port) :
    Takes c s s' fun u => echoBody q (m u) :=
  takes_of (act := supervisorTaken q) he hp (by simp only [supervisorTaken, hq, judgeSupervisor, hmay, if_true, hj]) hs

theorem supervisorTells_of {c : Instr} {more : List Byte} {q : RackRequest} {r : Request} {s : State} {res : Result}
    {m : Option Summary} (he : exec c s = rackCommand c (.supervisor more) q s) (hp : s.port.turnaround = false)
    (hq : RackRequest.parse q = some r) (hmay : supervisorMay r = true) (hr : res ≠ .badRequest)
    (hj : carryOut (s.taken c) (.supervisor []) r = .told res m) : Tells c s res (echoBody q m) :=
  tells_of (act := supervisorTaken q) (body := fun _ => echoBody q m) he hp hr (by simp only [supervisorTaken, hq, judgeSupervisor, hmay, if_true, hj])

/-- Outside CONFIGURE a station that holds the right has its request carried out (R146). -/
theorem judgeStation_of {s : State} {n : NodeNo} {role : Role} {q : Request} (hm : s.mode ≠ .configure)
    (hmay : role.may q = true) : judgeStation s n role q = carryOut s (.station n) q := by
  simp [judgeStation, hm, hmay]

/-- UNLOAD and FLOOR nodes may hold and unhold by INSPECT (Table 7-1). -/
theorem holdRights {role : Role} (h : role = .unload ∨ role = .floor) {reason : Option HoldReason}
    (hr : stationReason reason = true) (t : Option Tag) (ex : Option RackState) :
    role.may (.onRack (.hold reason) t ex) = true ∧ role.may (.onRack (.unhold reason) t ex) = true := by
  obtain rfl | rfl := h <;> exact ⟨hr, hr⟩

/-- How a reason that R208 allows is read: none, INSPECT or SUPERVISOR. -/
theorem reason_in {reason : Option Byte} (h : reason = none ∨ reason = some 1 ∨ reason = some 2) :
    ∃ r, inRange (fun b => HoldReason.ofCode b.toNat) reason = some r ∧ (reason ≠ some 2 → stationReason r = true) := by
  obtain rfl | rfl | rfl := h
  · exact ⟨none, rfl, fun _ => rfl⟩
  · exact ⟨some .inspect, rfl, fun _ => rfl⟩
  · exact ⟨some .supervisor, rfl, fun h => absurd rfl h⟩

/-- How the reason of a HOLD is read, and what it asks for (R157, notes/assumptions/36.md). -/
theorem asked_in {reason : Option Byte} {asked : HoldReason}
    (h : reason = none ∧ asked = .inspect ∨ reason = some 1 ∧ asked = .inspect ∨ reason = some 2 ∧ asked = .supervisor) :
    ∃ r, inRange (fun b => HoldReason.ofCode b.toNat) reason = some r ∧ r.getD .inspect = asked ∧
      (asked = .inspect → stationReason r = true) := by
  obtain ⟨rfl, rfl⟩ | ⟨rfl, rfl⟩ | ⟨rfl, rfl⟩ := h
  · exact ⟨none, rfl, rfl, fun _ => rfl⟩
  · exact ⟨some .inspect, rfl, rfl, fun _ => rfl⟩
  · exact ⟨some .supervisor, rfl, rfl, nofun⟩

/-! ### HOLD -/

/-- HOLD_REACHED is due: the rack was not held, and is the arrived head of a CLOSED gate (R39). -/
def ReportsHold (s : State) (e : EntryNo) (y : Entry) : Prop :=
  y.hold = none ∧ ∃ m g, y.location = some (.segment m) ∧ s.seg? m = some g ∧ g.headArrived = true ∧ g.transfer = none ∧
    g.queue.head? = some e

theorem arrivedHead_iff (s : State) (e : EntryNo) (y : Entry) : s.arrivedHead e y = true ↔
    ∃ m g, y.location = some (.segment m) ∧ s.seg? m = some g ∧ g.headArrived = true ∧ g.transfer = none ∧
      g.queue.head? = some e := by
  unfold State.arrivedHead
  split
  case h_1 m hl => cases hg : s.seg? m <;> simp [hl, hg, Segment.isOpen, and_assoc]
  case h_2 hl =>
    refine iff_of_false Bool.false_ne_true ?_
    rintro ⟨m, g, h, -⟩
    exact hl m h

theorem reportsHold_iff (s : State) (e : EntryNo) (y : Entry) :
    (!y.hold.isSome && s.arrivedHead e y) = true ↔ ReportsHold s e y := by
  rw [Bool.and_eq_true, arrivedHead_iff, ReportsHold]
  simp

theorem rankHold_eq (held : Option HoldReason) (asked : HoldReason) : rankHold held asked = rankedHold held asked := by
  obtain _ | _ | _ := held <;> rfl

/-- The hold of a rack that is not MISSING (R6, R157). -/
theorem doHold_did {s : State} {e : EntryNo} {y : Entry} {reason : Option HoldReason} {asked : HoldReason}
    (hy : s.entry? e = some y) (hst : y.state ≠ .missing) (hr : reason.getD .inspect = asked) :
    let held := s.putEntry e (some { y with hold := some (rankedHold y.hold asked) })
    (ReportsHold s e y → doHold s e y reason = .did (held.raise .holdReached) fun u => u.summary? (some e)) ∧
    (¬ ReportsHold s e y → doHold s e y reason = .did held fun u => u.summary? (some e)) := by
  rw [← reportsHold_iff, doHold, if_neg hst, updEntry_of hy, hr, rankHold_eq]
  exact ⟨fun h => by rw [h]; rfl, fun h => by rw [Bool.eq_false_iff.2 h]; rfl⟩

theorem reportsHold_taken (s : State) (c : Instr) (e : EntryNo) (y : Entry) :
    ReportsHold (s.taken c) e y ↔ ReportsHold s e y := by
  simp only [ReportsHold, taken_seg]

theorem reportsHold_requested (s : State) (n : NodeNo) (q : RackRequest) (e : EntryNo) (y : Entry) :
    ReportsHold (s.requested n q) e y ↔ ReportsHold s e y := by
  simp only [ReportsHold, requested_seg]

theorem holdTakes : Says.HoldTakes := by
  intro s more t e y expected reason asked hfind hy hex hst hreason reports held
  obtain ⟨ex, hi, hany⟩ := expects_in hex
  obtain ⟨r, hr, hasked, hright⟩ := asked_in hreason
  have hq := parse_reason (t := t) (op := .hold r) (k := 7) hi hr rfl (by decide)
  refine ⟨fun hp => ?_, fun n x heard hrole hmode ha => ?_⟩
  · intro c
    have hy' : (s.taken c).entry? e = some y := (taken_entry _ _ _).trans hy
    have hcarry := carryOut_tag ((taken_find s c t).trans hfind) hy' hany (.supervisor []) (.hold r)
    obtain ⟨due, quiet⟩ := doHold_did hy' hst hasked
    rw [reportsHold_taken] at due quiet
    have takes : ∀ u : State, doHold (s.taken c) e y r = .did u (fun u => u.summary? (some e)) → u.port = (s.taken c).port →
        Takes c s u fun u => t.bytes ++ u.summaryBytes (some e) := fun u hj hu => by
      simpa only [echo_tag] using supervisorTakes_of (more := more) (c := c) rfl hp hq rfl (hcarry.trans hj) hu
    exact ⟨fun h => takes _ (due h) rfl, fun h => takes _ (quiet h) rfl⟩
  · intro c q
    have hy' : (s.requested n q).entry? e = some y := (requested_entry _ _ _ _).trans hy
    have hcarry := carryOut_tag ((requested_find s n q t).trans hfind) hy' hany (.station n) (.hold r)
    have hmode' : (s.requested n q).mode ≠ .configure := by rwa [requested_mode]
    have hjudge := judgeStation_of (n := n) hmode' (holdRights hrole (hright ha) (some t) ex).1
    obtain ⟨due, quiet⟩ := doHold_did hy' hst hasked
    rw [reportsHold_requested] at due quiet
    have takes : ∀ u : State, doHold (s.requested n q) e y r = .did u (fun u => u.summary? (some e)) →
        StationTakes c n q s u fun u => u.summary? (some e) := fun u hj =>
      stationTakes_of rfl heard hq ((hjudge.trans hcarry).trans hj) fun v => refreshOutputs_summary v _
    exact ⟨fun h => takes _ (due h), fun h => takes _ (quiet h)⟩

/-! ### UNHOLD -/

/-- The end of a hold: nothing to clear, a reason the source may not clear, or the hold cleared (R158). -/
theorem doUnhold_cases {s : State} {e : EntryNo} {y : Entry} (hy : s.entry? e = some y) (hst : y.state ≠ .missing)
    (src : Source) :
    (y.hold = none → doUnhold s src e y = s.about .done e) ∧
    (y.hold = some .supervisor → fromStation src = true → doUnhold s src e y = s.about .notAllowed e) ∧
    (y.hold ≠ none → (fromStation src = true → y.hold = some .inspect) →
      doUnhold s src e y = .did (s.putEntry e (some { y with hold := none })) fun u => u.summary? (some e)) := by
  rw [doUnhold, if_neg hst]
  refine ⟨fun h => if_pos h, fun h hs => ?_, fun h hs => ?_⟩
  · rw [if_neg (by simp [h]), if_pos ⟨h, hs⟩]
  · have may : ¬ (y.hold = some .supervisor ∧ fromStation src = true) := by
      rintro ⟨hsup, hstation⟩
      rw [hs hstation] at hsup
      cases hsup
    rw [if_neg h, if_neg may, State.change, updEntry_of hy]

theorem unholdTakes : Says.UnholdTakes := by
  intro s more t e y expected reason hfind hy hex hst hreason freed
  obtain ⟨ex, hi, hany⟩ := expects_in hex
  obtain ⟨r, hr, hright⟩ := reason_in hreason
  have hq := parse_reason (t := t) (op := .unhold r) (k := 8) hi hr rfl (by decide)
  refine ⟨fun hp => ?_, fun n x heard hrole hmode hnot => ?_⟩
  · intro c
    have hy' : (s.taken c).entry? e = some y := (taken_entry _ _ _).trans hy
    have hcarry := carryOut_tag ((taken_find s c t).trans hfind) hy' hany (.supervisor []) (.unhold r)
    obtain ⟨none, -, clears⟩ := doUnhold_cases hy' hst (.supervisor [])
    refine ⟨fun h => ?_, fun h => ?_⟩
    · have told := (hcarry.trans (none h)).trans (taken_about _ _ _ _)
      simpa only [echo_tag] using supervisorTells_of (more := more) (c := c) rfl hp hq rfl (by decide) told
    · have did := hcarry.trans (clears h nofun)
      simpa only [echo_tag] using supervisorTakes_of (more := more) (c := c) rfl hp hq rfl did rfl
  · intro c q
    have hy' : (s.requested n q).entry? e = some y := (requested_entry _ _ _ _).trans hy
    have hcarry := carryOut_tag ((requested_find s n q t).trans hfind) hy' hany (.station n) (.unhold r)
    have hmode' : (s.requested n q).mode ≠ .configure := by rwa [requested_mode]
    have hjudge := (judgeStation_of (n := n) hmode' (holdRights hrole (hright hnot) (some t) ex).2).trans hcarry
    obtain ⟨none, refuses, clears⟩ := doUnhold_cases hy' hst (.station n)
    refine ⟨fun h => ?_, fun h => ?_, fun h => ?_⟩
    · exact stationTells_of rfl heard hq ((hjudge.trans (none h)).trans (about_requested _ _ _ _ _))
    · exact stationTakes_of rfl heard hq (hjudge.trans (clears (by simp [h]) fun _ => h))
        fun v => refreshOutputs_summary v _
    · exact stationTells_of rfl heard hq ((hjudge.trans (refuses h rfl)).trans (about_requested _ _ _ _ _))

/-! ### MISSING racks -/

theorem holds_missing {s : State} {e : EntryNo} {y : Entry} (hst : y.state = .missing) (src : Source)
    (r : Option HoldReason) :
    onEntry s src (.hold r) e y = s.about .notHere e ∧ onEntry s src (.unhold r) e y = s.about .notHere e :=
  ⟨if_pos hst, if_pos hst⟩

theorem missingNotHeld : Says.MissingNotHeld := by
  intro s more t e y expected reason hfind hy hex hst hreason
  obtain ⟨ex, hi, hany⟩ := expects_in hex
  obtain ⟨r, hr, hright⟩ := reason_in hreason
  have hq := parse_reason (t := t) (op := .hold r) (k := 7) hi hr rfl (by decide)
  have hq' := parse_reason (t := t) (op := .unhold r) (k := 8) hi hr rfl (by decide)
  refine ⟨fun hp => ?_, fun n x heard hrole hmode hnot => ?_⟩
  · have told : ∀ c op, onEntry (s.taken c) (.supervisor []) op e y = (s.taken c).about .notHere e →
        carryOut (s.taken c) (.supervisor []) (.onRack op (some t) ex) = .told .notHere (s.summary? (some e)) :=
      fun c op h => ((carryOut_tag ((taken_find s c t).trans hfind) ((taken_entry _ _ _).trans hy) hany _ _).trans h).trans
        (taken_about _ _ _ _)
    refine ⟨?_, ?_⟩
    · simpa only [echo_tag] using supervisorTells_of (more := more) (c := .hold (.supervisor more) t expected reason) rfl hp hq rfl
        (by decide) (told _ _ (holds_missing hst _ r).1)
    · simpa only [echo_tag] using supervisorTells_of (more := more) (c := .unhold (.supervisor more) t expected reason) rfl hp hq' rfl
        (by decide) (told _ _ (holds_missing hst _ r).2)
  · have told : ∀ q op, x.role.may (.onRack op (some t) ex) = true →
        onEntry (s.requested n q) (.station n) op e y = (s.requested n q).about .notHere e →
        judgeStation (s.requested n q) n x.role (.onRack op (some t) ex) = .told .notHere (s.summary? (some e)) :=
      fun q op hmay h => (judgeStation_of (by rwa [requested_mode]) hmay).trans
        (((carryOut_tag ((requested_find s n q t).trans hfind) ((requested_entry _ _ _ _).trans hy) hany _ _).trans h).trans
          (about_requested _ _ _ _ _))
    obtain ⟨mayHold, mayUnhold⟩ := holdRights hrole (hright hnot) (some t) ex
    exact ⟨stationTells_of rfl heard hq (told _ _ mayHold (holds_missing hst _ r).1),
      stationTells_of rfl heard hq' (told _ _ mayUnhold (holds_missing hst _ r).2)⟩

end Sys2Proof.Machine

/-- Settles O53. -/
theorem holdAndUnhold : Obligations.HoldAndUnhold := ⟨holdTakes, unholdTakes, missingNotHeld⟩
end

section
/-! PROOF. Departure from an OPEN gate, into a segment and into the tunnel (R8, R9, R11, R39, R40, R44, R63, R87). -/

open Sys2Proof Sys2Proof.Machine

namespace Sys2Proof.Machine

/-- The segment that the head has departed from (R44, R72). -/
def Segment.departed (g : Segment) (rest : List EntryNo) : Segment :=
  { g with
    queue := rest, transfer := none, headArrived := false, window := .closed
    stranger := g.stranger.map fun q => { q with vouched := none } }

/-- The destination once the reservation of the departing rack has become its place (R44). -/
def Segment.reservationUsed (h : Segment) (carried : Bool) : Segment :=
  if carried then { h with reservedDispatch := h.reservedDispatch - 1 }
  else { h with reservedTransfer := h.reservedTransfer - 1 }

theorem reservationUsed_queue (h : Segment) (carried : Bool) : (h.reservationUsed carried).queue = h.queue := by
  cases carried <;> rfl

theorem reservationUsed_config (h : Segment) (carried : Bool) : (h.reservationUsed carried).config = h.config := by
  cases carried <;> rfl

/-- The record of an arrival by departure changes in these fields alone (R40, R44). -/
theorem arrive_eq (x : Entry) (d : SegNo) (kind : SegKind) (now : BitVec 32) : x.arrive d kind now =
    { x with
      location := some (.segment d), state := arrivalState kind x.state
      assignment := if kind = .park then none else x.assignment, lastConfirmed := now, staleAge := 0, placed := false } :=
  rfl

/-- An arrival is the record, ASIDE_REACHED at an ASIDE segment, and the joining of the tail (R39, R40, R44). -/
theorem arriveAt_joins {s : State} {e : EntryNo} {d : SegNo} {h : Segment} {x : Entry} (hh : s.seg? d = some h)
    (hx : s.entry? e = some x) :
    let y := x.arrive d h.config.kind s.seconds
    let moved := s.putEntry e (some y)
    JoinsTail false (if h.config.kind = .aside then moved.raise .asideReached else moved) (s.arriveAt e d) d h e y := by
  intro y moved
  have joins := appendTo_joins (s := moved.raiseIf (h.config.kind == .aside) .asideReached) (d := d) (h := h) (e := e)
    (x := y) ((raiseIf_seg _ _ _ _).trans hh)
    (((segsOnly_raiseIf moved _ _).entry e).trans (entry_putEntry_self _ _ _))
  have arrives : s.arriveAt e d = (moved.raiseIf (h.config.kind == .aside) .asideReached).appendTo d e := by
    simp only [State.arriveAt, hh, updEntry_of hx, moved, y]
  have raised : moved.raiseIf (h.config.kind == .aside) .asideReached =
      if h.config.kind = .aside then moved.raise .asideReached else moved := by
    simp only [State.raiseIf, beq_iff_eq]
  rw [arrives, ← raised]
  exact joins

/-- The head of an OPEN gate leaves its queue, and the gate closes (R44). -/
theorem depart_into {s : State} {n : SegNo} {g : Segment} {r : Transfer} {e : EntryNo} {rest : List EntryNo}
    (hg : s.seg? n = some g) (hr : g.transfer = some r) (hq : g.queue = e :: rest) :
    s.depart n = match r.dest with
      | .tunnel => (s.putSeg n (some (g.departed rest))).enterTunnel e
      | .segment d =>
        ((s.putSeg n (some (g.departed rest))).updSeg d fun h => h.reservationUsed r.carried).arriveAt e d := by
  have hleft : ({ g.unvouch with queue := g.queue.tail, transfer := none, headArrived := false, window := .closed } : Segment) =
      g.departed rest := by
    rw [hq]
    rfl
  simp only [State.depart, hg, hr, hq, List.head?_cons, updSeg_of hg]
  rw [hq] at hleft
  rw [hleft]
  rfl

theorem depart_segment {s : State} {n d : SegNo} {g h : Segment} {r : Transfer} {e : EntryNo} {rest : List EntryNo}
    (hne : n ≠ d) (hg : s.seg? n = some g) (hr : g.transfer = some r) (hd : r.dest = .segment d) (hq : g.queue = e :: rest)
    (hh : s.seg? d = some h) : s.depart n =
      ((s.putSeg n (some (g.departed rest))).putSeg d (some (h.reservationUsed r.carried))).arriveAt e d := by
  rw [depart_into hg hr hq, hd]
  exact congrArg (fun u => State.arriveAt u e d) (updSeg_of (by rw [seg_putSeg, if_neg hne, hh]) _)

theorem departureToSegment : Says.DepartureToSegment := by
  intro s n d g h r e rest x hne hg hr hd hq hh hx t
  let moved := (s.putSeg n (some (g.departed rest))).putSeg d (some (h.reservationUsed r.carried))
  let y := x.arrive d h.config.kind s.seconds
  have joins := arriveAt_joins (s := moved) (seg_putSeg_self _ _ _) hx
  rw [reservationUsed_config, ← depart_segment hne hg hr hd hq hh] at joins
  obtain ⟨only, others, h', hh', hqueue, -, htransfer, hdispatch⟩ := joins.frame
  have raised : ∀ v : State, SegsOnly v (if h.config.kind = .aside then v.raise .asideReached else v) := fun v => by
    split
    · exact segsOnly_raise _ _
    · exact SegsOnly.refl v
  have hentry : ∀ c, t.entry? c = if e = c then some y else s.entry? c := fun c =>
    ((raised _).trans only).entry c |>.trans (entry_putEntry _ _ _ _)
  have hn : t.seg? n = some (g.departed rest) := by
    rw [others n hne]
    split
    · exact (seg_putSeg _ _ _ _).trans ((if_neg hne.symm).trans (seg_putSeg_self _ _ _))
    · exact (seg_putSeg _ _ _ _).trans ((if_neg hne.symm).trans (seg_putSeg_self _ _ _))
  refine ⟨⟨_, hn, rfl, rfl, rfl, rfl⟩, ⟨h', hh', ?_, fun hc => ?_, fun hc => ?_⟩,
    ⟨y, (hentry e).trans (if_pos rfl), rfl, rfl, rfl, rfl, rfl, rfl, rfl, rfl, ?_⟩,
    fun c hc => (hentry c).trans (if_neg hc.symm), ((raised _).trans only).tunnel, y, rfl, joins⟩
  · rw [hqueue, reservationUsed_queue]
  · rw [htransfer, hdispatch, hc]
    exact ⟨rfl, rfl⟩
  · rw [htransfer, hdispatch, hc]
    exact ⟨rfl, rfl⟩
  · show arrivalState h.config.kind x.state = _
    cases h.config.kind <;> rfl

theorem enterTunnel_eq {s : State} {e : EntryNo} {x : Entry} (hx : s.entry? e = some x) : s.enterTunnel e =
    { s with tunnel := { s.tunnel with list := s.tunnel.list ++ [e], pitchCount := 0 } }.putEntry e
      (some (x.enterTunnel s.tunnel.encoder s.seconds)) :=
  updEntry_of (s := { s with tunnel := { s.tunnel with list := s.tunnel.list ++ [e], pitchCount := 0 } }) hx _

theorem departureIntoTunnel : Says.DepartureIntoTunnel := by
  intro s n g r e rest x hg hr hd hq hx t
  have ht : t = { s.putSeg n (some (g.departed rest)) with
      tunnel := { s.tunnel with list := s.tunnel.list ++ [e], pitchCount := 0 } }.putEntry e
        (some (x.enterTunnel s.tunnel.encoder s.seconds)) := by
    have entered : t = (s.putSeg n (some (g.departed rest))).enterTunnel e := by
      simp only [t, depart_into hg hr hq, hd]
    exact entered.trans (enterTunnel_eq hx)
  have hn : t.seg? n = some (g.departed rest) := by
    rw [ht]
    exact seg_putSeg_self _ _ _
  refine ⟨⟨_, hn, rfl, rfl, rfl⟩, by rw [ht]; rfl, by rw [ht]; rfl, ?_, fun c hc => ?_, hn, fun m hm => ?_, by rw [ht]; rfl⟩
  · rw [ht]
    exact entry_putEntry_self _ _ _
  · rw [ht, entry_putEntry, if_neg hc.symm]
    rfl
  · rw [ht]
    exact (seg_putSeg _ _ _ _).trans (if_neg hm.symm)

end Sys2Proof.Machine

/-- Settles O29. -/
theorem departure : Obligations.Departure := ⟨departureToSegment, departureIntoTunnel⟩
end

section
/-! PROOF. Declaration as MISSING (R12, R16, R32, R72). -/

open Sys2Proof Sys2Proof.Machine

namespace Sys2Proof.Machine

/-! ### Removal of an entry from a segment, whatever its gate does -/

/-- The segment that its head has left by removal (R12, R72). -/
def Segment.headless (g : Segment) (e : EntryNo) : Segment :=
  { g with
    queue := g.queue.erase e, headArrived := false, window := .closed, transfer := none
    stranger := g.stranger.map fun r => { r with vouched := none } }

/-- The head's transfer out of segment `n` goes to segment `m`. -/
def AimsAt (s : State) (n : SegNo) (e : EntryNo) (m : SegNo) : Prop :=
  ∃ g r, s.seg? n = some g ∧ g.queue.head? = some e ∧ g.transfer = some r ∧ r.dest = .segment m

/-- Removal of the head is the end of its transfer, once the queue, the flag, the window and the vouched entry are seen to. -/
theorem removeFromSegment_head {s : State} {n : SegNo} {e : EntryNo} {g : Segment} (hg : s.seg? n = some g)
    (hh : g.queue.head? = some e) : s.removeFromSegment n e =
      (s.putSeg n (some { g.headless e with transfer := g.transfer })).endTransfer n := by
  unfold State.removeFromSegment
  rw [hg]
  dsimp only
  rw [if_pos hh, updSeg_of hg]
  rfl

/-- Removal of the head at a gate OPEN toward the tunnel: nothing waits there for the end of its transfer. -/
theorem removeFromSegment_tunnel {s : State} {n : SegNo} {e : EntryNo} {g : Segment} {r : Transfer} (hg : s.seg? n = some g)
    (hh : g.queue.head? = some e) (hr : g.transfer = some r) (hd : r.dest = .tunnel) :
    s.removeFromSegment n e = s.putSeg n (some (g.headless e)) :=
  (removeFromSegment_head hg hh).trans
    ((endTransfer_tunnel (g := { g.headless e with transfer := g.transfer }) (seg_putSeg_self _ _ _) hr hd).trans
      (putSeg_putSeg _ _ _ _))

theorem removeFromSegment_behind {s : State} {n : SegNo} {e : EntryNo} {g : Segment} (hg : s.seg? n = some g)
    (hh : g.queue.head? ≠ some e) :
    s.removeFromSegment n e = s.putSeg n (some { g with queue := g.queue.erase e }) :=
  (removeFromSegment_closed hg fun h => absurd h hh).trans (by rw [if_neg hh])

theorem removeFromSegment_none {s : State} {n : SegNo} (e : EntryNo) (hg : s.seg? n = none) :
    s.removeFromSegment n e = s := by
  unfold State.removeFromSegment
  rw [hg]

theorem removeFromSegment_reserved {s : State} (n : SegNo) (e : EntryNo) {m : SegNo} {g : Segment} (hg : s.seg? m = some g) :
    ∃ h, (s.removeFromSegment n e).seg? m = some h ∧ h.reservedDispatch = g.reservedDispatch := by
  cases hn : s.seg? n with
  | none => exact ⟨g, by rw [removeFromSegment_none e hn, hg], rfl⟩
  | some k =>
    have put : ∀ k' : Segment, k'.reservedDispatch = k.reservedDispatch →
        ∃ h, (s.putSeg n (some k')).seg? m = some h ∧ h.reservedDispatch = g.reservedDispatch := fun k' hk' => by
      rw [seg_putSeg]
      split
      · rename_i hnm
        subst hnm
        exact ⟨k', rfl, hk'.trans (congrArg _ (Option.some.inj (hn.symm.trans hg)))⟩
      · exact ⟨g, hg, rfl⟩
    by_cases hh : k.queue.head? = some e
    · obtain ⟨a, ha, hka⟩ := put { k.headless e with transfer := k.transfer } rfl
      obtain ⟨h, hh', -, -, hres, -⟩ := endTransfer_keeps (n := n) _ ha
      exact ⟨h, by rw [removeFromSegment_head hn hh, hh'], hres.trans hka⟩
    · rw [removeFromSegment_behind hn hh]
      exact put _ rfl

/-- The segment itself after a removal, its transfer not aimed at itself. -/
theorem removeFromSegment_self {s : State} {n : SegNo} {e : EntryNo} {g : Segment} (hg : s.seg? n = some g)
    (ha : ¬ AimsAt s n e n) : (s.removeFromSegment n e).seg? n =
      some (if g.queue.head? = some e then g.headless e else { g with queue := g.queue.erase e }) := by
  split
  · rename_i hh
    rw [removeFromSegment_head hg hh]
    exact endTransfer_seg_self _ (seg_putSeg_self _ _ _) fun r hr hd => ha ⟨g, r, hg, hh, hr, hd⟩
  · rename_i hh
    rw [removeFromSegment_behind hg hh, seg_putSeg_self]

theorem removeFromSegment_seg_ne {s : State} {n m : SegNo} {e : EntryNo} (hne : n ≠ m) (ha : ¬ AimsAt s n e m) :
    (s.removeFromSegment n e).seg? m = s.seg? m := by
  cases hg : s.seg? n with
  | none => rw [removeFromSegment_none e hg]
  | some g =>
    by_cases hh : g.queue.head? = some e
    · rw [removeFromSegment_head hg hh, endTransfer_seg_ne _ hne, seg_putSeg, if_neg hne]
      intro g' r hg' hr hd
      rw [seg_putSeg_self] at hg'
      cases hg'
      exact ha ⟨g, r, hg, hh, hr, hd⟩
    · rw [removeFromSegment_behind hg hh, seg_putSeg, if_neg hne]

/-- Only the blocking resolved at the destination of the transfer raises a source (R32). -/
theorem removeFromSegment_source {s : State} {n : SegNo} {e : EntryNo} (ha : ∀ m, ¬ AimsAt s n e m) (a : Source14) :
    (s.removeFromSegment n e).source a = s.source a := by
  cases hg : s.seg? n with
  | none => rw [removeFromSegment_none e hg]
  | some g =>
    by_cases hh : g.queue.head? = some e
    · cases hr : g.transfer with
      | none => rw [removeFromSegment_closed hg fun _ => hr, putSeg_source]
      | some r =>
        cases hd : r.dest with
        | tunnel => rw [removeFromSegment_tunnel hg hh hr hd, putSeg_source]
        | segment d => exact absurd ⟨g, r, hg, hh, hr, hd⟩ (ha d)
    · rw [removeFromSegment_behind hg hh, putSeg_source]

/-! ### Declaration, over removal -/

section
variable {s : State} {e : EntryNo} {x : Entry} {last : Place} (cause : MissingCause)

/-- The record of a MISSING rack (R16), but for what removal and the release of its assignment change. -/
def Entry.lost (y x : Entry) (cause : MissingCause) (last : Place) : Entry :=
  { y with
    location := none, state := .missing, claim := none, hold := none, confirmed := false, overtaken := 0, staleAge := 0
    placed := false, missing := some ⟨cause, x.state, last⟩ }

theorem declareMissing_eq (hx : s.entry? e = some x) (hl : x.location = some last) : s.declareMissing e cause =
    (((s.removeEntry e).releaseAssignment e).updEntry e fun y => y.lost x cause last).raise .missing := by
  simp only [State.declareMissing, hx, hl]
  rfl

theorem removeEntry_place (hx : s.entry? e = some x) (hl : x.location = some last) : s.removeEntry e =
    match (generalizing := false) last with
    | .segment n => s.removeFromSegment n e
    | .tunnel => s.removeFromTunnel e := by
  simp only [State.removeEntry, hx, Option.bind_some, hl]
  cases last <;> rfl

theorem removeEntry_config (hx : s.entry? e = some x) (hl : x.location = some last) (m : SegNo) :
    ((s.removeEntry e).seg? m).map (·.config) = (s.seg? m).map (·.config) := by
  rw [removeEntry_place hx hl]
  cases last with
  | segment n => exact removeFromSegment_config s n m e
  | tunnel => rfl

/-- Of a segment, declaration changes what removal does, and the dispatch reservation on the node's PARK (R16). -/
theorem declareMissing_seg (hx : s.entry? e = some x) (hl : x.location = some last) (m : SegNo) :
    (s.declareMissing e cause).seg? m = ((s.removeEntry e).seg? m).map fun g => { g with reservedDispatch :=
      (if x.assignment.bind s.parkOf = some m then g.reservedDispatch - 1 else g.reservedDispatch) } := by
  obtain ⟨y, hy, hassigned⟩ : ∃ y, (s.removeEntry e).entry? e = some y ∧ y.assignment = x.assignment := by
    rw [removeEntry_entry, hx]
    split
    · exact ⟨_, rfl, rfl⟩
    · exact ⟨_, rfl, rfl⟩
  have hpark : (s.removeEntry e).parkOf = s.parkOf := funext (parkOf_congr_config (removeEntry_config hx hl))
  have hseg := releaseAssignment_seg hy m
  rw [hassigned, hpark] at hseg
  rw [declareMissing_eq cause hx hl, raise_seg]
  exact hseg

theorem declareMissing_source (hx : s.entry? e = some x) (hl : x.location = some last) {a : Source14} (ha : a ≠ .missing) :
    (s.declareMissing e cause).source a = (s.removeEntry e).source a := by
  have release : ((s.removeEntry e).releaseAssignment e).source a = (s.removeEntry e).source a := by
    unfold State.releaseAssignment
    split
    · rfl
    · dsimp only
      split
      · rw [updSeg_source, updEntry_source]
      · rw [updEntry_source]
  rw [declareMissing_eq cause hx hl, raise_source, if_neg (Ne.symm ha), updEntry_source, release]

theorem declareMissing_tunnel (hx : s.entry? e = some x) (hl : x.location = some last) :
    (s.declareMissing e cause).tunnel = (s.removeEntry e).tunnel := by
  rw [declareMissing_eq cause hx hl]
  exact releaseAssignment_tunnel (s.removeEntry e) e

end

theorem missingRecord : Says.MissingRecord := by
  intro s e x last cause hx hl t
  refine ⟨?_, ?_, fun d hd => ?_, fun n g hn hg => ?_, fun ht => ?_, (outer_declareMissing s e cause).freeList⟩
  · exact (declareMissing_entry s e e x last cause hx hl).trans (if_pos rfl)
  · simp only [t, declareMissing_eq cause hx hl, raise_flag]
  · exact (declareMissing_entry s e d x last cause hx hl).trans (if_neg hd.symm)
  · subst hn
    obtain ⟨k, hk, hqueue, -, -, htransfer⟩ := removeFromSegment_keeps (n := n) (e := e) s hg
    have hseg := declareMissing_seg cause hx hl n
    rw [removeEntry_place hx hl] at hseg
    dsimp only at hseg
    rw [hk] at hseg
    exact ⟨_, hseg, hqueue.trans (if_pos rfl), htransfer rfl⟩
  · subst ht
    simp only [t, declareMissing_tunnel cause hx hl, removeEntry_place hx hl]
    rfl

theorem missingReleases : Says.MissingReleases := by
  intro s e x last cause hx hl t parkFor aimedAt
  have park_iff : ∀ m, parkFor m ↔ x.assignment.bind s.parkOf = some m := fun m => (Option.bind_eq_some_iff ..).symm
  have aims : ∀ {n m}, last = .segment n → AimsAt s n e m → aimedAt m := fun hn ⟨g, r, hg, hh, hr, hd⟩ =>
    ⟨_, g, r, hn, hg, hh, hr, hd⟩
  have hseg : ∀ m, t.seg? m = _ := declareMissing_seg cause hx hl
  have hplace := removeEntry_place hx hl
  refine ⟨fun m g hg => ?_, fun n g hn hg hself => ?_, fun n g r m k hn hg hh hr hd hne hk => ?_,
    fun m hm ham hpm => ?_, fun ham a ha => ?_⟩
  · obtain ⟨h, hrem, hres⟩ : ∃ h, (s.removeEntry e).seg? m = some h ∧ h.reservedDispatch = g.reservedDispatch := by
      rw [hplace]
      cases last with
      | segment n => exact removeFromSegment_reserved n e hg
      | tunnel => exact ⟨g, hg, rfl⟩
    refine ⟨_, (hseg m).trans (by rw [hrem, Option.map_some]), fun hp => ?_, fun hp => ?_⟩
    · exact (if_pos ((park_iff m).1 hp)).trans (by rw [hres])
    · exact (if_neg (mt (park_iff m).2 hp)).trans hres
  · subst hn
    have hn := (hseg n).trans (by rw [hplace, removeFromSegment_self hg (mt (aims rfl) hself), Option.map_some])
    by_cases hh : g.queue.head? = some e
    · rw [if_pos hh] at hn
      exact ⟨_, fun _ => hn, fun h => absurd hh h⟩
    · rw [if_neg hh] at hn
      exact ⟨_, fun h => absurd h hh, fun _ => hn⟩
  · subst hn
    let left := g.headless e
    let freed : Segment := { k with reservedTransfer := if r.carried then k.reservedTransfer else k.reservedTransfer - 1 }
    let u := ((s.putSeg n (some left)).putSeg m (some freed)).resolveBlocking m
    have hrem : s.removeEntry e = u := hplace.trans (removeFromSegment_open hg hh hr hd hne.symm hk)
    obtain ⟨h', hh', hbelt⟩ := (sameBelt_resolveBlocking _ m).some (seg_putSeg_self (s.putSeg n (some left)) m freed)
    obtain ⟨hqueue, -, -, -, -, -, htransfer⟩ := belt_fields hbelt
    have hreserved : h'.reservedTransfer = freed.reservedTransfer := congrArg (·.reservedTransfer) hbelt
    have hm := hseg m
    rw [hrem, hh', Option.map_some] at hm
    exact ⟨_, h', hm, hqueue, htransfer, hreserved, rfl, hh',
      fun a ha => (declareMissing_source cause hx hl ha).trans (congrArg (·.source a) hrem)⟩
  · have hrem : (s.removeEntry e).seg? m = s.seg? m := by
      rw [hplace]
      cases last with
      | segment n => exact removeFromSegment_seg_ne (fun h => hm (congrArg _ h)) (mt (aims rfl) ham)
      | tunnel => rfl
    rw [hseg, hrem]
    simp only [if_neg (mt (park_iff m).2 hpm), Option.map_id']
  · refine (declareMissing_source cause hx hl ha).trans ?_
    rw [hplace]
    cases last with
    | segment n => exact removeFromSegment_source (fun m => mt (aims rfl) (ham m)) a
    | tunnel => rfl

end Sys2Proof.Machine

/-- Settles O23. -/
theorem declarationAsMissing : Obligations.DeclarationAsMissing := ⟨missingRecord, missingReleases⟩
end

section
/-! PROOF. The report of a reader: the first tag, the second, relocation and auto-admission with their parts (R59, R60, R64 to
R70, R72, R76). -/

open Sys2Proof Sys2Proof.Machine

namespace Sys2Proof.Machine

/-! ### The parts of a relocation -/

theorem placementOverLimit : Says.PlacementOverLimit := fun _ _ _ _ _ _ _ => rfl

theorem freeEntryTaken : Says.FreeEntryTaken := fun _ _ t =>
  ⟨Entry.new t, rfl, rfl, rfl, rfl, rfl, rfl, rfl, rfl, rfl, rfl, rfl, rfl⟩

theorem displacement : Says.Displacement := by
  intro s n g hg
  refine ⟨fun hfits => ?_, fun d hover hd => ?_⟩
  · simp only [State.displace, hg, if_neg (Nat.not_lt.2 hfits)]
  · simp only [State.displace, hg, if_pos hover, hd]

theorem entryPassed : Says.EntryPassed := by
  intro s d y hy
  refine ⟨fun h => ?_, fun h => ?_⟩
  · simp only [State.passEntry, hy, if_pos h, updEntry_of hy]
  · simp only [State.passEntry, hy, if_neg h]

theorem insertedAtHead : Says.InsertedAtHead := by
  intro s n g e x prior exceeds hg hx y inserted
  refine ⟨rfl, ?_⟩
  let moved := (s.putEntry e (some y)).putSeg n (some inserted)
  have hy : moved.entry? e = some y := entry_putEntry_self s e (some y)
  have arrives : s.insertHead e n prior exceeds = moved.setHeadArrived n := insertHead_eq hg hx prior exceeds
  rw [arrives, setHeadArrived_put (seg_putSeg_self _ _ _) rfl hy]
  exact arrived_report

theorem releaseAssignment_none {s : State} {e : EntryNo} {x : Entry} (hx : s.entry? e = some x) (ha : x.assignment = none) :
    s.releaseAssignment e = s := by
  simp only [State.releaseAssignment, hx, Option.bind_some, ha]

theorem releaseAssignment_some {s : State} {e : EntryNo} {x : Entry} {node : NodeNo} (hx : s.entry? e = some x)
    (ha : x.assignment = some node) :
    let cleared := s.putEntry e (some { x with assignment := none })
    (s.parkOf node = none → s.releaseAssignment e = cleared) ∧
    (∀ p g, s.parkOf node = some p → s.seg? p = some g → s.releaseAssignment e =
      cleared.putSeg p (some { g with reservedDispatch := g.reservedDispatch - 1 })) := by
  intro cleared
  have hpark : cleared.parkOf node = s.parkOf node := rfl
  refine ⟨fun hp => ?_, fun p g hp hg => ?_⟩
  · simp only [State.releaseAssignment, hx, Option.bind_some, ha, updEntry_of hx, hpark.trans hp, cleared]
  · have hg' : cleared.seg? p = some g := hg
    simp only [State.releaseAssignment, hx, Option.bind_some, ha, updEntry_of hx, hpark.trans hp, cleared]
    exact updSeg_of hg' _

theorem assignmentReleased : Says.AssignmentReleased := fun _ _ _ hx =>
  ⟨releaseAssignment_none hx, fun _ ha => releaseAssignment_some hx ha⟩

/-! ### Taken out of its place -/

/-- Another rack follows the head that leaves, and is known to stand at the pawl (R65). -/
def Follows (s : State) (g : Segment) (e : EntryNo) : Prop :=
  g.queue.head? = some e ∧ g.headArrived = true ∧ g.transfer = none ∧ g.stranger = none ∧ s.eyes.get g.config.eye = true

theorem pullFrom_eq {s : State} {m : SegNo} {g : Segment} {e : EntryNo} (hg : s.seg? m = some g) :
    (Follows s g e → s.pullFrom m e = (s.removeFromSegment m e).setHeadArrived m) ∧
    (¬ Follows s g e → s.pullFrom m e = s.removeFromSegment m e) := by
  have heye : s.eyeBlocked m = s.eyes.get g.config.eye := by simp only [State.eyeBlocked, hg]
  have hif : (g.queue.head? == some e && g.headArrived && !g.isOpen && !g.stranger.isSome && s.eyeBlocked m) = true ↔
      Follows s g e := by
    simp [Follows, heye, Segment.isOpen, and_assoc]
  refine ⟨fun h => ?_, fun h => ?_⟩
  · simp only [State.pullFrom, hg]
    exact if_pos (hif.2 h)
  · simp only [State.pullFrom, hg]
    exact if_neg (mt hif.1 h)

/-- In an empty queue no head arrives. -/
theorem setHeadArrived_empty {s : State} {n : SegNo} {g : Segment} (hg : s.seg? n = some g) (hq : g.queue = []) :
    s.setHeadArrived n = s := by
  simp only [State.setHeadArrived, hg, hq, List.head?_nil]

theorem leftBehind_queue (g : Segment) (e : EntryNo) : (leftBehind g e).queue = g.queue.erase e := by
  unfold leftBehind
  split
  · rfl
  · rfl

theorem leftBehind_head {g : Segment} {e : EntryNo} (h : g.queue.head? = some e) :
    { leftBehind g e with transfer := none } = g.headless e := by
  rw [leftBehind, if_pos h]
  rfl

theorem takeOut_segment {s : State} {e : EntryNo} {x : Entry} {m : SegNo} (hl : x.location = some (.segment m)) :
    s.takeOut e x = s.pullFrom m e := by
  simp only [State.takeOut, hl]

theorem mistrack_eq {x : Entry} (hl : x.location = some .tunnel) :
    { x.mistrack with pass := none } = { takenOutRecord x with assignment := x.assignment, pass := none } := by
  obtain ⟨tag, state, location, hold, claim, assignment, passes, verdict, rewashes, confirmed, overtaken, lastConfirmed,
    staleAge, pass, missing, placed⟩ := x
  dsimp only at hl
  subst hl
  cases pass with
  | none => rfl
  | some p => by_cases hp : p.fixed = .pass <;> simp [Entry.mistrack, takenOutRecord, hp, raiseRewash, Config.rewashLimitMax]

theorem removeFromTunnel_eq {s : State} {e : EntryNo} {x : Entry} (hx : s.entry? e = some x) : s.removeFromTunnel e =
    { s.putEntry e (some { x with pass := none }) with tunnel := { s.tunnel with list := s.tunnel.list.erase e } } :=
  updEntry_of (s := { s with tunnel := { s.tunnel with list := s.tunnel.list.erase e } }) hx _

theorem takeOut_tunnel {s : State} {e : EntryNo} {x : Entry} (hx : s.entry? e = some x) (hl : x.location = some .tunnel) :
    s.takeOut e x = { s.putEntry e (some { takenOutRecord x with assignment := x.assignment, pass := none }) with
      tunnel := { s.tunnel with list := s.tunnel.list.erase e } } := by
  simp only [State.takeOut, hl]
  rw [updEntry_of hx, removeFromTunnel_eq (entry_putEntry_self _ _ _), putEntry_putEntry, mistrack_eq hl]
  rfl

theorem takenOut : Says.TakenOut := by
  intro s e x hx
  refine ⟨fun hl => ?_, takeOut_tunnel hx, fun m g hl hg => ?_⟩
  · simp only [State.takeOut, hl]
  intro left another
  obtain ⟨follows, alone⟩ := pullFrom_eq (e := e) hg
  have closed : (g.queue.head? = some e → g.transfer = none) → s.removeFromSegment m e = s.putSeg m (some left) :=
    fun hc => removeFromSegment_closed hg hc
  have opened : ∀ {r}, g.transfer = some r → ¬ Follows s g e := fun hr ⟨_, _, ht, _, _⟩ => nomatch hr.symm.trans ht
  rw [takeOut_segment hl]
  refine ⟨fun ht hno => ?_, fun d y ht ⟨hh, ha, hs, heye, _⟩ hd hy => ?_, fun hh => ?_, fun r hh hr => ⟨fun hd => ?_,
    fun d k hd hne hk => ?_⟩⟩
  · by_cases hf : Follows s g e
    · obtain ⟨hh, ha, -, hs, heye⟩ := id hf
      have hempty : left.queue = [] := (leftBehind_queue g e).trans (not_not.1 fun hq => hno ⟨hh, ha, hs, heye, hq⟩)
      rw [follows hf, closed fun _ => ht, setHeadArrived_empty (seg_putSeg_self _ _ _) hempty]
    · rw [alone hf, closed fun _ => ht]
  · have hq : left.queue.head? = some d := (congrArg List.head? (leftBehind_queue g e)).trans hd
    have hy' : (s.putSeg m (some left)).entry? d = some y := hy
    rw [follows ⟨hh, ha, ht, hs, heye⟩, closed fun _ => ht, setHeadArrived_put (seg_putSeg_self _ _ _) hq hy']
    have report := arrived_report (s := s.putSeg m (some left)) (n := m) (g := left) (e := d) (x := y)
    rwa [putSeg_putSeg] at report ⊢
  · rw [alone fun h => hh h.1, closed fun h => absurd h hh]
  · have hleft : { left with transfer := none } = g.headless e := leftBehind_head hh
    rw [alone (opened hr), removeFromSegment_tunnel hg hh hr hd, hleft]
  · have hleft : { left with transfer := none } = g.headless e := leftBehind_head hh
    rw [alone (opened hr), hleft]
    exact removeFromSegment_open hg hh hr hd hne.symm hk

/-- No head of the segment has arrived. -/
def Unarrived (s : State) (m : SegNo) : Prop := ∃ g, s.seg? m = some g ∧ g.headArrived = false

theorem Unarrived.updSeg {s : State} {m : SegNo} (h : Unarrived s m) (n : SegNo) (f : Segment → Segment)
    (hf : ∀ g : Segment, g.headArrived = false → (f g).headArrived = false) : Unarrived (s.updSeg n f) m := by
  obtain ⟨g, hg, ha⟩ := h
  rw [Unarrived, seg_updSeg, hg]
  split
  · exact ⟨f g, rfl, hf g ha⟩
  · exact ⟨g, rfl, ha⟩

theorem Unarrived.untrackedArrival {s : State} {m : SegNo} (h : Unarrived s m) (n : SegNo) :
    Unarrived (s.untrackedArrival n) m := by
  unfold State.untrackedArrival
  split
  · exact h
  split
  · exact h
  split
  · exact h.updSeg n _ fun _ ha => ha
  · obtain ⟨g, hg, ha⟩ := h
    rw [Unarrived, addStranger_seg, hg]
    split
    · exact ⟨_, rfl, rfl⟩
    · exact ⟨g, rfl, ha⟩

theorem Unarrived.resolveBlocking {s : State} {m : SegNo} (h : Unarrived s m) (n : SegNo) :
    Unarrived (s.resolveBlocking n) m := by
  unfold State.resolveBlocking
  split
  · exact h
  split
  · exact (h.updSeg n (fun g => { g with unresolved := false }) fun _ ha => ha).untrackedArrival n
  · exact h

theorem Unarrived.endTransfer {s : State} {m : SegNo} (h : Unarrived s m) (n : SegNo) : Unarrived (s.endTransfer n) m := by
  unfold State.endTransfer
  split
  · exact h
  dsimp only
  have closed := h.updSeg n (fun g => { g with transfer := none }) fun _ ha => ha
  split
  · exact closed
  · rename_i r _ _ d _
    exact (closed.updSeg d (fun g =>
      { g with reservedTransfer := if r.carried then g.reservedTransfer else g.reservedTransfer - 1 }) fun _ ha =>
        ha).resolveBlocking d

/-- A segment from which the head is removed has no arrived head, whatever the end of its transfer resolves. -/
theorem unarrived_removeFromSegment {s : State} {m : SegNo} {g : Segment} {e : EntryNo} (hg : s.seg? m = some g)
    (hh : g.queue.head? = some e) : Unarrived (s.removeFromSegment m e) m := by
  rw [removeFromSegment_head hg hh]
  exact Unarrived.endTransfer ⟨_, seg_putSeg_self _ _ _, rfl⟩ m

/-- The arrival of the head of a queue that is not empty sets the head-arrived flag. -/
theorem setHeadArrived_arrives {s : State} {n : SegNo} {g : Segment} (hg : s.seg? n = some g) (hq : g.queue ≠ []) :
    ∃ w, (s.setHeadArrived n).seg? n = some { g with headArrived := true, window := w, unresolved := false } := by
  obtain ⟨e, he⟩ := Option.ne_none_iff_exists'.1 (mt List.head?_eq_none_iff.1 hq)
  simp only [State.setHeadArrived, hg, he]
  split
  · rw [State.reportHead, raiseIf_seg, raiseIf_seg, updSeg_of hg, seg_putSeg_self]
    exact ⟨_, rfl⟩
  · rw [updSeg_of hg, seg_putSeg_self]
    exact ⟨_, rfl⟩

theorem takenOutOfSegment : Says.TakenOutOfSegment := by
  intro s m g e x hl hg
  obtain ⟨follows, alone⟩ := pullFrom_eq (e := e) hg
  rw [takeOut_segment hl]
  by_cases hh : g.queue.head? = some e
  · obtain ⟨k, hk, hqueue, hconfig, htransfer, -⟩ := removed_head hg hh
    obtain ⟨k', hk', hunarrived⟩ := unarrived_removeFromSegment hg hh
    obtain rfl : k = k' := Option.some.inj (hk.symm.trans hk')
    by_cases hf : Follows s g e ∧ k.queue ≠ []
    · obtain ⟨follow, hq⟩ := hf
      obtain ⟨-, ha, ht, hs, heye⟩ := id follow
      obtain ⟨w, hw⟩ := setHeadArrived_arrives hk hq
      rw [follows follow]
      exact ⟨_, hw, hqueue, hconfig, fun _ => ⟨htransfer, iff_of_true rfl ⟨ha, ht, hs, heye, hqueue ▸ hq⟩⟩,
        fun h => absurd hh h⟩
    · have stays : (s.pullFrom m e).seg? m = some k := by
        by_cases follow : Follows s g e
        · rw [follows follow, setHeadArrived_empty hk (not_not.1 fun hq => hf ⟨follow, hq⟩), hk]
        · rw [alone follow, hk]
      refine ⟨k, stays, hqueue, hconfig, fun _ => ⟨htransfer, iff_of_false (by rw [hunarrived]; exact nofun) ?_⟩,
        fun h => absurd hh h⟩
      rintro ⟨ha, ht, hs, heye, hq⟩
      exact hf ⟨⟨hh, ha, ht, hs, heye⟩, hqueue ▸ hq⟩
  · rw [alone fun h => hh h.1, removeFromSegment_behind hg hh]
    exact ⟨_, seg_putSeg_self _ _ _, rfl, rfl, fun h => absurd h hh, fun _ => rfl⟩


/-! ### The tags of a report -/

theorem entry_of_find {s : State} {t : Tag} {e : EntryNo} (h : s.find t = some e) : ∃ x, s.entry? e = some x := by
  have carries := List.find?_some (p := fun e => (s.entry? e).any fun x : Entry => decide (x.tag = t)) h
  exact Option.isSome_iff_exists.1 (Option.isSome_of_any carries)

theorem confirmHead_eq {s : State} {n : SegNo} {g : Segment} {e : EntryNo} {x : Entry} (hg : s.seg? n = some g)
    (hx : s.entry? e = some x) : s.confirmHead n e =
      (s.putEntry e (some (x.confirm s.seconds))).putSeg n (some
        { g.vouch e with window := if g.window.awaits e then .closed else g.window }) := by
  have hg' : (s.putEntry e (some (x.confirm s.seconds))).seg? n = some g := hg
  unfold State.confirmHead
  rw [updEntry_of hx, updSeg_of hg']

/-- A window closes when the head it awaits is seen (R62, R64). -/
theorem window_seen (w : Window) (e : EntryNo) : (if w.awaits e then .closed else w) =
    match w with
    | .head k a f => if a = e then .closed else .head k a f
    | w => w := by
  cases w with
  | head k a f => simp [Window.awaits]
  | closed => rfl
  | untracked k f => rfl

theorem firstTag_head {s : State} {n : SegNo} {g : Segment} {t : Tag} {e : EntryNo} (hg : s.seg? n = some g)
    (hfind : s.find t = some e) :
    (g.queue.head? = some e → s.firstTag n t = s.confirmHead n e) ∧
    (g.queue.head? ≠ some e → s.firstTag n t = s.relocate n e) := by
  simp only [State.firstTag, hfind, hg, Option.any_some, beq_iff_eq]
  exact ⟨fun h => if_pos h, fun h => if_neg h⟩

/-- R69, R76: where the tag may be auto-admitted. -/
theorem autoEntry_iff {s : State} {n : SegNo} {g : Segment} {t : Tag} (hg : s.seg? n = some g) (e : EntryNo) :
    s.autoEntry n t = some e ↔ s.params.autoAdmission = true ∧ (g.config.kind = .collect ∨ g.config.kind = .park) ∧
      ¬ (∃ r, g.stranger = some r ∧ t ∈ r.given) ∧ s.freeList.head? = some e := by
  rw [← strangerTag_iff hg]
  simp [State.autoEntry, hg, and_assoc]

/-- R70: a stranger seen, over the segment. -/
theorem strangerSeen_eq {s : State} {n : SegNo} {g : Segment} (hg : s.seg? n = some g) (t : Tag) :
    s.strangerSeen n t = ((s.putSeg n (some (g.giveStranger (some t)))).raiseIf g.stranger.isNone .stranger).raiseIf
      (g.stranger.isNone && s.params.autoAdmission && s.freeList.isEmpty) .tableFull := by
  simp only [State.strangerSeen, hg, Option.any_some, addStranger_eq hg, updSeg_of hg, Option.not_isSome]

theorem firstTagJudged : Says.FirstTagJudged := by
  intro s n g t hg
  refine ⟨fun e hfind hh => ?_, fun e hfind hh => (firstTag_head hg hfind).2 hh, fun hfind => ?_⟩
  · intro u
    obtain ⟨x, hx⟩ := entry_of_find hfind
    have hu : u = _ := ((firstTag_head hg hfind).1 hh).trans (confirmHead_eq hg hx)
    refine ⟨?_, ?_, fun d hd => ?_⟩
    · rw [hu, hx]
      exact entry_putEntry_self _ _ _
    · rw [hu, seg_putSeg_self, window_seen]
      rfl
    · rw [hu]
      exact (entry_putEntry _ _ _ _).trans (if_neg hd.symm)
  · intro collects stays
    refine ⟨fun e hauto hc hs he => ?_, fun hno => ?_⟩
    · simp only [State.firstTag, hfind, (autoEntry_iff hg e).2 ⟨hauto, hc, hs, he⟩]
    · intro u
      have hnone : s.autoEntry n t = none := Option.eq_none_iff_forall_ne_some.2 fun e he => by
        obtain ⟨hauto, hc, hs, hf⟩ := (autoEntry_iff hg e).1 he
        obtain h | h | h | h := hno
        · exact nomatch hauto.symm.trans h
        · exact h hc
        · exact hs h
        · rw [h] at hf
          exact nomatch hf
      have hu : u = s.strangerSeen n t := by simp only [u, State.firstTag, hfind, hnone]
      rw [strangerSeen_eq hg] at hu
      refine ⟨?_, fun m hm => ?_, ?_, ?_, ?_, fun a h1 h2 => ?_⟩
      · rw [hu, raiseIf_seg, raiseIf_seg, seg_putSeg_self, giveStranger_some]
      · rw [hu, raiseIf_seg, raiseIf_seg, seg_putSeg, if_neg hm.symm]
      · rw [hu]
        exact ((segsOnly_putSeg _ _ _).trans ((segsOnly_raiseIf _ _ _).trans (segsOnly_raiseIf _ _ _))).eq
      · rw [hu, raiseIf_flag, raiseIf_flag, putSeg_source]
        simp
      · rw [hu, raiseIf_flag, raiseIf_flag, putSeg_source]
        simp
      · rw [hu, raiseIf_source, raiseIf_source, putSeg_source, if_neg fun h => h2 h.2.symm, if_neg fun h => h1 h.2.symm]

theorem secondTagTaken : Says.SecondTagTaken := by
  intro s n g first t hg u
  refine ⟨fun e hne hfirst hfind hsecond => ?_, fun hno => ?_⟩
  · obtain ⟨x, hx⟩ := entry_of_find hfind
    simp only [u, State.secondTag, if_neg (not_or.2 ⟨hne, hfirst⟩), hfind, hg, Option.any_some, hsecond, beq_self_eq_true,
      if_true, updEntry_of hx, hx]
    rfl
  · simp only [u, State.secondTag]
    split
    · rfl
    · rename_i h
      obtain ⟨hne, hfirst⟩ := not_or.1 h
      have hnot := (hno.resolve_left hne).resolve_left hfirst
      split
      · rfl
      · rename_i e hfind
        simp [hg, hnot e hfind]

theorem reportActs_iff {s : State} {n : SegNo} {g : Segment} (hg : s.seg? n = some g) : s.reportActs n = true ↔
    s.eyes.get g.config.eye = true ∧ g.transfer = none ∧ ¬ (g.queue = [] ∧ s.inbound n = true) := by
  simp [State.reportActs, hg, State.eyeBlocked, Segment.isOpen, and_assoc, or_iff_not_imp_left]

theorem reportTaken : Says.ReportTaken := by
  intro s r n g hgate hg acts
  have hacts : s.reportActs n = true ↔ acts := reportActs_iff hg
  refine ⟨fun tags hno => ?_, fun t h => ?_, fun t t' h => ?_⟩
  · simp only [State.report, hgate]
    split
    · rename_i h
      rw [hno.resolve_left (not_not.2 (hacts.1 h))]
    · rfl
  · simp only [State.report, hgate, if_pos (hacts.2 h)]
  · simp only [State.report, hgate, if_pos (hacts.2 h)]


/-! ### Insertion at the head and the passing of those that stood before (R66, R67) -/

/-- The state in which the entry has been inserted at the head and the others have been passed. -/
def State.aheadOf (s : State) (e : EntryNo) (n : SegNo) (prior : Option RackState) (exceeds : Bool)
    (passed : List EntryNo) : State :=
  (s.insertHead e n prior exceeds).forEach State.passEntry passed

/-- Who stays behind depends on the records of those passed alone. -/
theorem staysBehind_congr {s u : State} {n : SegNo} {passed : List EntryNo}
    (h : ∀ d ∈ passed, u.entry? d = s.entry? d) : staysBehind u n passed = staysBehind s n passed := by
  funext d
  by_cases hd : d ∈ passed
  · simp only [staysBehind, h d hd]
  · simp [staysBehind, hd]

section
variable {s : State} {n : SegNo} {g : Segment} {e : EntryNo} {x : Entry} {prior : Option RackState} {exceeds : Bool}
  {passed : List EntryNo}

/-- The arrived head, and what stands of the segment about it. -/
theorem aheadOf_head (hg : s.seg? n = some g) (hx : s.entry? e = some x) (he : e ∉ passed) :
    ∃ h, (s.aheadOf e n prior exceeds passed).seg? n = some h ∧ h.queue.head? = some e ∧ h.config = g.config ∧
      h.headArrived = true ∧ h.window = .closed ∧ h.stranger = g.stranger.map fun r => { r with vouched := some e } := by
  obtain ⟨hins, -⟩ := insertHead_spec hg hx prior exceeds
  obtain ⟨h, hh, q, t, k, d, rfl, -, hhead⟩ := passAll_head passed he hins rfl
  exact ⟨_, hh, hhead, rfl, rfl, rfl, rfl⟩

theorem insertHead_entry_ne (hg : s.seg? n = some g) (hx : s.entry? e = some x) {d : EntryNo} (hd : d ≠ e) :
    (s.insertHead e n prior exceeds).entry? d = s.entry? d := by
  obtain ⟨-, -, hentry, -⟩ := insertHead_spec hg hx prior exceeds
  rw [hentry, if_neg hd.symm]

/-- The queue stands behind the new head, but for exactly those that leave it as they are passed. -/
theorem aheadOf_queue (hg : s.seg? n = some g) (hx : s.entry? e = some x) (he : e ∉ passed) (hp : passed.Nodup)
    (hq : g.queue.Nodup) : ∃ h, (s.aheadOf e n prior exceeds passed).seg? n = some h ∧
      h.queue = e :: g.queue.filter (staysBehind s n passed) := by
  obtain ⟨hins, -⟩ := insertHead_spec hg hx prior exceeds
  have once : ∀ d ∈ passed, (e :: g.queue).count d ≤ 1 := fun d hd => by
    rw [List.count_cons_of_ne fun h : e = d => he (h ▸ hd)]
    exact List.nodup_iff_count_le_one.1 hq d
  obtain ⟨h, hh, hqueue⟩ := passAll_queue passed hp hins once
  have stays : staysBehind (s.insertHead e n prior exceeds) n passed = staysBehind s n passed :=
    staysBehind_congr fun d hd => insertHead_entry_ne hg hx fun h => he (h ▸ hd)
  refine ⟨h, hh, hqueue.trans ?_⟩
  rw [← stays]
  exact List.filter_cons_of_pos (by simp [he])

theorem aheadOf_self (hg : s.seg? n = some g) (hx : s.entry? e = some x) (he : e ∉ passed) :
    (s.aheadOf e n prior exceeds passed).entry? e =
      some (x.place n g.config.kind g.config.storeKind prior exceeds s.params.rewashLimit s.seconds) := by
  obtain ⟨-, -, hentry, -⟩ := insertHead_spec hg hx prior exceeds
  exact (passAll_entry_ne passed he _).trans ((hentry e).trans (if_pos rfl))

theorem aheadOf_other (hg : s.seg? n = some g) (hx : s.entry? e = some x) {d : EntryNo} (hd : d ≠ e) (hp : d ∉ passed) :
    (s.aheadOf e n prior exceeds passed).entry? d = s.entry? d :=
  (passAll_entry_ne passed hp _).trans (insertHead_entry_ne hg hx hd)

/-- Passed for the first time (R67). -/
theorem aheadOf_counted (hg : s.seg? n = some g) (hx : s.entry? e = some x) (he : e ∉ passed) (hp : passed.Nodup)
    {d : EntryNo} {y : Entry} (hd : d ∈ passed) (hy : s.entry? d = some y) (h0 : y.overtaken = 0) :
    (s.aheadOf e n prior exceeds passed).entry? d = some { y with overtaken := 1 } := by
  obtain ⟨u, hu, hw, -⟩ := passAll_entry passed hp hd (s.insertHead e n prior exceeds)
  have hy' : u.entry? d = some y := hu.trans ((insertHead_entry_ne hg hx fun h => he (h ▸ hd)).trans hy)
  refine hw.trans ?_
  rw [(entryPassed u d y hy').1 h0, entry_putEntry_self]

/-- Passed again (R67): declared MISSING, as OVERTAKEN. -/
theorem aheadOf_missing (hg : s.seg? n = some g) (hx : s.entry? e = some x) (he : e ∉ passed) (hp : passed.Nodup)
    {d : EntryNo} {y : Entry} {last : Place} (hd : d ∈ passed) (hy : s.entry? d = some y) (h0 : y.overtaken ≠ 0)
    (hl : y.location = some last) :
    let w := s.aheadOf e n prior exceeds passed
    (w.source .missing).flag = true ∧ ∃ z, w.entry? d = some z ∧ z.state = .missing ∧ z.location = none ∧
      z.missing = some ⟨.overtaken, y.state, last⟩ ∧ z.claim = none ∧ z.assignment = none ∧ z.hold = none := by
  intro w
  obtain ⟨u, hu, hw, l, hl'⟩ := passAll_entry passed hp hd (s.insertHead e n prior exceeds)
  have hy' : u.entry? d = some y := hu.trans ((insertHead_entry_ne hg hx fun h => he (h ▸ hd)).trans hy)
  have hpass := (entryPassed u d y hy').2 h0
  obtain ⟨hrecord, hflag, -⟩ := missingRecord u d y last .overtaken hy' hl
  rw [← hpass] at hrecord hflag
  have hkeeps := passAll_keepsFlag l .missing _ hflag
  rw [← hl'] at hkeeps
  exact ⟨hkeeps, _, hw.trans hrecord, rfl, rfl, rfl, rfl, rfl, rfl⟩

theorem outer_aheadOf : Outer s (s.aheadOf e n prior exceeds passed) :=
  (outer_insertHead s e n prior exceeds).trans (outer_forEach _ outer_passEntry passed _)

end

/-! ### Auto-admission -/

theorem autoAdmission : Says.AutoAdmission := by
  intro s n g e t hg he hkind
  let u := s.takeFree e t
  have hx : u.entry? e = some (Entry.new t) := entry_putEntry_self _ _ _
  have hg' : u.seg? n = some g := hg
  have others : ∀ d, d ≠ e → u.entry? d = s.entry? d := fun d hd => (takeFree_entry s e d t).trans (if_neg hd.symm)
  have hpassed : s.passedBy n e = g.queue := by
    simp only [State.passedBy, hg]
    exact List.takeWhile_eq_self_iff.2 fun d hd => by simpa using fun h : d = e => he (h ▸ hd)
  have ne : ∀ {d}, d ∈ g.queue → d ≠ e := fun hd h => he (h ▸ hd)
  obtain ⟨h, hh, hhead, hconfig, harrived, hwindow, hstranger⟩ := aheadOf_head (prior := none) (exceeds := false) hg' hx he
  refine ⟨u.aheadOf e n none false g.queue, ?_, rfl, outer_aheadOf.freeList, ⟨h, hh, hhead, fun hq => ?_, hconfig, harrived,
    hwindow, fun hs => ?_⟩, ?_, fun d y hq hd hy h0 => ?_, fun d y last hq hd hy h0 hl => ?_, fun d hd hp => ?_⟩
  · rw [State.autoAdmit, hpassed]
    rfl
  · obtain ⟨h', hh', hqueue⟩ := aheadOf_queue (prior := none) (exceeds := false) hg' hx he hq hq
    obtain rfl : h = h' := Option.some.inj (hh.symm.trans hh')
    rw [hqueue, staysBehind_congr fun d hd => others d (ne hd)]
  · obtain ⟨r, hr⟩ := Option.ne_none_iff_exists'.1 hs
    exact ⟨_, hstranger.trans (congrArg _ hr), rfl⟩
  · rw [aheadOf_self hg' hx he, place_new]
    obtain hk | hk := hkind
    · rw [hk]
      rfl
    · rw [hk]
      rfl
  · exact aheadOf_counted hg' hx he hq hd ((others d (ne hd)).trans hy) h0
  · exact aheadOf_missing hg' hx he hq hd ((others d (ne hd)).trans hy) h0 hl
  · exact (aheadOf_other hg' hx hd hp).trans (others d hd)

/-! ### Relocation -/

/-- The rise at relocation out of the tunnel is over the limit (R110). -/
theorem mistrackExceeds_iff (x : Entry) (limit : Nat) : x.mistrackExceeds limit = true ↔ risesOver x limit := by
  simp only [Entry.mistrackExceeds, risesOver, overLimit, Bool.and_eq_true, beq_iff_eq, Option.any_eq_true, bne_iff_ne,
    decide_eq_true_eq]
  exact and_congr_right' ⟨fun ⟨p, hp, hf, hl⟩ => ⟨⟨p, hp, hf⟩, hl⟩, fun ⟨⟨p, hp, hf⟩, hl⟩ => ⟨p, hp, hf, hl⟩⟩

theorem takenOutRecord_segment {x : Entry} (hl : x.location ≠ some .tunnel) :
    takenOutRecord x = { x with assignment := none } := by
  unfold takenOutRecord
  split
  · rename_i h _
    exact absurd h hl
  · rfl

theorem takenOutRecord_unassigned (x : Entry) : { takenOutRecord x with assignment := none } = takenOutRecord x := by
  unfold takenOutRecord
  split
  · dsimp only
    split
    · rfl
    · rfl
  · rfl

/-- The record of a rack taken out of its place, its assignment cleared (R65): placement discards the tunnel fields. -/
theorem pull_self {s : State} {e : EntryNo} {x : Entry} (hx : s.entry? e = some x) :
    ∃ p, (s.pull e x).entry? e = some { takenOutRecord x with pass := p } := by
  rw [State.pull, releaseAssignment_entry, if_pos rfl, takeOut_entry, hx]
  by_cases hl : x.location = some .tunnel
  · rw [if_pos ⟨rfl, hl⟩, Option.map_some, mistrack_eq hl]
    exact ⟨none, (congrArg (fun y : Entry => some { y with pass := none }) (takenOutRecord_unassigned x) :)⟩
  · rw [if_neg fun h => hl h.2]
    refine ⟨x.pass, ?_⟩
    rw [takenOutRecord_segment hl]
    rfl

theorem pull_entry_ne (s : State) {e d : EntryNo} (x : Entry) (hd : d ≠ e) : (s.pull e x).entry? d = s.entry? d := by
  rw [State.pull, releaseAssignment_entry, if_neg hd.symm, takeOut_entry, if_neg fun h => hd h.1.symm]

theorem relocation : Says.Relocation := by
  intro s n g e x exceeds hg hx hq hh hexceeds passed prior others
  have he : e ∉ passed := mem_takeWhile_ne
  have hp : passed.Nodup := hq.sublist (List.takeWhile_sublist _)
  have ne : ∀ {d}, d ∈ passed → d ≠ e := fun hd h => he (h ▸ hd)
  obtain ⟨p, hx'⟩ := pull_self hx
  obtain ⟨a, ha, hstays, hconfig, hstranger⟩ := pull_seg (e := e) (x := x) hg
  obtain ⟨b, hb, hothers⟩ := takeOut_queue (e := e) (x := x) hg
  obtain ⟨k, hk⟩ := releaseAssignment_keeps (s.takeOut e x) e hb
  have hqueue : a.queue = others := by
    rw [Option.some.inj (ha.symm.trans hk)]
    exact hothers
  have outer : Outer s (s.pull e x) := (outer_takeOut s e x).trans (outer_releaseAssignment _ e)
  have hpassed : s.passedBy n e = passed := by simp only [State.passedBy, hg, passed]
  have hprior : (x.missing.map (·.prior)).getD x.state = prior := by
    simp only [prior]
    cases x.missing <;> rfl
  have hrise : x.mistrackExceeds s.params.rewashLimit = exceeds :=
    Bool.eq_iff_iff.2 ((mistrackExceeds_iff _ _).trans hexceeds.symm)
  have hanodup : a.queue.Nodup := hq.sublist hstays
  obtain ⟨h, hh', hhead, hconfig', harrived, hwindow, hstranger'⟩ :=
    aheadOf_head (prior := some prior) (exceeds := exceeds) ha hx' he
  refine ⟨(s.pull e x).aheadOf e n (some prior) exceeds passed, ?_, rfl, ⟨h, hh', ?_, hconfig'.trans hconfig, harrived, hwindow,
    fun hs => ?_⟩, ?_, fun d y hd hy h0 => ?_, fun d y last hd hy h0 hl => ?_, fun d hd hp => ?_⟩
  · simp only [State.relocate, hx, hpassed, hprior, hrise]
    rfl
  · obtain ⟨h', hh'', hbehind⟩ := aheadOf_queue (prior := some prior) (exceeds := exceeds) ha hx' he hp hanodup
    obtain rfl : h = h' := Option.some.inj (hh'.symm.trans hh'')
    rw [hbehind, hqueue, staysBehind_congr fun d hd => pull_entry_ne s x (ne hd)]
  · obtain ⟨r, hr⟩ := Option.ne_none_iff_exists'.1 (hstranger hs)
    exact ⟨_, hstranger'.trans (congrArg _ hr), rfl⟩
  · rw [aheadOf_self ha hx' he, hconfig, outer.params, outer.seconds]
    rfl
  · exact aheadOf_counted ha hx' he hp hd ((pull_entry_ne s x (ne hd)).trans hy) h0
  · exact aheadOf_missing ha hx' he hp hd ((pull_entry_ne s x (ne hd)).trans hy) h0 hl
  · exact (aheadOf_other ha hx' hd hp).trans (pull_entry_ne s x hd)

end Sys2Proof.Machine

/-- Settles O35. -/
theorem sightingJudged : Obligations.SightingJudged :=
  ⟨firstTagJudged, secondTagTaken, reportTaken, relocation, takenOutOfSegment, takenOut, assignmentReleased, insertedAtHead,
    entryPassed, placementOverLimit, autoAdmission, freeEntryTaken, displacement⟩
end

section
/-! PROOF. The output lines after every step (R35, R36, R97, R195): every command either brings them to their levels at its
end or touches nothing that a level is read off. -/

open Sys2Proof Sys2Proof.Machine

namespace Sys2Proof.Machine

/-! ### The levels spelled out -/

theorem isOpen_iff {g : Segment} : g.isOpen = true ↔ g.transfer ≠ none := by
  simp [Segment.isOpen, Option.isSome_iff_ne_none]

theorem driveOn_iff {s : State} {g : Segment} : s.driveOn g = true ↔
    (s.mode = .run ∨ s.mode = .service) ∧ s.stopLatch = false ∧ g.jammed = false := by
  simp [State.driveOn, and_assoc]

theorem diverting_iff {g : Segment} : g.diverting = true ↔
    ∃ r a, g.transfer = some r ∧ g.config.alternate = some a ∧ r.dest = .segment a := by
  simp [Segment.diverting, Option.any_eq_true]

theorem outputs_drive (s : State) (k : LineNo) : s.outputs.drives.get k = true ↔
    ∃ n g, s.seg? n = some g ∧ g.config.drive = k ∧ (s.mode = .run ∨ s.mode = .service) ∧ s.stopLatch = false ∧
      g.jammed = false := by
  simp [State.outputs, line_iff, driveOn_iff]

theorem outputs_gate (s : State) (k : LineNo) : s.outputs.gates.get k = true ↔
    ∃ n g, s.seg? n = some g ∧ g.config.drive = k ∧ g.config.kind ≠ .entry ∧ g.transfer ≠ none := by
  simp [State.outputs, line_iff, isOpen_iff, and_assoc]

theorem outputs_entryRelease (s : State) : s.outputs.entryRelease = true ↔
    ∃ n g, s.seg? n = some g ∧ g.config.kind = .entry ∧ g.transfer ≠ none := by
  simp only [State.outputs, segsWhere_nonempty, Bool.and_eq_true, beq_iff_eq, isOpen_iff]

theorem outputs_diverter (s : State) (k : LineNo) : s.outputs.diverters.get k = true ↔
    ∃ n g r a, s.seg? n = some g ∧ g.config.diverter = some k ∧ g.transfer = some r ∧ g.config.alternate = some a ∧
      r.dest = .segment a := by
  simp [State.outputs, line_iff, diverting_iff]

theorem haltRequest_iff (s : State) : s.haltRequest = true ↔ s.stopLatch = true ∨ s.tunnel.fault ≠ none ∨
    ∃ c e rest x p o g, s.tunnel.config = some c ∧ s.tunnel.list = e :: rest ∧ s.entry? e = some x ∧ x.pass = some p ∧
      s.outfeed = some o ∧ s.seg? o = some g ∧ g.freeSpace = 0 ∧
      c.exitDistance - c.exitTolerance - c.haltMargin ≤ (s.tunnel.encoder - p.mark).toNat := by
  rw [← outfeedHalt_iff]
  simp [State.haltRequest, Option.isSome_iff_ne_none, or_assoc]

/-- Lines at the levels of the state are at the levels of their rules. -/
theorem lineLevels_of_agree {s : State} (h : OutputsAgree s) : lineLevels s := by
  unfold lineLevels
  rw [show s.out = s.outputs from h]
  exact ⟨outputs_drive s, outputs_gate s, outputs_entryRelease s, outputs_diverter s, haltRequest_iff s⟩

/-! ### Endings -/

/-- What an outcome must be for a command that begins in `s`: where the lines of `s` are at their levels, those of the state
it answers are. -/
def OutcomeAgrees (s : State) (o : Host.Outcome State Fault Refusal) : Prop :=
  OutputsAgree s → ∀ t, o = .next t → OutputsAgree t

/-- A state whose lines, and what their levels are read off, are those of `s`. -/
theorem outcomeAgrees_same {s t : State} (ho : t.out = s.out) (hl : t.outputs = s.outputs) :
    OutcomeAgrees s (.next t) := by
  rintro h _ ⟨⟩
  exact (ho.trans h).trans hl.symm

theorem outcomeAgrees_refresh (s t : State) : OutcomeAgrees s (.next t.refreshOutputs) := by
  rintro - _ ⟨⟩
  exact refreshOutputs_out t

theorem outcomeAgrees_done (s before u : State) : OutcomeAgrees s (done before u) :=
  outcomeAgrees_refresh s _

theorem touchIdle_outputs (s : State) : s.touchIdle.outputs = s.outputs := by
  unfold State.touchIdle
  split <;> rfl

theorem outputsAgree_answer {s : State} (h : OutputsAgree s) (echo : Byte) (r : Result) (body : List Byte) :
    OutputsAgree (s.answer echo r body) := h

/-- A request of the port leaves the lines alone where it is only answered, and else brings them to their levels. -/
theorem outcomeAgrees_portDo (c : Instr) (act : State → Taken) (s : State) : OutcomeAgrees s (portDo c act s) := by
  unfold portDo
  split
  · exact outcomeAgrees_same rfl rfl
  dsimp only
  split
  · exact outcomeAgrees_same rfl rfl
  · exact outcomeAgrees_same (touchIdle_out _) (touchIdle_outputs _)
  case h_3 u body _ =>
    rintro - _ ⟨⟩
    exact outputsAgree_answer (refreshOutputs_out _) _ _ _

theorem outcomeAgrees_portRead (c : Instr) (r : State → Result × List Byte) (s : State) :
    OutcomeAgrees s (portRead c r s) := by
  unfold portRead
  split <;> exact outcomeAgrees_same rfl rfl

theorem outcomeAgrees_rackCommand (c : Instr) (src : Source) (q : RackRequest) (s : State) :
    OutcomeAgrees s (rackCommand c src q s) := by
  cases src with
  | supervisor more => exact outcomeAgrees_portDo c _ s
  | station n =>
    unfold rackCommand
    dsimp only
    split
    · exact outcomeAgrees_refresh _ _
    · exact outcomeAgrees_same rfl rfl

/-! ### Commands that are no request of the port -/

theorem outcomeAgrees_powerOn (b : Bool) (s : State) : OutcomeAgrees s (execPowerOn b s) := by
  unfold execPowerOn
  dsimp only
  split
  · exact outcomeAgrees_refresh _ _
  · rintro - _ ⟨⟩
    exact reset_outputsAgree

theorem outcomeAgrees_nop (s : State) (more : List Byte) : OutcomeAgrees s (execNop s more) := by
  unfold execNop
  split <;> exact outcomeAgrees_same rfl rfl

theorem outcomeAgrees_ack (sources : Half) (s : State) (more : List Byte) :
    OutcomeAgrees s (execAck sources s more) := by
  unfold execAck
  split
  · exact outcomeAgrees_same rfl rfl
  · rintro - _ ⟨⟩
    exact outputsAgree_answer (refreshOutputs_out _) _ _ _

theorem outcomeAgrees_badCheckMessage (bytes : List Byte) (s : State) :
    OutcomeAgrees s (execBadCheckMessage bytes s) := by
  unfold execBadCheckMessage
  split
  · exact outcomeAgrees_same rfl rfl
  · split <;> exact outcomeAgrees_same rfl rfl

theorem outcomeAgrees_unknownRequest (bytes : List Byte) (s : State) :
    OutcomeAgrees s (execUnknownRequest bytes s) := by
  unfold execUnknownRequest
  split
  · exact outcomeAgrees_same rfl rfl
  · split <;> exact outcomeAgrees_same rfl rfl

theorem outcomeAgrees_tooSoonTransaction (bytes : List Byte) (s : State) :
    OutcomeAgrees s (execTooSoonTransaction bytes s) := by
  unfold execTooSoonTransaction
  split <;> exact outcomeAgrees_same rfl rfl

theorem outcomeAgrees_roundStart (s : State) : OutcomeAgrees s (execRoundStart s) := by
  unfold execRoundStart
  split <;> exact outcomeAgrees_same rfl rfl

theorem outcomeAgrees_headerSent (s : State) : OutcomeAgrees s (execHeaderSent s) := by
  unfold execHeaderSent
  split
  · exact outcomeAgrees_refresh _ _
  · exact outcomeAgrees_same rfl rfl

theorem outcomeAgrees_roundEnd (s : State) : OutcomeAgrees s (execRoundEnd s) := by
  unfold execRoundEnd
  split
  · exact outcomeAgrees_refresh _ _
  · exact outcomeAgrees_same rfl rfl

theorem outcomeAgrees_windowRunsOut (n : SegNo) (s : State) : OutcomeAgrees s (execSightingWindowRunOut n s) := by
  unfold execSightingWindowRunOut
  split
  · exact outcomeAgrees_done _ _ _
  · exact outcomeAgrees_same rfl rfl

theorem outcomeAgrees_windowEnd (n : NodeNo) (seen : List (Branch × WindowActivity)) (s : State) :
    OutcomeAgrees s (execWindowEnd n seen s) := by
  unfold execWindowEnd
  split
  · split
    · split
      · exact outcomeAgrees_done _ _ _
      · exact outcomeAgrees_same rfl rfl
    · exact outcomeAgrees_same rfl rfl
  · exact outcomeAgrees_same rfl rfl

theorem outcomeAgrees_validReply (window : Nat) (br : Branch) (reply : Reply) (s : State) :
    OutcomeAgrees s (execValidReply window br reply s) := by
  unfold execValidReply
  split
  · split
    · exact outcomeAgrees_refresh _ _
    · exact outcomeAgrees_refresh _ _
    · exact outcomeAgrees_same rfl rfl
  · exact outcomeAgrees_same rfl rfl

theorem outcomeAgrees_branchWake (br : Branch) (s : State) : OutcomeAgrees s (execBranchWake br s) := by
  unfold execBranchWake
  split
  · exact outcomeAgrees_done _ _ _
  · exact outcomeAgrees_same rfl rfl

theorem outcomeAgrees_resetPulseEnd (s : State) : OutcomeAgrees s (execResetPulseEnd s) := by
  unfold execResetPulseEnd
  split <;> exact outcomeAgrees_same rfl rfl

theorem outcomeAgrees_eyeBlock (i : LineNo) (s : State) : OutcomeAgrees s (execEyeBlock i s) := by
  unfold execEyeBlock
  split
  · exact outcomeAgrees_same rfl rfl
  · exact outcomeAgrees_done _ _ _

theorem outcomeAgrees_eyeClear (i : LineNo) (s : State) : OutcomeAgrees s (execEyeClear i s) := by
  unfold execEyeClear
  split
  · exact outcomeAgrees_done _ _ _
  · exact outcomeAgrees_same rfl rfl

theorem outcomeAgrees_gateOpen (n : SegNo) (s : State) : OutcomeAgrees s (execGateOpen n s) := by
  unfold execGateOpen
  split
  · exact outcomeAgrees_done _ _ _
  · exact outcomeAgrees_same rfl rfl

theorem outcomeAgrees_jam (n : SegNo) (s : State) : OutcomeAgrees s (execJam n s) := by
  unfold execJam
  split
  · exact outcomeAgrees_done _ _ _
  · exact outcomeAgrees_same rfl rfl

theorem outcomeAgrees_safeStop (b : Bool) (s : State) : OutcomeAgrees s (execSafeStop b s) := by
  unfold execSafeStop
  split
  · exact outcomeAgrees_done _ _ _
  · exact outcomeAgrees_same rfl rfl

theorem outcomeAgrees_stale (e : EntryNo) (s : State) : OutcomeAgrees s (execStale e s) := by
  unfold execStale
  split
  · dsimp only
    split
    · exact outcomeAgrees_done _ _ _
    · exact outcomeAgrees_same rfl rfl
  · exact outcomeAgrees_same rfl rfl

theorem outcomeAgrees_promotion (n : NodeNo) (k : Kind) (s : State) : OutcomeAgrees s (execPromotion n k s) := by
  unfold execPromotion
  split
  · dsimp only
    split
    · exact outcomeAgrees_done _ _ _
    · exact outcomeAgrees_same rfl rfl
  · exact outcomeAgrees_same rfl rfl

theorem outcomeAgrees_autoQuiet (s : State) : OutcomeAgrees s (execAutoQuiet s) := by
  unfold execAutoQuiet
  split
  · dsimp only
    split
    · exact outcomeAgrees_done _ _ _
    · exact outcomeAgrees_same rfl rfl
  · exact outcomeAgrees_same rfl rfl

theorem outcomeAgrees_paceTick (s : State) : OutcomeAgrees s (execPaceTick s) := by
  unfold execPaceTick
  split <;> exact outcomeAgrees_same rfl rfl

theorem outcomeAgrees_paceCounterZero (s : State) : OutcomeAgrees s (execPaceCounterZero s) := by
  unfold execPaceCounterZero
  split <;> exact outcomeAgrees_same rfl rfl

theorem outcomeAgrees_exitEyeBlock (s : State) : OutcomeAgrees s (execExitEyeBlock s) := by
  unfold execExitEyeBlock
  split
  · exact outcomeAgrees_same rfl rfl
  · dsimp only
    split
    · split
      · exact outcomeAgrees_same rfl rfl
      · exact outcomeAgrees_done _ _ _
    · exact outcomeAgrees_same rfl rfl

theorem outcomeAgrees_machineLineChange (line : MachineLine) (b : Bool) (s : State) :
    OutcomeAgrees s (execMachineLineChange line b s) := by
  cases line <;> exact outcomeAgrees_same rfl rfl

theorem outcomeAgrees_rinseOkAssert (s : State) : OutcomeAgrees s (execRinseOkAssert s) := by
  unfold execRinseOkAssert
  split
  · exact outcomeAgrees_same rfl rfl
  · exact outcomeAgrees_refresh _ _

theorem outcomeAgrees_dropout (e : EntryNo) (s : State) : OutcomeAgrees s (execDropout e s) := by
  unfold execDropout
  split
  · exact outcomeAgrees_same rfl rfl
  · split
    · split
      · exact outcomeAgrees_same rfl rfl
      · exact outcomeAgrees_refresh _ _
    · exact outcomeAgrees_same rfl rfl

/-! ### Every command -/

theorem outcomeAgrees_exec (c : Instr) (s : State) : OutcomeAgrees s (exec c s) := by
  cases c with
  | powerOn b => exact outcomeAgrees_powerOn b s
  | nop more => exact outcomeAgrees_nop s more
  | ack sources more => exact outcomeAgrees_ack sources s more
  | badCheckMessage bytes => exact outcomeAgrees_badCheckMessage bytes s
  | unknownRequest bytes => exact outcomeAgrees_unknownRequest bytes s
  | tooSoonTransaction bytes => exact outcomeAgrees_tooSoonTransaction bytes s
  | turnaroundEnd => exact outcomeAgrees_same rfl rfl
  | readCounts | readEntry | readSegment | readTunnel | readNode | readDemand | readAttention =>
    unfold exec
    exact outcomeAgrees_portRead _ _ s
  | mode | setParam | setAttention | ackNode | admitRack | retire | restore | clearTable | defineSegment | segmentHold
  | segmentRelease | stepGate | clearStranger | defineTunnel | clearTunnelFault | defineNode | linkReset | steer =>
    unfold exec
    exact outcomeAgrees_portDo _ _ s
  | clearJam src | resume src | lookup src | send src | claim src | unloadDone src | rewash src | release src | hold src
  | unhold src | forceRelease src =>
    exact outcomeAgrees_rackCommand _ src _ s
  | roundStart => exact outcomeAgrees_roundStart s
  | headerSent => exact outcomeAgrees_headerSent s
  | roundEnd => exact outcomeAgrees_roundEnd s
  | sightingWindowRunOut seg => exact outcomeAgrees_windowRunsOut seg s
  | windowEnd node seen => exact outcomeAgrees_windowEnd node seen s
  | validReply window branch reply => exact outcomeAgrees_validReply window branch reply s
  | branchWake branch => exact outcomeAgrees_branchWake branch s
  | resetPulseEnd => exact outcomeAgrees_resetPulseEnd s
  | eyeBlock input => exact outcomeAgrees_eyeBlock input s
  | eyeClear input => exact outcomeAgrees_eyeClear input s
  | gateOpen seg => exact outcomeAgrees_gateOpen seg s
  | jam seg => exact outcomeAgrees_jam seg s
  | safeStop asserted => exact outcomeAgrees_safeStop asserted s
  | secondsTick => exact outcomeAgrees_refresh s _
  | stale entry => exact outcomeAgrees_stale entry s
  | promotion node kind => exact outcomeAgrees_promotion node kind s
  | autoQuiet => exact outcomeAgrees_autoQuiet s
  | paceTick => exact outcomeAgrees_paceTick s
  | paceCounterZero => exact outcomeAgrees_paceCounterZero s
  | encoderCount => exact outcomeAgrees_done s _ _
  | pitchReached => exact outcomeAgrees_same rfl rfl
  | exitEyeBlock => exact outcomeAgrees_exitEyeBlock s
  | exitEyeClear => exact outcomeAgrees_same rfl rfl
  | machineLineChange line asserted => exact outcomeAgrees_machineLineChange line asserted s
  | rinseOkAssert => exact outcomeAgrees_rinseOkAssert s
  | rinseOkDeassert => exact outcomeAgrees_same rfl rfl
  | dropout entry => exact outcomeAgrees_dropout entry s
  | dwellMillisecond => exact outcomeAgrees_refresh s _

/-- Every step: a command, a step of the controller's own, a millisecond. -/
theorem outcomeAgrees_step (s : State) : OutcomeAgrees s (step s) := by
  unfold step
  split
  · exact fun h => outcomeAgrees_exec _ _ h
  split
  · exact outcomeAgrees_exec _ s
  · exact outcomeAgrees_refresh s _

end Sys2Proof.Machine

/-- Settles O4: every command keeps the lines at the levels of the state. -/
theorem outputsFollowState : Obligations.OutputsFollowState := fun s t h stepped =>
  have agree := outcomeAgrees_step s h t stepped
  ⟨agree, lineLevels_of_agree agree⟩
end

section
/-! PROOF. A step on an empty queue, power-on, and the requests of the port that set a field of their own: parameters, segment
holds, segment definitions (R28, R49, R50, R53, R54, R85, R188, R193). -/

open Sys2Proof Sys2Proof.Machine

namespace Sys2Proof.Machine

/-! ### The empty queue -/

theorem millisecond_seg (s : State) (n : SegNo) : s.millisecond.seg? n =
    if s.stopLatch then s.seg? n else (s.seg? n).map Segment.millisecond := by
  unfold State.millisecond State.seg?
  cases s.stopLatch <;> simp [Vector.get]

theorem tickTimerRuns_iff (s : State) :
    s.tickTimerRuns = true ↔ s.tunnel.machineRun = true ∧ s.tunnel.pace ≠ 0 ∧ s.mode ≠ .quiet := by
  simp [State.tickTimerRuns, and_assoc]

theorem millisecond_tunnel (s : State) : s.millisecond.tunnel = { s.tunnel with
    tickMs := if s.tunnel.machineRun ∧ s.tunnel.pace ≠ 0 ∧ s.mode ≠ .quiet then s.tunnel.tickMs + 1
      else s.tunnel.tickMs } := by
  simp only [State.millisecond, tickTimerRuns_iff]
  split <;> rfl

/-! ### Power-on -/

/-- Right after power-on with SAFE_STOP asserted. -/
def State.stoppedReset (q : List Instr) : State :=
  { State.reset with
    pending := q, safeStop := true, stopLatch := true
    attention := State.reset.attention.set Source14.safetyStop.index { flag := true, enable := false, chain := .high } }

theorem stoppedReset_outputs (q : List Instr) :
    (State.stoppedReset q).outputs = { Outputs.reset with haltRequest := true } := by
  have off : ∀ chain, attentionLine chain (State.stoppedReset q).attention = false := fun chain => by cases chain <;> rfl
  have none : ∀ p, (State.stoppedReset q).segsWhere p = [] := reset_segsWhere
  have line : ∀ owns k, (State.stoppedReset q).line owns k = false := reset_line
  unfold State.outputs
  rw [ofFn_off (line _), ofFn_off (line _), ofFn_off (line _), none, off, off]
  rfl

end Sys2Proof.Machine

/-- Settles O2. -/
theorem stepOnEmptyQueue : Obligations.StepOnEmptyQueue := by
  intro s hp
  refine ⟨fun c hc => by simp only [step, hp, hc],
    fun hn => ⟨s.millisecond.refreshOutputs, by simp only [step, hp, hn], ?_, ?_, ?_⟩⟩
  · have lines := refreshOutputs_out s.millisecond
    have tunnel := millisecond_tunnel s
    rw [← lines]
    simp only [State.refreshOutputs, tunnel]
    rfl
  · exact fun n => (seg_of_segments (refreshOutputs_segments _) n).trans (millisecond_seg s n)
  · rw [refreshOutputs_tunnel, millisecond_tunnel]

/-- Settles O8. -/
theorem powerOnResets : Obligations.PowerOnResets := fun s => by
  refine ⟨rfl, ?_⟩
  rw [← stoppedReset_outputs s.pending]
  rfl

end

section
/-! PROOF. The requests of the port that set one field of the state: parameters, segment holds, segment definitions, and the
refusals of STEP (R28, R42, R49, R52 to R54, R114, R115, R188). -/

open Sys2Proof Sys2Proof.Machine

namespace Sys2Proof.Machine

/-! ### Parameters -/

theorem byteField_eq (n : Nat) : byteField n = [BitVec.ofNat 8 n] := by simp [byteField, bigEndian]

theorem halfField_eq (n : Nat) : halfField n = [BitVec.ofNat 8 (n / 256), BitVec.ofNat 8 n] := by
  simp [halfField, bigEndian]

theorem between_iff {low high v : Nat} : between low high v = true ↔ low ≤ v ∧ v ≤ high := by simp [between]

theorem offOr_iff {low high v : Nat} : offOr low high v = true ↔ v = 0 ∨ low ≤ v ∧ v ≤ high := by simp [offOr]

theorem exec_setParam (s : State) (id : Byte) (v : Half) (more : List Byte) : exec (.setParam id v more) s =
    portDo (.setParam id v more) (fun u => setParamTaken u id v.toNat) s := rfl

/-- A value in range is set, and nothing else (R188). -/
theorem takes_param {s : State} {id : Byte} {v : Half} {more : List Byte} (f : Params → Params) {bytes : List Byte}
    (hp : s.port.turnaround = false)
    (ha : ∀ u : State, u.entries = s.entries → u.params = s.params →
      setParamTaken u id v.toNat = u.withParams (f u.params) bytes) :
    Takes (.setParam id v more) s { s.taken (.setParam id v more) with params := f s.params } fun _ => bytes := by
  obtain ⟨p, i, ht⟩ := taken_eq s (.setParam id v more)
  have ha' := ha (s.taken (.setParam id v more)) (by rw [ht]) (taken_params _ _)
  rw [taken_params] at ha'
  exact takes_of (exec_setParam s id v more) hp ha' rfl

/-- The lowest-numbered entry in circulation whose rewash count is above a limit (R115). -/
theorem aboveLimit_some {s : State} {limit : Nat} {e : EntryNo} {x : Entry} (hx : s.entry? e = some x)
    (ha : x.state ≠ .setAside) (hm : x.state ≠ .missing) (hl : limit < x.rewashes)
    (lowest : ∀ d y, d < e → s.entry? d = some y → y.state = .setAside ∨ y.state = .missing ∨ y.rewashes ≤ limit) :
    s.aboveLimit limit = some e := by
  rw [State.aboveLimit, State.entriesWhere, List.head?_filter, find?_finRange]
  refine ⟨by simp [hx, ha, hm, hl], fun d hd => ?_⟩
  cases hy : s.entry? d with
  | none => rfl
  | some y => obtain h | h | h := lowest d y hd hy <;> simp [h]

theorem aboveLimit_none {s : State} {limit : Nat} (h : ∀ e x, s.entry? e = some x → x.state ≠ .setAside →
    x.state ≠ .missing → x.rewashes ≤ limit) : s.aboveLimit limit = none := by
  rw [State.aboveLimit, State.entriesWhere, List.head?_filter, find?_finRange_none]
  intro e
  cases hx : s.entry? e with
  | none => rfl
  | some x =>
    have := h e x hx
    simp
    tauto

/-- A rewash limit within its range that no entry in circulation exceeds is set (R115, R188). -/
theorem setRewashLimit_taken {s : State} {v : Nat} (hv : v ≤ 3) (h : v < s.params.rewashLimit → s.aboveLimit v = none) :
    setRewashLimit s v = s.withParams { s.params with rewashLimit := v } (byteField v) := by
  have none : (if v < s.params.rewashLimit then s.aboveLimit v else none) = none := by
    split
    · exact h ‹_›
    · rfl
  rw [setRewashLimit, if_neg (by omega), none]

theorem setRewashLimit_occupied {s : State} {v : Nat} {e : EntryNo} (hv : v ≤ 3) (hl : v < s.params.rewashLimit)
    (h : s.aboveLimit v = some e) : setRewashLimit s v = .told .occupied fun _ => byteField e.val := by
  rw [setRewashLimit, if_neg (by omega), if_pos hl, h]

theorem setParamTakes : Says.SetParamTakes := by
  intro s more v hp w two one set
  have hone : one = fun _ => byteField w := funext fun _ => (byteField_eq w).symm
  have htwo : two = fun _ => halfField w := funext fun _ => (halfField_eq w).symm
  rw [hone, htwo]
  refine ⟨fun h h' => ?_, fun h => ?_, fun h => ?_, fun h h' => ?_, fun h => ?_, fun h hold => ?_,
    fun h h' => ?_, fun h => ?_, fun h => ?_⟩
  · exact takes_param (fun p => { p with clearLimit := w }) hp fun u _ _ => if_pos (between_iff.2 ⟨h, h'⟩)
  · exact takes_param (fun p => { p with autoAdmission := w == 1 }) hp fun u _ _ => if_pos h
  · exact takes_param (fun p => { p with staleLimit := w }) hp fun u _ _ => if_pos (offOr_iff.2 h)
  · exact takes_param (fun p => { p with minDwell := w }) hp fun u _ _ => if_pos (between_iff.2 ⟨h, h'⟩)
  · have ha : setParamTaken (s.taken (.setParam 5 v more)) 5 w = _ := if_neg (Nat.not_lt.2 h)
    rw [taken_params] at ha
    exact takes_of (exec_setParam s 5 v more) hp ha (outer_inFinal _ _).port
  · refine takes_param (fun p => { p with rewashLimit := w }) hp fun u he hu => setRewashLimit_taken h fun hl => ?_
    exact aboveLimit_none fun e x hx => hold (hu ▸ hl) e x ((entry_of_entries he e).symm.trans hx)
  · exact takes_param (fun p => { p with roundPeriod := w }) hp fun u _ _ => if_pos (between_iff.2 ⟨h, h'⟩)
  · exact takes_param (fun p => { p with promotionLimit := w }) hp fun u _ _ => if_pos (offOr_iff.2 h)
  · exact takes_param (fun p => { p with idleLimit := w }) hp fun u _ _ => if_pos h

/-- An identifier without a parameter, and a value outside its range (R188). -/
theorem setParamTaken_bad {s : State} {id : Byte} {w : Nat}
    (h : id = 0 ∨ 9 < id.toNat ∨ (id = 1 ∧ (w < 500 ∨ 10000 < w)) ∨ (id = 2 ∧ 1 < w) ∨
      (id = 3 ∧ w ≠ 0 ∧ (w < 60 ∨ 3600 < w)) ∨ (id = 4 ∧ (w < 1000 ∨ 60000 < w)) ∨ (id = 5 ∧ 2000 < w) ∨
      (id = 6 ∧ 3 < w) ∨ (id = 7 ∧ (w < 10 ∨ 50 < w)) ∨ (id = 8 ∧ w ≠ 0 ∧ (w < 10 ∨ 600 < w)) ∨ (id = 9 ∧ 120 < w)) :
    setParamTaken s id w = tell .badRequest := by
  have outside : ∀ {low high}, w < low ∨ high < w → ¬ between low high w = true := fun h => by rw [between_iff]; omega
  have notOff : ∀ {low high}, w ≠ 0 → w < low ∨ high < w → ¬ offOr low high w = true := fun h h' => by
    rw [offOr_iff]; omega
  obtain rfl | h | ⟨rfl, h⟩ | ⟨rfl, h⟩ | ⟨rfl, h0, h⟩ | ⟨rfl, h⟩ | ⟨rfl, h⟩ | ⟨rfl, h⟩ | ⟨rfl, h⟩ | ⟨rfl, h0, h⟩ | ⟨rfl, h⟩ := h
  · rfl
  · unfold setParamTaken
    split
    case h_10 => rfl
    all_goals omega
  · exact if_neg (outside h)
  · exact if_neg (Nat.not_le.2 h)
  · exact if_neg (notOff h0 h)
  · exact if_neg (outside h)
  · exact if_pos h
  · exact if_pos h
  · exact if_neg (outside h)
  · exact if_neg (notOff h0 h)
  · exact if_neg (Nat.not_le.2 h)

theorem setParamRefuses : Says.SetParamRefuses := by
  intro s more id v hp w
  refine ⟨fun h => tellsBad_of (exec_setParam s id v more) hp (setParamTaken_bad h), ?_⟩
  rintro e x rfl hl hv hx ha hm hover lowest
  rw [← byteField_eq]
  have above : (s.taken (.setParam 6 v more)).aboveLimit w = some e :=
    aboveLimit_some ((taken_entry _ _ _).trans hx) ha hm hover fun d y hd hy =>
      lowest d y hd ((taken_entry _ _ _).symm.trans hy)
  exact tells_of (body := fun _ => byteField e.val) (exec_setParam s 6 v more) hp (by decide)
    (setRewashLimit_occupied hv (by rwa [taken_params]) above)

/-! ### Segments named by a byte -/

theorem segOfByte_bad {b : Byte} (h : 31 < b.toNat) : segOfByte b = none := dif_neg (by omega)

theorem onSegment_bad {seg : Byte} (h : 31 < seg.toNat) (act : State → SegNo → Segment → Taken) (s : State) :
    onSegment seg act s = tell .badRequest := by
  rw [onSegment, segOfByte_bad h]

theorem onSegment_none {seg : Byte} {n : SegNo} {s : State} (hn : seg.toNat = n.val) (hg : s.seg? n = none)
    (act : State → SegNo → Segment → Taken) : onSegment seg act s = tell .notFound := by
  simp only [onSegment, segOfByte_of hn, hg]

theorem onSegment_some {seg : Byte} {n : SegNo} {s : State} {g : Segment} (hn : seg.toNat = n.val)
    (hg : s.seg? n = some g) (act : State → SegNo → Segment → Taken) : onSegment seg act s = act s n g := by
  simp only [onSegment, segOfByte_of hn, hg]

/-! ### Segment holds -/

theorem exec_segmentHold (s : State) (seg : Byte) (more : List Byte) : exec (.segmentHold seg more) s =
    portDo (.segmentHold seg more)
      (onSegment seg fun u n _ => .did (u.updSeg n fun g => { g with heldBySupervisor := true }) noBody) s := rfl

theorem exec_segmentRelease (s : State) (seg : Byte) (more : List Byte) : exec (.segmentRelease seg more) s =
    portDo (.segmentRelease seg more)
      (onSegment seg fun u n _ => .did (u.updSeg n fun g => { g with heldBySupervisor := false }) noBody) s := rfl

/-- A change of a segment's own fields by a request that names the segment by a byte. -/
theorem takes_updSeg {s : State} {c : Instr} {seg : Byte} {n : SegNo} {g : Segment} (f : Segment → Segment)
    (he : exec c s = portDo c (onSegment seg fun u n _ => .did (u.updSeg n f) noBody) s)
    (hp : s.port.turnaround = false) (hn : seg.toNat = n.val) (hg : s.seg? n = some g) :
    Takes c s ((s.taken c).putSeg n (some (f g))) fun _ => [] := by
  have hg' : (s.taken c).seg? n = some g := (taken_seg s c n).trans hg
  rw [← updSeg_of hg' f]
  exact takes_of he hp (onSegment_some hn hg' _) rfl

/-! ### Definition of a segment -/

theorem exec_defineSegment (s : State) (number : Byte) (fields : Option RawSegment) (more : List Byte) :
    exec (.defineSegment number fields more) s = portDo (.defineSegment number fields more)
      (fun u =>
        match segOfByte number, fields with
        | none, _ => tell .badRequest
        | some n, none => undefineTaken u n
        | some n, some raw =>
          match segFields raw with
          | none => tell .badRequest
          | some f => defineTaken u n f) s := rfl

/-- What DEFINE_SEGMENT comes to where number and fields lie in their ranges (R53). -/
theorem exec_define {s : State} {number : Byte} {n : SegNo} {raw : RawSegment} {f : SegFields} (more : List Byte)
    (hn : number.toNat = n.val) (hf : segFields raw = some f) : exec (.defineSegment number (some raw) more) s =
      portDo (.defineSegment number (some raw) more) (fun u => defineTaken u n f) s := by
  rw [exec_defineSegment, segOfByte_of hn]
  simp only [hf]

theorem exec_undefine {s : State} {number : Byte} {n : SegNo} (more : List Byte) (hn : number.toNat = n.val) :
    exec (.defineSegment number none more) s = portDo (.defineSegment number none more) (fun u => undefineTaken u n) s := by
  rw [exec_defineSegment, segOfByte_of hn]

/-- A redefinition is refused where the rack queue forbids the kind or the capacity (R54). -/
def Forbids (g : Segment) (f : SegFields) : Prop :=
  (g.queue ≠ [] ∧ g.config.kind ≠ f.kind) ∨ f.capacity < g.queue.length

theorem forbids_iff (g : Segment) (f : SegFields) :
    ((!g.queue.isEmpty && g.config.kind != f.kind) || decide (f.capacity < g.queue.length)) = true ↔ Forbids g f := by
  simp [Forbids]

/-- A definition in its cases (R53, R54). -/
theorem defineTaken_cases {s : State} {n : SegNo} {f : SegFields} :
    (s.mode ≠ .configure → defineTaken s n f = tell .mode) ∧
    (s.mode = .configure →
      (f.consistent n = false → defineTaken s n f = tell .badRequest) ∧
      (f.consistent n = true →
        (s.seg? n = none → defineTaken s n f = .did (s.putSeg n (some (Segment.new f.config))) noBody) ∧
        ∀ g, s.seg? n = some g →
          (Forbids g f → defineTaken s n f = tell .occupied) ∧
          (¬ Forbids g f → defineTaken s n f =
            .did (s.putSeg n (some { g with config := f.config, mergePointer := 31, window := .closed })) noBody))) := by
  refine ⟨fun hm => if_pos hm, fun hm => ⟨fun hc => ?_, fun hc => ⟨fun hg => ?_, fun g hg => ?_⟩⟩⟩
  · rw [defineTaken, if_neg (not_not.2 hm), if_pos hc]
  · rw [defineTaken, if_neg (not_not.2 hm), if_neg (by simp [hc]), hg]
  · rw [defineTaken, if_neg (not_not.2 hm), if_neg (by simp [hc]), hg, ← forbids_iff]
    exact ⟨fun h => if_pos h, fun h => if_neg h⟩

/-- A removal in its cases (R54). -/
theorem undefineTaken_cases {s : State} {n : SegNo} :
    (s.mode ≠ .configure → undefineTaken s n = tell .mode) ∧
    (s.mode = .configure →
      (∀ g, s.seg? n = some g → g.queue ≠ [] → undefineTaken s n = tell .occupied) ∧
      ((∀ g, s.seg? n = some g → g.queue = []) → undefineTaken s n = .did (s.putSeg n none) noBody)) := by
  refine ⟨fun hm => if_pos hm, fun hm => ⟨fun g hg hq => ?_, fun h => ?_⟩⟩
  · rw [undefineTaken, if_neg (not_not.2 hm), if_pos (by simp [hg, hq])]
  · have empty : ¬ (s.seg? n).any (fun g => !g.queue.isEmpty) = true := by
      cases hg : s.seg? n with
      | none => simp
      | some g => simp [h g hg]
    rw [undefineTaken, if_neg (not_not.2 hm), if_neg empty]

theorem defineSegmentTakes : Says.DefineSegmentTakes := by
  intro s more number n hp hn hm
  refine ⟨?_, fun h => ?_⟩
  · intro raw f hf hc c
    have he : exec c s = portDo c (fun u => defineTaken u n f) s := exec_define more hn hf
    obtain ⟨fresh, again⟩ := ((defineTaken_cases (s := s.taken c)).2 ((taken_mode _ _).trans hm)).2 hc
    refine ⟨fun hg => takes_of he hp (fresh ((taken_seg _ _ _).trans hg)) rfl, fun g hg hk hl => ?_⟩
    refine takes_of he hp ((again g ((taken_seg _ _ _).trans hg)).2 ?_) rfl
    rintro (⟨hq, hne⟩ | hover)
    · exact hk.elim hq hne
    · omega
  · refine takes_of (exec_undefine more hn) hp ((undefineTaken_cases.2 ((taken_mode _ _).trans hm)).2 fun g hg => ?_) rfl
    exact h g ((taken_seg _ _ _).symm.trans hg)

theorem defineSegmentRefuses : Says.DefineSegmentRefuses := by
  intro s more number hp
  refine ⟨fun fields h => tellsBad_of (exec_defineSegment s number fields more) hp (by rw [segOfByte_bad h]),
    fun raw h => tellsBad_of (exec_defineSegment s number (some raw) more) hp ?_, fun n hn => ⟨fun hm => ?_, fun hm => ?_⟩⟩
  · cases segOfByte number <;> simp [h]
  · have mode : ∀ c, (s.taken c).mode ≠ .configure := fun c => by rwa [taken_mode]
    exact ⟨tells_plain (exec_undefine more hn) hp (by decide) (undefineTaken_cases.1 (mode _)),
      fun raw f hf => tells_plain (exec_define more hn hf) hp (by decide) (defineTaken_cases.1 (mode _))⟩
  · have mode : ∀ c, (s.taken c).mode = .configure := fun c => (taken_mode s c).trans hm
    have seg : ∀ c {g}, s.seg? n = some g → (s.taken c).seg? n = some g := fun c _ hg => (taken_seg s c n).trans hg
    refine ⟨fun g hg hq => ?_, fun raw f hf => ⟨fun hc => ?_, fun hc g hg hforbids => ?_⟩⟩
    · exact tells_plain (exec_undefine more hn) hp (by decide) ((undefineTaken_cases.2 (mode _)).1 g (seg _ hg) hq)
    · exact tellsBad_of (exec_define more hn hf) hp ((defineTaken_cases.2 (mode _)).1 hc)
    · exact tells_plain (exec_define more hn hf) hp (by decide)
        ((((defineTaken_cases.2 (mode _)).2 hc).2 g (seg _ hg)).1 hforbids)

/-! ### STEP -/

theorem exec_stepGate (s : State) (seg : Byte) (more : List Byte) : exec (.stepGate seg more) s =
    portDo (.stepGate seg more)
      (fun u => if (segOfByte seg).isSome ∧ u.mode ≠ .service then tell .mode else onSegment seg stepTaken u) s := rfl

/-- What STEP comes to in SERVICE at a segment that is defined (R52). -/
theorem exec_stepService {s : State} {seg : Byte} {n : SegNo} {g : Segment} {a : Taken} (more : List Byte)
    (hm : s.mode = .service) (hn : seg.toNat = n.val) (hg : s.seg? n = some g)
    (ha : stepTaken (s.taken (.stepGate seg more)) n g = a) :
    (if (segOfByte seg).isSome ∧ (s.taken (.stepGate seg more)).mode ≠ .service then tell .mode
      else onSegment seg stepTaken (s.taken (.stepGate seg more))) = a := by
  rw [if_neg (by simp [hm]), onSegment_some hn ((taken_seg _ _ _).trans hg), ha]

/-- A release test that fails is the answer of STEP (R52). -/
theorem stepTaken_error {s : State} {g : Segment} {r : Result} (n : SegNo) (ht : g.transfer = none)
    (h : s.releaseTest g = .error r) : stepTaken s n g = tell r := by
  rw [stepTaken, if_neg (by simp [Segment.isOpen, ht]), h]

theorem route_taken (s : State) (c : Instr) (g : Segment) (x : Entry) : (s.taken c).route g x = s.route g x := by
  obtain ⟨p, i, h⟩ := taken_eq s c
  rw [h]
  rfl

theorem carries_taken (s : State) (c : Instr) (x : Entry) (dest : Place) : (s.taken c).carries x dest = s.carries x dest := by
  obtain ⟨p, i, h⟩ := taken_eq s c
  rw [h]
  rfl

theorem tunnelReady_taken (s : State) (c : Instr) : (s.taken c).tunnelReady = s.tunnelReady := by
  obtain ⟨p, i, h⟩ := taken_eq s c
  rw [h]
  rfl

theorem releaseTest_taken (s : State) (c : Instr) (g : Segment) : (s.taken c).releaseTest g = s.releaseTest g := by
  obtain ⟨p, i, h⟩ := taken_eq s c
  rw [h]
  rfl

/-- The head of a segment as the release test finds it (R42). -/
theorem headEntry_of {s : State} {g : Segment} {e : EntryNo} {x : Entry} (hq : g.queue.head? = some e)
    (hx : s.entry? e = some x) : s.headEntry g = some (e, x) := by
  simp [State.headEntry, hq, hx]

section release

variable {s : State} {g : Segment} (hs : s.stopLatch = false) (hj : g.jammed = false)

include hs hj

/-- No head, a head that has not arrived, or one whose sighting is awaited (R42, conditions 4 and 5). -/
theorem releaseTest_notArrived (h : g.queue = [] ∨ g.headArrived = false ∨ g.window ≠ .closed) :
    s.releaseTest g = .error .notArrived := by
  rw [State.releaseTest, if_neg (by simp [hs]), if_neg (by simp [hj])]
  cases hh : s.headEntry g with
  | none => rfl
  | some p =>
    have occupied : g.queue ≠ [] := fun hq => by simp [State.headEntry, hq] at hh
    exact if_pos (by simpa [occupied] using h)

variable {e : EntryNo} {x : Entry} (hq : g.queue.head? = some e) (hx : s.entry? e = some x)
  (ha : g.headArrived = true) (hw : g.window = .closed)

include hq hx ha hw

/-- The release test of an arrived head with no window open: the holds, then the destination (R42). -/
theorem releaseTest_arrived : s.releaseTest g =
    if g.isHeld || x.hold.isSome then .error .held
    else
      match s.route g x with
      | none => .error .noRoute
      | some dest => s.roomFor x dest := by
  rw [State.releaseTest, if_neg (by simp [hs]), if_neg (by simp [hj]), headEntry_of hq hx]
  exact if_neg (by simp [ha, hw])

theorem releaseTest_held (h : g.heldBySupervisor = true ∨ g.stranger ≠ none ∨ x.hold ≠ none) :
    s.releaseTest g = .error .held := by
  rw [releaseTest_arrived hs hj hq hx ha hw]
  exact if_pos (by simpa [Segment.isHeld, Option.isSome_iff_ne_none, or_assoc] using h)

/-- Without a hold the route decides (R42). -/
theorem releaseTest_free (hu : g.heldBySupervisor = false) (hr : g.stranger = none) (hh : x.hold = none) :
    s.releaseTest g =
      match s.route g x with
      | none => .error .noRoute
      | some dest => s.roomFor x dest := by
  rw [releaseTest_arrived hs hj hq hx ha hw]
  exact if_neg (by simp [Segment.isHeld, hu, hr, hh])

end release

theorem roomFor_noSpace {s : State} {x : Entry} {d : SegNo} {h : Segment} (hd : s.seg? d = some h)
    (hroom : h.jammed = true ∨ (h.freeSpace = 0 ∧ s.carries x (.segment d) = false)) :
    s.roomFor x (.segment d) = .error .noSpace := by
  simp only [State.roomFor, hd]
  exact if_pos (by simpa using hroom)

theorem roomFor_tunnelClosed {s : State} {x : Entry} (h : s.tunnelReady = false) :
    s.roomFor x .tunnel = .error .tunnelClosed :=
  if_neg (by simp [h])

end Sys2Proof.Machine

/-- Settles O17. -/
theorem setParam : Obligations.SetParam := ⟨setParamTakes, setParamRefuses⟩

/-- Settles O25. -/
theorem defineSegment : Obligations.DefineSegment := ⟨defineSegmentTakes, defineSegmentRefuses⟩

/-- Settles O26. -/
theorem segmentHoldAndRelease : Obligations.SegmentHoldAndRelease := by
  intro s more seg hp
  refine ⟨fun h => ?_, fun n hn => ⟨fun hg => ?_, fun g hg => ?_⟩⟩
  · exact ⟨tellsBad_of (exec_segmentHold s seg more) hp (onSegment_bad h _ _),
      tellsBad_of (exec_segmentRelease s seg more) hp (onSegment_bad h _ _)⟩
  · have none : ∀ c, (s.taken c).seg? n = none := fun c => (taken_seg s c n).trans hg
    exact ⟨tells_plain (exec_segmentHold s seg more) hp (by decide) (onSegment_none hn (none _) _),
      tells_plain (exec_segmentRelease s seg more) hp (by decide) (onSegment_none hn (none _) _)⟩
  · exact ⟨takes_updSeg _ (exec_segmentHold s seg more) hp hn hg, takes_updSeg _ (exec_segmentRelease s seg more) hp hn hg⟩

/-- Settles O28, the release conditions in their order. -/
theorem stepRefuses : Obligations.StepRefuses := by
  intro s more seg hp c
  have he := exec_stepGate s seg more
  refine ⟨fun h => tellsBad_of he hp ?_, fun n hn => ⟨fun hm => tells_plain he hp (by decide) ?_,
    fun hm => ⟨fun hg => tells_plain he hp (by decide) ?_, fun g hg => ⟨fun ht => ?_, fun ht => ?_⟩⟩⟩⟩
  · rw [if_neg (by simp [segOfByte_bad h]), onSegment_bad h]
  · exact if_pos ⟨by simp [segOfByte_of hn], by rwa [taken_mode]⟩
  · rw [if_neg (by simp [hm]), onSegment_none hn ((taken_seg _ _ _).trans hg)]
  · exact tells_plain he hp (by decide) (exec_stepService more hm hn hg (if_pos (isOpen_iff.2 ht)))
  have refuses : ∀ {r}, r ≠ .badRequest → s.releaseTest g = .error r → Tells c s r [] := fun hr h =>
    tells_plain he hp hr (exec_stepService more hm hn hg (stepTaken_error n ht ((releaseTest_taken _ _ _).trans h)))
  refine ⟨fun hs => ?_, fun hs hj => ?_, fun hs hj => ⟨fun h => ?_, fun e x hq hx ha hw => ⟨fun h => ?_, fun hu hr hh => ?_⟩⟩⟩
  · exact refuses (by decide) (if_pos hs)
  · exact refuses (by decide) (by rw [State.releaseTest, if_neg (by simp [hs]), if_pos hj])
  · exact refuses (by decide) (releaseTest_notArrived hs hj h)
  · exact refuses (by decide) (releaseTest_held hs hj hq hx ha hw h)
  have free := releaseTest_free hs hj hq hx ha hw hu hr hh
  refine ⟨fun hroute => ?_, fun d h hroute hd hroom => ?_, fun hroute hready => ?_⟩ <;> rw [hroute] at free
  · exact refuses (by decide) free
  · exact refuses (by decide) (free.trans (roomFor_noSpace hd hroom))
  · exact refuses (by decide) (free.trans (roomFor_tunnelClosed hready))
end

section
/-! PROOF. The safety stop (R50, R51, R75), jams (R47, R48, R160) and eye events (R31 to R33, R39, R61, R71). -/

open Sys2Proof Sys2Proof.Machine

namespace Sys2Proof.Machine

/-! ### SAFE_STOP and RESUME -/

theorem safeStopSetsLatch : Says.SafeStopSetsLatch := fun _ => ⟨happens_of rfl, rfl⟩

/-- RESUME from either source, in its cases (R51, R160). -/
theorem carryOut_resume (s : State) (src : Source) :
    (s.safeStop = true → carryOut s src .resume = plain .stopActive) ∧
    (s.safeStop = false → s.stopLatch = false → carryOut s src .resume = plain .done) ∧
    (s.safeStop = false → s.stopLatch = true → carryOut s src .resume = .did s.resume fun _ => none) := by
  refine ⟨fun h => ?_, fun h h' => ?_, fun h h' => ?_⟩ <;> simp [carryOut, h]
  · simp [h']
  · simp [h']

theorem freshenQueue_tunnel (s : State) (q : List EntryNo) : (s.freshenQueue q).tunnel = s.tunnel :=
  forEach_keeps (fun u e => u.updEntry e fun x => { x with staleAge := 0 }) State.tunnel (fun _ _ => rfl) q s

/-- RESUME frees the stale ages of the whole table (R75). -/
theorem resume_eq (s : State) : s.resume = ({ s with stopLatch := false } : State).freshenQueue (List.finRange 128) := rfl

theorem resume_rest (s : State) : s.resume.stopLatch = false ∧ s.resume.segments = s.segments ∧
    s.resume.tunnel = s.tunnel ∧ s.resume.port = s.port := by
  have outer := outer_freshenQueue ({ s with stopLatch := false } : State) (List.finRange 128)
  exact ⟨outer.stopLatch, freshenQueue_segments _ _, freshenQueue_tunnel _ _, outer.port⟩

theorem resume_entry (s : State) (e : EntryNo) :
    s.resume.entry? e = (s.entry? e).map fun x => { x with staleAge := 0 } :=
  (freshenQueue_exact _ _ e).trans (if_pos (List.mem_finRange e))

theorem taken_safeStop (s : State) (c : Instr) : (s.taken c).safeStop = s.safeStop := by
  obtain ⟨p, i, h⟩ := taken_eq s c
  rw [h]

theorem resumeClearsLatch : Says.ResumeClearsLatch := by
  intro s more
  have hq : RackRequest.parse ⟨10, .none, none, none⟩ = some .resume := rfl
  obtain ⟨latch, segments, tunnel, -⟩ := resume_rest s
  refine ⟨fun hp => ?_, ?_, latch, segments, tunnel, resume_entry s⟩
  · obtain ⟨stops, clear, resumes⟩ := carryOut_resume (s.taken (.resume (.supervisor more))) (.supervisor [])
    rw [taken_safeStop] at stops clear resumes
    rw [taken_stopLatch] at clear resumes
    exact ⟨fun h => supervisorTells_of (more := more) rfl hp hq rfl (by decide) (stops h),
      fun h h' => supervisorTells_of (more := more) rfl hp hq rfl (by decide) (clear h h'),
      fun h h' => supervisorTakes_of (more := more) rfl hp hq rfl (resumes h h') (resume_rest _).2.2.2⟩
  · intro m x heard hrole hmode c q
    obtain ⟨stops, clear, resumes⟩ := carryOut_resume (s.requested m q) (.station m)
    rw [requested_safeStop] at stops clear resumes
    rw [requested_stopLatch] at clear resumes
    have hmode' : (s.requested m q).mode ≠ .configure := by rwa [requested_mode]
    have hjudge := judgeStation_of (n := m) (role := x.role) (q := .resume) hmode' (by rw [hrole]; rfl)
    exact ⟨fun h => stationTells_of rfl heard hq (hjudge.trans (stops h)),
      fun h h' => stationTells_of rfl heard hq (hjudge.trans (clear h h')),
      fun h h' => stationTakes_of rfl heard hq (hjudge.trans (resumes h h')) fun _ => rfl⟩

/-! ### JAM -/

theorem eyeBlocked_of {s : State} {n : SegNo} {g : Segment} (hg : s.seg? n = some g) :
    s.eyeBlocked n = s.eyes.get g.config.eye := by
  rw [State.eyeBlocked, hg]

section jam

variable {s : State} {n : SegNo} {g : Segment} {r : Transfer} (hg : s.seg? n = some g) (hr : g.transfer = some r)

include hg

theorem jamSegment_eq : s.jamSegment n =
    ((s.putSeg n (some { g with jammed := true })).endTransfer n).raise .jam := by
  rw [State.jamSegment, updSeg_of hg]

include hr

theorem jamSegment_tunnel (hd : r.dest = .tunnel) :
    s.jamSegment n = (s.putSeg n (some { g with jammed := true, transfer := none })).raise .jam := by
  rw [jamSegment_eq hg, endTransfer_tunnel (g := { g with jammed := true }) (seg_putSeg_self _ _ _) hr hd, putSeg_putSeg]

theorem jamSegment_segment {d : SegNo} {h : Segment} (hd : r.dest = .segment d) (hne : n ≠ d) (hh : s.seg? d = some h) :
    s.jamSegment n = (((s.putSeg n (some { g with jammed := true, transfer := none })).putSeg d (some
      { h with reservedTransfer := if r.carried then h.reservedTransfer else h.reservedTransfer - 1 })).resolveBlocking
        d).raise .jam := by
  have hh' : (s.putSeg n (some { g with jammed := true })).seg? d = some h := by rw [seg_putSeg, if_neg hne, hh]
  rw [jamSegment_eq hg, endTransfer_segment (g := { g with jammed := true }) (seg_putSeg_self _ _ _) hr hd hne hh',
    putSeg_putSeg]

end jam

theorem jamEndsTransfer : Says.JamEndsTransfer := by
  intro s n g r hg hr heye hlatch hself
  let jamming := s.putSeg n (some { g with jammed := true })
  have self : jamming.seg? n = some { g with jammed := true } := seg_putSeg_self _ _ _
  have ne : ∀ {d}, r.dest = .segment d → n ≠ d := fun hd h => hself (h ▸ hd)
  have can : s.canJam n = true := by
    simp [State.canJam, hg, isOpen_iff.2 (by rw [hr]; simp), eyeBlocked_of hg, heye, hlatch]
  refine ⟨s.jamSegment n, happens_of (if_pos can), ?_, fun d h hd hh => ?_, ?_, ?_, jamSegment_tunnel hg hr,
    fun d h hd hh => jamSegment_segment hg hr hd (ne hd) hh⟩
  · rw [jamSegment_eq hg, raise_seg]
    refine endTransfer_seg_self _ self fun t ht => ?_
    obtain rfl : r = t := Option.some.inj (hr.symm.trans ht)
    exact hself
  · rw [jamSegment_eq hg, raise_seg]
    have hh' : jamming.seg? d = some h := by rw [seg_putSeg, if_neg (ne hd), hh]
    obtain ⟨h', dest, queue, -, dispatch, transfer⟩ :=
      endTransfer_dest (g := { g with jammed := true }) self hr hd (ne hd).symm hh'
    exact ⟨h', dest, queue, dispatch, transfer⟩
  · rw [jamSegment_eq hg]
    exact (segsOnly_endTransfer _ _).entries
  · rw [jamSegment_eq hg]
    exact raise_flag _ _

/-! ### CLEAR_JAM -/

theorem jamCleared : Says.JamCleared := by
  intro s n g hg u
  have hu : (s.updSeg n fun k => { k with jammed := false }) = u := updSeg_of hg _
  simp only [State.clearJam, hu, eyeBlocked_of hg]
  refine ⟨fun heye => ?_, fun heye => ⟨fun e ha hh => ?_, fun ha => ?_⟩⟩
  · simp [heye, and_assoc]
  · simp [heye, ha, hh]
  · simp [heye, ha]

/-- CLEAR_JAM from either source, in its cases (R48, R160). -/
theorem carryOut_clearJam (s : State) (src : Source) (n : SegNo) :
    (s.seg? n = none → carryOut s src (.clearJam n) = plain .notFound) ∧
    ∀ g, s.seg? n = some g →
      (g.jammed = false → carryOut s src (.clearJam n) = plain .done) ∧
      (g.jammed = true → carryOut s src (.clearJam n) = .did (s.clearJam n g) fun _ => none) := by
  refine ⟨fun hg => ?_, fun g hg => ⟨fun h => ?_, fun h => ?_⟩⟩ <;> simp [carryOut, *]

theorem clearJamTakes : Says.ClearJamTakes := by
  intro s more seg n hn
  have hq : RackRequest.parse ⟨9, .segment seg, none, none⟩ = some (.clearJam n) := by
    have parsed : RackRequest.parse ⟨9, .segment seg, none, none⟩ = (segOfByte seg).map Request.clearJam := rfl
    rw [parsed, segOfByte_of hn]
    rfl
  refine ⟨fun hp => ?_, ?_⟩
  · intro c
    obtain ⟨undefined, defined⟩ := carryOut_clearJam (s.taken c) (.supervisor []) n
    rw [taken_seg] at undefined defined
    refine ⟨fun hg => supervisorTells_of (more := more) rfl hp hq rfl (by decide) (undefined hg), fun g hg => ?_⟩
    obtain ⟨clear, jammed⟩ := defined g hg
    exact ⟨fun h => supervisorTells_of (more := more) rfl hp hq rfl (by decide) (clear h),
      fun h => supervisorTakes_of (more := more) rfl hp hq rfl (jammed h) (outer_clearJam _ _ _).port⟩
  · intro m x heard hrole hmode c q
    have hmode' : (s.requested m q).mode ≠ .configure := by rwa [requested_mode]
    have hjudge := judgeStation_of (n := m) (role := x.role) (q := .clearJam n) hmode' (by rw [hrole]; rfl)
    obtain ⟨undefined, defined⟩ := carryOut_clearJam (s.requested m q) (.station m) n
    rw [requested_seg] at undefined defined
    refine ⟨fun hg => stationTells_of rfl heard hq (hjudge.trans (undefined hg)), fun g hg => ?_⟩
    obtain ⟨clear, jammed⟩ := defined g hg
    exact ⟨fun h => stationTells_of rfl heard hq (hjudge.trans (clear h)),
      fun h => stationTakes_of rfl heard hq (hjudge.trans (jammed h)) fun _ => rfl⟩

/-! ### EYE_BLOCK -/

theorem eyeBlocks_says : Says.EyeBlocks := by
  refine ⟨fun s i h => if_pos h, fun s i h => happens_of (if_neg (by simp [h])), fun s n g hg => ?_⟩
  simp only [State.eyeBlocks, hg]
  refine ⟨fun hj => if_pos hj, fun hj hq => ?_, fun hj hq => ⟨fun hi => ?_, fun hi => ?_⟩⟩
  · simp [hj, hq]
  · rw [← updSeg_of hg fun k => { k with unresolved := true }]
    simp [hj, hq, hi]
  · simp [hj, hq, hi]

theorem headArrives : Says.HeadArrives := by
  intro s n g e x hg hq hx
  rw [setHeadArrived_put hg hq hx]
  exact arrived_report

/-- STRANGER given without a seen tag (R70, R71). -/
theorem addStranger_made {s : State} {n : SegNo} {g : Segment} (hg : s.seg? n = some g) :
    madeStranger s n g (s.addStranger n none) := by
  refine ⟨?_, fun m hm => ?_, segsOnly_addStranger s n none, ?_, fun a ha => ?_⟩
  · rw [addStranger_seg, if_pos rfl, hg]
    rfl
  · rw [addStranger_seg, if_neg hm.symm]
  · rw [addStranger_eq hg, raiseIf_flag, updSeg_source]
    cases g.stranger <;> simp
  · rw [addStranger_eq hg, raiseIf_source, if_neg fun h => ha h.2.symm, updSeg_source]

theorem untrackedArrivals : Says.UntrackedArrivals := by
  intro s n g hg t
  have ht : t = s.untrackedArrival n := rfl
  simp only [State.untrackedArrival, hg] at ht
  rw [ht]
  refine ⟨fun h => if_pos h, fun hj hm hr => ?_, fun hj hm hr => ?_⟩
  · rw [if_neg (by simp [hj, hm]), if_pos (Option.isSome_iff_ne_none.2 hr), updSeg_of hg]
    rfl
  · rw [if_neg (by simp [hj, hm]), if_neg (by simp [hr])]
    exact addStranger_made hg

theorem blockingResolved : Says.BlockingResolved := by
  intro s n g hg waits
  have cond : (g.unresolved && g.queue.isEmpty && s.eyes.get g.config.eye && !s.inbound n) = true ↔ waits := by
    have none : (!s.inbound n) = true ↔ ∀ m h r, s.seg? m = some h → h.transfer = some r → r.dest ≠ .segment n := by
      rw [Bool.not_eq_true', ← Bool.not_eq_true, inbound_iff]
      push Not
      rfl
    simp only [Bool.and_eq_true, none, List.isEmpty_iff, and_assoc, waits]
  rw [resolveBlocking_eq hg]
  exact ⟨fun h => if_pos (cond.2 h), fun h => if_neg fun hc => h (cond.1 hc)⟩

/-! ### EYE_CLEAR -/

/-- What the clearing of an eye makes of a segment that reads it (R33, R34). -/
theorem eyeClears_cases {s : State} {n : SegNo} {g : Segment} (hg : s.seg? n = some g) :
    let u := s.putSeg n (some g.eyeCleared)
    (g.transfer ≠ none → s.eyeClears n = u.depart n) ∧
    (g.transfer = none →
      (g.jammed = true ∨ g.headArrived = false → s.eyeClears n = u) ∧
      ∀ e, g.jammed = false → g.headArrived = true → g.queue.head? = some e →
        s.eyeClears n = u.declareMissing e .lifted) := by
  intro u
  simp only [State.eyeClears, hg, updSeg_of hg]
  refine ⟨fun ht => if_pos (isOpen_iff.2 ht), fun ht => ?_⟩
  have closed : ¬ g.isOpen = true := fun h => isOpen_iff.1 h ht
  rw [if_neg closed]
  refine ⟨fun h => ?_, fun e hj ha hq => ?_⟩
  · obtain hj | ha := h
    · exact if_pos hj
    · simp [ha, u]
  · simp [hj, ha, hq, u]

end Sys2Proof.Machine

/-- Settles O30. -/
theorem eyeBlocking : Obligations.EyeBlocking := ⟨eyeBlocks_says, headArrives, untrackedArrivals, blockingResolved⟩

/-- Settles O31. -/
theorem eyeClears : Obligations.EyeClears :=
  ⟨fun s i h => if_neg (by simp [h]), fun s i h => happens_of (if_pos h), fun _ _ _ hg => eyeClears_cases hg⟩

/-- Settles O32. -/
theorem jams : Obligations.Jams := ⟨jamEndsTransfer, jamCleared, clearJamTakes⟩

/-- Settles O33. -/
theorem safetyStop : Obligations.SafetyStop := ⟨safeStopSetsLatch, resumeClearsLatch⟩
end

section
/-! PROOF. The opening of a gate (R42, R43, R86) and what it rests on: the routing table (R37, R38), the tunnel entry conditions
(R84) and the arbiter (R46). -/

open Sys2Proof Sys2Proof.Machine

namespace Sys2Proof.Machine

/-! ### What the opening does -/

/-- Segment `d` once a gate that names it as destination has opened (R43). -/
def Segment.awaiting (h : Segment) (n : SegNo) (carried : Bool) : Segment :=
  { h with reservedTransfer := if carried then h.reservedTransfer else h.reservedTransfer + 1, mergePointer := n }

/-- The segments once the gate of `n` has opened toward `dest` (R43). -/
def State.withGateOpen (s : State) (n : SegNo) (g : Segment) (dest : Place) (carried : Bool) : State :=
  let opened := s.putSeg n (some { g with transfer := some ⟨dest, carried, s.params.clearLimit⟩ })
  match dest with
  | .tunnel => opened
  | .segment d => opened.updSeg d fun h => h.awaiting n carried

theorem withGateOpen_only (s : State) (n : SegNo) (g : Segment) (dest : Place) (carried : Bool) :
    SegsOnly s (s.withGateOpen n g dest carried) := by
  cases dest with
  | tunnel => exact segsOnly_putSeg _ _ _
  | segment d => exact (segsOnly_putSeg _ _ _).trans (segsOnly_updSeg _ _ _)

theorem withGateOpen_seg_ne {s : State} {n m : SegNo} {dest : Place} (hd : dest ≠ .segment m) (g : Segment) (carried : Bool) :
    (s.withGateOpen n g dest carried).seg? m =
      if n = m then some { g with transfer := some ⟨dest, carried, s.params.clearLimit⟩ } else s.seg? m := by
  cases dest with
  | tunnel => exact seg_putSeg _ _ _ _
  | segment d =>
    have hne : d ≠ m := fun h => hd (congrArg _ h)
    simp only [State.withGateOpen]
    rw [seg_updSeg, if_neg hne, seg_putSeg]

theorem withGateOpen_dest {s : State} {n d : SegNo} {k : Segment} (hne : n ≠ d) (hk : s.seg? d = some k) (g : Segment)
    (carried : Bool) : (s.withGateOpen n g (.segment d) carried).seg? d = some (k.awaiting n carried) := by
  simp only [State.withGateOpen]
  rw [seg_updSeg, if_pos rfl, seg_putSeg, if_neg hne, hk]
  rfl

/-- The opening of a gate over the segment and the head it opens for (R43). -/
theorem openGate_eq {s : State} {n : SegNo} {g : Segment} {e : EntryNo} {x : Entry} (hg : s.seg? n = some g)
    (hq : g.queue.head? = some e) (hx : s.entry? e = some x) (dest : Place) : s.openGate n dest =
      (if g.config.kind = .entry then
        { s.withGateOpen n g dest (s.carries x dest) with tunnel := s.tunnel.reloadPace }
      else s.withGateOpen n g dest (s.carries x dest)).touchIdle := by
  simp only [State.openGate, hg, headEntry_of hq hx, Option.any_some, updSeg_of hg]
  cases dest <;> rfl

theorem touchIdle_seg (s : State) (n : SegNo) : s.touchIdle.seg? n = s.seg? n := by
  unfold State.touchIdle
  split <;> rfl

theorem openGate_port {s : State} {n : SegNo} {dest : Place} : (s.openGate n dest).port = s.port := by
  unfold State.openGate
  split
  · rfl
  · simp only [touchIdle_port]
    cases dest <;> split <;> rfl

theorem openingOfGate : Says.OpeningOfGate := by
  intro s n g e x dest hg hq hx hself t
  have ht : t = _ := openGate_eq hg hq hx dest
  have only := withGateOpen_only s n g dest (s.carries x dest)
  have seg : ∀ m, t.seg? m = (s.withGateOpen n g dest (s.carries x dest)).seg? m := fun m => by
    rw [ht, touchIdle_seg]
    split <;> rfl
  have tunnel : t.tunnel = if g.config.kind = .entry then s.tunnel.reloadPace else s.tunnel := by
    rw [ht, touchIdle_tunnel, apply_ite State.tunnel, only.tunnel]
  refine ⟨?_, fun d k hd hk => ?_, fun m hm hd => ?_, ?_, fun hk => ?_, fun c hk hc => ?_⟩
  · rw [seg, withGateOpen_seg_ne hself, if_pos rfl]
  · subst hd
    rw [seg, withGateOpen_dest (fun h => hself (congrArg _ h.symm)) hk, Segment.awaiting]
    cases s.carries x (.segment d) <;> rfl
  · rw [seg, withGateOpen_seg_ne hd, if_neg (Ne.symm hm)]
  · rw [ht, touchIdle_entries, apply_ite State.entries, only.entries]
    exact ite_self _
  · rw [tunnel, if_neg hk]
  · rw [tunnel, if_pos hk]
    simp only [Tunnel.reloadPace, hc, trimTick]

/-! ### When a gate opens -/

theorem gateOpens : Says.GateOpens := by
  intro s n g e x dest hm hg ht leaves grant
  have test : s.releaseTest g = .ok dest := releaseTest_ok.2 ⟨e, x, leaves⟩
  have closed : g.isOpen = false := by simp [Segment.isOpen, ht]
  have may : s.mayOpen n = some dest := by
    rw [State.mayOpen, hg]
    simp only [hm, closed, test, and_self, if_true]
    cases dest with
    | tunnel => rfl
    | segment d => exact if_pos (grant d rfl)
  refine happens_of ?_
  show execGateOpen n s = _
  rw [execGateOpen, may]

theorem stepOpensGate : Says.StepOpensGate := by
  intro s more seg n g e x dest hp hm hn hg ht leaves
  have test : (s.taken (.stepGate seg more)).releaseTest g = .ok dest :=
    (releaseTest_taken _ _ _).trans (releaseTest_ok.2 ⟨e, x, leaves⟩)
  have closed : ¬ g.isOpen = true := by simp [Segment.isOpen, ht]
  have taken : stepTaken (s.taken (.stepGate seg more)) n g = .did ((s.taken (.stepGate seg more)).openGate n dest) noBody := by
    rw [stepTaken, if_neg closed, test]
  exact takes_of (exec_stepGate s seg more) hp (exec_stepService more hm hn hg taken) openGate_port

/-! ### The routing table -/

theorem isParkOf_iff {s : State} {d : SegNo} {n : NodeNo} :
    s.isParkOf d n = true ↔ ∃ h, s.seg? d = some h ∧ h.config.kind = .park ∧ h.config.owner = some n := by
  simp [State.isParkOf, Option.any_eq_true]

theorem carries_iff {s : State} {x : Entry} {dest : Place} : s.carries x dest = true ↔
    ∃ d h n, dest = .segment d ∧ s.seg? d = some h ∧ h.config.kind = .park ∧ h.config.owner = some n ∧
      x.assignment = some n := by
  cases dest with
  | tunnel => simp [State.carries]
  | segment d => cases ha : x.assignment <;> simp [State.carries, ha, isParkOf_iff]

theorem routingTable : Says.RoutingTable := by
  intro s g x r next alternate
  have hr : r = s.route g x := rfl
  refine ⟨fun h => ?_, fun h => ?_, fun h => ?_, fun h => ?_, fun h => ?_, fun h => ?_, fun h => ?_, fun h hx => ?_,
    fun dest => carries_iff⟩
  · obtain h | h := h <;> rw [hr, State.route, h] <;> cases x.state <;> rfl
  all_goals rw [hr, State.route, h]
  · cases x.state <;> rfl
  · cases x.state <;> rfl
  · cases x.state <;> rfl
  · cases x.state <;> cases x.assignment <;> rfl
  · cases x.state <;> rfl
  · split <;> simp_all

/-- The alternate of a CLEAN segment takes the head (R38). -/
theorem routeClean_some {s : State} {g h : Segment} {x : Entry} {a : SegNo} (ha : g.config.alternate = some a)
    (hh : s.seg? a = some h) : s.routeClean g x =
      if (∃ n, x.assignment = some n ∧ h.config.kind = .park ∧ h.config.owner = some n ∧ h.jammed = false) ∨
        (x.assignment = none ∧ h.config.kind = .store ∧ h.config.storeKind = some x.tag.kind ∧ 1 ≤ h.freeSpace ∧
          h.jammed = false)
      then some (.segment a) else g.config.successor := by
  simp only [State.routeClean, ha, hh]
  cases x.assignment <;> simp

theorem cleanRouting : Says.CleanRouting := by
  intro s g x hk hx toPark toStore
  have clean : s.route g x = s.routeClean g x := by rw [State.route, hk, hx]
  rw [clean]
  refine ⟨?_, fun none => ?_⟩
  · rintro a (⟨h, n, ha, hh, park, assigned, owner, jammed⟩ | ⟨h, ha, hh, store, unassigned, kind, free, jammed⟩)
    · rw [routeClean_some ha hh, if_pos (.inl ⟨n, assigned, park, owner, jammed⟩)]
    · rw [routeClean_some ha hh, if_pos (.inr ⟨unassigned, store, kind, free, jammed⟩)]
  · cases ha : g.config.alternate with
    | none => rw [State.routeClean, ha]
    | some a =>
      cases hh : s.seg? a with
      | none => simp only [State.routeClean, ha, hh]
      | some h =>
        rw [routeClean_some ha hh, if_neg]
        rintro (⟨n, assigned, park, owner, jammed⟩ | ⟨unassigned, store, kind, free, jammed⟩)
        · exact (none a).1 ⟨h, n, ha, hh, park, assigned, owner, jammed⟩
        · exact (none a).2 ⟨h, ha, hh, store, unassigned, kind, free, jammed⟩

/-! ### The tunnel entry and the arbiter -/

theorem tunnelEntryConditions : Says.TunnelEntryConditions := by
  intro s
  unfold State.tunnelReady
  cases s.tunnel.config <;> simp [and_assoc]

theorem arbiterOrder : Says.ArbiterOrder := fun _ _ _ hd _ => arbiterPick_iff hd

end Sys2Proof.Machine

/-- Settles O27. -/
theorem gateOpening : Obligations.GateOpening :=
  ⟨gateOpens, stepOpensGate, openingOfGate, routingTable, cleanRouting, tunnelEntryConditions, arbiterOrder⟩
end

section
/-! PROOF. The exit eye of the tunnel: a phantom, a normal exit, an overrun (R83, R89 to R92, R109). -/

open Sys2Proof Sys2Proof.Machine

namespace Sys2Proof.Machine

/-! ### Which rack is due -/

theorem dueHead_nil {s : State} (c : TunnelConfig) (hl : s.tunnel.list = []) : s.dueHead c = none := by
  simp [State.dueHead, State.headPosition, hl]

theorem dueHead_cons {s : State} {c : TunnelConfig} {e : EntryNo} {rest : List EntryNo} {x : Entry} {p : PassRecord}
    (hl : s.tunnel.list = e :: rest) (hx : s.entry? e = some x) (hp : x.pass = some p) :
    s.dueHead c = if (s.tunnel.encoder - p.mark).toNat < c.exitDistance - c.exitTolerance then none else some e := by
  have pos : s.headPosition = some (s.tunnel.encoder - p.mark).toNat := by
    simp only [State.headPosition, hl, List.head?_cons, Option.bind_some, hx, hp, Option.map_some, State.position]
  rw [State.dueHead, pos, hl]
  rfl

theorem judgeExit_phantom {s : State} {c : TunnelConfig} (h : s.dueHead c = none) :
    s.judgeExit c = s.tunnelFault .phantom := by
  rw [State.judgeExit, h]

theorem judgeExit_due {s : State} {c : TunnelConfig} {e : EntryNo} {o : SegNo} {g : Segment} (h : s.dueHead c = some e)
    (ho : s.outfeed = some o) (hg : s.seg? o = some g) :
    s.judgeExit c = if g.freeSpace = 0 then s.overrun e o else s.exitTo e o := by
  simp only [State.judgeExit, h, ho, State.freeSpace, hg]

/-! ### A normal exit -/

/-- The state that the exit gives (R90, R109). -/
theorem exitState_cases {x : Entry} {p : PassRecord} (hp : x.pass = some p) (limit : Nat) :
    (∀ dwell m, x.verdict = .pass dwell m → exitState x limit = .cleared) ∧
    ∀ cause dwell m, x.verdict = .fail cause dwell m →
      exitState x limit = if p.overLimit = true ∨ limit < x.rewashes then .setAside else .rewashDue := by
  refine ⟨fun dwell m h => by rw [exitState, h]; rfl, fun cause dwell m h => ?_⟩
  rw [exitState, h]
  simp [Verdict.isFail, hp]

/-- The rack that heads the list leaves it for the tail of OUTFEED (R44, R90). -/
theorem exitTo_eq {s : State} {e : EntryNo} {rest : List EntryNo} {x : Entry} (hl : s.tunnel.list = e :: rest)
    (hx : s.entry? e = some x) (o : SegNo) : s.exitTo e o =
      (({ s with tunnel := { s.tunnel with list := rest } } : State).putEntry e
        (some (x.leaveTunnel o s.params.rewashLimit s.seconds))).appendTo o e := by
  rw [State.exitTo, hl, List.erase_cons_head]
  exact congrArg (fun u => State.appendTo u o e) 
    (updEntry_of (s := { s with tunnel := { s.tunnel with list := rest } }) hx _)

/-! ### An overrun -/

/-- The declaration of the rack that heads the tunnel list (R16, R91). -/
theorem declareMissing_inTunnel {s : State} {e : EntryNo} {x : Entry} (hx : s.entry? e = some x)
    (hl : x.location = some .tunnel) {m : SegNo} {g : Segment} (hg : s.seg? m = some g) (cause : MissingCause) :
    (s.declareMissing e cause).tunnel.list = s.tunnel.list.erase e ∧
    ∃ k, (s.declareMissing e cause).seg? m = some { g with reservedDispatch := k } := by
  refine ⟨?_, ?_⟩
  · rw [declareMissing_tunnel cause hx hl, removeEntry_place hx hl]
    rfl
  · have removed : (s.removeEntry e).seg? m = some g := by
      rw [removeEntry_place hx hl]
      exact hg
    rw [declareMissing_seg cause hx hl, removed]
    exact ⟨_, rfl⟩

/-- JAMMED with the gate closed, and the racks where they were (R47, R91). -/
theorem jamSegment_self {s : State} {n : SegNo} {g : Segment} (hg : s.seg? n = some g) :
    ∃ h, (s.jamSegment n).seg? n = some h ∧ h.jammed = true ∧ h.transfer = none ∧ h.queue = g.queue := by
  obtain ⟨h, hh, queue, -, -, jammed, -, -, closed⟩ :=
    endTransfer_keeps (s.putSeg n (some { g with jammed := true })) (n := n) (seg_putSeg_self _ _ _)
  exact ⟨h, by rw [jamSegment_eq hg, raise_seg, hh], jammed, closed rfl, queue⟩

theorem segsOnly_jamSegment (s : State) (n : SegNo) : SegsOnly s (s.jamSegment n) :=
  ((segsOnly_updSeg _ _ _).trans (segsOnly_endTransfer _ _)).trans (segsOnly_raise _ _)

theorem jamSegment_keepsFlag (s : State) (n : SegNo) (a : Source14) (h : (s.source a).flag = true) :
    ((s.jamSegment n).source a).flag = true :=
  raise_keepsFlag _ _ _ (endTransfer_keepsFlag _ _ _ h)

theorem tunnelFault_keepsFlag (s : State) (cause : FaultCause) (a : Source14) (h : (s.source a).flag = true) :
    ((s.tunnelFault cause).source a).flag = true :=
  raise_keepsFlag _ _ _ h

theorem tunnelFault_latest (s : State) (cause : FaultCause) :
    ∃ l, (s.tunnelFault cause).tunnel.fault = some l ∧ l.latest = cause := by
  refine ⟨FaultLatch.take s.tunnel.fault cause, rfl, ?_⟩
  cases s.tunnel.fault <;> rfl

theorem declareMissing_flag {s : State} {e : EntryNo} {x : Entry} {last : Place} (hx : s.entry? e = some x)
    (hl : x.location = some last) (cause : MissingCause) : ((s.declareMissing e cause).source .missing).flag = true := by
  rw [declareMissing_eq cause hx hl]
  exact raise_flag _ _

/-- What an overrun leaves (R16, R47, R91, R95): the rack MISSING, OUTFEED JAMMED, the fault latched. -/
theorem overrun_leaves {s : State} {e : EntryNo} {x : Entry} {o : SegNo} {g : Segment} (hx : s.entry? e = some x)
    (hl : x.location = some .tunnel) (hg : s.seg? o = some g) :
    (s.overrun e o).tunnel.list = s.tunnel.list.erase e ∧
    (s.overrun e o).entry? e = (s.declareMissing e .overrun).entry? e ∧
    (∃ h, (s.overrun e o).seg? o = some h ∧ h.jammed = true ∧ h.transfer = none ∧ h.queue = g.queue) ∧
    (∃ l, (s.overrun e o).tunnel.fault = some l ∧ l.latest = .overrun) ∧
    ((s.overrun e o).source .missing).flag = true ∧ ((s.overrun e o).source .jam).flag = true ∧
    ((s.overrun e o).source .tunnelFault).flag = true := by
  obtain ⟨list, k, hk⟩ := declareMissing_inTunnel hx hl hg .overrun
  have only := segsOnly_jamSegment (s.declareMissing e .overrun) o
  have missing := declareMissing_flag hx hl .overrun
  unfold State.overrun
  generalize s.declareMissing e .overrun = u at list hk only missing ⊢
  exact ⟨(congrArg Tunnel.list only.tunnel).trans list, only.entry e,
    jamSegment_self (g := { g with reservedDispatch := k }) hk,
    tunnelFault_latest _ _, tunnelFault_keepsFlag _ _ _ (jamSegment_keepsFlag _ _ _ missing),
    tunnelFault_keepsFlag _ _ _ (raise_flag _ _), raise_flag _ _⟩

end Sys2Proof.Machine

/-- Settles O39. -/
theorem exitEyeBlocks : Obligations.ExitEyeBlocks := by
  intro s
  refine ⟨fun h => if_pos h, fun heye => ?_⟩
  intro u
  refine ⟨fun h => ?_, fun c hm hc => ?_⟩
  · show execExitEyeBlock s = _
    rw [execExitEyeBlock, if_neg (by simp [heye])]
    cases hc : s.tunnel.config with
    | none => rfl
    | some c => exact if_pos (h.resolve_right (by simp [hc]))
  have happens : Happens .exitEyeBlock s (u.judgeExit c) := by
    refine happens_of ?_
    show execExitEyeBlock s = _
    rw [execExitEyeBlock, if_neg (by simp [heye])]
    dsimp only
    split
    next c' hc' =>
      obtain rfl : c' = c := Option.some.inj (hc'.symm.trans hc)
      exact if_neg hm
    next none => cases none.symm.trans hc
  refine ⟨fun hl => ?_, fun e rest x p hl hx hp => ⟨fun early => ?_, fun o g due ho hg => ?_⟩⟩
  · rwa [judgeExit_phantom (s := u) (dueHead_nil c hl)] at happens
  · rwa [judgeExit_phantom (s := u) ((dueHead_cons hl hx hp).trans (if_pos early))] at happens
  rw [judgeExit_due (s := u) ((dueHead_cons hl hx hp).trans (if_neg (Nat.not_lt.2 due))) ho hg] at happens
  refine ⟨fun free => ?_, fun full hloc => ?_⟩
  · rw [if_neg (by omega), exitTo_eq (s := u) hl hx] at happens
    let y := x.leaveTunnel o s.params.rewashLimit s.seconds
    let left : State := { s with tunnel := { s.tunnel with exitEye := true, list := rest } }
    have joins : JoinsTail false (left.putEntry e (some y)) _ o g e y := appendTo_joins hg (entry_putEntry_self left e (some y))
    obtain ⟨only, others, h, hh, hqueue, -⟩ := joins.frame
    have entry : ∀ d, _ = if e = d then some y else s.entry? d := fun d => (only.entry d).trans (entry_putEntry _ _ _ _)
    obtain ⟨passed, failed⟩ := exitState_cases hp s.params.rewashLimit
    exact ⟨_, happens, only.tunnel, ⟨h, hh, hqueue⟩, others, fun d hd => (entry d).trans (if_neg hd.symm),
      y, (entry e).trans (if_pos rfl), rfl, rfl, rfl, rfl, rfl, rfl, rfl, rfl, rfl, joins, passed, failed⟩
  · rw [if_pos full] at happens
    obtain ⟨list, entry, outfeed, fault, flags⟩ := overrun_leaves (s := u) hx hloc hg
    have record := entry.trans ((declareMissing_entry u e e x .tunnel .overrun hx hloc).trans (if_pos rfl))
    have left : s.tunnel.list.erase e = rest := by rw [hl, List.erase_cons_head]
    exact ⟨_, happens, list.trans left, ⟨_, record, rfl, rfl, rfl, rfl, rfl⟩, outfeed, fault, flags⟩
end

section
/-! PROOF. MODE where it changes nothing, and the layout checks that decide BAD_LAYOUT (R56, R57, R200 to R202, R204). -/

open Sys2Proof Sys2Proof.Machine

namespace Sys2Proof.Machine

/-! ### The layout checks -/

/-- The list of checks that validation goes through (R56). -/
def layoutChecks (s : State) : List (Nat × Option Offender) :=
  [(1, s.check1), (2, s.check2), (3, s.check3), (4, s.check4), (5, s.check5), (6, s.check6), (7, s.check7),
   (8, s.check8), (9, s.check9), (10, s.check10), (11, s.check11), (12, s.check12), (13, s.check13)]

theorem validate_eq (s : State) : s.validate = (layoutChecks s).findSome? fun c => c.2.map fun o => (c.1, o) := rfl

theorem layoutChecks_meet (s : State) : ∀ c ∈ layoutChecks s, Meets c.2 s c.1 := by
  simp only [layoutChecks, List.forall_mem_cons]
  exact ⟨check1_meets s, check2_meets s, check3_meets s, check4_meets s, check5_meets s, check6_meets s, check7_meets s,
    check8_meets s, check9_meets s, check10_meets s, check11_meets s, check12_meets s, check13_meets s, nofun⟩

theorem layoutChecks_number {s : State} {k : Nat} : (∃ c ∈ layoutChecks s, c.1 = k) ↔ 1 ≤ k ∧ k ≤ 13 := by
  simp only [layoutChecks, List.mem_cons, List.not_mem_nil, or_false, exists_eq_or_imp, exists_eq_left]
  omega

/-- R56 has thirteen checks: a number beyond them asks nothing. -/
theorem numberPasses_beyond {s : State} {k : Nat} (h : ¬ (1 ≤ k ∧ k ≤ 13)) (n : SegNo) : NumberPasses s k n := by
  unfold NumberPasses
  split
  case h_13 => trivial
  all_goals exact absurd (by decide) h

theorem tablePasses_beyond {s : State} {k : Nat} (h : ¬ (1 ≤ k ∧ k ≤ 13)) : TablePasses s k := by
  unfold TablePasses
  split
  case h_5 => trivial
  all_goals exact absurd (by decide) h

theorem checkPasses_beyond {s : State} {k : Nat} (h : ¬ (1 ≤ k ∧ k ≤ 13)) : CheckPasses s k :=
  ⟨tablePasses_beyond h, numberPasses_beyond h⟩

theorem offends_number {s : State} {k : Nat} {o : Offender} (h : Offends s k o) : 1 ≤ k ∧ k ≤ 13 := by
  by_contra hk
  cases o with
  | missingKind kind => exact hk (by rw [h.1]; decide)
  | tunnel => exact hk (by rw [h.1]; decide)
  | node m => exact hk (by rw [h.1]; decide)
  | segment n =>
    obtain ⟨-, ⟨fails, -⟩ | ⟨rfl, -⟩⟩ := h
    · exact fails (numberPasses_beyond hk n)
    · exact hk (by decide)

theorem layoutChecks_spec : Says.LayoutChecks := by
  intro s
  obtain ⟨passes, fails⟩ := firstCheck (layoutChecks s) (layoutChecks_meet s)
    (by simp [layoutChecks])
  have below : ∀ P : Nat → Prop, (∀ c ∈ layoutChecks s, P c.1 → CheckPasses s c.1) ↔ ∀ k, P k → CheckPasses s k := by
    intro P
    refine ⟨fun h k hk => ?_, fun h c _ => h c.1⟩
    by_cases hr : 1 ≤ k ∧ k ≤ 13
    · obtain ⟨c, hc, rfl⟩ := layoutChecks_number.2 hr
      exact h c hc hk
    · exact checkPasses_beyond hr
  refine ⟨by simpa [← validate_eq] using passes.trans (by simpa using below fun _ => True), fun k o => ?_⟩
  rw [validate_eq, fails, below (· < k)]
  exact ⟨fun h => h.2, fun h => ⟨layoutChecks_number.2 (offends_number h.1), h⟩⟩

/-! ### The answers to MODE -/

theorem modeBytes_eq (s : State) : s.modeBytes = modeAnswer s := by
  simp [State.modeBytes, byteField_eq, halfField_eq, modeAnswer]

theorem exec_mode (s : State) (code : Byte) (more : List Byte) : exec (.mode code more) s =
    portDo (.mode code more) (fun u => modeTaken u code) s := rfl

theorem modeAnswer_taken (s : State) (c : Instr) : modeAnswer (s.taken c) = modeAnswer s.touchIdle := by
  unfold State.taken State.touchIdle State.beginTransaction
  dsimp only
  split <;> rfl

theorem reachesEntry_congr {s u : State} (hs : u.segments = s.segments) (fuel : Nat) (n : SegNo) :
    u.reachesEntry fuel n = s.reachesEntry fuel n := by
  induction fuel generalizing n with
  | zero => rfl
  | succ fuel ih =>
    unfold State.reachesEntry
    simp only [State.seg?, hs, ih]

theorem successorPath_congr {s u : State} (hs : u.segments = s.segments) (fuel : Nat) (n : SegNo) :
    u.successorPath fuel n = s.successorPath fuel n := by
  induction fuel generalizing n with
  | zero => rfl
  | succ fuel ih =>
    unfold State.successorPath
    simp only [State.seg?, hs, ih]

/-- Validation reads the segments, the nodes and the tunnel. -/
theorem validate_congr {s u : State} (hs : u.segments = s.segments) (hn : u.nodes = s.nodes) (ht : u.tunnel = s.tunnel) :
    u.validate = s.validate := by
  have h7 : u.check7 = s.check7 := by
    unfold State.check7 State.failing
    simp only [State.seg?, hs, reachesEntry_congr hs]
  have hring : u.oneRing = s.oneRing := by
    unfold State.oneRing State.ofKind State.segsWhere
    simp only [State.seg?, hs, successorPath_congr hs]
  have h10 : u.check10 = s.check10 := by
    unfold State.check10
    rw [hring]
    unfold State.failing State.placeIs State.isKind State.ofKind State.segsWhere
    simp only [State.seg?, hs]
  have tables : u = { s with
      entries := u.entries, freeList := u.freeList, seconds := u.seconds, eyes := u.eyes, stopLatch := u.stopLatch
      safeStop := u.safeStop, link := u.link, answers := u.answers, demand := u.demand, nextOrder := u.nextOrder
      port := u.port, attention := u.attention, mode := u.mode, idle := u.idle, params := u.params, due := u.due
      out := u.out, pending := u.pending } := by
    rw [← hs, ← hn, ← ht]
  unfold State.validate
  rw [h7, h10, tables]
  rfl

theorem validate_taken (s : State) (c : Instr) : (s.taken c).validate = s.validate := by
  obtain ⟨p, i, h⟩ := taken_eq s c
  rw [h]
  exact validate_congr rfl rfl rfl

theorem busyWith_taken (s : State) (c : Instr) : (s.taken c).busyWith = s.busyWith := by
  obtain ⟨p, i, h⟩ := taken_eq s c
  rw [h]
  rfl

/-- MODE told: mode and idle timer, and what the answer adds. -/
theorem mode_tells {s : State} {code : Byte} {more : List Byte} {r : Result} {extra : List Byte}
    (hp : s.port.turnaround = false) (hr : r ≠ .badRequest)
    (ha : modeTaken (s.taken (.mode code more)) code = modeTold r extra) :
    Tells (.mode code more) s r (modeAnswer s.touchIdle ++ extra) := by
  have h := tells_of (exec_mode s code more) hp hr ha
  rwa [modeBytes_eq, modeAnswer_taken] at h

theorem mode_tells_plain {s : State} {code : Byte} {more : List Byte} {r : Result} (hp : s.port.turnaround = false)
    (hr : r ≠ .badRequest) (ha : modeTaken (s.taken (.mode code more)) code = modeTold r []) :
    Tells (.mode code more) s r (modeAnswer s.touchIdle) := by
  have h := mode_tells hp hr ha
  rwa [List.append_nil] at h

theorem modeOfCode_bad {k : Nat} (h : 3 < k) : Mode.ofCode k = none := by
  unfold Mode.ofCode
  split
  case h_5 => rfl
  all_goals exact absurd h (by decide)

@[simp] theorem modeOfCode_code (m : Mode) : Mode.ofCode m.code = some m := by cases m <;> rfl

theorem modeTaken_bad {code : Byte} (h : 3 < code.toNat) (s : State) : modeTaken s code = modeTold .badRequest [] := by
  unfold modeTaken
  rw [modeOfCode_bad h]

theorem modeTaken_code {code : Byte} {m : Mode} (h : code.toNat = m.code) (s : State) : modeTaken s code = modeTo s m := by
  unfold modeTaken
  rw [h, modeOfCode_code]

/-! ### What each request for a mode comes to -/

section
variable {s : State}

theorem modeTo_present {m : Mode} (h : s.mode = m) : modeTo s m = modeTold .done [] := if_pos h

theorem modeTo_configure (h : s.mode ≠ .configure) : modeTo s .configure = unlessBusy s s.enterConfigure := by
  unfold modeTo
  rw [if_neg h]
  cases hm : s.mode with
  | configure => exact absurd hm h
  | run => rfl
  | service => rfl
  | quiet => rfl

theorem modeTo_quiet (h : s.mode = .run) : modeTo s .quiet = unlessBusy s s.enterQuiet := by simp [modeTo, h]

theorem modeTo_run_configure (h : s.mode = .configure) : modeTo s .run = runTaken s := by simp [modeTo, h]

theorem modeTo_run_service (h : s.mode = .service) : modeTo s .run = (s.switchService .run).changed := by simp [modeTo, h]

theorem modeTo_run_quiet (h : s.mode = .quiet) : modeTo s .run = (s.wake false).changed := by simp [modeTo, h]

theorem modeTo_service_run (h : s.mode = .run) : modeTo s .service = (s.switchService .service).changed := by simp [modeTo, h]

theorem modeTo_notAllowed {m : Mode} (h : s.mode = .configure ∧ m = .service ∨ s.mode = .configure ∧ m = .quiet ∨
    s.mode = .service ∧ m = .quiet ∨ s.mode = .quiet ∧ m = .service) : modeTo s m = modeTold .notAllowed [] := by
  rcases h with ⟨h, rfl⟩ | ⟨h, rfl⟩ | ⟨h, rfl⟩ | ⟨h, rfl⟩ <;> simp [modeTo, h]

/-- The lowest-numbered OPEN gate refuses. -/
theorem busyWith_open {n : SegNo} {g : Segment} (hg : s.seg? n = some g) (ht : g.transfer ≠ none)
    (least : ∀ m h, m < n → s.seg? m = some h → h.transfer = none) : s.busyWith = some (.segment n) := by
  have found : s.findSeg Segment.isOpen = some n := by
    refine (head_segsWhere (by simpa [hg] using isOpen_iff.2 ht)).2 fun m h hm hs => ?_
    simp [Segment.isOpen, least m h hm hs]
  unfold State.busyWith
  rw [found]

/-- With no OPEN gate only a rack in the tunnel refuses. -/
theorem busyWith_shut (h : s.anyOpen = false) :
    s.busyWith = if s.tunnel.list.isEmpty then none else some .tunnel := by
  have found : s.findSeg Segment.isOpen = none := by
    rw [State.findSeg, List.head?_eq_none_iff]
    simpa [State.anyOpen] using h
  unfold State.busyWith
  rw [found]

theorem unlessBusy_some {p : Place} (h : s.busyWith = some p) (u : State) :
    unlessBusy s u = modeTold .busy [BitVec.ofNat 8 p.code] := by
  unfold unlessBusy
  rw [h, ← byteField_eq]

theorem unlessBusy_none (h : s.busyWith = none) (u : State) : unlessBusy s u = u.changed := by
  unfold unlessBusy
  rw [h]

/-- A mode that an OPEN gate or a rack in the tunnel refuses (R202, R204). -/
theorem modeTo_busy {m : Mode} (h : s.mode ≠ .configure ∧ m = .configure ∨ s.mode = .run ∧ m = .quiet) {p : Place}
    (hb : s.busyWith = some p) : modeTo s m = modeTold .busy [BitVec.ofNat 8 p.code] := by
  rcases h with ⟨h, rfl⟩ | ⟨h, rfl⟩
  · exact (modeTo_configure h).trans (unlessBusy_some hb _)
  · exact (modeTo_quiet h).trans (unlessBusy_some hb _)

theorem runTaken_bad {k : Nat} {o : Offender} (h : s.validate = some (k, o)) :
    runTaken s = modeTold .badLayout [BitVec.ofNat 8 k, BitVec.ofNat 8 o.code] := by
  unfold runTaken
  simp only [h, byteField_eq, List.singleton_append]

theorem runTaken_ok (h : s.validate = none) : runTaken s = s.leaveConfigure.changed := by
  unfold runTaken
  rw [h]

end

/-- The requests that BUSY can refuse, by code. -/
theorem mode_tells_busy {s : State} {code : Byte} {more : List Byte} (hp : s.port.turnaround = false)
    (h : s.mode ≠ .configure ∧ code = 0 ∨ s.mode = .run ∧ code = 3) {p : Place} (hb : s.busyWith = some p) :
    Tells (.mode code more) s .busy (modeAnswer s.touchIdle ++ [BitVec.ofNat 8 p.code]) := by
  refine mode_tells hp nofun ?_
  have hb' : (s.taken (.mode code more)).busyWith = some p := (busyWith_taken s _).trans hb
  rcases h with ⟨hm, rfl⟩ | ⟨hm, rfl⟩
  · exact (modeTaken_code (m := .configure) rfl _).trans (modeTo_busy (.inl ⟨by simpa using hm, rfl⟩) hb')
  · exact (modeTaken_code (m := .quiet) rfl _).trans (modeTo_busy (.inr ⟨by simpa using hm, rfl⟩) hb')

theorem modeRefused : Says.ModeRefused := by
  intro s more hp
  refine ⟨fun code h => ?_, fun code h => ?_, fun h => ⟨?_, ?_⟩, fun h => ?_, fun h => ?_, fun k o h hv => ?_,
    fun n g code hc hg ht least => mode_tells_busy hp hc (busyWith_open hg ht least), fun code hc ho hl => ?_⟩
  · rw [exec_mode, portDo_bad _ _ _ _ hp (modeTaken_bad h _), modeBytes_eq, List.append_nil]
    rfl
  · exact mode_tells_plain hp nofun ((modeTaken_code h _).trans (modeTo_present (taken_mode s _)))
  · exact mode_tells_plain hp nofun ((modeTaken_code (m := .service) rfl _).trans (modeTo_notAllowed (by simp [h])))
  · exact mode_tells_plain hp nofun ((modeTaken_code (m := .quiet) rfl _).trans (modeTo_notAllowed (by simp [h])))
  · exact mode_tells_plain hp nofun ((modeTaken_code (m := .quiet) rfl _).trans (modeTo_notAllowed (by simp [h])))
  · exact mode_tells_plain hp nofun ((modeTaken_code (m := .service) rfl _).trans (modeTo_notAllowed (by simp [h])))
  · refine mode_tells hp nofun ((modeTaken_code (m := .run) rfl _).trans ((modeTo_run_configure (by simpa using h)).trans ?_))
    exact runTaken_bad ((validate_taken s _).trans hv)
  · refine mode_tells_busy (p := .tunnel) hp hc ((busyWith_shut ho).trans ?_)
    rw [if_neg (by simpa using hl)]

end Sys2Proof.Machine

/-- Settles O60: each request comes to one case of `modeTo`; validation answers the first failing one of thirteen checks. -/
theorem modeRefusals : Obligations.ModeRefusals := ⟨modeRefused, layoutChecks_spec⟩
end

section
/-! PROOF. MODE where it changes the mode (R200 to R204, R206). -/

open Sys2Proof Sys2Proof.Machine

namespace Sys2Proof.Machine

/-! ### The new mode and the link -/

theorem mapRound_steady (p : LinkPhase) : p.mapRound (fun r => { r with steady := r.steady && true }) = p := by
  cases p <;> simp [LinkPhase.mapRound]

theorem mapRound_unsteady (p : LinkPhase) :
    p.mapRound (fun r => { r with steady := r.steady && false }) = unsteady p := by
  cases p <;> simp [LinkPhase.mapRound, unsteady]

/-- RUN and SERVICE leave the round in progress as it is (R62). -/
theorem setMode_steady {m : Mode} (h : m = .run ∨ m = .service) (s : State) : s.setMode m = { s with mode := m } := by
  have hm : (m == Mode.run || m == Mode.service) = true := by simpa using h
  unfold State.setMode State.updRound
  simp only [hm, mapRound_steady]

/-- CONFIGURE and QUIET make the round in progress count for no window (R62). -/
theorem setMode_unsteady {m : Mode} (h : m = .configure ∨ m = .quiet) (s : State) :
    s.setMode m = { s with mode := m, link := { s.link with phase := unsteady s.link.phase } } := by
  have hm : (m == Mode.run || m == Mode.service) = false := by rcases h with rfl | rfl <;> rfl
  unfold State.setMode State.updRound
  simp only [hm, mapRound_unsteady]

theorem unsteady_between {p : LinkPhase} : unsteady p = .between ↔ p = .between := by cases p <;> simp [unsteady]

theorem unsteady_silent {p : LinkPhase} : unsteady p = .silent ↔ p = .silent := by cases p <;> simp [unsteady]

/-- A silent link begins again (R136, R139). -/
def Link.restarted (l : Link) : Link :=
  if l.phase = .silent then
    if l.coldDue then { l with phase := .between } else { l with phase := .between, restart := .warm, restartLeft := 3 }
  else l

theorem restartLink_eq (s : State) : s.restartLink = { s with link := s.link.restarted } := by
  unfold State.restartLink Link.restarted
  repeat' split
  all_goals rfl

/-- How the link goes on after a wake (R206). -/
def Link.resumed (l : Link) : Link :=
  match l.phase with
  | .header _ => { l with restartLeft := 0 }
  | .windows _ => { l with restartLeft := 0 }
  | _ => l.restarted

theorem linkResumes_of {s u : State} (h : u.link = s.link.resumed) : linkResumes s u := by
  unfold linkResumes
  rw [h]
  refine ⟨fun hs hc => ?_, fun hs hc => ?_, ?_, ?_⟩
  · simp [Link.resumed, Link.restarted, hs, hc]
  · simp [Link.resumed, Link.restarted, hs, hc]
  · rintro r (hr | hr) <;> simp [Link.resumed, hr]
  · rintro (hp | hp) <;> simp [Link.resumed, Link.restarted, hp]

/-- A wake in QUIET (R206): RUN, the idle timer at 0, the link resumed. -/
theorem wake_quiet {s : State} (h : s.mode = .quiet) (announce : Bool) :
    s.wake announce = ({ s with mode := .run, idle := 0, link := s.link.resumed } : State).raiseIf announce .modeChange := by
  unfold State.wake
  rw [if_pos h, setMode_steady (.inl rfl), restartLink_eq]
  congr 1
  cases hp : s.link.phase <;> simp [State.endMarks, State.round?, Link.resumed, Link.restarted, hp]

/-! ### SERVICE, QUIET and back -/

/-- A change of mode taken, with mode and idle timer as its answer (R200). -/
theorem mode_takes {s u : State} {code : Byte} {more : List Byte} (hp : s.port.turnaround = false)
    (ha : modeTaken (s.taken (.mode code more)) code = u.changed) (hport : u.port = (s.taken (.mode code more)).port) :
    Takes (.mode code more) s u modeAnswer := by
  have h := takes_of (exec_mode s code more) hp ha hport
  rwa [funext modeBytes_eq] at h

theorem switchService_eq {m : Mode} (h : m = .run ∨ m = .service) (s : State) :
    s.switchService m = { s with mode := m, idle := 0 } := by
  unfold State.switchService
  rw [setMode_steady h]

theorem switchesService : Says.SwitchesService := by
  intro s more hp
  constructor
  · intro hm
    rw [← switchService_eq (.inr rfl)]
    refine mode_takes hp ((modeTaken_code (m := .service) rfl _).trans (modeTo_service_run (by simpa using hm))) ?_
    rw [switchService_eq (.inr rfl)]
  · intro hm
    rw [← switchService_eq (.inl rfl)]
    refine mode_takes hp ((modeTaken_code (m := .run) rfl _).trans (modeTo_run_service (by simpa using hm))) ?_
    rw [switchService_eq (.inl rfl)]

/-- R137, R204: the round in progress becomes the closing round; between two rounds the link is silent at once. -/
theorem enterQuiet_eq (s : State) : s.enterQuiet = { s with
    mode := .quiet
    link := { s.link with phase := if s.link.phase = .between then .silent else unsteady s.link.phase } } := by
  unfold State.enterQuiet
  rw [setMode_unsteady (.inr rfl)]
  dsimp only
  simp only [unsteady_between]
  split <;> rfl

theorem busyWith_free {s : State} (ho : s.anyOpen = false) (hl : s.tunnel.list = []) (c : Instr) :
    (s.taken c).busyWith = none := by
  rw [busyWith_taken, busyWith_shut ho, hl]
  rfl

theorem entersQuiet : Says.EntersQuiet := by
  intro s more hp hm ho hl
  have h := mode_takes (u := (s.taken (.mode 3 more)).enterQuiet) (code := 3) (more := more) hp
    ((modeTaken_code (m := .quiet) rfl _).trans ((modeTo_quiet (by simpa using hm)).trans
      (unlessBusy_none (busyWith_free ho hl _) _))) (by rw [enterQuiet_eq])
  rwa [enterQuiet_eq, taken_link] at h

theorem leavesQuiet : Says.LeavesQuiet := by
  intro s more hp hm
  have woken := wake_quiet ((taken_mode s (.mode 1 more)).trans hm) false
  refine ⟨(s.taken (.mode 1 more)).wake false, mode_takes hp ?_ ?_, ?_, linkResumes_of ?_⟩
  · exact (modeTaken_code (m := .run) rfl _).trans (modeTo_run_quiet (by simpa using hm))
  · rw [woken]
    rfl
  · rw [woken]
    rfl
  · rw [woken, ← taken_link s (.mode 1 more)]
    rfl

/-! ### CONFIGURE -/

theorem modeAnswer_configure {s : State} (hm : s.mode = .configure) (hi : s.idle = 0) : modeAnswer s = [0, 0, 0] := by
  rw [modeAnswer, hm, hi]
  rfl

/-- The state with the mode CONFIGURE, before the assignments are cleared. -/
def State.configuring (s : State) : State :=
  { s with mode := .configure, link := { s.link with phase := unsteady s.link.phase }, demand := [], idle := 0 }

/-- Every window closed and a silent link begun again. -/
theorem closed_and_restarted (s : State) :
    ∃ closed, (s.forEach State.closeWindow (List.finRange 32)).restartLink =
        { s with segments := closed, link := s.link.restarted } ∧
      ∀ n, closed.get n = (s.seg? n).map fun g => { g with window := .closed } := by
  have segs : ∀ n, (s.forEach State.closeWindow (List.finRange 32)).seg? n =
      (s.seg? n).map fun g => { g with window := .closed } := fun n =>
    (closeAll_seg _ s n).trans (if_pos (List.mem_finRange n))
  have rest := closeAll_rest (List.finRange 32) s
  generalize s.forEach State.closeWindow (List.finRange 32) = closed at segs rest
  exact ⟨closed.segments, by rw [restartLink_eq, rest], segs⟩

/-- What entering CONFIGURE comes to, in what the clearing of every assignment is. -/
theorem enterConfigure_eq (s : State) : ∃ u : State, s.enterConfigure = { s.configuring with
      entries := u.entries, segments := u.segments, link := s.configuring.link.restarted } ∧
    (∀ e, u.entry? e = s.configuring.cancelAll.entry? e) ∧
    ∀ n, u.seg? n = (s.configuring.cancelAll.seg? n).map fun g => { g with window := .closed } := by
  have start : s.enterConfigure =
      (s.configuring.cancelAll.forEach State.closeWindow (List.finRange 32)).restartLink := by
    unfold State.enterConfigure
    rw [setMode_unsteady (.inl rfl)]
    rfl
  obtain ⟨-, -, -, -, only, -⟩ := cancelAll_spec s.configuring
  generalize s.configuring.cancelAll = cancelled at start only
  obtain ⟨closed, ends, segs⟩ := closed_and_restarted cancelled
  refine ⟨{ cancelled with segments := closed }, ?_, fun _ => rfl, segs⟩
  rw [start, ends, only]

theorem entersConfigure : Says.EntersConfigure := by
  intro s more hp hm ho hl
  obtain ⟨port, idle, htaken⟩ := taken_eq s (.mode 0 more)
  have act : modeTaken (s.taken (.mode 0 more)) 0 = (s.taken (.mode 0 more)).enterConfigure.changed :=
    (modeTaken_code (m := .configure) rfl _).trans ((modeTo_configure (by simpa using hm)).trans
      (unlessBusy_none (busyWith_free ho hl _) _))
  obtain ⟨u, made, entries, segs⟩ := enterConfigure_eq (s.taken (.mode 0 more))
  obtain ⟨absent, unassigned, assigned, same, -, released⟩ := cancelAll_spec (s.taken (.mode 0 more)).configuring
  rw [made] at act
  generalize (s.taken (.mode 0 more)).configuring.cancelAll = cancelled at *
  have entry0 : ∀ e, (s.taken (.mode 0 more)).configuring.entry? e = s.entry? e := taken_entry s _
  have seg0 : ∀ n, (s.taken (.mode 0 more)).configuring.seg? n = s.seg? n := taken_seg s _
  have link0 : (s.taken (.mode 0 more)).configuring.link = { s.link with phase := unsteady s.link.phase } := by
    rw [htaken]
    rfl
  have entriesEq : (s.taken (.mode 0 more)).configuring.entries = s.entries := by rw [htaken]; rfl
  have segmentsEq : (s.taken (.mode 0 more)).configuring.segments = s.segments := by rw [htaken]; rfl
  have shut : (s.taken (.mode 0 more)).configuring.anyOpen = false := by rw [htaken]; exact ho
  have left : ∀ n g, s.seg? n = some g → ∃ h, u.seg? n = some h ∧
      h = { g with window := .closed, reservedDispatch := h.reservedDispatch } ∧ ParkReleased s n g h fun _ => true := by
    intro n g hg
    obtain ⟨h, hh, parks, fields⟩ := released n g ((seg0 n).trans hg)
    refine ⟨{ h with window := .closed }, by rw [segs, hh]; rfl, ?_, (parkReleased_congr entriesEq segmentsEq).1 parks⟩
    rw [fields shut]
  refine ⟨_, takesAlone_of (exec_mode s 0 more) hp act rfl
      ((modeBytes_eq _).trans (modeAnswer_configure rfl rfl)) rfl ?_ (.inr rfl), ?_,
    fun e he => (entries e).trans (absent e ((entry0 e).trans he)), fun n hn => ?_, fun e x hx => ?_, left,
    fun hs => ?_, fun hs hc => ?_, fun hs hc => ?_⟩
  · intro n g h hg hh hx
    obtain ⟨h', hh', fields, -⟩ := left n g hg
    obtain rfl : h' = h := Option.some.inj (hh'.symm.trans hh)
    rw [fields]
    exact hx
  · rfl
  · refine (segs n).trans (Option.map_eq_none_iff.2 ?_)
    have := same n
    rw [seg0, hn] at this
    exact Option.map_eq_none_iff.1 this
  · change ∃ y, u.entry? e = some y ∧ _
    rw [entries]
    by_cases ha : x.assignment = none
    · exact ⟨x, unassigned e x ((entry0 e).trans hx) ha, fun _ => rfl, fun h => absurd ha h⟩
    · obtain ⟨y, hy, cleared⟩ := assigned e x ((entry0 e).trans hx) ha
      exact ⟨y, hy, fun h => absurd h ha, fun _ => (cancelled_congr2 segmentsEq).1 cleared⟩
  · refine (congrArg Link.restarted link0).trans ?_
    rw [Link.restarted, if_neg (by simpa only [unsteady_silent] using hs)]
  · refine (congrArg Link.restarted link0).trans ?_
    simp [Link.restarted, unsteady, hs, hc]
  · refine (congrArg Link.restarted link0).trans ?_
    simp [Link.restarted, unsteady, hs, hc]

/-! ### The return to RUN -/

theorem putSeg_same {s : State} {n : SegNo} {g : Segment} (hg : s.seg? n = some g) : s.putSeg n (some g) = s := by
  have kept : s.segments.set n (some g) = s.segments := by
    rw [← hg]
    exact Vector.set_getElem_self n.isLt
  rw [State.putSeg, kept]

/-- An untracked arrival outside CONFIGURE at a segment without a STRANGER (R71). -/
theorem untrackedArrival_eq {s : State} {n : SegNo} {g : Segment} (hg : s.seg? n = some g) (hm : s.mode ≠ .configure)
    (hj : g.jammed = false) (hs : g.stranger = none) : s.untrackedArrival n =
      if g.config.reader = none then
        (s.putSeg n (some { g with stranger := some ⟨none, none, []⟩, headArrived := false, window := .closed })).raise
          .stranger
      else s.putSeg n (some { g with window := .untracked 2 s.round?.isSome, unresolved := false }) := by
  simp only [State.untrackedArrival, hg]
  rw [if_neg (by simp [hj, hm])]
  by_cases hr : g.config.reader = none
  · rw [if_neg (by simp [hr]), if_pos hr, addStranger_eq hg, updSeg_of hg, hs]
    simp only [Segment.giveStranger, Segment.strangerTags, hs]
    rfl
  · rw [if_pos (Option.isSome_iff_ne_none.2 hr), if_neg hr, updSeg_of hg]
    rfl

/-- Whether the examination of a segment at the return to RUN makes a STRANGER there. -/
def madeStrange (s : State) (n : SegNo) (g : Segment) : Bool :=
  g.stranger.isNone && (examinedSegment s n g).stranger.isSome

/-- The state with a segment as its examination leaves it, STRANGER raised where one is made (R78, R201). -/
def State.examined (s : State) (n : SegNo) (g : Segment) : State :=
  (s.putSeg n (some (examinedSegment s n g))).raiseIf (madeStrange s n g) .stranger

section examine

variable {s : State} {n : SegNo} {g : Segment}

theorem examined_windowed {h : Segment} (he : examinedSegment s n g = h) (hs : h.stranger = g.stranger) :
    s.examined n g = s.putSeg n (some h) := by
  have none_made : madeStrange s n g = false := by
    rw [madeStrange, he, hs]
    cases g.stranger <;> rfl
  rw [State.examined, none_made, he]
  rfl

variable (hg : s.seg? n = some g)

include hg

theorem examined_untouched (he : examinedSegment s n g = g) : s.examined n g = s :=
  (examined_windowed he rfl).trans (putSeg_same hg)

/-- A blocked eye at an empty segment (R71, R78). -/
theorem examine_empty (hm : s.mode ≠ .configure) (heye : s.eyes.get g.config.eye = true) (hq : g.queue = []) :
    (if !s.inbound n && !g.stranger.isSome then s.untrackedArrival n else s) = s.examined n g := by
  by_cases free : g.stranger = none ∧ s.inbound n = false ∧ g.jammed = false
  · obtain ⟨hs, hi, hj⟩ := free
    rw [if_pos (by simp [hs, hi]), untrackedArrival_eq hg hm hj hs]
    by_cases hr : g.config.reader = none
    · have made : examinedSegment s n g =
          { g with stranger := some ⟨none, none, []⟩, headArrived := false, window := .closed } := by
        simp [examinedSegment, heye, hq, hs, hi, hj, hr]
      rw [State.examined, madeStrange, made, hs, if_pos hr]
      rfl
    · have made : examinedSegment s n g = { g with window := .untracked 2 s.round?.isSome, unresolved := false } := by
        simp [examinedSegment, heye, hq, hs, hi, hj, hr]
      rw [if_neg hr, examined_windowed made rfl]
  · rw [examined_untouched hg (by simp only [examinedSegment, heye, hq]; rw [if_neg (by simp), if_neg free])]
    split
    next h =>
      simp only [Bool.and_eq_true, Bool.not_eq_true', Option.isSome_eq_false_iff, Option.isNone_iff_eq_none] at h
      have hj : g.jammed = true := by
        by_contra hj
        exact free ⟨h.2, h.1, by simpa using hj⟩
      simp [State.untrackedArrival, hg, hj]
    next => rfl

/-- A blocked eye at a segment with a head (R61, R78). -/
theorem examine_head {e : EntryNo} {rest : List EntryNo} (heye : s.eyes.get g.config.eye = true) (hq : g.queue = e :: rest) :
    (if g.config.reader.isSome && g.headArrived && !(s.entry? e).any (·.placed) then
      s.updSeg n fun g => { g with window := .head Config.windowRounds e s.round?.isSome }
    else s) = s.examined n g := by
  have placed : (!(s.entry? e).any (·.placed)) = true ↔ ∀ x, s.entry? e = some x → x.placed = false := by
    cases s.entry? e <;> simp
  by_cases waits : g.config.reader ≠ none ∧ g.headArrived = true ∧ ∀ x, s.entry? e = some x → x.placed = false
  · obtain ⟨hr, ha, hp⟩ := waits
    have made : examinedSegment s n g = { g with window := .head 2 e s.round?.isSome } := by
      simp only [examinedSegment, heye, hq]
      rw [if_neg (by simp), if_pos ⟨hr, ha, hp⟩]
    rw [examined_windowed made rfl, if_pos (by rw [Option.isSome_iff_ne_none.2 hr, ha, placed.2 hp]; rfl), updSeg_of hg]
    rfl
  · rw [examined_untouched hg (by simp only [examinedSegment, heye, hq]; rw [if_neg (by simp), if_neg waits]),
      if_neg fun h => waits ?_]
    simpa only [Bool.and_eq_true, placed, Option.isSome_iff_ne_none, and_assoc] using h

/-- What the examination of a segment comes to. -/
theorem examine_eq (hm : s.mode ≠ .configure) : s.examine n = s.examined n g := by
  unfold State.examine
  rw [hg]
  dsimp only
  rw [eyeBlocked_of hg]
  cases heye : s.eyes.get g.config.eye with
  | false => exact (examined_untouched hg (by simp [examinedSegment, heye])).symm
  | true =>
    cases hq : g.queue with
    | nil => exact examine_empty hg hm heye hq
    | cons e rest => exact examine_head hg heye hq

end examine

theorem examine_absent {s : State} {n : SegNo} (hn : s.seg? n = none) : s.examine n = s := by
  unfold State.examine
  rw [hn]

theorem examinedSegment_belt (s : State) (n : SegNo) (g : Segment) : (examinedSegment s n g).belt = g.belt := by
  unfold examinedSegment
  repeat' split
  all_goals rfl

theorem SameBelt.inbound_of {s t : State} (h : SameBelt s t) {n : SegNo} (hi : s.inbound n = true) : t.inbound n = true := by
  obtain ⟨m, g, r, hg, hr, hd⟩ := inbound_iff.1 hi
  obtain ⟨k, hk, belt⟩ := h.some hg
  obtain ⟨-, -, -, -, -, -, transfer⟩ := belt_fields belt
  exact inbound_iff.2 ⟨m, k, r, hk, transfer.trans hr, hd⟩

theorem SameBelt.inbound {s t : State} (h : SameBelt s t) (n : SegNo) : t.inbound n = s.inbound n := by
  have back : SameBelt t s := fun m => (h m).symm
  exact Bool.eq_iff_iff.2 ⟨back.inbound_of, h.inbound_of⟩

/-- What the examination of a segment reads beside it. -/
theorem examinedSegment_congr {s t : State} (only : SegsOnly s t) (belt : SameBelt s t) (n : SegNo) :
    examinedSegment t n = examinedSegment s n := by
  funext g
  have inbound := belt.inbound n
  have eyes : t.eyes = s.eyes := by rw [only]
  have round : t.round? = s.round? := by rw [only]; rfl
  have entry : ∀ e, t.entry? e = s.entry? e := by rw [only]; exact fun _ => rfl
  unfold examinedSegment
  simp only [inbound, eyes, round, entry]

/-- `t` is `s` with the segments of a list examined. -/
structure Examined (s : State) (l : List SegNo) (t : State) : Prop where
  only : SegsOnly s t
  belt : SameBelt s t
  seg : ∀ n, t.seg? n = if n ∈ l then (s.seg? n).map (examinedSegment s n) else s.seg? n
  source : ∀ a, a ≠ .stranger → t.source a = s.source a
  flag : (t.source .stranger).flag = true ↔
    (s.source .stranger).flag = true ∨ ∃ n ∈ l, ∃ g, s.seg? n = some g ∧ madeStrange s n g = true

theorem examined_one {s : State} (hm : s.mode ≠ .configure) (n : SegNo) : Examined s [n] (s.examine n) := by
  cases hg : s.seg? n with
  | none =>
    rw [examine_absent hg]
    refine ⟨.refl s, .refl s, fun m => ?_, fun _ _ => rfl, ?_⟩
    · split
      next hm => rw [List.mem_singleton.1 hm, hg]; rfl
      next => rfl
    · simp [hg]
  | some g =>
    rw [examine_eq hg hm]
    have seg : ∀ m, (s.examined n g).seg? m = if n = m then some (examinedSegment s n g) else s.seg? m := fun m => by
      rw [State.examined, raiseIf_seg, seg_putSeg]
    refine ⟨(segsOnly_putSeg s n _).trans (segsOnly_raiseIf _ _ _), fun m => ?_, fun m => ?_, fun a ha => ?_, ?_⟩
    · rw [seg]
      split
      next h => rw [← h, hg]; exact congrArg some (examinedSegment_belt s n g)
      next => rfl
    · rw [seg]
      by_cases h : n = m
      · rw [if_pos h, ← h, if_pos (List.mem_singleton.2 rfl), hg]
        rfl
      · rw [if_neg h, if_neg fun k => h (List.mem_singleton.1 k).symm]
    · rw [State.examined, raiseIf_source, if_neg fun h => ha h.2.symm, putSeg_source]
    · rw [State.examined, raiseIf_flag, putSeg_source]
      simp [hg]

theorem Examined.cons {s t u : State} {n : SegNo} {l : List SegNo} (hn : n ∉ l) (h : Examined s [n] t)
    (k : Examined t l u) : Examined s (n :: l) u := by
  have same := examinedSegment_congr h.only h.belt
  have others : ∀ m ∈ l, t.seg? m = s.seg? m := fun m hm =>
    (h.seg m).trans (if_neg fun e => hn ((List.mem_singleton.1 e : m = n) ▸ hm))
  have strange : ∀ m g, madeStrange t m g = madeStrange s m g := fun m g => by rw [madeStrange, same, madeStrange]
  refine ⟨h.only.trans k.only, h.belt.trans k.belt, fun m => ?_, fun a ha => (k.source a ha).trans (h.source a ha), ?_⟩
  · rw [k.seg m, same]
    by_cases hm : m ∈ l
    · rw [if_pos hm, if_pos (List.mem_cons_of_mem n hm), others m hm]
    · rw [if_neg hm, h.seg m]
      simp [hm]
  · rw [k.flag, h.flag, or_assoc]
    refine or_congr_right ⟨?_, ?_⟩
    · rintro (⟨m, hm, g, hg, made⟩ | ⟨m, hm, g, hg, made⟩)
      · exact ⟨m, List.mem_singleton.1 hm ▸ List.mem_cons_self, g, hg, made⟩
      · exact ⟨m, List.mem_cons_of_mem n hm, g, (others m hm) ▸ hg, strange m g ▸ made⟩
    · rintro ⟨m, hm, g, hg, made⟩
      rcases List.mem_cons.1 hm with rfl | hm
      · exact .inl ⟨m, List.mem_singleton.2 rfl, g, hg, made⟩
      · exact .inr ⟨m, hm, g, (others m hm).trans hg, (strange m g).trans made⟩

theorem examined_each {l : List SegNo} (hl : l.Nodup) :
    ∀ {s : State}, s.mode ≠ .configure → Examined s l (s.forEach State.examine l) := by
  induction l with
  | nil => exact fun {s} _ => ⟨.refl s, .refl s, fun _ => rfl, fun _ _ => rfl, by simp [State.forEach]⟩
  | cons n l ih =>
    intro s hm
    obtain ⟨hn, hl⟩ := List.nodup_cons.1 hl
    have one := examined_one hm n
    have mode : (s.examine n).mode = s.mode := by rw [one.only]
    exact one.cons hn (ih hl (mode.symm ▸ hm))

theorem leavesConfigure : Says.LeavesConfigure := by
  intro s more hp hm hv
  let base : State := { s.taken (.mode 1 more) with mode := .run, idle := 0 }
  have all : Examined base (List.finRange 32) (s.taken (.mode 1 more)).leaveConfigure := by
    unfold State.leaveConfigure
    rw [setMode_steady (.inl rfl)]
    exact examined_each (List.nodup_finRange 32) nofun
  have same : ∀ n, examinedSegment base n = examinedSegment s n := by
    obtain ⟨port, idle, htaken⟩ := taken_eq s (.mode 1 more)
    intro n
    simp only [base]
    rw [htaken]
    rfl
  have sources : ∀ a, base.source a = s.source a := by
    obtain ⟨port, idle, htaken⟩ := taken_eq s (.mode 1 more)
    intro a
    simp only [base]
    rw [htaken]
    rfl
  have segs : ∀ n, base.seg? n = s.seg? n := taken_seg s _
  refine ⟨(s.taken (.mode 1 more)).leaveConfigure, mode_takes hp ?_ ?_, all.only, fun n => ?_, fun a ha => ?_, ?_⟩
  · exact (modeTaken_code (m := .run) rfl _).trans ((modeTo_run_configure (by simpa using hm)).trans
      (runTaken_ok ((validate_taken s _).trans hv)))
  · rw [all.only]
  · rw [all.seg n, if_pos (List.mem_finRange n), same, segs]
  · rw [all.source a ha, sources]
  · rw [all.flag, sources]
    simp only [madeStrange, same, segs, Bool.and_eq_true, Option.isNone_iff_eq_none, Option.isSome_iff_ne_none, ne_eq,
      List.mem_finRange, true_and]

end Sys2Proof.Machine

/-- Settles O59: `wake_quiet`, `enterQuiet_eq`, `enterConfigure_eq` and `examined_each` say what each change of mode does. -/
theorem modeChanges : Obligations.ModeChanges :=
  ⟨leavesConfigure, switchesService, entersQuiet, leavesQuiet, entersConfigure⟩
end

section
/-! PROOF. LINK_RESET, the end of its pulse, and a wake of a branch (R135, R136, R138). -/

open Sys2Proof Sys2Proof.Machine

namespace Sys2Proof.Machine

theorem mapWindows_seg (s : State) (f : Window → Window) (n : SegNo) :
    (s.mapWindows f).seg? n = (s.seg? n).map fun g => { g with window := f g.window } := by
  simp [State.mapWindows, State.seg?, Vector.get_eq_getElem]

theorem taken_idle (s : State) (c : Instr) : (s.taken c).mode = .quiet ∨ (s.taken c).idle = 0 := by
  unfold State.taken State.touchIdle
  split
  next h => exact .inl h
  next => exact .inr rfl

/-- An entry after the claims that meet a condition are dropped (R131). -/
def Entry.unclaimedBy (p : NodeNo → Bool) (x : Entry) : Entry := if x.claim.any p then x.unclaim else x

theorem unclaimedBy_claimed {p : NodeNo → Bool} {x : Entry} {n : NodeNo} (hc : x.claim = some n) (hp : p n = true) :
    x.unclaimedBy p = x.unclaim := if_pos (by rw [hc]; exact hp)

theorem unclaimedBy_other {p : NodeNo → Bool} {x : Entry} (h : ∀ n, x.claim = some n → p n = false) :
    x.unclaimedBy p = x := by
  refine if_neg ?_
  cases hc : x.claim with
  | none => simp
  | some n => simp [h n hc]

theorem unclaimed_entry (s : State) (p : NodeNo → Bool) (e : EntryNo) :
    (s.dropClaims p).entry? e = (s.entry? e).map (Entry.unclaimedBy p) := dropClaims_entry s p e

/-- The state with the link reset, before the claims and assignments are cleared (R135). -/
def State.linkCut (s : State) : State :=
  { s with nodes := s.nodes.map (Option.map Node.afterReset), link := s.link.afterReset, answers := [], demand := [] }

theorem linkCut_node (s : State) (n : NodeNo) : s.linkCut.node? n = (s.node? n).map Node.afterReset := by
  simp [State.linkCut, State.node?, Vector.get_eq_getElem]

theorem linkCut_sameTables (s : State) : SameTables s s.linkCut := ⟨rfl, rfl⟩

/-- What a link reset comes to, in what the clearing of every assignment is. -/
theorem linkReset_eq (s : State) : ∃ u : State,
    s.linkReset = { s.linkCut with entries := u.entries, segments := u.segments } ∧
    (∀ e, u.entry? e = (s.linkCut.cancelAll.entry? e).map (Entry.unclaimedBy fun _ => true)) ∧
    ∀ n, u.seg? n = (s.linkCut.cancelAll.seg? n).map fun g => { g with window := g.window.cutRound } := by
  have start : s.linkReset = (s.linkCut.cancelAll.dropClaims fun _ => true).mapWindows Window.cutRound := rfl
  obtain ⟨-, -, -, -, only, -⟩ := cancelAll_spec s.linkCut
  generalize s.linkCut.cancelAll = cancelled at start only
  have entry := unclaimed_entry cancelled fun _ => true
  have rest := dropClaims_rest cancelled fun _ => true
  generalize (cancelled.dropClaims fun _ => true) = unclaimed at start entry rest
  refine ⟨unclaimed.mapWindows Window.cutRound, ?_, entry, fun n => ?_⟩
  · rw [start, State.mapWindows, rest, only]
  · rw [mapWindows_seg, rest]
    rfl

/-- A claim dropped after the assignment was cleared leaves CLEARED, whatever the clearing made of the state (R7, R178). -/
theorem Cancelled.unclaim {s : State} {e : EntryNo} {x y : Entry} (h : Cancelled s e x y) :
    y.unclaim = { x with claim := none, assignment := none, state := .cleared } := by
  by_cases hs : StandsInStore s e x
  · rw [h.1 hs]
    rfl
  · rw [h.2 hs]
    rfl

theorem Cancelled.claim {s : State} {e : EntryNo} {x y : Entry} (h : Cancelled s e x y) : y.claim = x.claim := by
  by_cases hs : StandsInStore s e x
  · rw [h.1 hs]
  · rw [h.2 hs]

/-- A segment that differs in reservations alone. -/
theorem eq_of_unreserved {g h : Segment} (k : h.unreserved = g.unreserved) : h = { g with
    reservedDispatch := h.reservedDispatch, reservedTransfer := h.reservedTransfer, transfer := h.transfer } ∧
    (h.transfer.map fun r => { r with carried := false }) = g.transfer.map fun r => { r with carried := false } := by
  obtain ⟨queue, config, -, jammed, held, stranger, arrived, window, unresolved, pointer⟩ := unreserved_fields k
  refine ⟨?_, congrArg Segment.transfer k⟩
  cases h
  simp_all

/-- The record of an entry after a link reset (R131, R178). -/
theorem linkReset_entry {s u : State} (entry : ∀ e, u.entry? e =
    (s.linkCut.cancelAll.entry? e).map (Entry.unclaimedBy fun _ => true)) {e : EntryNo} {x : Entry}
    (hx : s.entry? e = some x) : ∃ y, u.entry? e = some y ∧
      (x.claim ≠ none → y = { x with claim := none, assignment := none, state := .cleared }) ∧
      (x.claim = none → x.assignment ≠ none → Cancelled s e x y) ∧ (x.claim = none → x.assignment = none → y = x) := by
  obtain ⟨-, unassigned, assigned, -, -, -⟩ := cancelAll_spec s.linkCut
  rw [entry]
  by_cases ha : x.assignment = none
  · rw [unassigned e x hx ha]
    refine ⟨_, rfl, fun hc => ?_, fun _ h => absurd ha h, fun hc _ => unclaimedBy_other (by simp [hc])⟩
    obtain ⟨n, hn⟩ := Option.ne_none_iff_exists'.1 hc
    rw [unclaimedBy_claimed hn rfl, Entry.unclaim, ← ha]
  · obtain ⟨y, hy, cleared⟩ := assigned e x hx ha
    have cleared' : Cancelled s e x y := (cancelled_congr2 rfl).1 cleared
    rw [hy]
    refine ⟨_, rfl, fun hc => ?_, fun hc _ => ?_, fun _ h => absurd h ha⟩
    · obtain ⟨n, hn⟩ := Option.ne_none_iff_exists'.1 hc
      rw [unclaimedBy_claimed (cleared'.claim.trans hn) rfl, cleared'.unclaim]
    · rwa [unclaimedBy_other (by simp [cleared'.claim, hc])]

/-- A segment after a link reset (R30, R62, R178). -/
theorem linkReset_segment {s u : State} (segs : ∀ n, u.seg? n =
    (s.linkCut.cancelAll.seg? n).map fun g => { g with window := g.window.cutRound }) {n : SegNo} {g : Segment}
    (hg : s.seg? n = some g) : ∃ h, u.seg? n = some h ∧ ParkReleased s n g h (fun _ => true) ∧
      h = { g with
        reservedDispatch := h.reservedDispatch, reservedTransfer := h.reservedTransfer, transfer := h.transfer
        window := g.window.cutRound } ∧
      (h.transfer.map fun r => { r with carried := false }) = g.transfer.map fun r => { r with carried := false } := by
  obtain ⟨-, -, -, same, -, released⟩ := cancelAll_spec s.linkCut
  obtain ⟨h, hh, parks, -⟩ := released n g hg
  obtain ⟨h', hh', fields⟩ := same.fwd hg
  obtain rfl : h = h' := Option.some.inj (hh.symm.trans hh')
  obtain ⟨kept, transfer⟩ := eq_of_unreserved fields
  refine ⟨{ h with window := h.window.cutRound }, by rw [segs, hh]; rfl, (parkReleased_congr rfl rfl).1 parks, ?_, transfer⟩
  rw [kept]

theorem linkResetTakes : Says.LinkResetTakes := by
  intro s more hp
  obtain ⟨port, idle, htaken⟩ := taken_eq s (.linkReset more)
  have tables : SameTables s (s.taken (.linkReset more)) := by rw [htaken]; exact ⟨rfl, rfl⟩
  have seg0 := taken_seg s (.linkReset more)
  have entry0 := taken_entry s (.linkReset more)
  obtain ⟨u, made, entry, segs⟩ := linkReset_eq (s.taken (.linkReset more))
  obtain ⟨absent, -, -, same, -, -⟩ := cancelAll_spec (s.taken (.linkReset more)).linkCut
  have segment : ∀ n g, s.seg? n = some g → _ := fun n g hg => linkReset_segment segs ((seg0 n).trans hg)
  refine ⟨{ (s.taken (.linkReset more)).linkCut with entries := u.entries, segments := u.segments },
    takesAlone_of (act := fun u => .did u.linkReset noBody) rfl hp (by rw [made]) rfl rfl rfl ?_ (taken_idle s _), ?_,
    fun n => ?_, fun e he => (entry e).trans ?_, fun e x hx => ?_, fun n hn => (segs n).trans ?_, fun n g hg => ?_, ?_⟩
  · intro n g h hg hh hx
    obtain ⟨h', hh', -, fields, -⟩ := segment n g hg
    obtain rfl : h' = h := Option.some.inj (hh'.symm.trans hh)
    rw [fields]
    exact hx
  · rw [htaken]
    rfl
  · refine (linkCut_node _ n).trans ?_
    rw [taken_node]
    rfl
  · rw [absent e ((entry0 e).trans he)]
    rfl
  · obtain ⟨y, hy, claimed, assigned, free⟩ := linkReset_entry entry ((entry0 e).trans hx)
    exact ⟨y, hy, claimed, fun hc ha => (cancelled_congr2 tables.2).1 (assigned hc ha), free⟩
  · have absent : (s.taken (.linkReset more)).linkCut.seg? n = none := (seg0 n).trans hn
    have := same n
    rw [absent] at this
    rw [Option.map_eq_none_iff]
    exact Option.map_eq_none_iff.1 this
  · obtain ⟨h, hh, parks, fields, transfer⟩ := segment n g hg
    exact ⟨h, hh, (parkReleased_congr tables.1 tables.2).1 parks, fields, transfer⟩
  · intro cleared n g h hg hh
    have agree : (s.taken (.linkReset more)).linkCut.cancelAll.seg? n = cleared.seg? n := by
      have start : SameTables s (s.taken (.linkReset more)).linkCut := tables
      have list : (s.taken (.linkReset more)).linkCut.entriesWhere (fun x => x.assignment.isSome) =
          (List.finRange 128).filter fun e => (s.entry? e).any fun x => x.assignment.isSome := by
        unfold State.entriesWhere
        simp only [start.reads.1]
      rw [State.cancelAll, list]
      exact (start.cancelEach _).reads.2.1 n
    have : u.seg? n = some h := hh
    rw [segs, agree, hg] at this
    cases this
    exact ⟨rfl, rfl⟩

theorem pulseEndAndBranchWake : Says.PulseEndAndBranchWake := by
  intro s
  refine ⟨fun hp hm => ?_, fun hp hm => ?_, fun br h => ?_, fun br hm hp => ?_⟩
  · refine (if_pos hp).trans ?_
    rw [if_neg hm]
  · refine (if_pos hp).trans ?_
    rw [if_pos hm]
  · refine if_neg ?_
    rintro ⟨hm, hp⟩
    exact h.elim (· hm) hp
  · have woken := wake_quiet hm true
    refine ⟨s.wake true, happens_of (if_pos ⟨hm, hp⟩), ?_, ?_, linkResumes_of ?_⟩
    · rw [woken]
      rfl
    · rw [woken]
      exact raise_flag _ _
    · rw [woken]
      rfl

end Sys2Proof.Machine

/-- Settles O44: `linkReset_eq` says what a link reset does, `wake_quiet` what a wake does. -/
theorem linkReset : Obligations.LinkReset := ⟨linkResetTakes, pulseEndAndBranchWake⟩
end

section
/-! PROOF. A window that ends without a valid reply, absence, and the clearing of an assignment (R127, R128, R130, R131,
R45, R178). -/

open Sys2Proof Sys2Proof.Machine

namespace Sys2Proof.Machine

/-! ### What is judged at the end of a window -/

theorem repliesAs_iff {a : WindowActivity} {n : NodeNo} :
    repliesAs a n = true ↔ ∃ bytes reply, a = .frame bytes ∧ judgeFrame bytes = .good reply ∧ reply.node = n := by
  unfold repliesAs
  cases a with
  | heldActive => simp
  | unfinished => simp
  | frame bytes => cases h : judgeFrame bytes <;> simp [h]

theorem replied_iff {seen : List (Branch × WindowActivity)} {n : NodeNo} :
    (seen.any fun p => repliesAs p.2 n) = true ↔ repliedOn seen n := by
  simp only [List.any_eq_true, repliesAs_iff]
  constructor
  · rintro ⟨⟨br, a⟩, hp, bytes, reply, rfl, good, named⟩
    exact ⟨br, bytes, reply, hp, good, named⟩
  · rintro ⟨br, bytes, reply, hp, good, named⟩
    exact ⟨(br, .frame bytes), hp, bytes, reply, rfl, good, named⟩

theorem branchOf_learned {r : Round} {n : NodeNo} {br : Branch}
    (h : (r.map.find? fun p => p.1 == n) = some (n, some br)) : r.branchOf n = some br := by
  rw [Round.branchOf, h]
  rfl

theorem judgedActivity_none {r : Round} {n : NodeNo} {seen : List (Branch × WindowActivity)} {br : Branch}
    (hr : r.steered = true) (hb : (r.map.find? fun p => p.1 == n) = some (n, some br)) (h : ∀ p ∈ seen, p.1 ≠ br) :
    r.judgedActivity n seen = none := by
  have nothing : (seen.find? fun p => some p.1 == r.branchOf n) = none := by
    rw [branchOf_learned hb, List.find?_eq_none]
    intro p hp
    simpa using h p hp
  rw [Round.judgedActivity, if_pos hr, nothing]
  rfl

theorem judgedActivity_of {r : Round} {n : NodeNo} {seen : List (Branch × WindowActivity)} {a : WindowActivity}
    (h : judgedBy r n seen a) : r.judgedActivity n seen = some a := by
  rcases h with ⟨hr, br, rest, rfl⟩ | ⟨hr, br, before, rest, hb, rfl, others⟩
  · rw [Round.judgedActivity, hr]
    rfl
  · have first : ((before ++ (br, a) :: rest).find? fun p => some p.1 == r.branchOf n) = some (br, a) := by
      rw [branchOf_learned hb, List.find?_eq_some_iff_append]
      exact ⟨by simp, before, rest, rfl, fun p hp => by simpa using others p hp⟩
    rw [Round.judgedActivity, if_pos hr, first]
    rfl

section judged

variable {s : State} {r : Round} {n : NodeNo} {seen : List (Branch × WindowActivity)}

theorem errorOf_replied (h : repliedOn seen n) : s.errorOf r n seen = none := if_pos (replied_iff.2 h)

theorem errorOf_silent (h : ¬ repliedOn seen n) (hj : r.judgedActivity n seen = none) :
    s.errorOf r n seen = some .silence := by
  rw [State.errorOf, if_neg (mt replied_iff.1 h), hj]

theorem errorOf_judged {a : WindowActivity} (h : ¬ repliedOn seen n) (hj : judgedBy r n seen a) :
    s.errorOf r n seen = s.errorBy r n a := by
  rw [State.errorOf, if_neg (mt replied_iff.1 h), judgedActivity_of hj]

theorem misnamed_check {m : NodeNo} (h : s.node? m = none ∨ r.steered = false) : s.misnamed r n m = some .check := by
  unfold State.misnamed
  rcases h with h | h
  · rw [h]
  · split
    · rw [if_neg (by simp [h])]
    · rfl

theorem misnamed_learned {m : NodeNo} {y : Node} {br : Branch} (hy : s.node? m = some y) (hr : r.steered = true)
    (hb : (r.map.find? fun p => p.1 == n) = some (n, some br)) :
    s.misnamed r n m = if y.branch ≠ some br then none else some .check := by
  simp only [State.misnamed, hy, branchOf_learned hb, hr, true_and]

variable {x : Node} (hp : s.link.phase = .windows r) (hx : s.node? n = some x) (hj : r.toJudge n = true)

include hp hx hj

theorem windowEnd_spared (h : s.errorOf r n seen = none) : exec (.windowEnd n seen) s = .next s := by
  change execWindowEnd n seen s = .next s
  simp [execWindowEnd, hp, hx, hj, h]

theorem windowEnd_charged {kind : LinkError} (h : s.errorOf r n seen = some kind) :
    Happens (.windowEnd n seen) s
      (({ s with link := { s.link with phase := .windows { r with judged := n :: r.judged } } } : State).chargeError
        n kind) := by
  refine happens_of ?_
  change execWindowEnd n seen s = _
  simp [execWindowEnd, hp, hx, hj, h, State.updRound, LinkPhase.mapRound]

end judged

/-! ### An error charged -/

theorem chargeError_lenient {s : State} {n : NodeNo} {x : Node} (hx : s.node? n = some x)
    (h : x.errorRun < 2 ∨ x.presence = .absent) (kind : LinkError) : s.chargeError n kind =
      s.updNode n fun y => { y with lastError := some kind, errorRun := min 3 (x.errorRun + 1) } := by
  simp only [State.chargeError, hx]
  refine if_neg ?_
  rintro ⟨limit, present⟩
  have : min 3 (x.errorRun + 1) = 3 := limit
  rcases h with h | h
  · omega
  · exact present h

theorem chargeError_absent {s : State} {n : NodeNo} {x : Node} (hx : s.node? n = some x) (h : 2 ≤ x.errorRun)
    (hp : x.presence ≠ .absent) (kind : LinkError) : s.chargeError n kind =
      (s.updNode n fun y => { y with lastError := some kind, errorRun := 3 }).absent n := by
  have limit : min Config.errorRunLimit (x.errorRun + 1) = 3 := by
    rw [show Config.errorRunLimit = 3 from rfl]
    omega
  simp only [State.chargeError, hx, limit]
  exact if_pos ⟨rfl, hp⟩

theorem windowEndCharges : Says.WindowEndCharges := by
  intro s r n x hp hx hmap heard judged removed charged
  have hj : r.toJudge n = true := by
    obtain ⟨b, hb⟩ := hmap
    have window : (r.map.any fun p => p.1 == n) = true := List.any_eq_true.2 ⟨(n, b), hb, by simp⟩
    simp [Round.toJudge, window, heard, judged, removed]
  have charge : ∀ {seen kind}, s.errorOf r n seen = some kind → Happens (.windowEnd n seen) s (charged kind) :=
    windowEnd_charged hp hx hj
  have spare : ∀ {seen}, s.errorOf r n seen = none → exec (.windowEnd n seen) s = .next s := windowEnd_spared hp hx hj
  refine ⟨charge (errorOf_silent (by simp [repliedOn]) ?_), fun seen h => spare (errorOf_replied h),
    fun seen br h hr hb others => charge (errorOf_silent h (judgedActivity_none hr hb others)),
    fun seen a h hby => ⟨?_, ?_, ?_, ?_, ?_⟩, fun kind h => ?_⟩
  · rw [Round.judgedActivity]
    split <;> rfl
  · rintro rfl
    exact charge (errorOf_judged h hby)
  · rintro rfl
    exact charge (errorOf_judged h hby)
  · rintro bytes rfl hl
    exact charge ((errorOf_judged h hby).trans (by simp [State.errorBy, hl]))
  · rintro bytes rfl hl
    exact charge ((errorOf_judged h hby).trans (by simp [State.errorBy, hl]))
  · rintro bytes reply rfl hl
    have error : s.errorOf r n seen = s.misnamed r n reply.node :=
      (errorOf_judged h hby).trans (by simp [State.errorBy, hl])
    refine ⟨fun hd => charge (error.trans (misnamed_check hd)), fun y br hy hr hb => ⟨fun hs => ?_, fun hs => ?_⟩⟩
    · exact charge (error.trans ((misnamed_learned hy hr hb).trans (if_neg (not_not.2 hs))))
    · exact spare (error.trans ((misnamed_learned hy hr hb).trans (if_pos hs)))
  · rw [chargeError_lenient hx h]
    refine ⟨?_, rfl, rfl⟩
    rw [node_updNode, if_pos rfl, hx]
    rfl

/-! ### Absence -/

/-- The state with the link's own records of an absent node dropped (R131). -/
def State.unheard (s : State) (n : NodeNo) : State :=
  ((s.updNode n fun x =>
    { x with presence := .absent, request := none, overrun := false, lastDemand := ⟨false, false, false, false⟩ }).dropAnswers
      n).dropItemsOf n

/-- The entries assigned to a node. -/
def State.assignedTo (s : State) (n : NodeNo) : List EntryNo :=
  (List.finRange 128).filter fun e => (s.entry? e).any fun y => y.assignment == some n

theorem absent_eq (s : State) (n : NodeNo) : s.absent n =
    ((((s.unheard n).forEach State.cancelAssignment (s.assignedTo n)).dropClaims fun m => m == n).raise .nodeAbsent) := rfl

theorem assignedTo_mem {s : State} {n : NodeNo} {e : EntryNo} :
    e ∈ s.assignedTo n ↔ ∃ y, s.entry? e = some y ∧ y.assignment = some n := by
  simp [State.assignedTo, Option.any_eq_true]

theorem cancelled_assignment {s : State} {e : EntryNo} {y z : Entry} (h : Cancelled s e y z) : z.assignment = none := by
  by_cases hs : StandsInStore s e y
  · rw [h.1 hs]
  · rw [h.2 hs]

/-- What absence makes of the tables: assignments to the node cleared, then claims of the node dropped (R131, R178). -/
theorem absent_spec (s : State) (n : NodeNo) :
    (∃ entries segments, s.absent n =
      ({ s.unheard n with entries := entries, segments := segments } : State).raise .nodeAbsent) ∧
    (s.absent n).segments = ((s.unheard n).forEach State.cancelAssignment (s.assignedTo n)).segments ∧
    (∀ e y, s.entry? e = some y → ∃ z, (s.absent n).entry? e = some (z.unclaimedBy fun m => m == n) ∧
      (y.assignment ≠ some n → z = y) ∧ (y.assignment = some n → Cancelled s e y z)) ∧
    ∀ p g, s.seg? p = some g → ∃ h, (s.absent n).seg? p = some h ∧ h.unreserved = g.unreserved ∧
      ParkReleased s p g h fun y => y.assignment == some n := by
  obtain ⟨others, cleared, same, only, released⟩ := cancelEach (s.assignedTo n) ((List.nodup_finRange 128).filter _)
    (s.unheard n) fun e he => by
      obtain ⟨y, hy, ha⟩ := assignedTo_mem.1 he
      exact ⟨y, n, hy, ha⟩
  rw [absent_eq]
  generalize (s.unheard n).forEach State.cancelAssignment (s.assignedTo n) = cancelled at *
  have entry := unclaimed_entry cancelled fun m => m == n
  have rest := dropClaims_rest cancelled fun m => m == n
  generalize (cancelled.dropClaims fun m => m == n) = unclaimed at *
  refine ⟨⟨unclaimed.entries, cancelled.segments, ?_⟩, by rw [rest]; rfl, fun e y hy => ?_, fun p g hg => ?_⟩
  · rw [rest, only]
  · by_cases ha : y.assignment = some n
    · obtain ⟨z, hz, c⟩ := cleared e y (assignedTo_mem.2 ⟨y, hy, ha⟩) hy
      refine ⟨z, (entry e).trans (by rw [hz]; rfl), fun h => absurd ha h, fun _ => (cancelled_congr2 rfl).1 c⟩
    · have unassigned : e ∉ s.assignedTo n := fun h => by
        obtain ⟨y', hy', ha'⟩ := assignedTo_mem.1 h
        exact ha (Option.some.inj (hy.symm.trans hy') ▸ ha')
      have kept : cancelled.entry? e = some y := (others e unassigned).trans hy
      exact ⟨y, (entry e).trans (by rw [kept]; rfl), fun _ => rfl, fun h => absurd h ha⟩
  · obtain ⟨h, hh, count, -⟩ := released p g hg
    obtain ⟨h', hh', fields⟩ := same.fwd hg
    obtain rfl : h = h' := Option.some.inj (hh.symm.trans hh')
    refine ⟨h, (show unclaimed.seg? p = _ by rw [rest]; exact hh), fields, count.trans ?_⟩
    unfold State.assignedTo
    rw [List.filter_filter]
    congr 2
    refine List.filter_congr fun e _ => ?_
    change ((s.entry? e).any _ && _) = _
    cases s.entry? e with
    | none => rfl
    | some y => exact Bool.and_comm _ _

theorem absenceDrops : Says.AbsenceDrops := by
  intro s n x kind hx hrun hpresent t
  let marked := s.updNode n fun y => { y with lastError := some kind, errorRun := 3 }
  have ht : t = marked.absent n := chargeError_absent hx hrun hpresent kind
  obtain ⟨⟨entries, segments, rest⟩, segs, entry, seg⟩ := absent_spec marked n
  rw [ht]
  refine ⟨?_, by rw [rest]; rfl, by rw [rest]; rfl, fun e y hy => ?_, fun p g hg => ?_,
    ⟨marked.unheard n, rfl, segs⟩, by rw [rest]; exact raise_flag _ _⟩
  · rw [rest]
    change (marked.updNode n _).node? n = _
    rw [node_updNode, if_pos rfl, node_updNode, if_pos rfl, hx]
    rfl
  · obtain ⟨z, hz, same, cancelled⟩ := entry e y hy
    refine ⟨_, hz, ?_⟩
    have claim : z.claim = y.claim := by
      by_cases ha : y.assignment = some n
      · exact (cancelled ha).claim
      · rw [same ha]
    have assigned : y.assignment = some n → z.assignment = none := fun ha => cancelled_assignment (cancelled ha)
    have unassigned : y.assignment ≠ some n → z.assignment = y.assignment := fun ha => congrArg Entry.assignment (same ha)
    by_cases hc : y.claim = some n
    · rw [unclaimedBy_claimed (p := fun m => m == n) (claim.trans hc) (beq_self_eq_true n)]
      exact ⟨fun _ => ⟨rfl, rfl⟩, fun h => absurd hc h, assigned, unassigned, fun h => absurd hc h, fun h => absurd hc h⟩
    · have kept : z.unclaimedBy (fun m => m == n) = z := unclaimedBy_other fun m hm => by
        have other : m ≠ n := fun h => hc (claim ▸ h ▸ hm)
        simpa using other
      rw [kept]
      exact ⟨fun h => absurd h hc, fun _ => claim, assigned, unassigned, fun _ => same,
        fun _ ha => (cancelled_congr2 rfl).1 (cancelled ha)⟩
  · obtain ⟨h, hh, fields, parks⟩ := seg p g hg
    obtain ⟨queue, config, -⟩ := unreserved_fields fields
    exact ⟨h, hh, queue, config, parks⟩

/-! ### One assignment cleared -/

section cancel

variable {s : State} {e : EntryNo} {y : Entry} {n : NodeNo} {p : SegNo} {k : Segment}

theorem carrier_absent (h : ∀ c g r, ¬ (s.seg? c = some g ∧ g.transfer = some r ∧ r.carried = true ∧ g.queue.head? = some e)) :
    s.carrier e = none := by
  unfold State.carrier
  cases found : s.findSeg fun g => g.transfer.any (·.carried) && g.queue.head? == some e with
  | none => rfl
  | some c =>
    obtain ⟨g, hg, hp⟩ := findSeg_spec found
    simp only [Bool.and_eq_true, beq_iff_eq, Option.any_eq_true] at hp
    obtain ⟨⟨r, hr, hc⟩, hq⟩ := hp
    exact absurd ⟨hg, hr, hc, hq⟩ (h c g r)

theorem carrier_only {c : SegNo} {g : Segment} {r : Transfer}
    (hc : s.seg? c = some g ∧ g.transfer = some r ∧ r.carried = true ∧ g.queue.head? = some e)
    (unique : ∀ c' g' r', s.seg? c' = some g' ∧ g'.transfer = some r' ∧ r'.carried = true ∧ g'.queue.head? = some e → c' = c) :
    s.carrier e = some c := by
  obtain ⟨hg, hr, carried, hq⟩ := hc
  refine findSeg_unique hg (by simp [hr, carried, hq]) fun m h hm hp => ?_
  simp only [Bool.and_eq_true, beq_iff_eq, Option.any_eq_true] at hp
  obtain ⟨⟨r', hr', carried'⟩, hq'⟩ := hp
  exact unique m h r' ⟨hm, hr', carried', hq'⟩

theorem convertCarried_seg {c d : SegNo} {g : Segment} {r : Transfer} (hg : s.seg? c = some g) (hr : g.transfer = some r)
    (hd : r.dest = .segment d) : s.convertCarried c =
      (s.updSeg c fun g => { g with transfer := g.transfer.map fun t => { t with carried := false } }).updSeg d
        fun g => { g with reservedTransfer := g.reservedTransfer + 1 } := by
  obtain ⟨dest, opened, carried⟩ := r
  obtain rfl : dest = .segment d := hd
  unfold State.convertCarried
  rw [hg, Option.bind_some, hr]

variable (hy : s.entry? e = some y) (ha : y.assignment = some n)

include hy ha

theorem cancelAssignment_seg_uncarried (hc : s.carrier e = none) (m : SegNo) :
    (s.cancelAssignment e).seg? m = (s.releaseAssignment e).seg? m := by
  rw [cancelAssignment_eq hy ha, hc]
  dsimp only
  split <;> rfl

/-- A reservation that a transfer in flight carries is converted (R45). -/
theorem cancelAssignment_seg_carried {c : SegNo} (hc : s.carrier e = some c) (m : SegNo) :
    (s.cancelAssignment e).seg? m = ((s.releaseAssignment e).convertCarried c).seg? m := by
  rw [cancelAssignment_eq hy ha, hc]
  dsimp only
  split <;> rfl

end cancel

theorem assignmentCancelled : Says.AssignmentCancelled := by
  intro s e y n p k hy ha hpark hk t carries
  have entry := cancelAssignment_entry hy ha
  have released : ∀ m, (s.releaseAssignment e).seg? m = if p = m then some { k with reservedDispatch := k.reservedDispatch - 1 }
      else s.seg? m := by
    intro m
    rw [releaseAssignment_seg hy, ha, Option.bind_some, hpark]
    split
    next h => obtain rfl : p = m := Option.some.inj h; rw [if_pos rfl, hk]; rfl
    next h => rw [if_neg fun h' => h (congrArg some h')]; simp
  refine ⟨⟨_, (entry e).trans (if_pos rfl), cancelled_of hy⟩, fun d hd => (entry d).trans (if_neg hd.symm),
    tablesOnly_cancel s e, fun none_carries => ?_, fun c g r hc unique hd hcp => ?_⟩
  · have seg : ∀ m, t.seg? m = _ := fun m =>
      (cancelAssignment_seg_uncarried hy ha (carrier_absent none_carries) m).trans (released m)
    exact ⟨(seg p).trans (if_pos rfl), fun m hm => (seg m).trans (if_neg hm.symm)⟩
  · obtain ⟨hg, hr, -, -⟩ := id hc
    have hg' : (s.releaseAssignment e).seg? c = some g := by rw [released, if_neg hcp.symm, hg]
    have seg : ∀ m, t.seg? m = ((s.releaseAssignment e).convertCarried c).seg? m :=
      cancelAssignment_seg_carried hy ha (carrier_only hc unique)
    simp only [seg, convertCarried_seg hg' hr hd, seg_updSeg, released]
    refine ⟨?_, ?_, fun m hmc hmp => ?_⟩
    · simp [hcp.symm, hg, hr]
    · simp [hcp]
    · simp [hmc.symm, hmp.symm]

end Sys2Proof.Machine

/-- Settles O47: `errorOf_judged` says what is charged, `absent_spec` what absence drops,
`cancelAssignment_seg_uncarried` and `cancelAssignment_seg_carried` what the clearing of an assignment leaves. -/
theorem windowWithoutReply : Obligations.WindowWithoutReply := ⟨windowEndCharges, absenceDrops, assignmentCancelled⟩
end

section
/-! PROOF. SEND of a LOAD node (R146, R149, R150, R152): the rack named, or the head of the node's own park. -/

open Sys2Proof Sys2Proof.Machine

namespace Sys2Proof.Machine

/-! ### How SEND is read and carried out -/

/-- The request that the row SEND stands for, with a tag or without (R152, R208). -/
def sendRequest (tag : Option Tag) (expected : Option Byte) : RackRequest :=
  ⟨2, (tag.map Argument.tag).getD .none, expected, none⟩

theorem parse_send {tag : Option Tag} {expected : Option Byte} {ex : Option RackState}
    (hi : inRange (fun b => RackState.ofCode b.toNat) expected = some ex) :
    RackRequest.parse (sendRequest tag expected) = some (.onRack .send tag ex) := by
  cases tag with
  | some t => exact parse_reason (k := 2) hi rfl rfl (by decide)
  | none =>
    rw [RackRequest.parse, show (sendRequest none expected).expected = expected from rfl, hi]
    rfl

theorem exec_send (s : State) (n : NodeNo) (tag : Option Tag) (expected : Option Byte) :
    exec (.send (.station n) tag expected) s =
      rackCommand (.send (.station n) tag expected) (.station n) (sendRequest tag expected) s := rfl

/-- The entry SEND is about: the one tagged, or the head of the node's own park (R152). -/
def State.sendNames (s : State) (n : NodeNo) : Option Tag → Option EntryNo
  | some t => s.find t
  | none => s.sendHead (.station n)

theorem carryOut_send (s : State) (n : NodeNo) (tag : Option Tag) (ex : Option RackState) {e : EntryNo}
    (h : s.sendNames n tag = some e) :
    carryOut s (.station n) (.onRack .send tag ex) = testExpected s (.station n) .send ex e := by
  cases tag with
  | some t =>
    have hfind : s.find t = some e := h
    simp only [carryOut, hfind]
  | none =>
    have hhead : s.sendHead (.station n) = some e := h
    simp only [carryOut, hhead]

/-- Where the expected state is met, the entry is judged by R150 and R152. -/
theorem testExpected_send {s : State} (n : NodeNo) {e : EntryNo} {y : Entry} {ex : Option RackState}
    (hy : s.entry? e = some y) (hex : (ex.any fun st => st != y.state) = false) :
    testExpected s (.station n) .send ex e = refusePassOrMissing s e y (doSend s n e y) := by
  simp [testExpected, hy, hex, onEntry]

theorem sendHead_eq (s : State) (n : NodeNo) :
    s.sendHead (.station n) = ((s.parkOf n).bind s.seg?).bind fun g => g.queue.head? := rfl

theorem sendHead_of {s : State} {n : NodeNo} {p : SegNo} {g : Segment} (hpark : s.parkOf n = some p)
    (hg : s.seg? p = some g) : s.sendHead (.station n) = g.queue.head? := by
  rw [sendHead_eq, hpark, Option.bind_some, hg, Option.bind_some]

/-- A request changes neither the entry SEND names nor the park it stands in. -/
theorem sendNames_requested (s : State) (m : NodeNo) (q : RackRequest) (n : NodeNo) (tag : Option Tag) :
    (s.requested m q).sendNames n tag = s.sendNames n tag := by
  cases tag with
  | some t => exact requested_find s m q t
  | none =>
    show (s.requested m q).sendHead (.station n) = s.sendHead (.station n)
    rw [sendHead_eq, sendHead_eq, requested_parkOf, funext (requested_seg s m q)]

theorem mayBeSent_iff {s : State} {n : NodeNo} {y : Entry} :
    s.mayBeSent n y = true ↔ y.state = .staged ∧ ∃ p, s.parkOf n = some p ∧ y.location = some (.segment p) := by
  unfold State.mayBeSent
  rw [Bool.and_eq_true, beq_iff_eq]
  refine and_congr_right fun _ => ?_
  split
  next p m hp hl =>
    rw [hp, hl, beq_iff_eq]
    exact ⟨fun h => ⟨p, rfl, by rw [h]⟩, fun ⟨_, h, h'⟩ => by cases h; cases h'; rfl⟩
  next h =>
    refine iff_of_false Bool.false_ne_true ?_
    rintro ⟨p, hp, hl⟩
    exact h p p hp hl

/-- SEND of a rack that may go: LOADED, with stale age 0 (R75, R152). -/
theorem sends {s : State} {n : NodeNo} {e : EntryNo} {y : Entry} (hy : s.entry? e = some y)
    (h : s.mayBeSent n y = true) :
    refusePassOrMissing s e y (doSend s n e y) =
      .did (s.putEntry e (some { y with state := .loaded, staleAge := 0 })) fun u => u.summary? (some e) := by
  obtain ⟨staged, -⟩ := mayBeSent_iff.1 h
  rw [refusePassOrMissing, if_neg (by simp [staged]), if_neg (by simp [staged]), doSend, if_pos h, State.change,
    updEntry_of hy, Entry.withState, staged]
  rfl

theorem sends_inPass {s : State} {e : EntryNo} {y : Entry} (h : y.state = .washing) (act : Judged) :
    refusePassOrMissing s e y act = s.about .inPass e := if_pos h

theorem sends_notHere {s : State} {n : NodeNo} {e : EntryNo} {y : Entry} (hw : y.state ≠ .washing)
    (h : s.mayBeSent n y ≠ true) : refusePassOrMissing s e y (doSend s n e y) = s.about .notHere e := by
  rw [refusePassOrMissing, if_neg hw, doSend, if_neg h, ite_self]

/-! ### SEND of a station that is heard -/

section station

variable {s : State} {n : NodeNo} {x : Node} {chain : Chain} {expected : Option Byte} {tag : Option Tag} {e : EntryNo} {y : Entry}
  (heard : Heard s n x) (role : x.role = .load chain) (mode : s.mode ≠ .configure)

section

include heard role mode

/-- A SEND that is told `r` (R146). -/
theorem send_tells {ex : Option RackState} {r : Result} {m : Option Summary}
    (hi : inRange (fun b => RackState.ofCode b.toNat) expected = some ex)
    (told : ∀ q, carryOut (s.requested n q) (.station n) (.onRack .send tag ex) = .told r m) :
    StationTells (.send (.station n) tag expected) n (sendRequest tag expected) s r m :=
  stationTells_of (exec_send s n tag expected) heard (parse_send hi)
    ((judgeStation_of (by rwa [requested_mode]) (by rw [role]; rfl)).trans (told _))

end

variable (names : s.sendNames n tag = some e) (hy : s.entry? e = some y)

include role mode names hy

/-- A SEND about an entry whose expected state is met comes to what R150 and R152 make of it. -/
theorem judgeStation_send {ex : Option RackState} (hex : (ex.any fun st => st != y.state) = false) (q : RackRequest) :
    let u := s.requested n q
    judgeStation u n x.role (.onRack .send tag ex) = refusePassOrMissing u e y (doSend u n e y) :=
  (judgeStation_of (by rwa [requested_mode]) (by rw [role]; rfl)).trans
    ((carryOut_send _ n tag ex ((sendNames_requested s n q n tag).trans names)).trans
      (testExpected_send n ((requested_entry s n q e).trans hy) hex))

include heard

/-- R150: a rack in the tunnel. -/
theorem send_inPass (met : Expects expected y.state) (washing : y.state = .washing) :
    StationTells (.send (.station n) tag expected) n (sendRequest tag expected) s .inPass (s.summary? (some e)) := by
  obtain ⟨ex, hi, hex⟩ := expects_in met
  exact stationTells_of (exec_send s n tag expected) heard (parse_send hi)
    ((judgeStation_send role mode names hy hex _).trans
      ((sends_inPass washing _).trans (about_requested s n _ _ e)))

/-- R152: a rack that is not STAGED in the node's own park. -/
theorem send_notHere (met : Expects expected y.state) (washing : y.state ≠ .washing)
    (away : y.state ≠ .staged ∨ ∀ p, s.parkOf n = some p → y.location ≠ some (.segment p)) :
    StationTells (.send (.station n) tag expected) n (sendRequest tag expected) s .notHere (s.summary? (some e)) := by
  obtain ⟨ex, hi, hex⟩ := expects_in met
  have stays : ∀ q, (s.requested n q).mayBeSent n y ≠ true := fun q h => by
    obtain ⟨staged, p, hp, hl⟩ := mayBeSent_iff.1 h
    rw [requested_parkOf] at hp
    exact away.elim (· staged) fun h => h p hp hl
  exact stationTells_of (exec_send s n tag expected) heard (parse_send hi)
    ((judgeStation_send role mode names hy hex _).trans
      ((sends_notHere washing (stays _)).trans (about_requested s n _ _ e)))

end station

/-! ### The statements -/

theorem sendLoads : Says.SendLoads := by
  intro s n x chain p e y tag expected heard role mode hpark tagged headed hy staged hl met q
  have hq : q = sendRequest tag expected := by cases tag <;> rfl
  rw [hq]
  have names : s.sendNames n tag = some e := by
    cases tag with
    | some t => exact tagged t rfl
    | none =>
      obtain ⟨g, hg, hq⟩ := headed rfl
      exact (sendHead_of hpark hg).trans hq
  obtain ⟨ex, hi, hex⟩ := expects_in met
  have may : ∀ q, (s.requested n q).mayBeSent n y = true := fun q =>
    mayBeSent_iff.2 ⟨staged, p, (requested_parkOf s n q n).trans hpark, hl⟩
  exact stationTakes_of (exec_send s n tag expected) heard (parse_send hi)
    ((judgeStation_send role mode names hy hex _).trans (sends ((requested_entry s n _ e).trans hy) (may _)))
    fun u => refreshOutputs_summary u _

theorem sendNotHere : Says.SendNotHere := by
  intro s n x chain expected heard role mode
  refine ⟨fun nobody code => ?_, fun p g e y hpark hg hq hy staged washing met => ?_,
    fun t e y hfind hy met => ⟨fun washing => ?_, fun washing away => ?_⟩⟩
  · obtain ⟨ex, hi⟩ := code_in code
    have no_head : s.sendNames n none = none := by
      rcases nobody with hpark | ⟨p, g, hpark, hg, hq⟩
      · show s.sendHead (.station n) = none
        rw [sendHead_eq, hpark]
        rfl
      · exact (sendHead_of hpark hg).trans (by rw [hq]; rfl)
    refine send_tells (tag := none) heard role mode hi fun q => ?_
    have hhead : (s.requested n q).sendHead (.station n) = none := (sendNames_requested s n q n none).trans no_head
    simp only [carryOut, hhead]
    rfl
  · exact send_notHere (tag := none) heard role mode ((sendHead_of hpark hg).trans hq) hy met washing (.inl staged)
  · exact send_inPass (tag := some t) heard role mode hfind hy met washing
  · exact send_notHere (tag := some t) heard role mode hfind hy met washing away

theorem sendMismatch : Says.SendMismatch := by
  intro s n x chain p g e y b st heard role mode hpark hg hq hy code other
  have hi : inRange (fun b => RackState.ofCode b.toNat) (some b) = some (some st) := by simp [inRange, code]
  refine send_tells (tag := none) heard role mode hi fun q => ?_
  have names : s.sendNames n none = some e := (sendHead_of hpark hg).trans hq
  rw [carryOut_send _ n none _ ((sendNames_requested s n q n none).trans names), testExpected,
    (requested_entry s n q e).trans hy]
  exact (if_pos (by simpa using Ne.symm other)).trans (about_requested s n q _ e)

end Sys2Proof.Machine

/-- Settles O50: `judgeStation_send` says what a SEND about an entry comes to, with a tag or without. -/
theorem send : Obligations.Send := ⟨sendLoads, sendNotHere, sendMismatch⟩
end

section
/-! PROOF. CLEAR_STRANGER, and a sighting window that has run out (R62, R71, R73, R76). -/

open Sys2Proof Sys2Proof.Machine

namespace Sys2Proof.Machine

/-! ### CLEAR_STRANGER -/

theorem exec_clearStranger (s : State) (seg : Byte) (more : List Byte) : exec (.clearStranger seg more) s =
    portDo (.clearStranger seg more) (onSegment seg clearStrangerTaken) s := rfl

/-- The rack at the pawl is gone, or is the head that the record vouches for (R73). -/
theorem strangerMayGo_iff {s : State} {n : SegNo} {g : Segment} (hg : s.seg? n = some g) (r : StrangerRecord) :
    s.strangerMayGo n g r = true ↔ s.eyes.get g.config.eye = false ∨
      (g.headArrived = true ∧ ∃ e, g.queue.head? = some e ∧ r.vouched = some e) := by
  have vouched : (r.vouched.isSome && g.queue.head? == r.vouched) = true ↔
      ∃ e, g.queue.head? = some e ∧ r.vouched = some e := by
    cases r.vouched <;> simp
  rw [State.strangerMayGo, eyeBlocked_of hg, Bool.or_eq_true, Bool.not_eq_true', Bool.and_assoc, Bool.and_eq_true, vouched]

theorem taken_eyes (s : State) (c : Instr) : (s.taken c).eyes = s.eyes := by
  obtain ⟨p, i, h⟩ := taken_eq s c
  rw [h]

theorem clearStrangerTakes : Says.ClearStrangerTakes := by
  intro s more seg hp c
  refine ⟨fun hs => tellsBad_of (exec_clearStranger s seg more) hp (onSegment_bad hs _ _),
    fun n hn => ⟨fun hg => ?_, fun g hg => ?_⟩⟩
  · exact tells_of (body := noBody) (exec_clearStranger s seg more) hp (by decide)
      (onSegment_none hn ((taken_seg s c n).trans hg) _)
  have hg' : (s.taken c).seg? n = some g := (taken_seg s c n).trans hg
  have reached : onSegment seg clearStrangerTaken (s.taken c) = clearStrangerTaken (s.taken c) n g :=
    onSegment_some hn hg' _
  refine ⟨fun hr => ?_, fun r hr => ?_⟩
  · refine tells_of (body := noBody) (exec_clearStranger s seg more) hp (by decide) (reached.trans ?_)
    simp only [clearStrangerTaken, hr]
    rfl
  · have may := strangerMayGo_iff hg' r
    rw [taken_eyes] at may
    refine ⟨fun goes => takes_of (exec_clearStranger s seg more) hp (reached.trans ?_) rfl,
      fun blocked unknown => tells_of (body := noBody) (exec_clearStranger s seg more) hp (by decide) (reached.trans ?_)⟩
    · simp only [clearStrangerTaken, hr, if_pos (may.2 goes), updSeg_of hg']
      rfl
    · have stays : ¬ (s.taken c).strangerMayGo n g r = true := fun h =>
        (may.1 h).elim (fun clear => by rw [clear] at blocked; cases blocked) unknown
      simp only [clearStrangerTaken, hr, if_neg stays]
      rfl

/-! ### A window that has counted its rounds -/

/-- SIGHTING_WINDOW_RUN_OUT where the window has counted its rounds (R62). -/
theorem windowRunOut_happens {s u : State} {n : SegNo} (h : s.windowRunsOut n = some u) :
    Happens (.sightingWindowRunOut n) s u := by
  refine happens_of ?_
  show execSightingWindowRunOut n s = done s u
  rw [execSightingWindowRunOut, h]

theorem windowRunsOut : Says.WindowRunsOut := by
  intro s n g hg
  refine ⟨fun e fresh hw => windowRunOut_happens ?_, fun fresh hw => ?_⟩
  · have hg' : (s.updEntry e fun x => { x with confirmed := false }).seg? n = some g := hg
    simp only [State.windowRunsOut, hg, Option.map_some, hw, State.closeWindow, updSeg_of hg']
  · obtain ⟨segment, others, only, flag, -⟩ := addStranger_made hg
    refine ⟨s.addStranger n none, windowRunOut_happens ?_, segment, flag, ?_, others⟩
    · simp only [State.windowRunsOut, hg, Option.map_some, hw]
    · rw [only]

end Sys2Proof.Machine

/-- Settles O34: `strangerMayGo_iff` says when CLEAR_STRANGER is taken, `addStranger_made` what an UNTRACKED window leaves. -/
theorem strangersAndWindows : Obligations.StrangersAndWindows := ⟨clearStrangerTakes, windowRunsOut⟩
end

section
/-! PROOF. HEADER_SENT, which delivers the answers carried, and ROUND_END, which counts the round for the sighting windows (R62,
R123, R137, R142, R143). -/

open Sys2Proof Sys2Proof.Machine

namespace Sys2Proof.Machine

/-! ### Delivery -/

/-- A node whose answer has been delivered: its request is no longer pending, and it is not marked overrun (R142, R143). -/
def Node.delivered (x : Node) : Node := { x with request := none, overrun := false }

/-- The answer at the head of the queue leaves it (R143). -/
theorem deliver_head {s : State} {a : StationAnswer} {rest : List StationAnswer} (h : s.answers = a :: rest) :
    s.deliver a = ({ s with answers := rest } : State).updNode a.node Node.delivered := by
  rw [State.deliver, h, if_pos List.mem_cons_self, List.erase_cons_head]
  rfl

/-- The answers carried, where they head the queue, leave it one after another, and each frees its node (R142, R143). -/
theorem deliver_each (carried : List (StationAnswer × Bool)) {s : State} {rest : List StationAnswer}
    (h : s.answers = carried.map Prod.fst ++ rest) :
    let t := s.forEach (fun (s : State) (p : StationAnswer × Bool) => s.deliver p.1) carried
    t = { s with answers := rest, nodes := t.nodes } ∧
    ∀ n, t.node? n = if (carried.map Prod.fst).any (fun a => a.node == n) then (s.node? n).map Node.delivered
      else s.node? n := by
  induction carried generalizing s with
  | nil => exact ⟨congrArg (fun q => ({ s with answers := q } : State)) h, fun n => rfl⟩
  | cons p carried ih =>
    have first := deliver_head (h : s.answers = p.1 :: (carried.map Prod.fst ++ rest))
    obtain ⟨frame, nodes⟩ := ih (s := s.deliver p.1) (by rw [first]; rfl)
    refine ⟨frame.trans ?_, fun n => (nodes n).trans ?_⟩
    · exact congrArg (fun v : State => { v with
        answers := rest
        nodes := ((s.deliver p.1).forEach (fun (s : State) (p : StationAnswer × Bool) => s.deliver p.1) carried).nodes }) first
    · have here : (s.deliver p.1).node? n = if p.1.node = n then (s.node? n).map Node.delivered else s.node? n := by
        rw [first]
        exact node_updNode _ _ _ _
      rw [here, List.map_cons, List.any_cons]
      by_cases hn : p.1.node = n
      · rw [if_pos hn, hn, beq_self_eq_true, Bool.true_or, if_pos rfl]
        split
        · exact Option.map_map _ _ _
        · rfl
      · rw [if_neg hn, beq_false_of_ne hn, Bool.false_or]

theorem headerDelivers : Says.HeaderDelivers := by
  intro s r hp hcarried
  have split : s.answers = r.carried.map Prod.fst ++ s.answers.drop r.carried.length := by
    rw [hcarried, List.take_append_drop]
  have sent : exec .headerSent s = .next (({ s with link := { s.link with phase := .windows r } } : State).forEach
      (fun (s : State) (p : StationAnswer × Bool) => s.deliver p.1) r.carried).refreshOutputs := by
    show execHeaderSent s = _
    rw [execHeaderSent, hp]
  obtain ⟨frame, nodes⟩ := deliver_each r.carried (s := { s with link := { s.link with phase := .windows r } }) split
  rw [hcarried] at nodes
  generalize State.forEach _ _ r.carried = v at sent frame nodes
  refine ⟨_, sent, ?_, fun n => (node_of_nodes (refreshOutputs_nodes v) n).trans (nodes n)⟩
  rw [← refreshOutputs_out]
  exact congrArg (fun w : State => { w with out := v.outputs }) frame

/-! ### The end of a round -/

theorem countRound_eq (w : Window) (steady : Bool) : w.countRound steady =
    match w with
    | .closed => .closed
    | .head k e fresh => .head (if fresh = true ∨ steady = false then k else k - 1) e false
    | .untracked k fresh => .untracked (if fresh = true ∨ steady = false then k else k - 1) false := by
  cases w <;> simp [Window.countRound]

theorem roundEnds : Says.RoundEnds := by
  intro s r hp
  let u : State := { s with link := { s.link with phase := if s.mode = .quiet then .silent else .between } }
  have ended : exec .roundEnd s = .next (u.mapWindows fun w => w.countRound r.steady).refreshOutputs := by
    show execRoundEnd s = _
    rw [execRoundEnd, hp]
  have counted := mapWindows_seg u fun w => w.countRound r.steady
  have frame : u.mapWindows (fun w => w.countRound r.steady) =
      { u with segments := (u.mapWindows fun w => w.countRound r.steady).segments } := rfl
  generalize u.mapWindows _ = v at ended counted frame
  simp only [countRound_eq] at counted
  refine ⟨_, ended, ?_, fun n => (seg_of_segments (refreshOutputs_segments v) n).trans (counted n)⟩
  rw [← refreshOutputs_out]
  exact congrArg (fun w : State => { w with out := v.outputs }) frame

end Sys2Proof.Machine

/-- Settles O46: `deliver_each` says what a header delivers. -/
theorem headerAndRoundEnd : Obligations.HeaderAndRoundEnd := ⟨headerDelivers, roundEnds⟩
end

section
/-! PROOF. What the seconds counter made due: STALE, PROMOTION and AUTO_QUIET (R62, R74, R76, R169 to R171, R204, R205, R207). -/

open Sys2Proof Sys2Proof.Machine

namespace Sys2Proof.Machine

/-! ### STALE -/

theorem checked_iff (st : RackState) :
    st.checked = true ↔ st = .loaded ∨ st = .queued ∨ st = .rewashDue ∨ st = .returning := by
  cases st <;> simp [RackState.checked]

/-- A segment that is not exempt from the stale check (R74). -/
theorem not_exempt_iff (g : Segment) : (!g.exempt) = true ↔
    g.headArrived = false ∧ g.heldBySupervisor = false ∧ g.stranger = none ∧ g.jammed = false := by
  simp [Segment.exempt, Segment.isHeld, and_assoc]

/-- What makes an entry stale by a limit (R74). -/
theorem isStale_of {s : State} {limit : Nat} {x : Entry} (hm : s.mode = .run) (hs : s.stopLatch = false) (hl : limit ≠ 0)
    (hage : limit < x.staleAge) (hst : x.state.checked = true)
    (hseg : ∃ m g, x.location = some (.segment m) ∧ s.seg? m = some g ∧ (!g.exempt) = true) :
    s.isStale limit x = true := by
  obtain ⟨m, g, hx, hg, he⟩ := hseg
  have unexempt : s.unexempt x = true := by simp only [State.unexempt, hx, hg, Option.any_some, he]
  simp [State.isStale, hm, hs, hl, hst, hage, unexempt]

theorem staleDeclared : Says.StaleDeclared := by
  intro s e x due hx hm hs hl hage hst hseg
  obtain ⟨m, g, hloc, hg, hexempt⟩ := hseg
  have stale : (s.entry? e).any (s.isStale s.due.staleLimit) = true := by
    rw [hx]
    exact isStale_of hm hs hl hage ((checked_iff _).2 hst) ⟨m, g, hloc, hg, (not_exempt_iff g).2 hexempt⟩
  refine happens_of ?_
  show execStale e s = _
  rw [execStale, if_pos due]
  exact if_pos stale

/-! ### PROMOTION -/

/-- `a` entered before `b` (R169). -/
theorem before_iff (a b : DemandItem) :
    a.before b = true ↔ a.entryTime < b.entryTime ∨ (a.entryTime = b.entryTime ∧ a.order < b.order) := by
  simp [DemandItem.before]

theorem DemandItem.before_trans {a b c : DemandItem} (h : a.before b = true) (k : b.before c = true) :
    a.before c = true := by
  rw [before_iff] at *
  simp only [BitVec.lt_def, ← BitVec.toNat_inj] at *
  omega

/-- What stands behind the first item that did not enter before `i`, in a chain in order, did not either (R169). -/
theorem not_before_of_mem_dropWhile {l : List DemandItem} {i : DemandItem}
    (ordered : l.Pairwise fun a b => a.before b = true) {j : DemandItem} (h : j ∈ l.dropWhile (·.before i)) :
    j.before i = false := by
  have sorted := ordered.sublist (List.dropWhile_sublist (·.before i))
  have first := List.head?_dropWhile_not (·.before i) l
  cases hl : l.dropWhile (·.before i) with
  | nil =>
    rw [hl] at h
    cases h
  | cons a rest =>
    rw [hl] at h sorted first
    rcases List.mem_cons.1 h with rfl | hj
    · exact first
    · refine Bool.eq_false_iff.2 fun hb => ?_
      have : a.before i = true := DemandItem.before_trans ((List.pairwise_cons.1 sorted).1 j hj) hb
      exact Bool.eq_false_iff.1 first this

/-- The items of a chain that are left once that of a node and kind is taken out. -/
theorem chainOf_dropItem (q : List DemandItem) (n : NodeNo) (k : Kind) (c : Chain) :
    chainOf (dropItem q n k) c = q.filter fun j => !(j.station == n && j.kind == k) && j.chain == c := by
  rw [chainOf, dropItem, List.filter_filter]
  exact List.filter_congr fun j _ => Bool.and_comm _ _

/-- Where a promoted item stands among the HIGH ones (R169). -/
theorem placePromoted_split (q : List DemandItem) (i : DemandItem) : ∃ first later,
    chainOf q .high = first ++ later ∧ placePromoted q i = first ++ i :: (later ++ chainOf q .low) ∧
    (∀ j ∈ first, j.before i = true) ∧ (∀ j, later.head? = some j → j.before i = false) ∧
    ((chainOf q .high).Pairwise (fun a b => a.before b = true) → ∀ j ∈ later, j.before i = false) := by
  refine ⟨_, _, List.takeWhile_append_dropWhile.symm, rfl, fun j hj => ?_, fun j hj => ?_,
    fun ordered j hj => not_before_of_mem_dropWhile ordered hj⟩
  · exact List.mem_takeWhile_imp (p := (DemandItem.before · i)) hj
  · have first := List.head?_dropWhile_not (·.before i) (chainOf q .high)
    rwa [hj] at first

/-- PROMOTION where the item is due and still starves (R170, R171). -/
theorem promotion_happens {s : State} {n : NodeNo} {k : Kind} {i : DemandItem} (due : (n, k) ∈ s.due.promote)
    (found : s.demand.find? (fun j => j.station == n && j.kind == k && s.starves s.due.promotionLimit j) = some i) :
    Happens (.promotion n k) s
      ({ s with due := { s.due with promote := s.due.promote.erase (n, k) } }.promote i) := by
  refine happens_of ?_
  show execPromotion n k s = _
  rw [execPromotion, if_pos due]
  simp only [found]

theorem promotionMade : Says.PromotionMade := by
  intro s n k i due found u earlier others
  have starving := List.find?_some found
  simp only [Bool.and_eq_true, beq_iff_eq] at starving
  obtain ⟨⟨hn, hk⟩, -⟩ := starving
  let promoted : DemandItem := { i with chain := .high, promoted := true }
  have chains : ∀ c, chainOf (dropItem s.demand i.station i.kind) c = others c := fun c => by
    rw [chainOf_dropItem, hn, hk]
  have before : ∀ j : DemandItem, j.before promoted = true ↔ earlier j := fun j => before_iff j promoted
  have not_before : ∀ j : DemandItem, j.before promoted = false → ¬ earlier j := fun j h hj => by
    rw [(before j).2 hj] at h
    cases h
  obtain ⟨first, later, split, demand, front, head, behind⟩ :=
    placePromoted_split (dropItem s.demand i.station i.kind) promoted
  rw [chains] at split demand behind
  have member : ∀ j, j ∈ u.demand ↔ j = promoted ∨ j ∈ others .high ∨ j ∈ others .low := fun j => by
    rw [show u.demand = _ from demand, split]
    simp only [List.mem_append, List.mem_cons]
    tauto
  refine ⟨promotion_happens due found, ⟨first, later, split, demand, fun j hj => (before j).1 (front j hj),
      fun j hj => not_before j (head j hj), fun ordered j hj => not_before j (behind ?_ j hj)⟩,
    raise_flag _ _, (member _).2 (.inl rfl), fun j hj => ?_, fun j hj other => ?_⟩
  · exact ordered.imp fun h => (before_iff _ _).2 h
  · exact ((member j).1 hj).imp_right fun h => h.elim List.mem_of_mem_filter List.mem_of_mem_filter
  · have kept : ∀ c, j.chain = c → j ∈ others c := fun c hc =>
      List.mem_filter.2 ⟨hj, by rcases other with h | h <;> simp [h, hc]⟩
    refine (member j).2 (.inr ?_)
    cases hc : j.chain with
    | high => exact .inl (kept _ hc)
    | low => exact .inr (kept _ hc)

/-! ### AUTO_QUIET -/

theorem autoQuietTaken : Says.AutoQuietTaken := by
  intro s due hm hl hlist hdemand hopen hstop hidle
  have out : s.idleOut = true := by
    rw [State.idleOut, (idleCounts_iff s).2 ⟨hm, hl, hlist, hdemand, hopen, hstop⟩, Bool.true_and, decide_eq_true_eq]
    exact hidle
  let v : State := { s with due := { s.due with autoQuiet := false } }
  have taken : exec .autoQuiet s = done s (v.enterQuiet.raise .modeChange) := by
    show execAutoQuiet s = _
    rw [execAutoQuiet, if_pos due]
    exact if_pos out
  have quiet := enterQuiet_eq v
  have alone : State.settle s (v.enterQuiet.raise .modeChange) = v.enterQuiet.raise .modeChange := by
    rw [quiet]
    refine settle_alone hdemand (fun m g h hg hh exempt => ?_) (.inl rfl)
    obtain rfl : g = h := Option.some.inj (hg.symm.trans hh)
    exact exempt
  rw [taken, done_next, alone, quiet]

end Sys2Proof.Machine

/-- Settles O58: `placePromoted_split` says where a promoted item stands, `enterQuiet_eq` what auto-quiet leaves. -/
theorem dueBySeconds : Obligations.DueBySeconds := ⟨staleDeclared, promotionMade, autoQuietTaken⟩
end

section
/-! PROOF. VALID_REPLY: the place of a reply in its window, what taking it changes, what it hands on, and a branch fault (R127 to
R129, R134, R141). -/

open Sys2Proof Sys2Proof.Machine

namespace Sys2Proof.Machine

/-! ### Where a reply stands -/

section place

variable {s : State} {r : Round} {w : Nat} {br : Branch} {reply : Reply} {x : Node}

/-- A reply in the window of its node, which is not heard, judged or removed yet (R127). -/
theorem placeOfReply_own {n : NodeNo} (hx : s.node? n = some x) (hw : w < r.windowCount)
    (owns : (r.owners br)[w]? = some n) (heard : n ∉ r.heard) (judged : n ∉ r.judged) (removed : n ∉ r.removed) :
    s.placeOfReply r w br n = .own := by
  simp [State.placeOfReply, hx, owns, heard, judged, removed, Nat.not_le.2 hw]

/-- R119, R128: a node heard or removed in this round, and a window that is none of the round's. -/
theorem placeOfReply_late {n : NodeNo} (hx : s.node? n = some x)
    (h : n ∈ r.heard ∨ n ∈ r.removed ∨ r.windowCount ≤ w) : s.placeOfReply r w br n = .disregarded := by
  simp [State.placeOfReply, hx, or_assoc, h]

/-- A reply in another node's window: a branch fault in a steered round where the node is learned on another branch, and
disregarded else (R128, R134). -/
theorem placeOfReply_other {n : NodeNo} (hx : s.node? n = some x) (heard : n ∉ r.heard) (removed : n ∉ r.removed)
    (hw : w < r.windowCount) (other : (r.owners br)[w]? ≠ some n) : s.placeOfReply r w br n =
      if r.steered = true ∧ x.branch ≠ some br then .fault (r.owners br)[w]? else .disregarded := by
  simp [State.placeOfReply, hx, other, heard, removed, Nat.not_le.2 hw]

variable (hp : s.link.phase = .windows r)

include hp

theorem validReply_undefined (hx : s.node? reply.node = none) : exec (.validReply w br reply) s = .next s := by
  show execValidReply w br reply s = _
  rw [execValidReply, hp, hx]

variable (hx : s.node? reply.node = some x)

include hx

theorem validReply_disregarded (h : s.placeOfReply r w br reply.node = .disregarded) :
    exec (.validReply w br reply) s = .next s := by
  show execValidReply w br reply s = _
  simp only [execValidReply, hp, hx, h]

theorem validReply_own (h : s.placeOfReply r w br reply.node = .own) :
    exec (.validReply w br reply) s = .next (s.takeReply br x.role reply).refreshOutputs := by
  show execValidReply w br reply s = _
  simp only [execValidReply, hp, hx, h]

theorem validReply_fault {owner : Option NodeNo} (h : s.placeOfReply r w br reply.node = .fault owner) :
    exec (.validReply w br reply) s = .next ((s.branchFault owner).takeReply br x.role reply).refreshOutputs := by
  show execValidReply w br reply s = _
  simp only [execValidReply, hp, hx, h]

end place

/-! ### A reply taken -/

/-- The state in which a reply is handed on: its node is heard in the round, on the branch, with no error run (R129). -/
def State.replied (s : State) (r : Round) (br : Branch) (reply : Reply) : State :=
  { s.updNode reply.node fun x => x.heardOn br reply.ready with
    link := { s.link with phase := .windows { r with heard := reply.node :: r.heard } } }

theorem takeReply_eq {s : State} {r : Round} (hp : s.link.phase = .windows r) (br : Branch) (role : Role) (reply : Reply) :
    s.takeReply br role reply =
      if reply.ready then (s.replied r br reply).handOn role reply
      else State.settle (s.replied r br reply) ((s.replied r br reply).dropItemsOf reply.node) := by
  have : (s.updNode reply.node fun x => x.heardOn br reply.ready).updRound (fun r => { r with heard := reply.node :: r.heard }) =
      s.replied r br reply := by
    unfold State.updRound State.replied
    rw [updNode_link, hp]
    rfl
  rw [State.takeReply, this]

theorem replied_node (s : State) (r : Round) (br : Branch) (reply : Reply) (m : NodeNo) :
    (s.replied r br reply).node? m =
      if reply.node = m then (s.node? m).map fun x => x.heardOn br reply.ready else s.node? m := node_updNode s _ m _

/-- What a reply leaves of the nodes (R129): its own with its branch and presence and no error run, and the others. -/
theorem takeReply_node {s : State} {r : Round} (hp : s.link.phase = .windows r) (br : Branch) (role : Role) (reply : Reply)
    {x : Node} (hx : s.node? reply.node = some x) :
    (∃ y, (s.takeReply br role reply).node? reply.node = some y ∧ y.role = x.role ∧ y.branch = some br ∧ y.errorRun = 0 ∧
      y.lastError = x.lastError ∧ y.presence = (if reply.ready then .present else .notReady)) ∧
    ∀ m, m ≠ reply.node → (s.takeReply br role reply).node? m = s.node? m := by
  obtain ⟨-, -, others, own⟩ := takeReply_kept hp br role reply
  rw [node_updNode, if_pos rfl, hx, Option.map_some, Option.map_some, Option.map_eq_some_iff] at own
  obtain ⟨y, hy, fields⟩ := own
  simp only [Node.heardFields, Node.heardOn, Prod.mk.injEq] at fields
  obtain ⟨role, branch, run, error, presence⟩ := fields
  refine ⟨⟨y, hy, role, branch, run, error, presence⟩, fun m hm => (others m hm).trans ?_⟩
  rw [node_updNode, if_neg hm.symm]

theorem refreshOutputs_node (s : State) (n : NodeNo) : s.refreshOutputs.node? n = s.node? n :=
  node_of_nodes (refreshOutputs_nodes s) n

theorem replyIsTaken : Says.ReplyIsTaken := by
  intro s r w br reply x hp hx hw owns heard judged removed
  have own := validReply_own hp hx (placeOfReply_own hx hw owns heard judged removed)
  obtain ⟨⟨y, hy, fields⟩, others⟩ := takeReply_node hp br x.role reply hx
  obtain ⟨role, branch, run, error, presence⟩ := fields
  refine ⟨⟨_, y, own, (refreshOutputs_node _ _).trans hy, role, branch, run, error, presence,
    fun m hm => (refreshOutputs_node _ m).trans (others m hm)⟩, fun unready => ?_⟩
  have dropped := takeReply_eq hp br x.role reply
  rw [if_neg (by simp [unready])] at dropped
  refine ⟨(s.replied r br reply).dropItemsOf reply.node, ⟨_, own, ?_⟩, rfl, ?_, fun m hm => ?_⟩
  · rw [dropped]
    exact (settledFrom_settle _ _).of_segments fun _ => rfl
  · refine (replied_node s r br reply _).trans ?_
    rw [if_pos rfl, hx, unready]
    rfl
  · exact (replied_node s r br reply m).trans (if_neg hm.symm)

/-! ### A branch fault -/

/-- What a branch fault does beside the reply (R128, R134). -/
theorem branchFault_eq {s : State} {r : Round} (hp : s.link.phase = .windows r) (owner : Option NodeNo) :
    s.branchFault owner = ({ s with link := { s.link with
      steering := false, phase := .windows { r with judged := owner.toList ++ r.judged } } } : State).raise .branchFault := by
  unfold State.branchFault State.updRound State.steerOff
  rw [hp]
  rfl

theorem branchFaultOrDisregarded : Says.BranchFaultOrDisregarded := by
  intro s r w br reply x hp
  refine ⟨validReply_undefined hp, fun hx => ⟨fun late => validReply_disregarded hp hx (placeOfReply_late hx late),
    fun heard removed hw other => ?_⟩⟩
  have place := placeOfReply_other hx heard removed hw other
  refine ⟨fun calm => validReply_disregarded hp hx (place.trans (if_neg ?_)), fun steered away => ?_⟩
  · rintro ⟨steered, away⟩
    exact calm.elim (fun h => by rw [h] at steered; cases steered) away
  let r' : Round := { r with judged := ((r.owners br)[w]?).toList ++ r.judged }
  let v : State := { s with link := { s.link with steering := false, phase := .windows r' } }
  have fault := validReply_fault hp hx (place.trans (if_pos ⟨steered, away⟩))
  rw [branchFault_eq hp] at fault
  have hp' : (v.raise .branchFault).link.phase = .windows r' := rfl
  obtain ⟨⟨y, hy, -, branch, run, -⟩, others⟩ := takeReply_node hp' br x.role reply hx
  obtain ⟨phase, steering, -⟩ := takeReply_kept hp' br x.role reply
  refine ⟨v.raise .branchFault, _, y, r', rfl, rfl, raise_flag _ _, fun a ha => ?_, rfl, fault,
    (refreshOutputs_node _ _).trans hy, branch, run, fun m hm => (refreshOutputs_node _ m).trans (others m hm), ?_, ?_⟩
  · exact (raise_source v _ a).trans (if_neg (Ne.symm ha))
  · exact (congrArg Link.steering (refreshOutputs_link _)).trans steering
  · exact (congrArg Link.phase (refreshOutputs_link _)).trans phase

/-! ### What a reply hands on -/

theorem handSightings_reader {s : State} {role : Role} (reply : Reply) (h : ∃ gate, role = .reader gate)
    (hm : s.mode ≠ .configure) : s.handSightings role reply = s.report reply.node reply.sightings := by
  obtain ⟨gate, rfl⟩ := h
  exact if_neg hm

theorem handSightings_none {s : State} {role : Role} (reply : Reply)
    (h : ¬ ((∃ gate, role = .reader gate) ∧ s.mode ≠ .configure)) : s.handSightings role reply = s := by
  cases role with
  | reader gate => exact if_pos (not_not.1 fun hm => h ⟨⟨gate, rfl⟩, hm⟩)
  | load _ => rfl
  | unload => rfl
  | floor => rfl

/-- The demand set of a LOAD node, kind by kind (R167). -/
theorem handDemand_load {s : State} {reply : Reply} {x : Node} (hx : s.node? reply.node = some x) (chain : Chain) :
    s.handDemand (.load chain) reply =
      (let d := reply.demand.getD x.lastDemand
       ((((s.updNode reply.node fun y => { y with lastDemand := d }).takeFlag reply.node chain d .plate).takeFlag
          reply.node chain d .cup).takeFlag reply.node chain d .cutlery).takeFlag reply.node chain d .tray) := by
  simp only [State.handDemand, hx]
  rfl

theorem handDemand_none {s : State} {role : Role} (reply : Reply) (h : ∀ chain, role ≠ .load chain) :
    s.handDemand role reply = s := by
  cases role with
  | load chain => exact absurd rfl (h chain)
  | reader _ => rfl
  | unload => rfl
  | floor => rfl

theorem handRequest_eq (s : State) (reply : Reply) : s.handRequest reply =
    match reply.request with
    | some q => s.takeRequest reply.node q
    | none => s := by
  unfold State.handRequest
  cases reply.request <;> rfl

/-- The three parts of a reply in their order, and the wake where a request or an item came (R129, R206). -/
theorem handOn_eq (s : State) (role : Role) (reply : Reply) : s.handOn role reply =
    let s1 := State.settle s (s.handSightings role reply)
    let s2 := State.settle s1 (s1.handDemand role reply)
    let s3 := s2.handRequest reply
    if reply.request ≠ none ∨ s1.nextOrder ≠ s2.nextOrder then s3.wake true else s3 :=
  if_congr (by simp [Option.isSome_iff_ne_none]) rfl rfl

theorem replyHandsOn : Says.ReplyHandsOn := by
  intro s r w br reply x hp hx hw owns heard judged removed ready
  have own := validReply_own hp hx (placeOfReply_own hx hw owns heard judged removed)
  rw [takeReply_eq hp, if_pos ready, handOn_eq] at own
  have hx' : (s.replied r br reply).node? reply.node = some { x with branch := some br, errorRun := 0, presence := .present } := by
    rw [replied_node, if_pos rfl, hx, ready]
    rfl
  have others : ∀ m, m ≠ reply.node → (s.replied r br reply).node? m = s.node? m := fun m hm =>
    (replied_node s r br reply m).trans (if_neg hm.symm)
  have frame : s.replied r br reply = { s with
      nodes := (s.replied r br reply).nodes
      link := { s.link with phase := .windows { r with heard := reply.node :: r.heard } } } := rfl
  have mode : (s.replied r br reply).mode = s.mode := rfl
  generalize s.replied r br reply = v0 at own hx' others frame mode
  let v1 := v0.handSightings x.role reply
  let v2 := (State.settle v0 v1).handDemand x.role reply
  refine ⟨v0, v1, v2, (State.settle (State.settle v0 v1) v2).handRequest reply, frame, hx', others,
    fun ⟨reader, run⟩ => handSightings_reader reply reader (mode ▸ run),
    fun none => handSightings_none reply (mode ▸ none), ?_⟩
  intro s1
  refine ⟨fun chain load => ⟨reply.demand.getD x.lastDemand, by cases reply.demand <;> rfl, ?_⟩,
    fun noLoad => handDemand_none reply noLoad, ?_⟩
  · have unseen : v1 = v0 := handSightings_none reply fun ⟨⟨gate, reader⟩, _⟩ => by
      rw [load] at reader
      cases reader
    have hx1 : s1.node? reply.node = some { x with branch := some br, errorRun := 0, presence := .present } := by
      rw [node_of_nodes (outer_settle v0 v1).nodes, unseen, hx']
    exact (congrArg (s1.handDemand · reply) load).trans (handDemand_load hx1 chain)
  · intro s2
    exact ⟨handRequest_eq s2 reply, own⟩

/-! ### A station's request by its row -/

theorem exec_rackRow {c : Instr} {src : Source} {q : RackRequest} (h : rackRow c = some (src, q)) (s : State) :
    exec c s = rackCommand c src q s := by
  unfold rackRow at h
  split at h <;> cases h <;> rfl

theorem handedOnAsCommands : Says.HandedOnAsCommands :=
  ⟨settledFrom_settle, fun s _ _ _ _ row heard => (exec_rackRow row s).trans (if_pos (hears_of heard))⟩

end Sys2Proof.Machine

/-- Settles O48: `takeReply_node` and `takeReply_eq` say what a reply leaves and hands on, `branchFault_eq` what a branch fault
does. -/
theorem validReply : Obligations.ValidReply := ⟨replyIsTaken, branchFaultOrDisregarded, replyHandsOn, handedOnAsCommands⟩
end

section
/-! PROOF. DEFINE_TUNNEL (R79, R80), the tunnel fault latch (R95, R96), the rinse measurement (R82, R100, R103, R104), and the
lines and pace of the tunnel (R83 to R85, R92). -/

open Sys2Proof Sys2Proof.Machine

namespace Sys2Proof

/-! ### The fields of DEFINE_TUNNEL -/

/-- The ranges of Table 4-1. -/
def RawTunnel.InRanges (f : RawTunnel) : Prop :=
  1 ≤ f.capacity.toNat ∧ f.capacity.toNat ≤ 24 ∧ f.pitch ≠ 0 ∧ f.finalStart ≠ 0 ∧ f.finalEnd ≠ 0 ∧
    f.exitDistance ≠ 0 ∧ f.paceBase ≠ some 0 ∧ ∀ t, f.trim = some t → t.toNat ≤ 15

/-- The relations of R79 between the fields. -/
def RawTunnel.Related (f : RawTunnel) : Prop :=
  f.finalStart.toNat < f.finalEnd.toNat ∧ f.finalEnd.toNat < f.exitDistance.toNat ∧
    f.exitDistance.toNat + f.exitTolerance.toNat ≤ 65535 ∧
    f.exitTolerance.toNat < f.exitDistance.toNat - f.finalEnd.toNat ∧
    f.haltMargin.toNat ≤ f.exitDistance.toNat - f.exitTolerance.toNat

/-- The configuration that the fields give, with the defaults of Table 4-1. -/
def RawTunnel.config (f : RawTunnel) : TunnelConfig :=
  { capacity := f.capacity.toNat, pitch := f.pitch.toNat, finalStart := f.finalStart.toNat,
    finalEnd := f.finalEnd.toNat, exitDistance := f.exitDistance.toNat, exitTolerance := f.exitTolerance.toNat,
    haltMargin := f.haltMargin.toNat, paceBase := match f.paceBase with | some b => b.toNat | none => 36,
    trim := match f.trim with | some t => t.toNat | none => 0 }

theorem RawTunnel.config_eq (f : RawTunnel) : f.config =
    { capacity := f.capacity.toNat, pitch := f.pitch.toNat, finalStart := f.finalStart.toNat,
      finalEnd := f.finalEnd.toNat, exitDistance := f.exitDistance.toNat, exitTolerance := f.exitTolerance.toNat,
      haltMargin := f.haltMargin.toNat, paceBase := (f.paceBase.map BitVec.toNat).getD Config.paceBaseDefault,
      trim := (f.trim.map BitVec.toNat).getD 0 } := by
  unfold RawTunnel.config
  cases f.paceBase <;> cases f.trim <;> rfl

end Sys2Proof

namespace Sys2Proof.Machine

theorem within_eq_some {low high v : Nat} {b : Byte} :
    within low high b = some v ↔ (low ≤ b.toNat ∧ b.toNat ≤ high) ∧ b.toNat = v := by
  simp [within]

/-- An optional byte passes a range test where it is absent or in range. -/
theorem inRange_within_eq_some {low high : Nat} {field : Option Byte} {v : Option Nat} :
    inRange (within low high) field = some v ↔
      (∀ b, field = some b → low ≤ b.toNat ∧ b.toNat ≤ high) ∧ field.map BitVec.toNat = v := by
  cases field with
  | none => simp [inRange]
  | some b => simp [inRange, within, and_assoc]

theorem half_one_le_iff {v : Half} : 1 ≤ v.toNat ↔ v ≠ 0 := by
  rw [Nat.one_le_iff_ne_zero, ne_eq, ne_eq, BitVec.toNat_eq]
  rfl

/-- The pace base, a byte, is in its range where it is not 0. -/
theorem paceBase_inRange_iff {field : Option Byte} :
    (∀ b, field = some b → 1 ≤ b.toNat ∧ b.toNat ≤ 255) ↔ field ≠ some 0 := by
  constructor
  · rintro h rfl
    exact absurd (h 0 rfl).1 (by decide)
  · rintro h b rfl
    have positive : b.toNat ≠ 0 := fun hz => h (congrArg some (BitVec.eq_of_toNat_eq hz))
    have := b.isLt
    omega

/-- The range test of DEFINE_TUNNEL passes where every field lies in its range, and gives the configuration. -/
theorem tunnelFields_eq_some {f : RawTunnel} {c : TunnelConfig} :
    tunnelFields f = some c ↔ f.InRanges ∧ f.config = c := by
  unfold tunnelFields
  simp only [Option.bind_eq_bind, Option.bind_eq_some_iff, within_eq_some, inRange_within_eq_some, paceBase_inRange_iff,
    Option.ite_none_right_eq_some, half_one_le_iff]
  constructor
  · rintro ⟨_, ⟨⟨low, high⟩, rfl⟩, _, ⟨base, rfl⟩, _, ⟨trim, rfl⟩, ⟨pitch, start, stop, out⟩, hc⟩
    exact ⟨⟨low, high, pitch, start, stop, out, base, fun t ht => (trim t ht).2⟩, f.config_eq.trans (Option.some.inj hc)⟩
  · rintro ⟨⟨low, high, pitch, start, stop, out, base, trim⟩, rfl⟩
    exact ⟨_, ⟨⟨low, high⟩, rfl⟩, _, ⟨base, rfl⟩, _, ⟨fun t ht => ⟨Nat.zero_le _, trim t ht⟩, rfl⟩,
      ⟨pitch, start, stop, out⟩, congrArg some f.config_eq.symm⟩

theorem tunnelFields_bad {f : RawTunnel} (h : ¬ f.InRanges) : tunnelFields f = none :=
  Option.eq_none_iff_forall_ne_some.2 fun _ hc => h (tunnelFields_eq_some.1 hc).1

theorem config_consistent_iff (f : RawTunnel) : f.config.consistent = true ↔ f.Related := by
  simp only [TunnelConfig.consistent, Bool.and_eq_true, decide_eq_true_eq, and_assoc]
  rfl

/-- A definition in its cases: the ranges, then the mode, then the relations (R79). -/
theorem defineTunnelTaken_cases (s : State) (f : RawTunnel) :
    (¬ f.InRanges → defineTunnelTaken s f = tell .badRequest) ∧
    (f.InRanges →
      (s.mode ≠ .configure → defineTunnelTaken s f = tell .mode) ∧
      (s.mode = .configure →
        (¬ f.Related → defineTunnelTaken s f = tell .badRequest) ∧
        (f.Related → defineTunnelTaken s f = .did (s.defineTunnel f.config) noBody))) := by
  refine ⟨fun h => by rw [defineTunnelTaken, tunnelFields_bad h], fun h => ?_⟩
  rw [defineTunnelTaken, tunnelFields_eq_some.2 ⟨h, rfl⟩, ← config_consistent_iff]
  refine ⟨fun hm => if_pos hm, fun hm => ?_⟩
  dsimp only
  rw [if_neg (not_not.2 hm)]
  exact ⟨fun hr => if_neg hr, fun hr => if_pos hr⟩

/-! ### The fault latch -/

theorem exec_clearTunnelFault (s : State) (more : List Byte) : exec (.clearTunnelFault more) s =
    portDo (.clearTunnelFault more)
      (fun u =>
        match u.tunnel.fault with
        | none => tell .done
        | some l => .did { u with tunnel := { u.tunnel with fault := none } } fun _ => l.bytes) s := rfl

theorem clearTunnelFaultTakes : Says.ClearTunnelFaultTakes := by
  intro s more hp
  have he := exec_clearTunnelFault s more
  refine ⟨fun h => tells_plain he hp (by decide) (by rw [taken_tunnel, h]), fun l h => ?_⟩
  have record : l.bytes = [BitVec.ofNat 8 l.first.code, BitVec.ofNat 8 l.latest.code, BitVec.ofNat 8 l.count] := by
    simp [FaultLatch.bytes, byteField_eq]
  rw [← record]
  exact takes_of he hp (by rw [taken_tunnel, h]) rfl

theorem tunnelFaultLatches : Says.TunnelFaultLatches := by
  intro s cause t
  have latch : t.tunnel.fault = some (FaultLatch.take s.tunnel.fault cause) := rfl
  refine ⟨rfl, fun h => ?_, fun l h => ?_, raise_flag _ _, fun a ha => ?_⟩
  · rw [latch, h]
    rfl
  · rw [latch, h]
    rfl
  · exact (raise_source _ _ _).trans (if_neg (Ne.symm ha))

/-! ### The rinse records of FINAL -/

theorem zone_final_iff (c : TunnelConfig) (pos : Nat) : c.zone pos = .final ↔ c.finalStart ≤ pos ∧ pos < c.finalEnd := by
  unfold TunnelConfig.zone
  split_ifs <;> simp <;> omega

theorem zoneOf_final_iff (s : State) (x : Entry) : s.zoneOf x = some .final ↔ inFinalZone s x := by
  unfold State.zoneOf inFinalZone
  cases s.tunnel.config <;> cases x.pass <;> simp [zone_final_iff, State.position]

/-- The record of `x` after a measurement: that of a rack in FINAL is changed (R102). -/
def State.measured (s : State) (f : PassRecord → PassRecord) (x : Entry) : Entry :=
  if s.zoneOf x = some .final then { x with pass := x.pass.map f } else x

theorem measured_final {s : State} {x : Entry} (h : inFinalZone s x) (f : PassRecord → PassRecord) :
    s.measured f x = { x with pass := x.pass.map f } := if_pos ((zoneOf_final_iff s x).2 h)

theorem measured_outside {s : State} {x : Entry} (h : ¬ inFinalZone s x) (f : PassRecord → PassRecord) :
    s.measured f x = x := if_neg fun hz => h ((zoneOf_final_iff s x).1 hz)

/-- Where a rack stands is read off the tunnel. -/
theorem zoneOf_congr {s t : State} (h : t.tunnel = s.tunnel) (x : Entry) : t.zoneOf x = s.zoneOf x := by
  simp only [State.zoneOf, State.position, h]

theorem measured_congr {s t : State} (h : t.tunnel = s.tunnel) (f : PassRecord → PassRecord) :
    t.measured f = s.measured f := by
  funext x
  rw [State.measured, zoneOf_congr h, State.measured]

/-- The measurement of one rack of the tunnel list. -/
def State.measure (s : State) (f : PassRecord → PassRecord) (e : EntryNo) : State :=
  match s.entry? e with
  | none => s
  | some x =>
    match s.zoneOf x with
    | some .final => s.updEntry e fun y => { y with pass := y.pass.map f }
    | _ => s

theorem inFinal_eq (s : State) (f : PassRecord → PassRecord) :
    s.inFinal f = s.forEach (fun u e => u.measure f e) s.tunnel.list := rfl

theorem measure_only (s : State) (f : PassRecord → PassRecord) (e : EntryNo) :
    s.measure f e = { s with entries := (s.measure f e).entries } := by
  unfold State.measure
  split
  · rfl
  split <;> rfl

theorem measure_entry (s : State) (f : PassRecord → PassRecord) (e d : EntryNo) :
    (s.measure f e).entry? d = if e = d then (s.entry? d).map (s.measured f) else s.entry? d := by
  unfold State.measure
  split
  case h_1 hx =>
    split
    case isTrue h => rw [← h, hx]; rfl
    case isFalse => rfl
  case h_2 x hx =>
    split
    case h_1 hz =>
      rw [entry_updEntry]
      split
      case isTrue h =>
        rw [← h, hx, Option.map_some, Option.map_some, State.measured, if_pos hz]
      case isFalse => rfl
    case h_2 hz =>
      split
      case isTrue h => rw [← h, hx, Option.map_some, State.measured, if_neg hz]
      case isFalse => rfl

theorem measureAll_only (f : PassRecord → PassRecord) (l : List EntryNo) (s : State) :
    s.forEach (fun u e => u.measure f e) l = { s with entries := (s.forEach (fun u e => u.measure f e) l).entries } := by
  induction l generalizing s with
  | nil => rfl
  | cons e l ih =>
    have rest := ih (s.measure f e)
    have first := measure_only s f e
    exact rest.trans (congrArg (fun u : State => { u with
      entries := ((s.measure f e).forEach (fun u e => u.measure f e) l).entries }) first)

/-- Of a list that names each rack once, each is measured once. -/
theorem measureAll_entry (f : PassRecord → PassRecord) {l : List EntryNo} (nodup : l.Nodup) (s : State) (d : EntryNo) :
    (s.forEach (fun u e => u.measure f e) l).entry? d =
      if d ∈ l then (s.entry? d).map (s.measured f) else s.entry? d := by
  induction l generalizing s with
  | nil => rfl
  | cons e l ih =>
    obtain ⟨once, nodup⟩ := List.nodup_cons.1 nodup
    have tunnel : (s.measure f e).tunnel = s.tunnel := by rw [measure_only]
    have rest := ih nodup (s.measure f e)
    rw [measured_congr tunnel, measure_entry] at rest
    refine rest.trans ?_
    by_cases hd : e = d
    · subst hd
      simp [once]
    · simp [hd, Ne.symm hd]

theorem inFinal_only (s : State) (f : PassRecord → PassRecord) :
    s.inFinal f = { s with entries := (s.inFinal f).entries } := by
  rw [inFinal_eq]
  exact measureAll_only f _ s

/-- Of the tunnel list, the records of the racks in FINAL change (R102). -/
theorem inFinal_entry {s : State} (nodup : s.tunnel.list.Nodup) (f : PassRecord → PassRecord) (d : EntryNo) :
    (s.inFinal f).entry? d = if d ∈ s.tunnel.list then (s.entry? d).map (s.measured f) else s.entry? d := by
  rw [inFinal_eq, measureAll_entry f nodup]

/-- What a row of the rinse measurement leaves: the records of the racks in FINAL changed by `f`, the line RINSE_OK at `ok`. -/
def Measures (s : State) (c : Instr) (f : PassRecord → PassRecord) (ok : Bool) : Prop :=
  ∃ t, exec c s = .next t ∧ t.tunnel = { s.tunnel with rinseOk := ok } ∧
    (∀ e x, e ∈ s.tunnel.list → s.entry? e = some x → inFinalZone s x →
      t.entry? e = some { x with pass := x.pass.map f }) ∧
    (∀ e x, s.entry? e = some x → (e ∉ s.tunnel.list ∨ ¬ inFinalZone s x) → t.entry? e = some x) ∧
    t = { s with tunnel := t.tunnel, entries := t.entries, out := t.outputs }

theorem measures_of {s : State} {c : Instr} {f : PassRecord → PassRecord} {ok : Bool} (nodup : s.tunnel.list.Nodup)
    (he : exec c s = .next
      (({ s with tunnel := { s.tunnel with rinseOk := ok } } : State).inFinal f).refreshOutputs) : Measures s c f ok := by
  let u : State := { s with tunnel := { s.tunnel with rinseOk := ok } }
  have only := inFinal_only u f
  have entry : ∀ e, (u.inFinal f).refreshOutputs.entry? e =
      if e ∈ s.tunnel.list then (s.entry? e).map (s.measured f) else s.entry? e := fun e =>
    (entry_of_entries (refreshOutputs_entries _) e).trans (inFinal_entry (s := u) nodup f e)
  have tunnel : (u.inFinal f).refreshOutputs.tunnel = u.tunnel :=
    (refreshOutputs_tunnel _).trans (by rw [only])
  refine ⟨_, he, tunnel, fun e x hmem hx hz => ?_, fun e x hx h => ?_, ?_⟩
  · rw [entry, if_pos hmem, hx, Option.map_some, measured_final hz]
  · rw [entry, hx]
    obtain h | h := h
    · exact if_neg h
    · rw [Option.map_some, measured_outside h, ite_self]
  · rw [← refreshOutputs_out, tunnel]
    exact congrArg (fun v : State => { v with out := (u.inFinal f).outputs }) only

theorem setRinseOk_self {s : State} {b : Bool} (h : s.tunnel.rinseOk = b) :
    ({ s with tunnel := { s.tunnel with rinseOk := b } } : State) = s := by
  rw [← h]

/-- A millisecond measures with the line as it stands (R103, R104). -/
theorem dwellMillisecond_measures {s : State} {ok : Bool} (nodup : s.tunnel.list.Nodup) (h : s.tunnel.rinseOk = ok) :
    Measures s .dwellMillisecond (fun p => p.millisecond ok s.params.grace) ok := by
  refine measures_of nodup ?_
  rw [setRinseOk_self h, ← h]
  rfl

end Sys2Proof.Machine

/-- Settles O36. -/
theorem defineTunnelTakes : Obligations.DefineTunnelTakes := by
  intro s more f hp c
  have he : exec c s = portDo c (fun u => defineTunnelTaken u f) s := rfl
  have tunnel := taken_tunnel s c
  obtain ⟨bad, good⟩ := defineTunnelTaken_cases (s.taken c) f
  rw [taken_mode] at good
  refine ⟨fun h => tellsBad_of he hp (bad h), fun h hm => tells_plain he hp (by decide) ((good h).1 hm),
    fun h hm hr => tellsBad_of he hp (((good h).2 hm).1 hr), fun h hm hr => ?_⟩
  rw [← tunnel]
  exact takes_of he hp (((good h).2 hm).2 hr) rfl

/-- Settles O37. -/
theorem tunnelFaults : Obligations.TunnelFaults := ⟨clearTunnelFaultTakes, tunnelFaultLatches⟩

/-- Settles O41. -/
theorem rinseMeasures : Obligations.RinseMeasures := by
  intro s nodup changes
  refine ⟨fun h => measures_of nodup (if_neg (by simp [h])), fun h => if_pos h, rfl,
    dwellMillisecond_measures nodup, dwellMillisecond_measures nodup, fun e x h hx hz => ?_⟩
  have zone := (zoneOf_final_iff s x).2 hz
  refine ⟨(s.putEntry e (some { x with pass := x.pass.map (·.markDropout s.params.grace) })).refreshOutputs, ?_, ?_⟩
  · show execDropout e s = _
    simp only [execDropout, hx, zone, h, Bool.false_eq_true, if_false, updEntry_of hx]
  · rw [← refreshOutputs_out]
    rfl

/-- Settles O40. -/
theorem tunnelLinesAndPace : Obligations.TunnelLinesAndPace := by
  intro s
  refine ⟨rfl, fun _ => rfl, fun _ => rfl, fun _ => rfl, fun hrun hpace hmode => ?_, fun h => ?_, fun h => if_pos h, rfl⟩
  · exact if_pos ((tickTimerRuns_iff s).2 ⟨hrun, hpace, hmode⟩)
  · refine if_neg fun runs => ?_
    obtain ⟨hrun, hpace, hmode⟩ := (tickTimerRuns_iff s).1 runs
    obtain h | h | h := h
    · rw [hrun] at h
      cases h
    · exact hpace h
    · exact hmode h
end

section
/-! PROOF. UNLOAD_DONE, REWASH and RELEASE of the claim holder, and their refusals (R110, R112, R146, R150, R154 to R156, R174). -/

open Sys2Proof Sys2Proof.Machine

namespace Sys2Proof.Machine

/-! ### Who may ask -/

/-- The answer to a station that is not the claim holder, or asks about a rack that is not UNLOADING (R150, R154 to R156). -/
def HolderRefusal (n : NodeNo) (y : Entry) (r : Result) : Prop :=
  (y.state = .unloading ∧ y.claim ≠ some n ∧ r = .claimed) ∨ (y.state ≠ .unloading ∧ y.state ≠ .washing ∧ r = .notHere) ∨
    (y.state = .washing ∧ r = .inPass)

/-- The tests of R150 and of R154 to R156 pass for the claim holder of an UNLOADING rack. -/
theorem holderOnly_acts {n : NodeNo} {y : Entry} (unloading : y.state = .unloading) (holder : y.claim = some n) (s : State)
    (e : EntryNo) (act : Judged) : refusePassOrMissing s e y (holderOnly s n e y act) = act := by
  rw [refusePassOrMissing, if_neg (by simp [unloading]), if_neg (by simp [unloading]), holderOnly, if_neg (not_not.2 unloading),
    if_pos holder]

theorem holderOnly_refuses {n : NodeNo} {y : Entry} {r : Result} (refused : HolderRefusal n y r) (s : State) (e : EntryNo)
    (act : Judged) : refusePassOrMissing s e y (holderOnly s n e y act) = s.about r e := by
  rcases refused with ⟨unloading, other, rfl⟩ | ⟨idle, washing, rfl⟩ | ⟨washing, rfl⟩
  · rw [refusePassOrMissing, if_neg (by simp [unloading]), if_neg (by simp [unloading]), holderOnly,
      if_neg (not_not.2 unloading), if_neg other]
  · rw [refusePassOrMissing, if_neg washing, holderOnly, if_pos idle, ite_self]
  · exact if_pos washing

/-! ### What the holder's request does -/

/-- UNLOAD_DONE: the rack as R154 leaves it, offered to the dispatcher (R174). -/
theorem doUnloadDone_did {s : State} {e : EntryNo} {y : Entry} (hy : s.entry? e = some y) :
    let returned := s.putEntry e (some y.unloaded)
    doUnloadDone s e y = .did (returned.offerReturned e y) fun _ => returned.summary? (some e) := by
  rw [doUnloadDone, updEntry_of hy]

/-- The rewash step on an UNLOADING rack: its stale age starts anew where it goes round again, for REWASH_DUE is a checked
state and UNLOADING and SET_ASIDE are not (R74, R75, R110, R112). -/
theorem rewashStep_unloading {y : Entry} (unloading : y.state = .unloading) (limit : Nat) :
    y.rewashStep limit =
      { y with
        claim := none
        rewashes := min 3 (y.rewashes + 1)
        state := if limit < y.rewashes + 1 then .setAside else .rewashDue
        staleAge := if limit < y.rewashes + 1 then y.staleAge else 0 } := by
  rw [Entry.rewashStep, Entry.withState, overLimit, unloading]
  by_cases exceeds : limit < y.rewashes + 1
  · simp only [exceeds, decide_true, if_true]
    rfl
  · simp only [exceeds, decide_false, Bool.false_eq_true, if_false]
    rfl

/-! ### A request of the holder's kind -/

/-- The row `c`, of request kind `k`, stands for `op`, a right of UNLOAD, and its own rule lets the claim holder alone do
`act` (Table 7-1, R154 to R156, R208). -/
structure HolderRow (n : NodeNo) (t : Tag) (expected : Option Byte) (e : EntryNo) (y : Entry) (c : Instr) (k : Byte) (op : RackOp)
    (act : State → Judged) : Prop where
  row : ∀ s, exec c s = rackCommand c (.station n) ⟨k, .tag t, expected, none⟩ s
  kind : rackOp k.toNat none = some op
  right : ∀ ex, Role.unload.may (.onRack op (some t) ex) = true
  rule : ∀ s, onEntry s (.station n) op e y = refusePassOrMissing s e y (holderOnly s n e y (act s))

theorem unloadDone_holderRow (n : NodeNo) (t : Tag) (expected : Option Byte) (e : EntryNo) (y : Entry) :
    HolderRow n t expected e y (.unloadDone (.station n) t expected) 4 .unloadDone fun s => doUnloadDone s e y :=
  ⟨fun _ => rfl, rfl, fun _ => rfl, fun _ => rfl⟩

theorem rewash_holderRow (n : NodeNo) (t : Tag) (expected : Option Byte) (e : EntryNo) (y : Entry) :
    HolderRow n t expected e y (.rewash (.station n) t expected) 5 .rewash fun s => doRewash s e :=
  ⟨fun _ => rfl, rfl, fun _ => rfl, fun _ => rfl⟩

theorem release_holderRow (n : NodeNo) (t : Tag) (expected : Option Byte) (e : EntryNo) (y : Entry) :
    HolderRow n t expected e y (.release (.station n) t expected) 6 .release fun s => s.change e Entry.unclaim :=
  ⟨fun _ => rfl, rfl, fun _ => rfl, fun _ => rfl⟩

section holder

variable {s : State} {n : NodeNo} {x : Node} {t : Tag} {e : EntryNo} {y : Entry} {expected : Option Byte} {c : Instr} {k : Byte}
  {op : RackOp} {act : State → Judged} (heard : Heard s n x) (role : x.role = .unload) (mode : s.mode ≠ .configure)
  (hfind : s.find t = some e) (hy : s.entry? e = some y) (met : Expects expected y.state)
  (h : HolderRow n t expected e y c k op act)

include role mode hfind hy met h

/-- The request is read, and passes the tests of R146 up to the rule of its own. -/
theorem holder_judged : ∃ r, RackRequest.parse ⟨k, .tag t, expected, none⟩ = some r ∧ ∀ q,
    judgeStation (s.requested n q) n x.role r =
      refusePassOrMissing (s.requested n q) e y (holderOnly (s.requested n q) n e y (act (s.requested n q))) := by
  obtain ⟨ex, hi, hex⟩ := expects_in met
  have no_lookup : k.toNat ≠ 1 := fun one => by
    have kind := h.kind
    rw [one] at kind
    cases kind
  refine ⟨.onRack op (some t) ex, parse_reason hi rfl h.kind no_lookup, fun q => ?_⟩
  have carried := carryOut_tag ((requested_find s n q t).trans hfind) ((requested_entry s n q e).trans hy) hex (.station n) op
  exact (judgeStation_of (by rwa [requested_mode]) (by rw [role]; exact h.right ex)).trans (carried.trans (h.rule _))

include heard

theorem holder_takes (unloading : y.state = .unloading) (holder : y.claim = some n) {s' : State} {m : State → Option Summary}
    (did : act (s.requested n ⟨k, .tag t, expected, none⟩) = .did s' m) (read : ∀ u : State, m u.refreshOutputs = m u) :
    StationTakes c n ⟨k, .tag t, expected, none⟩ s s' m := by
  obtain ⟨r, parsed, judged⟩ := holder_judged role mode hfind hy met h
  exact stationTakes_of (h.row s) heard parsed (((judged _).trans (holderOnly_acts unloading holder _ e _)).trans did) read

theorem holder_tells {r : Result} (refused : HolderRefusal n y r) :
    StationTells c n ⟨k, .tag t, expected, none⟩ s r (s.summary? (some e)) := by
  obtain ⟨_, parsed, judged⟩ := holder_judged role mode hfind hy met h
  exact stationTells_of (h.row s) heard parsed
    (((judged _).trans (holderOnly_refuses refused _ e _)).trans (about_requested s n _ r e))

end holder

end Sys2Proof.Machine

/-- Settles O52: `holderOnly_acts` and `holderOnly_refuses` say whose request is carried out, `holder_judged` that nothing else
stands in its way. -/
theorem holderRequestsTake : Obligations.HolderRequestsTake := by
  intro s n x t e y expected heard role mode hfind hy met q returned
  have entry : ∀ k, (s.requested n (q k)).entry? e = some y := fun k => (requested_entry s n (q k) e).trans hy
  have unloadDone := unloadDone_holderRow n t expected e y
  have rewash := rewash_holderRow n t expected e y
  have release := release_holderRow n t expected e y
  refine ⟨fun unloading holder => ⟨?_, ?_, ?_⟩, fun r refused => ⟨?_, ?_, ?_⟩⟩
  · exact holder_takes heard role mode hfind hy met unloadDone unloading holder (doUnloadDone_did (entry 4)) fun _ => rfl
  · refine holder_takes heard role mode hfind hy met rewash unloading holder ?_ fun u => refreshOutputs_summary u _
    rw [doRewash, State.change, updEntry_of (entry 5), rewashStep_unloading unloading, requested_params]
  · refine holder_takes heard role mode hfind hy met release unloading holder ?_ fun u => refreshOutputs_summary u _
    rw [State.change, updEntry_of (entry 6), Entry.unclaim]
  · exact holder_tells heard role mode hfind hy met unloadDone refused
  · exact holder_tells heard role mode hfind hy met rewash refused
  · exact holder_tells heard role mode hfind hy met release refused
end

section
/-! PROOF. The node table and steering: DEFINE_NODE, the removal of a node, STEER (R118 to R120, R133). -/

open Sys2Proof Sys2Proof.Machine

namespace Sys2Proof.Machine

/-! ### Nodes named by a byte -/

theorem nodeOfByte_of {b : Byte} {n : NodeNo} (h : b.toNat = n.val + 1) : nodeOfByte b = some n := by
  rw [nodeOfByte, dif_pos (by omega)]
  exact congrArg some (Fin.ext (by simp [h]))

theorem nodeOfByte_bad {b : Byte} (h : b = 0 ∨ 16 < b.toNat) : nodeOfByte b = none := by
  refine dif_neg fun ⟨low, high⟩ => ?_
  obtain rfl | above := h
  · exact absurd low (by decide)
  · omega

/-! ### A transaction taken leaves the claims, the answers and the demand queue -/

theorem taken_holdsClaim (s : State) (c : Instr) (n : NodeNo) : (s.taken c).holdsClaim n = s.holdsClaim n := by
  obtain ⟨p, i, h⟩ := taken_eq s c
  rw [h]
  rfl

theorem taken_answers (s : State) (c : Instr) : (s.taken c).answers = s.answers := by
  obtain ⟨p, i, h⟩ := taken_eq s c
  rw [h]

theorem taken_demand (s : State) (c : Instr) : (s.taken c).demand = s.demand := by
  obtain ⟨p, i, h⟩ := taken_eq s c
  rw [h]

theorem taken_entries (s : State) (c : Instr) : (s.taken c).entries = s.entries := by
  obtain ⟨p, i, h⟩ := taken_eq s c
  rw [h]

theorem taken_round (s : State) (c : Instr) : (s.taken c).round? = s.round? := by
  obtain ⟨p, i, h⟩ := taken_eq s c
  rw [h]
  rfl

theorem updRound_round (s : State) (f : Round → Round) : (s.updRound f).round? = s.round?.map f := by
  unfold State.updRound State.round?
  cases s.link.phase <;> rfl

/-! ### DEFINE_NODE -/

theorem exec_defineNode (s : State) (address : Byte) (fields : Option RawNode) (more : List Byte) :
    exec (.defineNode address fields more) s =
      portDo (.defineNode address fields more) (fun u => nodeTaken u address fields) s := rfl

/-- The range tests, which come before the mode (R118, R185). -/
theorem nodeTaken_outOfRange (s : State) (address : Byte) :
    (∀ fields, nodeOfByte address = none → nodeTaken s address fields = tell .badRequest) ∧
    (∀ raw, nodeFields raw = none → nodeTaken s address (some raw) = tell .badRequest) := by
  unfold nodeTaken
  refine ⟨fun fields h => by rw [h], fun raw h => ?_⟩
  cases nodeOfByte address with
  | none => rfl
  | some n => simp only [h]

/-- A removal, by the mode (R118, R119). -/
theorem nodeTaken_removal {s : State} {address : Byte} {n : NodeNo} (ha : nodeOfByte address = some n) :
    (s.mode ≠ .configure → nodeTaken s address none = tell .mode) ∧
    (s.mode = .configure → nodeTaken s address none = undefineNodeTaken s n) := by
  unfold nodeTaken
  rw [ha]
  exact ⟨fun hm => if_pos hm, fun hm => if_neg (not_not.2 hm)⟩

/-- A definition whose fields lie in their ranges, by the mode and the role they give (R118). -/
theorem nodeTaken_definition {s : State} {address : Byte} {n : NodeNo} {raw : RawNode} {f : NodeFields}
    (ha : nodeOfByte address = some n) (hf : nodeFields raw = some f) :
    (s.mode ≠ .configure → nodeTaken s address (some raw) = tell .mode) ∧
    (s.mode = .configure →
      (f.role? = none → nodeTaken s address (some raw) = tell .badRequest) ∧
      ∀ role, f.role? = some role → nodeTaken s address (some raw) = defineNodeTaken s n role) := by
  unfold nodeTaken
  simp only [ha, hf]
  refine ⟨fun hm => if_pos hm, fun hm => ⟨fun hr => ?_, fun role hr => ?_⟩⟩
  · rw [if_neg (not_not.2 hm), hr]
  · rw [if_neg (not_not.2 hm), hr]

/-- A definition by what stands at the address (R118 to R120). -/
theorem defineNodeTaken_cases (s : State) (n : NodeNo) (role : Role) :
    (s.node? n = none → defineNodeTaken s n role = .did (s.putNode n (some (Node.new role))).steerOff noBody) ∧
    ∀ x, s.node? n = some x →
      (x.role.code = role.code →
        defineNodeTaken s n role = .did (s.putNode n (some { x with role := role })).steerOff noBody) ∧
      (x.role.code ≠ role.code → s.holdsClaim n = true → defineNodeTaken s n role = tell .occupied) ∧
      (x.role.code ≠ role.code → s.holdsClaim n = false → defineNodeTaken s n role =
        .did ((s.putNode n (some { Node.new role with branch := x.branch })).dropAnswers n).steerOff noBody) := by
  refine ⟨fun hx => by rw [defineNodeTaken, hx], fun x hx => ⟨fun same => ?_, fun other holds => ?_, fun other free => ?_⟩⟩
  · simp only [defineNodeTaken, hx, if_pos same]
  · simp only [defineNodeTaken, hx, if_neg other, if_pos holds]
  · simp only [defineNodeTaken, hx, if_neg other, free, Bool.false_eq_true, if_false]

/-- The state after the removal of a node (R119, R133). -/
def State.removeNode (s : State) (n : NodeNo) : State :=
  (((s.putNode n none).dropAnswers n).updRound fun r => { r with removed := n :: r.removed }).steerOff

theorem undefineNodeTaken_cases (s : State) (n : NodeNo) :
    (s.holdsClaim n = true → undefineNodeTaken s n = tell .occupied) ∧
    (s.holdsClaim n = false → undefineNodeTaken s n = .did (s.removeNode n) noBody) := by
  refine ⟨fun holds => if_pos holds, fun free => if_neg ?_⟩
  rw [free]
  exact Bool.false_ne_true

theorem removeNode_node (s : State) (n m : NodeNo) : (s.removeNode n).node? m = if n = m then none else s.node? m :=
  node_putNode s n m none

@[simp] theorem removeNode_answers (s : State) (n : NodeNo) :
    (s.removeNode n).answers = s.answers.filter fun a => a.node != n := rfl

@[simp] theorem removeNode_demand (s : State) (n : NodeNo) : (s.removeNode n).demand = s.demand := rfl

@[simp] theorem removeNode_entries (s : State) (n : NodeNo) : (s.removeNode n).entries = s.entries := rfl

@[simp] theorem removeNode_steering (s : State) (n : NodeNo) : (s.removeNode n).link.steering = false := rfl

@[simp] theorem removeNode_port (s : State) (n : NodeNo) : (s.removeNode n).port = s.port := rfl

theorem removeNode_round (s : State) (n : NodeNo) :
    (s.removeNode n).round? = s.round?.map fun r => { r with removed := n :: r.removed } :=
  updRound_round ((s.putNode n none).dropAnswers n) _

/-! ### STEER -/

theorem exec_steer (s : State) (on : Byte) (more : List Byte) :
    exec (.steer on more) s = portDo (.steer on more) (fun u => steerTaken u on) s := rfl

theorem unlearned_none {s : State} (h : ∀ n x, s.node? n = some x → x.branch ≠ none) : s.unlearned = none := by
  rw [State.unlearned, State.nodesWhere, List.head?_filter, find?_finRange_none]
  intro n
  cases hx : s.node? n with
  | none => rfl
  | some x => simpa using Option.isSome_iff_ne_none.2 (h n x hx)

/-- The lowest defined address without a learned branch (R133). -/
theorem unlearned_some {s : State} {n : NodeNo} {x : Node} (hx : s.node? n = some x) (hb : x.branch = none)
    (lowest : ∀ m y, m < n → s.node? m = some y → y.branch ≠ none) : s.unlearned = some n := by
  rw [State.unlearned, State.nodesWhere, List.head?_filter, find?_finRange]
  refine ⟨by simp [hx, hb], fun m hm => ?_⟩
  cases hy : s.node? m with
  | none => rfl
  | some y => simpa using Option.isSome_iff_ne_none.2 (lowest m y hm hy)

/-- STEER on, by the first node that is not learned (R133). -/
theorem steerTaken_on (s : State) :
    (s.unlearned = none → steerTaken s 1 = .did { s with link := { s.link with steering := true } } noBody) ∧
    ∀ n, s.unlearned = some n → steerTaken s 1 = .told .incomplete fun _ => byteField (nodeAddress n) := by
  have read : flagOfByte 1 = some true := rfl
  exact ⟨fun h => by simp only [steerTaken, read, h], fun n h => by simp only [steerTaken, read, h]⟩

end Sys2Proof.Machine

/-- Settles O43: `unlearned_some` and `unlearned_none` say which node is lowest. -/
theorem steerTakes : Obligations.SteerTakes := by
  intro s more on hp c steered
  have node := taken_node s c
  have link := taken_link s c
  refine ⟨fun bad => tellsBad_of (exec_steer s on more) hp ?_, ?_, ?_, ?_⟩
  · rw [steerTaken, flagOfByte_bad bad]
  · rintro rfl
    refine takes_of (s' := steered false) (exec_steer s 0 more) hp ?_ rfl
    show Taken.did (s.taken c).steerOff noBody = _
    rw [State.steerOff, link]
    rfl
  · rintro rfl learned
    refine takes_of (s' := steered true) (exec_steer s 1 more) hp ?_ rfl
    rw [(steerTaken_on _).1 (unlearned_none fun n x hx => learned n x ((node n).symm.trans hx)), link]
    rfl
  · rintro n x rfl hx hb lowest
    rw [← byteField_eq]
    have first : (s.taken c).unlearned = some n :=
      unlearned_some ((node n).trans hx) hb fun m y hm hy => lowest m y hm ((node m).symm.trans hy)
    exact tells_of (body := fun _ => byteField (nodeAddress n)) (exec_steer s 1 more) hp (by decide)
      ((steerTaken_on _).2 n first)

/-- Settles O42: `nodeTaken_definition` and `nodeTaken_removal` say when the table is reached, `defineNodeTaken_cases` and
`undefineNodeTaken_cases` what becomes of it. -/
theorem defineNodeTakes : Obligations.DefineNodeTakes := by
  intro s more address hp
  have he := fun fields => exec_defineNode s address fields more
  refine ⟨fun fields h => ?_, fun raw h => ?_, fun n hn => ?_⟩
  · exact tellsBad_of (he fields) hp ((nodeTaken_outOfRange _ _).1 fields (nodeOfByte_bad h))
  · exact tellsBad_of (he (some raw)) hp ((nodeTaken_outOfRange _ _).2 raw h)
  intro steerless
  have ha := nodeOfByte_of hn
  refine ⟨fun hm => ?_, fun hm => ?_⟩
  · have mode : ∀ c, (s.taken c).mode ≠ .configure := fun c => by rwa [taken_mode]
    exact ⟨tells_plain (he none) hp (by decide) ((nodeTaken_removal ha).1 (mode _)),
      fun raw f hf => tells_plain (he (some raw)) hp (by decide) ((nodeTaken_definition ha hf).1 (mode _))⟩
  have mode : ∀ c, (s.taken c).mode = .configure := fun c => (taken_mode s c).trans hm
  have claim : ∀ c {b}, s.holdsClaim n = b → (s.taken c).holdsClaim n = b := fun c _ h => (taken_holdsClaim s c n).trans h
  have removal := fun c => (nodeTaken_removal ha).2 (mode c)
  refine ⟨fun holds => ?_, fun free => ?_, fun raw f hf => ?_⟩
  · exact tells_plain (he none) hp (by decide) ((removal _).trans ((undefineNodeTaken_cases _ n).1 (claim _ holds)))
  · intro c
    have removed := (removal c).trans ((undefineNodeTaken_cases _ n).2 (claim c free))
    refine ⟨(s.taken c).removeNode n, takes_of (he none) hp removed (removeNode_port _ n), ?_, fun m hm => ?_, ?_,
      removeNode_steering _ n, ?_, ?_, fun r hr => ?_⟩
    · exact (removeNode_node _ n n).trans (if_pos rfl)
    · exact ((removeNode_node _ n m).trans (if_neg hm.symm)).trans (taken_node s c m)
    · rw [removeNode_answers, taken_answers]
    · rw [removeNode_demand, taken_demand]
    · rw [removeNode_entries, taken_entries]
    · rw [removeNode_round, taken_round, hr]
      rfl
  · intro c
    obtain ⟨noRole, reached⟩ := (nodeTaken_definition ha hf).2 (mode c)
    refine ⟨fun hr => tellsBad_of (he (some raw)) hp (noRole hr), fun role hr => ?_⟩
    have reached := reached role hr
    obtain ⟨fresh, again⟩ := defineNodeTaken_cases (s.taken c) n role
    refine ⟨fun hx => takes_of (he (some raw)) hp (reached.trans (fresh ((taken_node s c n).trans hx))) rfl, fun x hx => ?_⟩
    obtain ⟨same, occupied, other⟩ := again x ((taken_node s c n).trans hx)
    refine ⟨fun h => takes_of (he (some raw)) hp (reached.trans (same h)) rfl,
      fun h holds => tells_plain (he (some raw)) hp (by decide) (reached.trans (occupied h (claim c holds))), fun h free => ?_⟩
    rw [← taken_answers s c]
    exact takes_of (he (some raw)) hp (reached.trans (other h (claim c free))) rfl
end

section
/-! PROOF. ROUND_START: the round that begins, its windows and its length (R121 to R126). -/

open Sys2Proof Sys2Proof.Machine

namespace Sys2Proof.Machine

/-! ### The window list -/

theorem nodesWhere_defined (s : State) :
    (s.nodesWhere fun _ => true) = (List.finRange 16).filter fun n => (s.node? n).isSome := by
  refine List.filter_congr fun n _ => ?_
  cases s.node? n <;> rfl

/-- An unsteered round has a window for each defined node (R125). -/
theorem windowMap_unsteered {s : State} (h : s.link.steering = false) :
    s.windowMap = ((List.finRange 16).filter fun n => (s.node? n).isSome).map fun n => (n, none) := by
  rw [State.windowMap, if_neg (by simp [h]), nodesWhere_defined]

/-- A steered round has a window for each node with a learned branch (R126). -/
theorem windowMap_steered {s : State} (h : s.link.steering = true) :
    s.windowMap = ((List.finRange 16).filter fun n => (s.node? n).any (·.branch.isSome)).map
      fun n => (n, (s.node? n).bind (·.branch)) := if_pos h

/-! ### W -/

/-- In an unsteered round every window is on every branch (R125). -/
theorem windowCount_unsteered {r : Round} (h : r.steered = false) : r.windowCount = r.map.length := by
  have owners : ∀ br, (r.owners br).length = r.map.length := fun br => by
    rw [Round.owners, if_neg (by simp [h]), List.length_map]
  rw [Round.windowCount, owners, owners, owners, max_self, max_self]

/-- The nodes of the node table learned on a branch (R126). -/
def State.learnedOn (s : State) (br : Branch) : List NodeNo :=
  (List.finRange 16).filter fun n => (s.node? n).any (·.branch == some br)

/-- In a steered round the windows of a branch are those of the nodes learned on it (R126). -/
theorem owners_steered {s : State} {r : Round} (steered : r.steered = true) (map : r.map = s.windowMap)
    (h : s.link.steering = true) (br : Branch) : r.owners br = s.learnedOn br := by
  have learned : ∀ n, ((s.node? n).bind (·.branch) == some br && (s.node? n).any (·.branch.isSome)) =
      (s.node? n).any (·.branch == some br) := fun n => by
    cases s.node? n with
    | none => rfl
    | some x => cases hb : x.branch <;> simp [hb]
  rw [Round.owners, if_pos steered, map, windowMap_steered h, List.filter_map, List.map_map, List.filter_filter]
  exact (List.map_id' _).trans (List.filter_congr fun n _ => learned n)

/-! ### The round that begins -/

theorem newRound_map (s : State) : s.newRound.map = s.windowMap := rfl

theorem newRound_carried (s : State) :
    s.newRound.carried = (s.answers.take 4).map fun a => (a, (s.node? a.node).any (·.overrun)) := rfl

/-- The length of a round by its windows (R121). -/
theorem newRound_length (s : State) :
    s.newRound.length = max s.params.roundPeriod (6 + 2 * s.newRound.windowCount) := rfl

end Sys2Proof.Machine

/-- Settles O45: `windowCount_unsteered` and `owners_steered` say what W comes to in either kind of round. -/
theorem roundStarts : Obligations.RoundStarts := by
  intro s between awake
  refine ⟨s.newRound, if_pos ⟨between, awake⟩, rfl, ?_, fun a b carried => ?_, fun unsteered => ?_, fun steered => ?_,
    rfl, rfl, rfl⟩
  · rw [newRound_carried, List.map_map]
    exact List.map_id' _
  · rw [newRound_carried, List.mem_map] at carried
    obtain ⟨_, -, same⟩ := carried
    cases same
    rfl
  · refine ⟨windowMap_unsteered unsteered, ?_⟩
    rw [newRound_length, windowCount_unsteered (r := s.newRound) unsteered]
  · have owners := owners_steered (r := s.newRound) steered (newRound_map s) steered
    refine ⟨windowMap_steered steered, ?_⟩
    intro learned w
    have count : s.newRound.windowCount = w := by rw [Round.windowCount, owners, owners, owners]; rfl
    exact ⟨count, by rw [newRound_length, count]⟩
end

section
/-! PROOF. The tests that every rack request goes through, the overrun, and what a station sends in vain (R117, R129, R141, R142,
R146, R147, R149, R164, R206). -/

open Sys2Proof Sys2Proof.Machine

namespace Sys2Proof.Machine

/-! ### Malformed requests, the mode and the rights -/

/-- The first test (R147): what a malformed request of a heard station comes to. -/
theorem exec_malformed {s : State} {c : Instr} {n : NodeNo} {x : Node} {q : RackRequest} (heard : Heard s n x)
    (row : rackRow c = some (.station n, q)) (bad : RackRequest.parse q = none) :
    exec c s = .next (((s.requested n q).takeMalformed n q).wake true).refreshOutputs := by
  rw [exec_rackRow row, rackCommand, if_pos (hears_of heard), takeRequest_of heard, State.carryStation, bad]

theorem isLookup_false {r : Request} (h : ∀ t, r ≠ .lookup t) : r.isLookup = false := by
  cases r with
  | lookup t => exact absurd rfl (h t)
  | onRack _ _ _ => rfl
  | clearJam _ => rfl
  | resume => rfl

/-- The second test: in CONFIGURE all but LOOKUP is refused (R146). -/
theorem judgeStation_configure {s : State} {r : Request} (hm : s.mode = .configure) (h : ∀ t, r ≠ .lookup t) (n : NodeNo)
    (role : Role) : judgeStation s n role r = .told .mode none :=
  if_pos ⟨hm, isLookup_false h⟩

/-- The third test: a role without the right (R146, Table 7-1). -/
theorem judgeStation_notAllowed {s : State} {role : Role} {r : Request} (hm : s.mode ≠ .configure) (h : role.may r = false)
    (n : NodeNo) : judgeStation s n role r = .told .notAllowed none := by
  rw [judgeStation, if_neg fun both => hm both.1, if_neg (by simp [h])]
  rfl

/-! ### Who has no right (Table 7-1) -/

section rights

variable {role : Role} (tag : Option Tag) (expected : Option RackState)

theorem may_send_false (h : ∀ k, role ≠ .load k) : role.may (.onRack .send tag expected) = false := by
  cases role with
  | load k => exact absurd rfl (h k)
  | unload | reader _ | floor => rfl

theorem may_holder_false {op : RackOp} (h : op = .claim ∨ op = .unloadDone ∨ op = .rewash ∨ op = .release)
    (other : role ≠ .unload) : role.may (.onRack op tag expected) = false := by
  cases role with
  | unload => exact absurd rfl other
  | load _ | reader _ | floor => obtain rfl | rfl | rfl | rfl := h <;> rfl

theorem may_hold_false (unload : role ≠ .unload) (floor : role ≠ .floor) (reason : Option HoldReason) :
    role.may (.onRack (.hold reason) tag expected) = false ∧ role.may (.onRack (.unhold reason) tag expected) = false := by
  cases role with
  | unload => exact absurd rfl unload
  | floor => exact absurd rfl floor
  | load _ | reader _ => exact ⟨rfl, rfl⟩

variable (role)

/-- The reason SUPERVISOR is no station's (R157, R158). -/
theorem may_holdSupervisor_false : role.may (.onRack (.hold (some .supervisor)) tag expected) = false ∧
    role.may (.onRack (.unhold (some .supervisor)) tag expected) = false := by
  cases role <;> exact ⟨rfl, rfl⟩

theorem may_forceRelease_false : role.may (.onRack .forceRelease tag expected) = false := by
  cases role <;> rfl

variable {role}

theorem may_floor_false (other : role ≠ .floor) : (∀ m, role.may (.clearJam m) = false) ∧ role.may .resume = false := by
  cases role with
  | floor => exact absurd rfl other
  | load _ | unload | reader _ => exact ⟨fun _ => rfl, rfl⟩

end rights

theorem stationTestsInOrder : Says.StationTestsInOrder := by
  intro s c n x q heard row
  have he := exec_rackRow row s
  refine ⟨exec_malformed heard row, fun r parsed hm noLookup => ?_, fun r parsed hm noRight => ?_⟩
  · exact stationTells_of he heard parsed (judgeStation_configure ((requested_mode s n q).trans hm) noLookup n x.role)
  · refine stationTells_of he heard parsed (judgeStation_notAllowed (by rwa [requested_mode]) ?_ n)
    obtain ⟨⟨t, ex, rfl⟩, other⟩ | ⟨⟨op, t, ex, rfl, holder⟩, other⟩ | ⟨⟨reason, t, ex, rfl | rfl⟩, unload, floor⟩ |
      ⟨t, ex, rfl | rfl⟩ | ⟨t, ex, rfl⟩ | ⟨⟨m, rfl⟩ | rfl, other⟩ := noRight
    · exact may_send_false t ex other
    · exact may_holder_false t ex holder other
    · exact (may_hold_false t ex unload floor reason).1
    · exact (may_hold_false t ex unload floor reason).2
    · exact (may_holdSupervisor_false x.role t ex).1
    · exact (may_holdSupervisor_false x.role t ex).2
    · exact may_forceRelease_false x.role t ex
    · exact (may_floor_false other).1 m
    · exact (may_floor_false other).2

/-! ### The tag and the expected state -/

/-- A request that is read as one about a tag carries that tag (R147). -/
theorem argument_of_parse {q : RackRequest} {op : RackOp} {t : Tag} {expected : Option RackState}
    (h : RackRequest.parse q = some (.onRack op (some t) expected)) : q.argument = .tag t := by
  simp only [RackRequest.parse, Option.bind_eq_bind, Option.bind_eq_some_iff] at h
  obtain ⟨ex, -, reason, -, h⟩ := h
  split at h
  case h_4 =>
    obtain ⟨_, -, same⟩ := Option.map_eq_some_iff.1 h
    cases same
    assumption
  case h_2 =>
    obtain ⟨_, -, other⟩ := Option.map_eq_some_iff.1 h
    cases other
  all_goals cases h

/-- The fourth and fifth test (R146, R149). -/
theorem carryOut_refuses (s : State) (src : Source) (op : RackOp) (t : Tag) (expected : Option RackState) :
    (s.find t = none → carryOut s src (.onRack op (some t) expected) = .told .notFound none) ∧
    ∀ e y st, s.find t = some e → s.entry? e = some y → expected = some st → y.state ≠ st →
      carryOut s src (.onRack op (some t) expected) = s.about .mismatch e := by
  refine ⟨fun hfind => ?_, ?_⟩
  · simp only [carryOut, hfind]
    rfl
  · rintro e y st hfind hy rfl other
    simp [carryOut, hfind, testExpected, hy, Ne.symm other]

/-- The body of a supervisor's answer about a tag, without a summary and with one. -/
theorem echo_argument {q : RackRequest} {t : Tag} (h : q.argument = .tag t) : echoBody q none = t.bytes ∧
    ∀ (s : State) e, echoBody q (s.summary? e) = t.bytes ++ s.summaryBytes e := by
  obtain ⟨k, _, expected, reason⟩ := q
  cases h
  exact ⟨List.append_nil _, echo_tag k t expected reason⟩

theorem tagAndExpectedState : Says.TagAndExpectedState := by
  intro s more c q op t expected parsed
  obtain ⟨echo, echoSummary⟩ := echo_argument (argument_of_parse parsed)
  refine ⟨fun row may hp => ?_, fun n x row heard may hm => ?_⟩
  · obtain ⟨notFound, mismatch⟩ := carryOut_refuses (s.taken c) (.supervisor []) op t expected
    rw [taken_find] at notFound mismatch
    refine ⟨fun hfind => ?_, fun e y st hfind hy hex other => ?_⟩
    · have tells := supervisorTells_of (exec_rackRow row s) hp parsed may (by decide) (notFound hfind)
      rwa [echo] at tells
    · have told := (mismatch e y st hfind ((taken_entry s c e).trans hy) hex other).trans (taken_about s c _ e)
      have tells := supervisorTells_of (exec_rackRow row s) hp parsed may (by decide) told
      rwa [echoSummary] at tells
  · obtain ⟨notFound, mismatch⟩ := carryOut_refuses (s.requested n q) (.station n) op t expected
    rw [requested_find] at notFound mismatch
    have judged := judgeStation_of (s := s.requested n q) (n := n) (by rwa [requested_mode]) may
    refine ⟨fun hfind => ?_, fun e y st hfind hy hex other => ?_⟩
    · exact stationTells_of (exec_rackRow row s) heard parsed (judged.trans (notFound hfind))
    · exact stationTells_of (exec_rackRow row s) heard parsed
        ((judged.trans (mismatch e y st hfind ((requested_entry s n q e).trans hy) hex other)).trans
          (about_requested s n q _ e))

/-! ### The overrun, and what is disregarded -/

theorem updNode_of {s : State} {n : NodeNo} {x : Node} (hx : s.node? n = some x) (f : Node → Node) :
    s.updNode n f = s.putNode n (some (f x)) := by
  rw [State.updNode, hx]
  rfl

/-- A request of a node already pending (R142). -/
theorem takeRequest_overrun {s : State} {n : NodeNo} {x : Node} (hx : s.node? n = some x) (pending : x.request ≠ none)
    (q : RackRequest) : s.takeRequest n q = s.putNode n (some { x with overrun := true }) := by
  simp only [State.takeRequest, hx, if_pos (Option.isSome_iff_ne_none.2 pending), updNode_of hx]

/-- Outside QUIET nothing wakes (R206). -/
theorem wake_awake {s : State} (h : s.mode ≠ .quiet) (announce : Bool) : s.wake announce = s := if_neg h

/-- A station is heard where its node is PRESENT and the reply windows of a round run (R117, R129, R142). -/
theorem hears_iff {s : State} {n : NodeNo} :
    s.hears n = true ↔ (∃ x, s.node? n = some x ∧ x.presence = .present) ∧ ∃ r, s.link.phase = .windows r := by
  have listens : s.listens = true ↔ ∃ r, s.link.phase = .windows r := by
    unfold State.listens
    cases s.link.phase <;> simp
  rw [State.hears, Bool.and_eq_true, listens]
  simp [Option.any_eq_true]

theorem overrunSetsMark : Says.OverrunSetsMark := by
  intro s c n x q r phase row hx present pending
  have heard : s.hears n = true := hears_iff.2 ⟨⟨x, hx, present⟩, r, phase⟩
  have marked : exec c s = .next ((s.putNode n (some { x with overrun := true })).wake true).refreshOutputs := by
    rw [exec_rackRow row, rackCommand, if_pos heard, takeRequest_overrun hx pending]
  refine ⟨marked, fun awake => ⟨_, marked, ?_⟩⟩
  rw [wake_awake (s := s.putNode n (some { x with overrun := true })) awake, ← refreshOutputs_out]
  rfl

theorem stationDisregarded : Says.StationDisregarded := by
  intro s c n q row vain
  rw [exec_rackRow row, rackCommand, if_neg]
  rw [hears_iff]
  rintro ⟨⟨x, hx, present⟩, r, phase⟩
  exact vain.elim (fun silent => silent r phase) fun away => away x hx present

end Sys2Proof.Machine

/-- Settles O55. -/
theorem stationTests : Obligations.StationTests :=
  ⟨stationTestsInOrder, tagAndExpectedState, overrunSetsMark, stationDisregarded⟩
end

section
/-! PROOF. CLAIM of an UNLOAD node (R146, R150, R153). -/

open Sys2Proof Sys2Proof.Machine

namespace Sys2Proof.Machine

/-! ### The unload reach -/

/-- The rack stands in EXIT, at a position within the unload reach (R153). -/
def InUnloadReach (s : State) (e : EntryNo) (y : Entry) : Prop :=
  ∃ m g, y.location = some (.segment m) ∧ s.seg? m = some g ∧ g.config.kind = .exit ∧ e ∈ g.queue ∧
    g.queue.idxOf e + 1 ≤ g.config.reach

theorem withinReach_iff (s : State) (e : EntryNo) (y : Entry) : s.withinReach e y = true ↔ InUnloadReach s e y := by
  unfold State.withinReach
  split
  next m located =>
    have position : ∀ g : Segment, e ∈ g.queue → positionIn g.queue e = g.queue.idxOf e + 1 := fun g queued => if_pos queued
    rw [Option.any_eq_true]
    simp only [Bool.and_eq_true, beq_iff_eq, List.contains_iff_mem, decide_eq_true_eq]
    constructor
    · rintro ⟨g, hg, ⟨exit, queued⟩, reach⟩
      exact ⟨m, g, located, hg, exit, queued, position g queued ▸ reach⟩
    · rintro ⟨m', g, here, hg, exit, queued, reach⟩
      cases located.symm.trans here
      exact ⟨g, hg, ⟨exit, queued⟩, (position g queued).symm ▸ reach⟩
  next elsewhere =>
    refine iff_of_false Bool.false_ne_true ?_
    rintro ⟨m, _, here, -⟩
    exact elsewhere m here

theorem inUnloadReach_requested (s : State) (n : NodeNo) (q : RackRequest) (e : EntryNo) (y : Entry) :
    InUnloadReach (s.requested n q) e y ↔ InUnloadReach s e y := by
  simp only [InUnloadReach, requested_seg]

/-! ### What CLAIM comes to for the rack it names -/

/-- The answer to a CLAIM that changes nothing (R150, R153). -/
def ClaimAnswer (s : State) (n : NodeNo) (e : EntryNo) (y : Entry) (r : Result) : Prop :=
  (y.state = .unloading ∧ y.claim = some n ∧ r = .done) ∨ (y.state = .unloading ∧ y.claim ≠ some n ∧ r = .claimed) ∨
    (y.state = .washing ∧ r = .inPass) ∨
    (y.state ≠ .unloading ∧ y.state ≠ .washing ∧ ¬ (y.state = .cleared ∧ InUnloadReach s e y) ∧ r = .notHere)

/-- A CLEARED rack within the reach is taken under the node's claim (R153). -/
theorem claim_did {s : State} {e : EntryNo} {y : Entry} (hy : s.entry? e = some y) (cleared : y.state = .cleared)
    (reach : InUnloadReach s e y) (n : NodeNo) : refusePassOrMissing s e y (doClaim s n e y) =
      .did (s.putEntry e (some { y with state := .unloading, claim := some n })) fun u => u.summary? (some e) := by
  rw [refusePassOrMissing, if_neg (by simp [cleared]), if_neg (by simp [cleared]), doClaim, if_neg (by simp [cleared]),
    if_pos ⟨cleared, (withinReach_iff s e y).2 reach⟩, State.change, updEntry_of hy]

theorem claim_told {s : State} {n : NodeNo} {e : EntryNo} {y : Entry} {r : Result} (answer : ClaimAnswer s n e y r) :
    refusePassOrMissing s e y (doClaim s n e y) = s.about r e := by
  rcases answer with ⟨unloading, own, rfl⟩ | ⟨unloading, other, rfl⟩ | ⟨washing, rfl⟩ | ⟨idle, washing, away, rfl⟩
  · rw [refusePassOrMissing, if_neg (by simp [unloading]), if_neg (by simp [unloading]), doClaim, if_pos unloading, if_pos own]
  · rw [refusePassOrMissing, if_neg (by simp [unloading]), if_neg (by simp [unloading]), doClaim, if_pos unloading, if_neg other]
  · exact if_pos washing
  · rw [← withinReach_iff] at away
    rw [refusePassOrMissing, if_neg washing, doClaim, if_neg idle, if_neg away, ite_self]

/-! ### CLAIM of an UNLOAD node that is heard -/

section claim

variable {s : State} {n : NodeNo} {x : Node} {t : Tag} {e : EntryNo} {y : Entry} {expected : Option Byte} (heard : Heard s n x)
  (role : x.role = .unload) (mode : s.mode ≠ .configure) (hfind : s.find t = some e) (hy : s.entry? e = some y)
  (met : Expects expected y.state)

include role mode hfind hy met

/-- The request is read, and passes the tests of R146 up to the rule of its own. -/
theorem claim_judged : ∃ r, RackRequest.parse ⟨3, .tag t, expected, none⟩ = some r ∧ ∀ q,
    let u := s.requested n q
    judgeStation u n x.role r = refusePassOrMissing u e y (doClaim u n e y) := by
  obtain ⟨ex, read, same⟩ := expects_in met
  refine ⟨.onRack .claim (some t) ex, parse_reason read rfl rfl (by decide), fun q => ?_⟩
  have carried := carryOut_tag ((requested_find s n q t).trans hfind) ((requested_entry s n q e).trans hy) same (.station n) .claim
  exact (judgeStation_of (by rwa [requested_mode]) (by rw [role]; rfl)).trans carried

include heard

theorem claim_takes (cleared : y.state = .cleared) (reach : InUnloadReach s e y) :
    let q : RackRequest := ⟨3, .tag t, expected, none⟩
    StationTakes (.claim (.station n) t expected) n q s
      ((s.requested n q).putEntry e (some { y with state := .unloading, claim := some n })) fun u => u.summary? (some e) := by
  intro q
  obtain ⟨r, parsed, judged⟩ := claim_judged (n := n) role mode hfind hy met
  have did := claim_did ((requested_entry s n q e).trans hy) cleared ((inUnloadReach_requested s n q e y).2 reach) n
  exact stationTakes_of rfl heard parsed ((judged _).trans did) fun u => refreshOutputs_summary u _

theorem claim_tells {r : Result} (answer : ClaimAnswer s n e y r) :
    StationTells (.claim (.station n) t expected) n ⟨3, .tag t, expected, none⟩ s r (s.summary? (some e)) := by
  obtain ⟨_, parsed, judged⟩ := claim_judged (n := n) role mode hfind hy met
  have told := claim_told (s := s.requested n ⟨3, .tag t, expected, none⟩)
    (by rwa [ClaimAnswer, inUnloadReach_requested])
  exact stationTells_of rfl heard parsed (((judged _).trans told).trans (about_requested s n _ r e))

end claim

end Sys2Proof.Machine

/-- Settles O51: `claim_did` and `claim_told` say what CLAIM comes to for the rack it names, `claim_judged` that nothing else
stands in its way. -/
theorem claimTakes : Obligations.ClaimTakes := by
  intro s n x t e y expected heard role mode hfind hy met c q atReach
  have tells : ∀ r, ClaimAnswer s n e y r → StationTells c n q s r (s.summary? (some e)) := fun _ =>
    claim_tells heard role mode hfind hy met
  refine ⟨claim_takes heard role mode hfind hy met, fun unloading own => ?_, fun unloading other => ?_, fun washing => ?_,
    fun idle washing away => ?_⟩
  · exact tells .done (.inl ⟨unloading, own, rfl⟩)
  · exact tells .claimed (.inr (.inl ⟨unloading, other, rfl⟩))
  · exact tells .inPass (.inr (.inr (.inl ⟨washing, rfl⟩)))
  · exact tells .notHere (.inr (.inr (.inr ⟨idle, washing, away, rfl⟩)))
end

section
/-! PROOF. ACK_NODE: the bad-request mark of a node (R147, R192). -/

open Sys2Proof Sys2Proof.Machine

namespace Sys2Proof.Machine

/-! ### An answer read off what settling leaves alone -/

/-- What follows a change in the same step leaves the node table (R75, R173, R205). -/
theorem SettledFrom.nodes {before s t : State} (settled : SettledFrom before s t) : t.nodes = s.nodes := by
  rw [settled.offered]
  exact (outer_offerStores s.demand.length s).nodes

/-- The body of an answer may be named by what it comes to in the states that settling can leave. -/
theorem Takes.body_eq {c : Instr} {s s' : State} {body body' : State → List Byte} (takes : Takes c s s' body)
    (same : ∀ t, SettledFrom s s' t → body t = body' t) : Takes c s s' body' := by
  obtain ⟨t, next, settled⟩ := takes
  exact ⟨t, same t settled ▸ next, settled⟩

/-! ### ACK_NODE -/

theorem exec_ackNode (s : State) (address : Byte) (more : List Byte) :
    exec (.ackNode address more) s = portDo (.ackNode address more) (fun u => ackNodeTaken u address) s := rfl

theorem flagField_eq (b : Bool) : flagField b = [if b then 1 else 0] := by cases b <;> rfl

theorem markBytes_of {s : State} {n : NodeNo} {x : Node} (hx : s.node? n = some x) :
    s.markBytes n = [if x.overrun then 1 else 0, if x.badRequest then 1 else 0] := by
  rw [State.markBytes, hx]
  simp only [flagField_eq, List.singleton_append]

/-- The range test, and what becomes of a node at the address (R192). -/
theorem ackNodeTaken_outOfRange {address : Byte} (bad : nodeOfByte address = none) (s : State) :
    ackNodeTaken s address = tell .badRequest := by
  rw [ackNodeTaken, bad]

theorem ackNodeTaken_cases {address : Byte} {n : NodeNo} (named : nodeOfByte address = some n) (s : State) :
    (s.node? n = none → ackNodeTaken s address = tell .notFound) ∧
    ∀ x, s.node? n = some x →
      ackNodeTaken s address = .did (s.putNode n (some { x with badRequest := false })) fun u => u.markBytes n := by
  rw [ackNodeTaken, named]
  refine ⟨fun hx => if_neg (by simp [hx]), fun x hx => ?_⟩
  rw [← updNode_of hx fun y => { y with badRequest := false }]
  exact if_pos (by simp [hx])

end Sys2Proof.Machine

/-- Settles O16: `ackNodeTaken_cases` says what becomes of the node, `SettledFrom.nodes` that the marks answered are those it is
left with. -/
theorem ackNodeClearsMark : Obligations.AckNodeClearsMark := by
  intro s more address hp
  have row := exec_ackNode s address more
  refine ⟨fun bad => tellsBad_of row hp (ackNodeTaken_outOfRange (nodeOfByte_bad bad) _), fun n haddress hx => ?_,
    fun n x haddress hx => ?_⟩
  · obtain ⟨absent, -⟩ := ackNodeTaken_cases (nodeOfByte_of haddress) (s.taken (.ackNode address more))
    exact tells_plain row hp (by decide) (absent ((taken_node s _ n).trans hx))
  · obtain ⟨-, defined⟩ := ackNodeTaken_cases (nodeOfByte_of haddress) (s.taken (.ackNode address more))
    refine (takes_of row hp (defined x ((taken_node s _ n).trans hx)) rfl).body_eq fun t settled => ?_
    have cleared : t.node? n = some { x with badRequest := false } :=
      (node_of_nodes settled.nodes n).trans ((node_putNode _ n n _).trans (if_pos rfl))
    exact markBytes_of cleared
end

section
/-! PROOF. LOOKUP from either source, FORCE_RELEASE, and the requests the supervisor may not make (R145, R146, R151, R159, R164). -/

open Sys2Proof Sys2Proof.Machine

namespace Sys2Proof.Machine

/-! ### LOOKUP -/

/-- R151. -/
theorem carryOut_lookup (s : State) (src : Source) (t : Tag) :
    (s.find t = none → carryOut s src (.lookup t) = .told .notFound none) ∧
    ∀ e, s.find t = some e → carryOut s src (.lookup t) = s.about .done e := by
  rw [carryOut]
  exact ⟨fun absent => by rw [absent]; rfl, fun e found => by rw [found]⟩

/-- LOOKUP is every role's right, in CONFIGURE too (R146, Table 7-1). -/
theorem judgeStation_lookup (s : State) (n : NodeNo) (role : Role) (t : Tag) :
    judgeStation s n role (.lookup t) = carryOut s (.station n) (.lookup t) := by
  have may : role.may (.lookup t) = true := by cases role <;> rfl
  have passes : ¬ (s.mode = .configure ∧ (Request.lookup t).isLookup = false) := nofun
  exact (if_neg passes).trans (if_pos may)

/-! ### FORCE_RELEASE -/

/-- R159. -/
theorem doForceRelease_cases {s : State} {e : EntryNo} {y : Entry} (hy : s.entry? e = some y) :
    (y.state = .unloading → doForceRelease s e y =
      .did (s.putEntry e (some { y with claim := none, state := .cleared })) fun u => u.summary? (some e)) ∧
    (y.state ≠ .unloading → doForceRelease s e y = s.about .done e) := by
  refine ⟨fun unloading => ?_, fun idle => if_neg idle⟩
  rw [doForceRelease, if_pos unloading, State.change, updEntry_of hy, Entry.unclaim]

theorem forceReleaseTakes : Says.ForceReleaseTakes := by
  intro s more t e y expected hp hfind hy met c
  obtain ⟨ex, read, same⟩ := expects_in met
  have parsed := parse_reason (t := t) (op := .forceRelease) (k := 11) (reason := none) read rfl rfl (by decide)
  have entry : (s.taken c).entry? e = some y := (taken_entry s c e).trans hy
  have carried := carryOut_tag ((taken_find s c t).trans hfind) entry same (.supervisor []) .forceRelease
  obtain ⟨releases, stays⟩ := doForceRelease_cases entry
  refine ⟨fun unloading => ?_, fun idle => ?_⟩
  · have takes := supervisorTakes_of (more := more) (c := c) rfl hp parsed rfl (carried.trans (releases unloading)) rfl
    simpa only [echo_tag] using takes
  · have told := (carried.trans (stays idle)).trans (taken_about s c _ e)
    have tells := supervisorTells_of (more := more) (c := c) rfl hp parsed rfl (by decide) told
    rwa [echo_tag] at tells

/-! ### What the supervisor may not ask -/

/-- A request of the supervisor's without the right is answered with its echo alone (R164). -/
theorem supervisor_notAllowed {c : Instr} {more : List Byte} {q : RackRequest} {r : Request} {s : State}
    (row : exec c s = rackCommand c (.supervisor more) q s) (hp : s.port.turnaround = false)
    (parsed : RackRequest.parse q = some r) (noRight : supervisorMay r = false) :
    Tells c s .notAllowed (argumentBytes q.argument) := by
  have taken : supervisorTaken q (s.taken c) = .told .notAllowed fun _ => echoBody q none := by
    simp only [supervisorTaken, parsed, judgeSupervisor, noRight, Bool.false_eq_true, if_false, plain]
  have echo : echoBody q none = argumentBytes q.argument := List.append_nil _
  rw [← echo]
  exact tells_of (body := fun _ => echoBody q none) row hp (by decide) taken

theorem supervisorMayNot : Says.SupervisorMayNot := by
  intro s more t tag expected hp code
  obtain ⟨ex, read⟩ := code_in code
  have refused : ∀ (c : Instr) (k : Byte) (op : RackOp), exec c s = rackCommand c (.supervisor more) ⟨k, .tag t, expected, none⟩ s →
      rackOp k.toNat none = some op → k.toNat ≠ 1 → supervisorMay (.onRack op (some t) ex) = false →
      Tells c s .notAllowed t.bytes := fun c k op row kind no_lookup noRight =>
    supervisor_notAllowed row hp (parse_reason read rfl kind no_lookup) noRight
  refine ⟨?_, refused _ 3 .claim rfl rfl (by decide) rfl, refused _ 4 .unloadDone rfl rfl (by decide) rfl,
    refused _ 5 .rewash rfl rfl (by decide) rfl, refused _ 6 .release rfl rfl (by decide) rfl⟩
  have tells := supervisor_notAllowed (c := .send (.supervisor more) tag expected) (more := more) rfl hp (parse_send (tag := tag) read) rfl
  cases tag with
  | some _ => exact tells
  | none => exact tells

end Sys2Proof.Machine

/-- Settles O49: `carryOut_lookup` says what LOOKUP comes to, `judgeStation_lookup` that no station is refused it. -/
theorem lookupReports : Obligations.LookupReports := by
  intro s more tag
  have parsed : RackRequest.parse ⟨1, .tag tag, none, none⟩ = some (.lookup tag) := rfl
  obtain ⟨echo, echoSummary⟩ := echo_argument (q := ⟨1, .tag tag, none, none⟩) rfl
  refine ⟨fun hp => ?_, fun n x heard => ?_⟩
  · intro c
    obtain ⟨notFound, found⟩ := carryOut_lookup (s.taken c) (.supervisor []) tag
    rw [taken_find] at notFound found
    refine ⟨fun absent => ?_, fun e hfind => ?_⟩
    · have tells := supervisorTells_of (c := c) (more := more) rfl hp parsed rfl (by decide) (notFound absent)
      rwa [echo] at tells
    · have told := (found e hfind).trans (taken_about s c _ e)
      have tells := supervisorTells_of (c := c) (more := more) rfl hp parsed rfl (by decide) told
      rwa [echoSummary] at tells
  · intro c q
    have judged := judgeStation_lookup (s.requested n q) n x.role tag
    obtain ⟨notFound, found⟩ := carryOut_lookup (s.requested n q) (.station n) tag
    rw [requested_find] at notFound found
    refine ⟨fun absent => stationTells_of rfl heard parsed (judged.trans (notFound absent)), fun e hfind => ?_⟩
    exact stationTells_of rfl heard parsed ((judged.trans (found e hfind)).trans (about_requested s n q _ e))

/-- Settles O54. -/
theorem supervisorRights : Obligations.SupervisorRights := ⟨forceReleaseTakes, supervisorMayNot⟩
end

section
/-! PROOF. The reads of the port: READ_COUNTS, READ_ENTRY, READ_SEGMENT, READ_TUNNEL, READ_NODE and READ_DEMAND, what they answer
and what they refuse (R181, R189 to R191). -/

open Sys2Proof Sys2Proof.Machine

namespace Sys2Proof.Machine

/-! ### A read that is taken -/

/-- A read is answered off the state it finds, and changes nothing but the port (R189): taking the transaction writes the port
alone, off which no read is made (`untouched`). -/
theorem answering_of {c : Instr} {read : State → Result × List Byte} {s : State} {r : Result} {body : List Byte}
    (row : exec c s = portRead c read s) (hp : s.port.turnaround = false)
    (untouched : read (s.beginTransaction (portBytes c)) = read s) (answer : read s = (r, body)) :
    exec c s = .next (s.answering c r body) := by
  rw [row, portRead, if_neg (by simp [hp])]
  dsimp only
  rw [untouched, answer]
  rfl

section
variable {s : State} {more : List Byte} (hp : s.port.turnaround = false) {r : Result} {body : List Byte}
include hp

theorem readCounts_answering (answer : s.readCounts = (r, body)) :
    exec (.readCounts more) s = .next (s.answering (.readCounts more) r body) :=
  answering_of rfl hp rfl answer

theorem readEntry_answering {sel : EntrySelector} (answer : s.readEntry sel = (r, body)) :
    exec (.readEntry sel more) s = .next (s.answering (.readEntry sel more) r body) :=
  answering_of (read := fun u => u.readEntry sel) rfl hp rfl answer

theorem readSegment_answering {seg start : Byte} (answer : s.readSegment seg start = (r, body)) :
    exec (.readSegment seg start more) s = .next (s.answering (.readSegment seg start more) r body) :=
  answering_of (read := fun u => u.readSegment seg start) rfl hp rfl answer

theorem readTunnel_answering {start : Byte} (answer : s.readTunnel start = (r, body)) :
    exec (.readTunnel start more) s = .next (s.answering (.readTunnel start more) r body) :=
  answering_of (read := fun u => u.readTunnel start) rfl hp rfl answer

theorem readNode_answering {address : Byte} (answer : s.readNode address = (r, body)) :
    exec (.readNode address more) s = .next (s.answering (.readNode address more) r body) :=
  answering_of (read := fun u => u.readNode address) rfl hp rfl answer

theorem readDemand_answering {start : Byte} (answer : s.readDemand start = (r, body)) :
    exec (.readDemand start more) s = .next (s.answering (.readDemand start more) r body) :=
  answering_of (read := fun u => u.readDemand start) rfl hp rfl answer

end

/-! ### What each read answers -/

/-- The byte of a number that a byte gave is that byte. -/
theorem byteField_of {b : Byte} {n : Nat} (h : b.toNat = n) : byteField n = [b] := by
  rw [byteField_eq, ← h, BitVec.ofNat_toNat, BitVec.setWidth_eq]

theorem readPlace_free {s : State} {e : EntryNo} (free : s.entry? e = none) :
    s.readPlace e = (.done, byteField e.val ++ [1, BitVec.ofNat 8 (positionIn s.freeList e)]) := by
  simp only [State.readPlace, free, byteField_eq, flagField_eq, List.cons_append, List.nil_append, if_true]

theorem readPlace_inUse {s : State} {e : EntryNo} {x : Entry} (hx : s.entry? e = some x) :
    s.readPlace e = (.done, byteField e.val ++ 0 :: s.entryBytes e x) := by
  simp only [State.readPlace, hx, flagField_eq, List.append_assoc, List.singleton_append, Bool.false_eq_true, if_false]

theorem readEntry_number {n : Byte} {e : EntryNo} (h : n.toNat = e.val) (s : State) :
    s.readEntry (.number n) = s.readPlace e := by
  rw [State.readEntry, dif_pos (by omega)]
  exact congrArg s.readPlace (Fin.ext h)

theorem readEntry_outOfRange {n : Byte} (h : 127 < n.toNat) (s : State) :
    s.readEntry (.number n) = (.badRequest, []) := dif_neg (by omega)

theorem readEntry_tag {s : State} {t : Tag} {e : EntryNo} (found : s.find t = some e) :
    s.readEntry (.tag t) = s.readPlace e := by simp only [State.readEntry, found]

theorem readEntry_unknownTag {s : State} {t : Tag} (absent : s.find t = none) :
    s.readEntry (.tag t) = (.notFound, []) := by simp only [State.readEntry, absent]

theorem readSegment_bad {seg start : Byte} (bad : 31 < seg.toNat ∨ start = 0) (s : State) :
    s.readSegment seg start = (.badRequest, []) := by
  obtain above | rfl := bad
  · rw [State.readSegment, segOfByte_bad above]
  · rw [State.readSegment]
    cases segOfByte seg <;> rfl

/-- Both arguments in range: NOT_FOUND, or the record with as much of the queue as fits (R190). -/
theorem readSegment_cases {seg start : Byte} {n : SegNo} (hn : seg.toNat = n.val) (hs : start ≠ 0) (s : State) :
    (s.seg? n = none → s.readSegment seg start = (.notFound, [])) ∧
    ∀ g, s.seg? n = some g → s.readSegment seg start =
      (.done, withList (g.config.bytes n ++ s.segmentBytes n g) start.toNat g.queue s.queueItem) := by
  simp only [State.readSegment, segOfByte_of hn, if_neg hs]
  exact ⟨fun hg => by rw [hg], fun g hg => by rw [hg]⟩

theorem readTunnel_cases {start : Byte} (hs : start ≠ 0) (s : State) :
    (s.tunnel.config = none → s.readTunnel start = (.notFound, [])) ∧
    ∀ c, s.tunnel.config = some c → s.readTunnel start =
      (.done, withList (s.tunnelBytes c) start.toNat s.tunnel.list s.tunnelItem) := by
  rw [State.readTunnel, if_neg hs]
  exact ⟨fun hc => by rw [hc], fun c hc => by rw [hc]⟩

theorem readNode_cases {address : Byte} {n : NodeNo} (hn : address.toNat = n.val + 1) (s : State) :
    (s.node? n = none → s.readNode address = (.notFound, [])) ∧
    ∀ x, s.node? n = some x → s.readNode address = (.done, s.nodeBytes n x) := by
  rw [State.readNode, nodeOfByte_of hn]
  exact ⟨fun hx => by simp only [hx], fun x hx => by simp only [hx]⟩

theorem readNode_bad {address : Byte} (bad : address = 0 ∨ 16 < address.toNat) (s : State) :
    s.readNode address = (.badRequest, []) := by
  rw [State.readNode, nodeOfByte_bad bad]

theorem readsAnswer : Says.ReadsAnswer := by
  intro s more hp
  refine ⟨readCounts_answering hp rfl, fun n e hn free => ?_, fun n e x hn hx => ?_, fun t e x found hx => ?_,
    fun seg start n g hn hs hg => ?_, fun start c hs hc => ?_, fun address n x hn hx => ?_, fun start hs => ?_⟩
  · refine readEntry_answering hp ((readEntry_number hn s).trans ((readPlace_free free).trans ?_))
    rw [byteField_of hn, List.singleton_append]
  · refine readEntry_answering hp ((readEntry_number hn s).trans ((readPlace_inUse hx).trans ?_))
    rw [byteField_of hn, List.singleton_append]
  · refine readEntry_answering hp ((readEntry_tag found).trans ((readPlace_inUse hx).trans ?_))
    rw [byteField_eq, List.singleton_append]
  · exact readSegment_answering hp ((readSegment_cases hn hs s).2 g hg)
  · exact readTunnel_answering hp ((readTunnel_cases hs s).2 c hc)
  · exact readNode_answering hp ((readNode_cases hn s).2 x hx)
  · exact readDemand_answering hp (if_neg hs)

theorem readsRefuse : Says.ReadsRefuse := by
  intro s more hp
  refine ⟨fun n above => ?_, fun t absent => ?_, fun seg start bad => ?_, fun seg start n hn hs hg => ?_, ?_,
    fun start hs hc => ?_, fun address bad => ?_, fun address n hn hx => ?_, ?_⟩
  · exact readEntry_answering hp (readEntry_outOfRange above s)
  · exact readEntry_answering hp (readEntry_unknownTag absent)
  · exact readSegment_answering hp (readSegment_bad bad s)
  · exact readSegment_answering hp ((readSegment_cases hn hs s).1 hg)
  · exact readTunnel_answering hp (if_pos rfl)
  · exact readTunnel_answering hp ((readTunnel_cases hs s).1 hc)
  · exact readNode_answering hp (readNode_bad bad s)
  · exact readNode_answering hp ((readNode_cases hn s).1 hx)
  · exact readDemand_answering hp (if_pos rfl)

end Sys2Proof.Machine

/-- Settles O12. -/
theorem readsOfThePort : Obligations.ReadsOfThePort := ⟨readsAnswer, readsRefuse⟩
end

section
/-! PROOF. The dispatcher: a demand flag, an assignment, the best item of a kind, and the offers of the stores (R167 to R169, R172,
R173, R175). -/

open Sys2Proof Sys2Proof.Machine

namespace Sys2Proof.Machine

/-! ### Admission and removal -/

theorem roomForItem_iff {s : State} {n : NodeNo} : s.roomForItem n = true ↔
    ∃ p g, s.parkOf n = some p ∧ s.seg? p = some g ∧ g.queue.length + (g.reservedTransfer + g.reservedDispatch) +
      (s.demand.filter fun i => i.station == n).length < g.config.capacity := by
  have park : ∀ g, (s.parkOf n).bind s.seg? = some g ↔ ∃ p, s.parkOf n = some p ∧ s.seg? p = some g := fun g =>
    Option.bind_eq_some_iff
  rw [State.roomForItem]
  cases found : (s.parkOf n).bind s.seg? with
  | none =>
    refine ⟨nofun, fun ⟨p, g, hp, hg, _⟩ => ?_⟩
    have := (park g).2 ⟨p, hp, hg⟩
    rw [found] at this
    cases this
  | some g =>
    refine decide_eq_true_iff.trans ⟨fun room => ?_, fun ⟨p, h, hp, hh, room⟩ => ?_⟩
    · obtain ⟨p, hp, hg⟩ := (park g).1 found
      exact ⟨p, g, hp, hg, room⟩
    · obtain rfl : h = g := Option.some.inj (((park h).2 ⟨p, hp, hh⟩).symm.trans found)
      exact room

/-- The four conditions of R167, spelled out. -/
theorem admits_iff {s : State} {n : NodeNo} {k : Kind} : s.admits n k = true ↔
    s.mode ≠ .configure ∧ (∀ i ∈ s.demand, i.station ≠ n ∨ i.kind ≠ k) ∧
    (∃ p g, s.parkOf n = some p ∧ s.seg? p = some g ∧ g.queue.length + (g.reservedTransfer + g.reservedDispatch) +
      (s.demand.filter fun i => i.station == n).length < g.config.capacity) ∧ s.demand.length < 32 := by
  have noneThere : (!s.demand.any fun i => i.station == n && i.kind == k) = true ↔
      ∀ i ∈ s.demand, i.station ≠ n ∨ i.kind ≠ k := by
    simp only [Bool.not_eq_true', List.any_eq_false, Bool.and_eq_true, beq_iff_eq, not_and_or, ne_eq]
  rw [State.admits, Bool.and_eq_true, Bool.and_eq_true, Bool.and_eq_true, bne_iff_ne, noneThere, roomForItem_iff,
    decide_eq_true_iff, and_assoc, and_assoc]
  rfl

/-- R169 of a new item. -/
theorem joinQueue_eq (q : List DemandItem) (i : DemandItem) : joinQueue q i =
    if i.chain = .high then (q.filter fun j => j.chain == .high) ++ i :: q.filter fun j => j.chain == .low else q ++ [i] := by
  rw [joinQueue]
  cases i.chain <;> rfl

theorem touchIdle_eq (s : State) : s.touchIdle = { s with idle := if s.mode = .quiet then s.idle else 0 } := by
  rw [State.touchIdle]
  split <;> rfl

theorem demandFlagTaken : Says.DemandFlagTaken := by
  intro s n chain d k
  refine ⟨fun clear => if_neg (by simp [clear]), fun raised => ?_⟩
  have flagged : s.takeFlag n chain d k = if s.admits n k then s.admitItem n chain k else s := if_pos raised
  refine ⟨fun refused => ?_, fun admitted => ?_⟩
  · exact flagged.trans (if_neg (mt admits_iff.1 refused))
  · rw [flagged, if_pos (admits_iff.2 admitted), State.admitItem, touchIdle_eq, joinQueue_eq]

/-! ### Assignment -/

/-- The record of a rack assigned to a node (R172). -/
def Entry.assignedTo (x : Entry) (n : NodeNo) : Entry := { x with assignment := some n, state := .returning, staleAge := 0 }

theorem assign_entries (s : State) (e : EntryNo) (i : DemandItem) :
    (s.assign e i).entries = (s.updEntry e (·.assignedTo i.station)).entries := by
  rw [State.assign]
  split <;> simp only [updSeg_entries, touchIdle_entries] <;> rfl

/-- An assignment reserves a place in the park of the item's node (R30, R172). -/
theorem assign_segments {s : State} {i : DemandItem} {p : SegNo} (hpark : s.parkOf i.station = some p) (e : EntryNo) :
    (s.assign e i).segments = (s.updSeg p fun g => { g with reservedDispatch := g.reservedDispatch + 1 }).segments := by
  have park : ∀ (f : Entry → Entry) q o,
      State.parkOf { s.updEntry e f with demand := q, idle := o } i.station = some p := fun _ _ _ => hpark
  rw [State.assign, touchIdle_eq]
  simp only [park]
  rfl

theorem assignmentMade : Says.AssignmentMade := by
  intro s e y i p g hy hpark hg
  have entry : ∀ d, (s.assign e i).entry? d = _ := fun d =>
    (entry_of_entries (assign_entries s e i) d).trans (entry_updEntry s e d _)
  have seg : ∀ m, (s.assign e i).seg? m = _ := fun m =>
    (seg_of_segments (assign_segments hpark e) m).trans (seg_updSeg s p m _)
  refine ⟨?_, fun d hd => ?_, assign_demand s e i, ?_, fun m hm => ?_, assign_tunnel s e i, assign_attention s e i⟩
  · rw [entry, if_pos rfl, hy]
    rfl
  · rw [entry, if_neg hd.symm]
  · rw [seg, if_pos rfl, hg]
    rfl
  · rw [seg, if_neg hm.symm]

/-! ### The best item, and the assignment made next -/

theorem bestItem_says : Says.BestItem := by
  intro s k
  have meets : ∀ i : DemandItem, (i.kind == k && s.servable i) = true ↔ i.kind = k ∧ Servable s i := fun i => by
    rw [Bool.and_eq_true, beq_iff_eq, servable_iff]
  have fails : ∀ i : DemandItem, (i.kind == k && s.servable i) = false ↔ (i.kind = k → ¬ Servable s i) := fun i => by
    rw [← Bool.not_eq_true, meets, not_and]
  refine ⟨fun i => ?_, ?_⟩
  · simp only [State.bestItem, find?_first, meets, fails, and_assoc]
  · simp only [State.bestItem, List.find?_eq_none, meets, not_and]

theorem nextAssignment : Says.NextAssignment := by
  intro s
  refine ⟨fun e i next => nextOffer_some next, nextOffer_none, fun k => ⟨fun e i next => ?_, fun ended => ?_⟩⟩
  · rw [State.offerStores, next]
  · cases k with
    | zero => rfl
    | succ k => rw [State.offerStores, ended]

/-! ### What settling leaves is offered nothing -/

/-- A property that does not look at the stale age holds of both records or of neither. -/
theorem SameButStale.any {x y : Option Entry} (same : SameButStale x y) {p : Entry → Bool}
    (ageless : ∀ z, p { z with staleAge := 0 } = p z) : y.any p = x.any p := by
  have fresh : ∀ o : Option Entry, (o.map fun z => { z with staleAge := 0 }).any p = o.any p := fun o => by
    cases o with
    | none => rfl
    | some z => exact ageless z
  rw [← fresh y, same, fresh x]

/-- Segments and the demand queue are as the offers leave them, entries but for their stale ages (R75, R173). -/
theorem SettledFrom.segments {before s t : State} (settled : SettledFrom before s t) :
    t.segments = (s.offerStores s.demand.length).segments := by rw [settled.offered]

theorem SettledFrom.demand {before s t : State} (settled : SettledFrom before s t) :
    t.demand = (s.offerStores s.demand.length).demand := by rw [settled.offered]

theorem SettledFrom.sameButStale {before s t : State} (settled : SettledFrom before s t) (e : EntryNo) :
    SameButStale ((s.offerStores s.demand.length).entry? e) (t.entry? e) := by
  by_cases ends : ExemptionEnds before t e
  · rw [settled.restarted e ends]
    exact Option.map_map _ _ _
  · rw [settled.kept e ends]
    rfl

theorem storedCount_sameButStale {s t : State} (same : ∀ e, SameButStale (s.entry? e) (t.entry? e)) (k : Kind) :
    t.storedCount k = s.storedCount k := by
  refine congrArg List.length (List.filter_congr fun e _ => ?_)
  exact (same e).any fun _ => rfl

theorem servable_of_segments {s t : State} (hs : t.segments = s.segments) {i : DemandItem} (h : Servable t i) :
    Servable s i := by
  obtain ⟨p, g, hpark, hg, free⟩ := h
  have park : t.parkOf i.station = s.parkOf i.station := parkOf_congr_config (fun m => by rw [seg_of_segments hs m]) _
  exact ⟨p, g, park ▸ hpark, seg_of_segments hs p ▸ hg, free⟩

/-- A store offers its head whatever the stale ages are (R173). -/
theorem storeOffers_sameButStale {s t : State} (hs : t.segments = s.segments)
    (same : ∀ e, SameButStale (s.entry? e) (t.entry? e)) {k : Kind} {e : EntryNo} (h : StoreOffers t k e) :
    StoreOffers s k e := by
  obtain ⟨n, g, x, hg, store, kind, arrived, sound, unheld, known, head, hx, stored, free, counted⟩ := h
  have waits : ((s.entry? e).any fun y => y.state == .stored && y.hold.isNone) = true := by
    rw [← (same e).any fun _ => rfl, hx]
    simp [stored, free]
  obtain ⟨y, hy, waits⟩ := (Option.any_eq_true _ _).1 waits
  simp only [Bool.and_eq_true, beq_iff_eq, Option.isNone_iff_eq_none] at waits
  obtain ⟨stored, free⟩ := waits
  exact ⟨n, g, y, seg_of_segments hs n ▸ hg, store, kind, arrived, sound, unheld, known, head, hy, stored, free,
    storedCount_sameButStale same k ▸ counted⟩

theorem offersMade : Says.OffersMade := by
  intro before s
  have settled := settledFrom_settle before s
  have segments := (refreshOutputs_segments (State.settle before s)).symm.trans settled.segments
  have demand := (refreshOutputs_demand (State.settle before s)).symm.trans settled.demand
  have same : ∀ e, SameButStale ((s.offerStores s.demand.length).entry? e) ((State.settle before s).entry? e) := fun e => by
    rw [← entry_of_entries (refreshOutputs_entries (State.settle before s)) e]
    exact settled.sameButStale e
  refine ⟨fun i hi servable e offers => ?_, s.demand.length, segments, demand, same⟩
  have ended := offerStores_ends s.demand.length s le_rfl
  exact nextOffer_none ended i (demand ▸ hi) (servable_of_segments segments servable) e
    (storeOffers_sameButStale segments same offers)

end Sys2Proof.Machine

/-- Settles O56: `admits_iff` says when a set flag admits, `assign_entries` and `assign_segments` what an assignment leaves;
`offerStores_ends` says that the offers end with none left to make, and what follows them touches stale ages alone. -/
theorem demandAndAssignment : Obligations.DemandAndAssignment :=
  ⟨demandFlagTaken, assignmentMade, bestItem_says, nextAssignment, offersMade⟩
end

section
/-! PROOF. The front of the queue, and the transactions that carry no request: NOP, the turnaround, and the messages that are not
taken (R184 to R187). -/

open Sys2Proof Sys2Proof.Machine

namespace Sys2Proof.Machine

/-! ### The turnaround -/

theorem portRead_tooSoon (c : Instr) (read : State → Result × List Byte) (s : State) (h : s.port.turnaround = true) :
    portRead c read s = .next (s.tooSoon (portBytes c)) := if_pos h

theorem execNop_tooSoon (more : List Byte) (s : State) (h : s.port.turnaround = true) :
    execNop s more = .next (s.tooSoon (portBytes (.nop more))) := congrArg Host.Outcome.next (if_pos h)

theorem execAck_tooSoon (sources : Half) (more : List Byte) (s : State) (h : s.port.turnaround = true) :
    execAck sources s more = .next (s.tooSoon (portBytes (.ack sources more))) := if_pos h

/-- No request of the port is taken while the turnaround runs (R186). -/
theorem exec_tooSoon {c : Instr} {kind : Byte} {body : List Byte} (request : c.portBody = some (kind, body)) {s : State}
    (h : s.port.turnaround = true) : exec c s = .next (s.tooSoon (portBytes c)) := by
  cases c with
  | nop more => exact execNop_tooSoon more s h
  | ack sources more => exact execAck_tooSoon sources more s h
  | readCounts | readEntry | readSegment | readTunnel | readNode | readDemand | readAttention =>
    unfold exec
    exact portRead_tooSoon _ _ s h
  | mode | setParam | setAttention | ackNode | admitRack | retire | restore | clearTable | defineSegment | segmentHold
  | segmentRelease | stepGate | clearStranger | defineTunnel | clearTunnelFault | defineNode | linkReset | steer =>
    unfold exec
    exact portDo_tooSoon _ _ s h
  | clearJam src | resume src | lookup src | send src | claim src | unloadDone src | rewash src | release src | hold src
  | unhold src | forceRelease src =>
    cases src with
    | supervisor => exact portDo_tooSoon _ _ s h
    | station => cases request
  | powerOn | badCheckMessage | unknownRequest | tooSoonTransaction | turnaroundEnd | roundStart | headerSent | roundEnd
  | sightingWindowRunOut | windowEnd | validReply | branchWake | resetPulseEnd | eyeBlock | eyeClear | gateOpen | jam
  | safeStop | secondsTick | stale | promotion | autoQuiet | paceTick | paceCounterZero | encoderCount | pitchReached
  | exitEyeBlock | exitEyeClear | machineLineChange | rinseOkAssert | rinseOkDeassert | dropout | dwellMillisecond =>
    cases request

/-- Nor a message that would not be taken without it (R186). -/
theorem exec_untaken_tooSoon {s : State} (h : s.port.turnaround = true) (bytes : List Byte) :
    exec (.tooSoonTransaction bytes) s = .next (s.tooSoon bytes) ∧
    exec (.badCheckMessage bytes) s = .next (s.tooSoon bytes) ∧
    exec (.unknownRequest bytes) s = .next (s.tooSoon bytes) := ⟨if_pos h, if_pos h, if_pos h⟩

/-! ### The four statements -/

theorem nopKeepsAnswer : Says.NopKeepsAnswer := by
  intro s more idle
  have begun : execNop s more = .next (s.beginTransaction (portBytes (.nop more))) :=
    congrArg Host.Outcome.next (if_neg (by simp [idle]))
  exact begun

theorem turnaroundEnds : Says.TurnaroundEnds := fun _ => rfl

theorem portTooSoon : Says.PortTooSoon := by
  intro s running
  refine ⟨fun c kind body request => exec_tooSoon request running, fun bytes c untaken => ?_⟩
  obtain ⟨tooSoon, badCheck, unknown⟩ := exec_untaken_tooSoon running bytes
  obtain rfl | rfl | rfl := untaken
  · exact tooSoon
  · exact badCheck
  · exact unknown

theorem messagesNotTaken : Says.MessagesNotTaken := by
  intro s bytes idle
  refine ⟨fun bad => ?_, fun kind unknown => ?_⟩
  · have answered : execBadCheckMessage bytes s =
        .next ((s.beginTransaction bytes).answer (bytes[1]?.getD 0) .badCheck []) := by
      rw [execBadCheckMessage, if_neg (by simp [idle]), bad]
    exact answered
  · have answered : execUnknownRequest bytes s = .next ((s.beginTransaction bytes).answer kind .badRequest []) := by
      rw [execUnknownRequest, if_neg (by simp [idle]), unknown]
    exact answered

end Sys2Proof.Machine

/-- Settles O1. -/
theorem stepTakesFront : Obligations.StepTakesFront := fun _ _ _ => rfl

/-- Settles O11. -/
theorem portTransactions : Obligations.PortTransactions :=
  ⟨nopKeepsAnswer, turnaroundEnds, portTooSoon, messagesNotTaken⟩
end

section
/-! PROOF. The attention unit: the two lines after every step, READ_ATTENTION, SET_ATTENTION and ACK (R193 to R198). -/

open Sys2Proof Sys2Proof.Machine

namespace Sys2Proof.Machine

/-! ### The sources and the lines -/

/-- Table 9-2 numbers every place of the attention unit. -/
theorem index_surjective (i : Fin 14) : ∃ a : Source14, a.index = i := by
  have all : ∀ i : Fin 14, ∃ a ∈ [Source14.jam, .stranger, .missing, .tunnelFault, .rinseFail, .asideReached, .holdReached,
      .nodeAbsent, .branchFault, .badRequest, .starvation, .safetyStop, .modeChange, .tableFull], a.index = i := by decide
  obtain ⟨a, -, ha⟩ := all i
  exact ⟨a, ha⟩

theorem mem_attention_iff {s : State} {x : Attention} : x ∈ s.attention.toList ↔ ∃ a, s.source a = x := by
  rw [Vector.mem_toList_iff, Vector.mem_iff_getElem]
  constructor
  · rintro ⟨i, hi, rfl⟩
    obtain ⟨a, ha⟩ := index_surjective ⟨i, hi⟩
    exact ⟨a, congrArg s.attention.get ha⟩
  · rintro ⟨a, rfl⟩
    exact ⟨a.index.val, a.index.isLt, rfl⟩

/-- R195. -/
theorem attentionLine_iff (s : State) (chain : Chain) : attentionLine chain s.attention = true ↔
    ∃ a, (s.source a).chain = chain ∧ (s.source a).flag = true ∧ (s.source a).enable = true := by
  simp only [attentionLine, List.any_eq_true, mem_attention_iff, Bool.and_eq_true, beq_iff_eq, and_assoc]
  constructor
  · rintro ⟨_, ⟨a, rfl⟩, flag, enable, hc⟩
    exact ⟨a, hc, flag, enable⟩
  · rintro ⟨a, hc, flag, enable⟩
    exact ⟨_, ⟨a, rfl⟩, flag, enable, hc⟩

theorem attnHi_of_agree {s : State} (h : OutputsAgree s) : s.out.attnHi = attentionLine .high s.attention :=
  congrArg Outputs.attnHi h

theorem attnLo_of_agree {s : State} (h : OutputsAgree s) : s.out.attnLo = attentionLine .low s.attention :=
  congrArg Outputs.attnLo h

/-- A source after a rule that rewrites each source by its place in Table 9-2. -/
theorem source_mapIdx (s : State) (f : Nat → Attention → Attention) (a : Source14) :
    ({ s with attention := s.attention.mapIdx f } : State).source a = f a.index.val (s.source a) :=
  Vector.getElem_mapIdx a.index.isLt

theorem source_of_attention {s t : State} (h : t.attention = s.attention) (a : Source14) : t.source a = s.source a := by
  rw [State.source, h, State.source]

theorem taken_source (s : State) (c : Instr) (a : Source14) : (s.taken c).source a = s.source a := by
  obtain ⟨p, i, h⟩ := taken_eq s c
  rw [h]
  rfl

/-! ### The answers -/

theorem chainField_eq (c : Chain) : byteField c.code = [if c = .high then 1 else 0] := by cases c <;> rfl

/-- The bytes of the three attention answers, where the lines are at their levels (R198). -/
theorem attentionBytes_of_agree {s : State} (h : OutputsAgree s) :
    s.attentionBytes = attentionAnswer s.attention.toList s.out.attnHi s.out.attnLo := by
  simp only [State.attentionBytes, attentionAnswer, attnHi_of_agree h, attnLo_of_agree h, flagField_eq, chainField_eq,
    List.append_assoc, List.cons_append, List.nil_append]

/-- What follows a change in the same step brings the lines to their levels and leaves the sources (R75, R173, R205). -/
theorem SettledFrom.agree {before s t : State} (settled : SettledFrom before s t) : OutputsAgree t := by
  have offered := settled.offered
  unfold OutputsAgree
  generalize t.outputs = lines at offered ⊢
  rw [offered]

theorem SettledFrom.attention {before s t : State} (settled : SettledFrom before s t) : t.attention = s.attention :=
  (congrArg State.attention settled.offered).trans (offerStores_attention s.demand.length s)

/-! ### SET_ATTENTION -/

theorem exec_setAttention (s : State) (settings more : List Byte) : exec (.setAttention settings more) s =
    portDo (.setAttention settings more)
      (fun u => if settings.length = 14 then .did (u.setAttention settings) State.attentionBytes else tell .badRequest) s := rfl

/-- R196: bit 1 of a source's byte is its enable, bit 0 its chain. -/
theorem setAttention_source (s : State) (settings : List Byte) (a : Source14) : (s.setAttention settings).source a =
    { flag := (s.source a).flag, enable := (settings.getD a.index.val 0).getLsbD 1
      chain := if (settings.getD a.index.val 0).getLsbD 0 then .high else .low } :=
  source_mapIdx s (fun i x => x.set (settings.getD i 0)) a

/-! ### ACK -/

/-- The state that an ACK leaves, its answer aside. -/
def State.acked (s : State) (sources : Half) (more : List Byte) : State :=
  ((s.beginTransaction (portBytes (.ack sources more))).ack sources).refreshOutputs

theorem exec_ack {s : State} (hp : s.port.turnaround = false) (sources : Half) (more : List Byte) :
    exec (.ack sources more) s = .next
      ((s.acked sources more).answer (echoOf (.ack sources more)) .done (s.acked sources more).attentionBytes) :=
  if_neg (by simp [hp])

theorem acked_agree (s : State) (sources : Half) (more : List Byte) : OutputsAgree (s.acked sources more) :=
  refreshOutputs_out _

/-- R197: bit i clears the flag of the source at place i. -/
theorem acked_source (s : State) (sources : Half) (more : List Byte) (a : Source14) : (s.acked sources more).source a =
    { s.source a with flag := (s.source a).flag && !sources.getLsbD a.index.val } :=
  source_mapIdx s (fun i x => { x with flag := x.flag && !sources.toNat.testBit i }) a

theorem acked_none (s : State) (more : List Byte) : (s.acked 0 more).attention = s.attention := by
  ext i hi
  have clears : (s.acked 0 more).attention[i] =
      { s.attention[i] with flag := s.attention[i].flag && !(0 : Half).toNat.testBit i } := Vector.getElem_mapIdx hi
  rw [clears]
  simp

end Sys2Proof.Machine

/-- Settles O9: every step keeps the lines at the levels of the state (`outcomeAgrees_step`), which `attentionLine_iff` reads. -/
theorem attentionLines : Obligations.AttentionLines := by
  refine ⟨fun s t agrees stepped => ?_, rfl, rfl⟩
  have agree : OutputsAgree t := outcomeAgrees_step s agrees t stepped
  rw [attnHi_of_agree agree, attnLo_of_agree agree]
  exact ⟨attentionLine_iff t .high, attentionLine_iff t .low⟩

/-- Settles O13. -/
theorem readAttentionAnswers : Obligations.ReadAttentionAnswers := fun _ _ hp agree =>
  answering_of (read := fun u => (.done, u.attentionBytes)) rfl hp rfl
    (congrArg (Prod.mk Result.done) (attentionBytes_of_agree agree))

/-- Settles O14: what follows the change leaves the sources (`SettledFrom.attention`) and brings the lines to their levels. -/
theorem setAttentionReplaces : Obligations.SetAttentionReplaces := by
  intro s more settings hp
  have row := exec_setAttention s settings more
  refine ⟨fun short => tellsBad_of row hp (if_neg short), fun whole => ?_⟩
  obtain ⟨t, next, settled⟩ := takes_of row hp (if_pos whole) rfl
  have sources : t.attention = ((s.taken (.setAttention settings more)).setAttention settings).attention := settled.attention
  refine ⟨t, ?_, ?_, fun a => ?_⟩
  · rw [next, attentionBytes_of_agree settled.agree]
  · rw [sources]
    exact settled
  · rw [source_of_attention sources, setAttention_source, taken_source]

/-- Settles O15. -/
theorem ackClears : Obligations.AckClears := by
  intro s more sources hp
  have lines := acked_agree s sources more
  refine ⟨_, exec_ack hp sources more, ?_, lines, acked_source s sources more, ?_⟩
  · rw [attentionBytes_of_agree lines]
    rfl
  · rintro rfl
    exact acked_none s more
end

section
/-! PROOF. The messages of the port: what R209 and R210 write is read back as the same request (R185). -/

open Sys2Proof Sys2Proof.Machine

namespace Sys2Proof

/-! ### Numbers as bytes -/

theorem foldl_bigEndian (n v acc : Nat) :
    (bigEndian n v).foldl (fun acc b => acc * 256 + b.toNat) acc = acc * 256 ^ n + v % 256 ^ n := by
  induction n generalizing acc with
  | zero => simp [bigEndian, Nat.mod_one]
  | succ n ih =>
    have split : v % 256 ^ (n + 1) = v % 256 ^ n + 256 ^ n * (v / 256 ^ n % 256) := Nat.mod_pow_succ
    rw [bigEndian, List.foldl_cons, ih, split, BitVec.toNat_ofNat, Nat.pow_succ]
    ring

/-- What `bigEndian` writes is read back, as far as it fits (11). -/
theorem ofBigEndian_bigEndian (n v : Nat) : ofBigEndian (bigEndian n v) = v % 256 ^ n := by
  rw [ofBigEndian, foldl_bigEndian, Nat.zero_mul, Nat.zero_add]

theorem halfBytes_read (h : Half) : ∃ x y, halfBytes h = [x, y] ∧ halfOf x y = h := by
  refine ⟨_, _, rfl, ?_⟩
  have whole : ofBigEndian (halfBytes h) = h.toNat := (ofBigEndian_bigEndian 2 _).trans (Nat.mod_eq_of_lt h.isLt)
  exact (congrArg (BitVec.ofNat 16) whole).trans (by simp)

theorem kindOfCode_code (k : Kind) : kindOfCode k.code = some k := by cases k <;> rfl

theorem tag_bits_toNat (t : Tag) : t.bits.toNat = t.kind.code * 2 ^ 22 + t.serial.toNat := by
  have kind : t.kind.code < 4 := by cases t.kind <;> decide
  have serial := t.serial.isLt
  rw [Tag.bits, BitVec.toNat_ofNat]
  omega

/-- The 24 bits of a tag are the tag (R1, 11.1). -/
theorem tag_ofBits_bits (t : Tag) : Tag.ofBits t.bits = t := by
  have serial := t.serial.isLt
  have code : t.bits.toNat / 2 ^ 22 = t.kind.code := by
    rw [tag_bits_toNat]
    omega
  have low : BitVec.ofNat 22 t.bits.toNat = t.serial := by
    rw [tag_bits_toNat]
    apply BitVec.eq_of_toNat_eq
    rw [BitVec.toNat_ofNat]
    omega
  rw [Tag.ofBits, code, low, kindOfCode_code]
  rfl

theorem tagBytes_read (t : Tag) : ∃ x y z, t.bytes = [x, y, z] ∧ Tag.ofBytes x y z = t := by
  refine ⟨_, _, _, rfl, ?_⟩
  have whole : ofBigEndian t.bytes = t.bits.toNat := (ofBigEndian_bigEndian 3 _).trans (Nat.mod_eq_of_lt t.bits.isLt)
  have bits : BitVec.ofNat 24 (ofBigEndian t.bytes) = t.bits := by rw [whole]; simp
  exact (congrArg Tag.ofBits bits).trans (tag_ofBits_bits t)

/-! ### Optional fields -/

/-- An optional field is read back, and what stands behind it is left (R209). -/
@[simp] theorem takeOpt_optBytes (o : Option Byte) (rest : List Byte) : takeOpt (optBytes o ++ rest) = some (o, rest) := by
  cases o <;> rfl

@[simp] theorem lastOpt_optBytes (o : Option Byte) : lastOpt (optBytes o) = some o := by cases o <;> rfl

@[simp] theorem lastOpts_optBytes (o o' : Option Byte) : lastOpts (optBytes o ++ optBytes o') = some (o, o') := by
  simp only [lastOpts, takeOpt_optBytes, lastOpt_optBytes]

theorem readTagOpt_bytes (make : Tag → Option Byte → Instr) (t : Tag) (o : Option Byte) :
    readTagOpt make (t.bytes ++ optBytes o) = some (make t o) := by
  obtain ⟨x, y, z, bytes, read⟩ := tagBytes_read t
  simp [bytes, read, readTagOpt]

theorem readTagOpts_bytes (make : Tag → Option Byte → Option Byte → Instr) (t : Tag) (o o' : Option Byte) :
    readTagOpts make (t.bytes ++ (optBytes o ++ optBytes o')) = some (make t o o') := by
  obtain ⟨x, y, z, bytes, read⟩ := tagBytes_read t
  simp [bytes, read, readTagOpts]

/-! ### The bodies of definitions -/

/-- Kind 0 is the removal's, so that a definition of kind 0 has no message. -/
theorem readSegmentBody_segmentBody (fields : Option RawSegment) (kind : ∀ f, fields = some f → f.kind ≠ 0) :
    readSegmentBody (segmentBody fields) = some fields := by
  cases fields with
  | none => rfl
  | some f =>
    have defined : f.kind ≠ 0#8 := kind f rfl
    simp [segmentBody, readSegmentBody, defined]

theorem readNodeBody_nodeBody (fields : Option RawNode) (role : ∀ f, fields = some f → f.role ≠ 0) :
    readNodeBody (nodeBody fields) = some fields := by
  cases fields with
  | none => rfl
  | some f =>
    have defined : f.role ≠ 0#8 := role f rfl
    simp [nodeBody, readNodeBody, defined]

theorem readTunnelBody_tunnelBody (f : RawTunnel) : readTunnelBody (tunnelBody f) = some f := by
  obtain ⟨p1, p0, pitch, rp⟩ := halfBytes_read f.pitch
  obtain ⟨s1, s0, start, rs⟩ := halfBytes_read f.finalStart
  obtain ⟨e1, e0, finish, re⟩ := halfBytes_read f.finalEnd
  obtain ⟨d1, d0, distance, rd⟩ := halfBytes_read f.exitDistance
  obtain ⟨t1, t0, tolerance, rt⟩ := halfBytes_read f.exitTolerance
  obtain ⟨h1, h0, margin, rh⟩ := halfBytes_read f.haltMargin
  simp [tunnelBody, pitch, start, finish, distance, tolerance, margin, readTunnelBody, rp, rs, re, rd, rt, rh]

/-! ### Framing and check -/

/-- The check byte brings the sum to 0 (R185). -/
theorem byteSum_checked (bytes : List Byte) : byteSum (bytes ++ [checkByte bytes]) = 0 := by
  rw [byteSum, List.foldl_append]
  show byteSum bytes + (0 - byteSum bytes) = 0
  simp

theorem frameMessage_eq (kind : Byte) (body : List Byte) : ∃ check, frameMessage kind body =
    BitVec.ofNat 8 (body.length + 3) :: kind :: (body ++ [check]) := ⟨_, rfl⟩

theorem frameMessage_length (kind : Byte) (body : List Byte) : (frameMessage kind body).length = body.length + 3 := by
  obtain ⟨check, frame⟩ := frameMessage_eq kind body
  simp [frame]

theorem byteSum_frameMessage (kind : Byte) (body : List Byte) : byteSum (frameMessage kind body) = 0 := byteSum_checked _

/-- A message of at most 64 bytes is taken by its kind and body, whatever is clocked beyond it (R185). -/
theorem takeMessage_frameMessage {kind : Byte} {body : List Byte} (fits : body.length + 3 ≤ 64) (more : List Byte)
    {c : Instr} (read : decodePort kind.toNat body more = some c) :
    takeMessage (frameMessage kind body ++ more) = .request c := by
  have sum := byteSum_frameMessage kind body
  have length := frameMessage_length kind body
  obtain ⟨check, frame⟩ := frameMessage_eq kind body
  have len : (BitVec.ofNat 8 (body.length + 3)).toNat = (frameMessage kind body).length := by
    rw [BitVec.toNat_ofNat, length]
    omega
  have framed : ¬ ((frameMessage kind body).length < 3 ∨ 64 < (frameMessage kind body).length ∨
      (frameMessage kind body ++ more).length < (frameMessage kind body).length) := by
    rw [List.length_append]
    omega
  have inside : (frameMessage kind body).tail.dropLast = kind :: body := by
    rw [frame, List.tail_cons, ← List.cons_append, List.dropLast_concat]
  have starts : frameMessage kind body ++ more = BitVec.ofNat 8 (body.length + 3) :: (kind :: (body ++ [check]) ++ more) := by
    rw [frame, List.cons_append]
  unfold takeMessage
  split
  case h_1 empty => simp [starts] at empty
  case h_2 first rest same =>
    obtain rfl : first = BitVec.ofNat 8 (body.length + 3) := by
      rw [starts] at same
      exact (List.cons.inj same).1.symm
    rw [len, if_neg framed]
    simp only [List.take_left, List.drop_left, sum, inside, read, ne_eq, not_true_eq_false, if_false]

/-! ### Every request of the port -/

open Laws in
/-- A request of the port has a message of at most 64 bytes (R185). -/
theorem portBody_fits (c : Instr) : PortRequest.Statement c := by
  cases c with
  | nop => exact PortRequest.nop _
  | mode => exact PortRequest.mode _ _
  | setParam => exact PortRequest.setParam _ _ _
  | readCounts => exact PortRequest.readCounts _
  | readEntry => exact PortRequest.readEntry _ _
  | readSegment => exact PortRequest.readSegment _ _ _
  | readTunnel => exact PortRequest.readTunnel _ _
  | readNode => exact PortRequest.readNode _ _
  | readDemand => exact PortRequest.readDemand _ _
  | readAttention => exact PortRequest.readAttention _
  | setAttention => exact PortRequest.setAttention _ _
  | ack => exact PortRequest.ack _ _
  | ackNode => exact PortRequest.ackNode _ _
  | admitRack => exact PortRequest.admitRack _ _ _
  | retire => exact PortRequest.retire _ _
  | restore => exact PortRequest.restore _ _ _ _
  | clearTable => exact PortRequest.clearTable _
  | defineSegment => exact PortRequest.defineSegment _ _ _
  | segmentHold => exact PortRequest.segmentHold _ _
  | segmentRelease => exact PortRequest.segmentRelease _ _
  | clearJam => exact PortRequest.clearJam _ _
  | stepGate => exact PortRequest.stepGate _ _
  | resume => exact PortRequest.resume _
  | clearStranger => exact PortRequest.clearStranger _ _
  | defineTunnel => exact PortRequest.defineTunnel _ _
  | clearTunnelFault => exact PortRequest.clearTunnelFault _
  | defineNode => exact PortRequest.defineNode _ _ _
  | linkReset => exact PortRequest.linkReset _
  | steer => exact PortRequest.steer _ _
  | lookup => exact PortRequest.lookup _ _
  | send => exact PortRequest.send _ _ _
  | claim => exact PortRequest.claim _ _ _
  | unloadDone => exact PortRequest.unloadDone _ _ _
  | rewash => exact PortRequest.rewash _ _ _
  | release => exact PortRequest.release _ _ _
  | hold => exact PortRequest.hold _ _ _ _
  | unhold => exact PortRequest.unhold _ _ _ _
  | forceRelease => exact PortRequest.forceRelease _ _ _
  | powerOn | badCheckMessage | unknownRequest | tooSoonTransaction | turnaroundEnd | roundStart | headerSent | roundEnd
  | sightingWindowRunOut | windowEnd | validReply | branchWake | resetPulseEnd | eyeBlock | eyeClear | gateOpen | jam
  | safeStop | secondsTick | stale | promotion | autoQuiet | paceTick | paceCounterZero | encoderCount | pitchReached
  | exitEyeBlock | exitEyeClear | machineLineChange | rinseOkAssert | rinseOkDeassert | dropout | dwellMillisecond =>
    exact fun _ _ _ request => nomatch request

/-- The kind and body of a well-formed request of the port are read back as the request, operand for operand (R210). -/
theorem decodePort_portBody {c : Instr} {kind : Byte} {body : List Byte} (wf : c.wf = true)
    (request : c.portBody = some (kind, body)) : decodePort kind.toNat body c.more = some c := by
  cases c with
  | nop | mode | readCounts | readSegment | readTunnel | readNode | readDemand | readAttention | ackNode | clearTable
  | segmentHold | segmentRelease | stepGate | clearStranger | clearTunnelFault | linkReset | steer =>
    cases request
    rfl
  | setParam id value =>
    cases request
    obtain ⟨x, y, bytes, read⟩ := halfBytes_read value
    rw [bytes, ← read]
    rfl
  | readEntry sel =>
    cases sel with
    | number n =>
      cases request
      rfl
    | tag t =>
      cases request
      obtain ⟨x, y, z, bytes, read⟩ := tagBytes_read t
      rw [bytes, ← read]
      rfl
  | setAttention settings =>
    cases request
    exact if_pos (of_decide_eq_true wf)
  | ack sources =>
    cases request
    obtain ⟨x, y, bytes, read⟩ := halfBytes_read sources
    rw [bytes, ← read]
    rfl
  | admitRack t | retire t | restore t =>
    cases request
    obtain ⟨x, y, z, bytes, read⟩ := tagBytes_read t
    rw [bytes, ← read]
    rfl
  | lookup src t =>
    cases src with
    | station => cases request
    | supervisor =>
      cases request
      obtain ⟨x, y, z, bytes, read⟩ := tagBytes_read t
      rw [bytes, ← read]
      rfl
  | defineSegment number fields =>
    cases request
    have kind : ∀ f, fields = some f → f.kind ≠ 0 := by
      rintro f rfl
      exact of_decide_eq_true wf
    exact congrArg (Option.map fun f => Instr.defineSegment number f _) (readSegmentBody_segmentBody fields kind)
  | defineNode address fields =>
    cases request
    have role : ∀ f, fields = some f → f.role ≠ 0 := by
      rintro f rfl
      exact of_decide_eq_true wf
    exact congrArg (Option.map fun f => Instr.defineNode address f _) (readNodeBody_nodeBody fields role)
  | defineTunnel fields =>
    cases request
    exact congrArg (Option.map fun f => Instr.defineTunnel f _) (readTunnelBody_tunnelBody fields)
  | clearJam src | resume src =>
    cases src with
    | station => cases request
    | supervisor =>
      cases request
      rfl
  | hold src | unhold src =>
    cases src with
    | station => cases request
    | supervisor =>
      cases request
      exact readTagOpts_bytes _ _ _ _
  | forceRelease src | claim src | unloadDone src | rewash src | release src =>
    cases src with
    | station => cases request
    | supervisor =>
      cases request
      exact readTagOpt_bytes _ _ _
  | send src tag expected =>
    cases src with
    | station => cases request
    | supervisor =>
      cases tag with
      | none =>
        cases request
        exact congrArg (Option.map _) (lastOpt_optBytes expected)
      | some t =>
        cases request
        obtain ⟨x, y, z, bytes, read⟩ := tagBytes_read t
        rw [bytes, ← read]
        exact congrArg (Option.map _) (lastOpt_optBytes expected)
  | powerOn | badCheckMessage | unknownRequest | tooSoonTransaction | turnaroundEnd | roundStart | headerSent | roundEnd
  | sightingWindowRunOut | windowEnd | validReply | branchWake | resetPulseEnd | eyeBlock | eyeClear | gateOpen | jam
  | safeStop | secondsTick | stale | promotion | autoQuiet | paceTick | paceCounterZero | encoderCount | pitchReached
  | exitEyeBlock | exitEyeClear | machineLineChange | rinseOkAssert | rinseOkDeassert | dropout | dwellMillisecond =>
    cases request

end Sys2Proof

/-- Settles O10: framing and check pass whatever follows the message (`takeMessage_frameMessage`), and its kind and body are read
back as the request (`decodePort_portBody`). -/
theorem portMessagesDecode : Obligations.PortMessagesDecode := by
  intro c kind body wf request
  have bytes : portBytes c = frameMessage kind body ++ c.more := by rw [portBytes, request]
  refine ⟨bytes, ?_⟩
  rw [bytes]
  exact takeMessage_frameMessage (portBody_fits c wf kind body request) c.more (decodePort_portBody wf request)
end

section
/-! PROOF. Every command answers a next state and leaves the queue of waiting commands as it is: what each operation, each request's
rule and each command leaves of the queue. -/

open Sys2Proof Sys2Proof.Machine

namespace Sys2Proof.Machine

/-! ### The queue after an operation -/

theorem forEach_pending {α : Type} {f : State → α → State} (hf : ∀ s x, (f s x).pending = s.pending) (xs : List α)
    (s : State) : (s.forEach f xs).pending = s.pending := by
  induction xs generalizing s with
  | nil => rfl
  | cons x xs ih => exact (ih (f s x)).trans (hf s x)

@[simp] theorem settle_pending (before s : State) : (State.settle before s).pending = s.pending :=
  (outer_settle before s).pending

/-! #### The rack table and the segments -/

@[simp] theorem addStranger_pending (s : State) (n : SegNo) (seen : Option Tag) : (s.addStranger n seen).pending = s.pending :=
  (outer_addStranger s n seen).pending

@[simp] theorem closeWindow_pending (s : State) (n : SegNo) : (s.closeWindow n).pending = s.pending := rfl

@[simp] theorem placeAtTail_pending (s : State) (e : EntryNo) (n : SegNo) (prior : Option RackState) :
    (s.placeAtTail e n prior).pending = s.pending := (outer_placeAtTail s e n prior).pending

@[simp] theorem declareMissing_pending (s : State) (e : EntryNo) (cause : MissingCause) :
    (s.declareMissing e cause).pending = s.pending := (outer_declareMissing s e cause).pending

@[simp] theorem takeFree_pending (s : State) (e : EntryNo) (t : Tag) : (s.takeFree e t).pending = s.pending := rfl

@[simp] theorem freeEntry_pending (s : State) (e : EntryNo) : (s.freeEntry e).pending = s.pending :=
  (outer_removeEntry s e).pending

@[simp] theorem restoreAt_pending (s : State) (e : EntryNo) (x : Entry) (n : SegNo) (g : Segment) (clean : Bool) :
    (s.restoreAt e x n g clean).pending = s.pending := (outer_restoreAt s e x n g clean).pending

@[simp] theorem clearTable_pending (s : State) : s.clearTable.pending = s.pending := rfl

@[simp] theorem jamSegment_pending (s : State) (n : SegNo) : (s.jamSegment n).pending = s.pending :=
  (outer_jamSegment s n).pending

@[simp] theorem clearJam_pending (s : State) (n : SegNo) (g : Segment) : (s.clearJam n g).pending = s.pending :=
  (outer_clearJam s n g).pending

@[simp] theorem resume_pending (s : State) : s.resume.pending = s.pending :=
  (outer_freshenQueue { s with stopLatch := false } (List.finRange 128)).pending

@[simp] theorem openGate_pending (s : State) (n : SegNo) (dest : Place) : (s.openGate n dest).pending = s.pending := by
  unfold State.openGate
  split
  · rfl
  · rw [touchIdle_pending]
    split <;> cases dest <;> rfl

theorem eyeEvent_pending {f : State → SegNo → State} (hf : ∀ s n, Outer s (f s n)) (s : State) (eyes : Vector Bool 32)
    (ns : List SegNo) : ({ s with eyes := eyes }.forEach f ns).pending = s.pending :=
  forEach_pending (fun u n => (hf u n).pending) ns _

/-! #### The tunnel -/

@[simp] theorem inFinal_pending (s : State) (f : PassRecord → PassRecord) : (s.inFinal f).pending = s.pending :=
  (outer_inFinal s f).pending

@[simp] theorem defineTunnel_pending (s : State) (c : TunnelConfig) : (s.defineTunnel c).pending = s.pending := rfl

@[simp] theorem count1_pending (s : State) : s.count1.pending = s.pending := (outer_count1 s).pending

@[simp] theorem judgeExit_pending (s : State) (c : TunnelConfig) : (s.judgeExit c).pending = s.pending :=
  (outer_judgeExit s c).pending

/-! #### Sightings -/

@[simp] theorem firstTag_pending (s : State) (n : SegNo) (t : Tag) : (s.firstTag n t).pending = s.pending := by
  unfold State.firstTag
  split
  · split
    · rfl
    · exact (outer_relocate s n _).pending
  · split
    case h_1 e _ => exact (outer_atHead (s.takeFree e t) e n none false (s.passedBy n e)).pending
    case h_2 => exact ((outer_addStranger s n _).trans (outer_raiseIf _ _ _)).pending

@[simp] theorem secondTag_pending (s : State) (n : SegNo) (first t : Tag) : (s.secondTag n first t).pending = s.pending := by
  unfold State.secondTag
  split
  · rfl
  · split
    · rfl
    · split <;> rfl

@[simp] theorem report_pending (s : State) (node : NodeNo) (tags : List Tag) : (s.report node tags).pending = s.pending := by
  unfold State.report
  split
  · rfl
  · split
    · split <;> simp
    · rfl

theorem windowRunsOut_pending {s t : State} {n : SegNo} (h : s.windowRunsOut n = some t) : t.pending = s.pending := by
  unfold State.windowRunsOut at h
  split at h <;> cases h <;> simp

/-! #### Modes -/

@[simp] theorem restartLink_pending (s : State) : s.restartLink.pending = s.pending := by
  unfold State.restartLink
  split
  · split <;> rfl
  · rfl

@[simp] theorem endMarks_pending (s : State) : s.endMarks.pending = s.pending := by
  unfold State.endMarks
  split <;> rfl

@[simp] theorem wake_pending (s : State) (announce : Bool) : (s.wake announce).pending = s.pending := by
  unfold State.wake
  split
  · simp
  · rfl

@[simp] theorem enterQuiet_pending (s : State) : s.enterQuiet.pending = s.pending := by
  unfold State.enterQuiet
  dsimp only
  split <;> rfl

@[simp] theorem cancelAll_pending (s : State) : s.cancelAll.pending = s.pending := (outer_cancelAll s).pending

@[simp] theorem enterConfigure_pending (s : State) : s.enterConfigure.pending = s.pending := by
  have closed := forEach_pending (fun s n => closeWindow_pending s n) (List.finRange 32)
  simp [State.enterConfigure, closed]

@[simp] theorem leaveConfigure_pending (s : State) : s.leaveConfigure.pending = s.pending :=
  forEach_pending (fun u n => (outer_examine u n).pending) _ _

@[simp] theorem switchService_pending (s : State) (m : Mode) : (s.switchService m).pending = s.pending := rfl

/-! #### The link and the dispatcher -/

@[simp] theorem steerOff_pending (s : State) : s.steerOff.pending = s.pending := rfl

@[simp] theorem dropAnswers_pending (s : State) (n : NodeNo) : (s.dropAnswers n).pending = s.pending := rfl

@[simp] theorem dropItemsOf_pending (s : State) (n : NodeNo) : (s.dropItemsOf n).pending = s.pending := rfl

@[simp] theorem mapWindows_pending (s : State) (f : Window → Window) : (s.mapWindows f).pending = s.pending := rfl

@[simp] theorem startRound_pending (s : State) : s.startRound.pending = s.pending := rfl

@[simp] theorem dropClaims_pending (s : State) (p : NodeNo → Bool) : (s.dropClaims p).pending = s.pending :=
  forEach_pending (fun u e => updEntry_pending u e _) _ _

@[simp] theorem absent_pending (s : State) (n : NodeNo) : (s.absent n).pending = s.pending := by
  have cancelled := forEach_pending (fun u e => (outer_cancelAssignment u e).pending)
  simp [State.absent, cancelled]

@[simp] theorem chargeError_pending (s : State) (n : NodeNo) (kind : LinkError) : (s.chargeError n kind).pending = s.pending := by
  unfold State.chargeError
  split
  · rfl
  · dsimp only
    split <;> simp

@[simp] theorem deliver_pending (s : State) (a : StationAnswer) : (s.deliver a).pending = s.pending := by
  unfold State.deliver
  split <;> rfl

@[simp] theorem branchFault_pending (s : State) (owner : Option NodeNo) : (s.branchFault owner).pending = s.pending := rfl

@[simp] theorem linkReset_pending (s : State) : s.linkReset.pending = s.pending := by
  simp [State.linkReset]

@[simp] theorem promote_pending (s : State) (i : DemandItem) : (s.promote i).pending = s.pending := rfl

@[simp] theorem takeFlag_pending (s : State) (n : NodeNo) (chain : Chain) (d : DemandSet) (k : Kind) :
    (s.takeFlag n chain d k).pending = s.pending := by
  unfold State.takeFlag
  split
  · split
    · exact touchIdle_pending _
    · rfl
  · rfl

@[simp] theorem handDemand_pending (s : State) (role : Role) (reply : Reply) : (s.handDemand role reply).pending = s.pending := by
  unfold State.handDemand
  split
  · exact forEach_pending (fun u k => takeFlag_pending u _ _ _ k) _ _
  · rfl

@[simp] theorem handSightings_pending (s : State) (role : Role) (reply : Reply) :
    (s.handSightings role reply).pending = s.pending := by
  unfold State.handSightings
  split
  · split <;> simp
  · rfl

@[simp] theorem advanceAges_pending (s : State) : s.advanceAges.pending = s.pending := by
  unfold State.advanceAges
  split <;> rfl

@[simp] theorem advanceIdle_pending (s : State) : s.advanceIdle.pending = s.pending := by
  unfold State.advanceIdle
  split <;> simp

/-! ### The request engine -/

/-- What a rack request comes to keeps the queue. -/
def Judged.KeepsQueue (s : State) : Judged → Prop
  | .told _ _ => True
  | .did u _ => u.pending = s.pending

@[simp] theorem plain_keepsQueue (s : State) (r : Result) : (plain r).KeepsQueue s := trivial

@[simp] theorem about_keepsQueue (s : State) (r : Result) (e : EntryNo) : (s.about r e).KeepsQueue s := trivial

@[simp] theorem change_keepsQueue (s : State) (e : EntryNo) (f : Entry → Entry) : (s.change e f).KeepsQueue s :=
  updEntry_pending s e f

@[simp] theorem judged_did_keepsQueue {s u : State} {m : State → Option Summary} :
    (Judged.did u m).KeepsQueue s ↔ u.pending = s.pending := Iff.rfl

theorem refusePassOrMissing_keepsQueue {s : State} {act : Judged} (h : act.KeepsQueue s) (e : EntryNo) (x : Entry) :
    (refusePassOrMissing s e x act).KeepsQueue s := by
  unfold refusePassOrMissing
  split_ifs <;> simp [h]

theorem holderOnly_keepsQueue {s : State} {act : Judged} (h : act.KeepsQueue s) (n : NodeNo) (e : EntryNo) (x : Entry) :
    (holderOnly s n e x act).KeepsQueue s := by
  unfold holderOnly
  split_ifs <;> simp [h]

theorem doSend_keepsQueue (s : State) (n : NodeNo) (e : EntryNo) (x : Entry) : (doSend s n e x).KeepsQueue s := by
  unfold doSend
  split_ifs <;> simp

theorem doClaim_keepsQueue (s : State) (n : NodeNo) (e : EntryNo) (x : Entry) : (doClaim s n e x).KeepsQueue s := by
  unfold doClaim
  split_ifs <;> simp

theorem doUnloadDone_keepsQueue (s : State) (e : EntryNo) (x : Entry) : (doUnloadDone s e x).KeepsQueue s :=
  ((outer_updEntry s e Entry.unloaded fun _ => rfl).trans (outer_offerReturned _ e x)).pending

theorem doHold_keepsQueue (s : State) (e : EntryNo) (x : Entry) (reason : Option HoldReason) :
    (doHold s e x reason).KeepsQueue s := by
  unfold doHold
  split_ifs <;> simp

theorem doUnhold_keepsQueue (s : State) (src : Source) (e : EntryNo) (x : Entry) : (doUnhold s src e x).KeepsQueue s := by
  unfold doUnhold
  split_ifs <;> simp

theorem doForceRelease_keepsQueue (s : State) (e : EntryNo) (x : Entry) : (doForceRelease s e x).KeepsQueue s := by
  unfold doForceRelease
  split_ifs <;> simp

theorem onEntry_keepsQueue (s : State) (src : Source) (op : RackOp) (e : EntryNo) (x : Entry) :
    (onEntry s src op e x).KeepsQueue s := by
  unfold onEntry
  split
  · exact doHold_keepsQueue s e x _
  · exact doUnhold_keepsQueue s src e x
  · exact doForceRelease_keepsQueue s e x
  · exact refusePassOrMissing_keepsQueue (doSend_keepsQueue s _ e x) e x
  · exact refusePassOrMissing_keepsQueue (doClaim_keepsQueue s _ e x) e x
  · exact refusePassOrMissing_keepsQueue (holderOnly_keepsQueue (doUnloadDone_keepsQueue s e x) _ e x) e x
  · exact refusePassOrMissing_keepsQueue (holderOnly_keepsQueue (change_keepsQueue s e _) _ e x) e x
  · exact refusePassOrMissing_keepsQueue (holderOnly_keepsQueue (change_keepsQueue s e _) _ e x) e x
  · exact plain_keepsQueue s _

theorem testExpected_keepsQueue (s : State) (src : Source) (op : RackOp) (expected : Option RackState) (e : EntryNo) :
    (testExpected s src op expected e).KeepsQueue s := by
  unfold testExpected
  split
  · exact plain_keepsQueue s _
  · split
    · exact about_keepsQueue s _ e
    · exact onEntry_keepsQueue s src op e _

theorem carryOut_keepsQueue (s : State) (src : Source) (q : Request) : (carryOut s src q).KeepsQueue s := by
  unfold carryOut
  split
  case h_1 => split <;> simp
  case h_2 =>
    split
    · exact plain_keepsQueue s _
    · exact testExpected_keepsQueue s src _ _ _
  case h_3 =>
    split
    · exact plain_keepsQueue s _
    · exact testExpected_keepsQueue s src _ _ _
  case h_4 =>
    split
    · exact plain_keepsQueue s _
    · split <;> simp
  case h_5 => split_ifs <;> simp

theorem judgeStation_keepsQueue (s : State) (n : NodeNo) (role : Role) (q : Request) :
    (judgeStation s n role q).KeepsQueue s := by
  unfold judgeStation
  split_ifs
  · exact plain_keepsQueue s _
  · exact carryOut_keepsQueue s _ q
  · exact plain_keepsQueue s _

theorem judgeSupervisor_keepsQueue (s : State) (q : Request) : (judgeSupervisor s q).KeepsQueue s := by
  unfold judgeSupervisor
  split_ifs
  · exact carryOut_keepsQueue s _ q
  · exact plain_keepsQueue s _

@[simp] theorem carryStation_pending (s : State) (n : NodeNo) (role : Role) (q : RackRequest) :
    (s.carryStation n role q).pending = s.pending := by
  unfold State.carryStation
  split
  · rfl
  case h_2 r _ =>
    split
    · rfl
    case h_2 judged =>
      have kept := judgeStation_keepsQueue s n role r
      rw [judged] at kept
      exact (settle_pending s _).trans kept

@[simp] theorem takeRequest_pending (s : State) (n : NodeNo) (q : RackRequest) : (s.takeRequest n q).pending = s.pending := by
  unfold State.takeRequest
  split
  · rfl
  · split <;> simp

/-! #### A reply -/

@[simp] theorem handRequest_pending (s : State) (reply : Reply) : (s.handRequest reply).pending = s.pending := by
  unfold State.handRequest
  split <;> simp

@[simp] theorem handOn_pending (s : State) (role : Role) (reply : Reply) : (s.handOn role reply).pending = s.pending := by
  unfold State.handOn
  dsimp only
  split <;> simp

@[simp] theorem takeReply_pending (s : State) (br : Branch) (role : Role) (reply : Reply) :
    (s.takeReply br role reply).pending = s.pending := by
  unfold State.takeReply
  dsimp only
  split <;> simp

/-! ### The requests of the port -/

/-- What a request of the port comes to keeps the queue. -/
def Taken.KeepsQueue (s : State) : Taken → Prop
  | .told _ _ => True
  | .did u _ => u.pending = s.pending

@[simp] theorem taken_told_keepsQueue (s : State) (r : Result) (body : State → List Byte) : (Taken.told r body).KeepsQueue s :=
  trivial

@[simp] theorem tell_keepsQueue (s : State) (r : Result) : (tell r).KeepsQueue s := trivial

@[simp] theorem modeTold_keepsQueue (s : State) (r : Result) (extra : List Byte) : (modeTold r extra).KeepsQueue s := trivial

@[simp] theorem taken_did_keepsQueue {s u : State} {body : State → List Byte} :
    (Taken.did u body).KeepsQueue s ↔ u.pending = s.pending := Iff.rfl

@[simp] theorem changed_keepsQueue {s u : State} : u.changed.KeepsQueue s ↔ u.pending = s.pending := Iff.rfl

@[simp] theorem withParams_keepsQueue {s u : State} (p : Params) (written : List Byte) :
    (u.withParams p written).KeepsQueue s ↔ u.pending = s.pending := Iff.rfl

theorem supervisorTaken_keepsQueue (q : RackRequest) (s : State) : (supervisorTaken q s).KeepsQueue s := by
  unfold supervisorTaken
  split
  · exact taken_told_keepsQueue s _ _
  case h_2 r _ =>
    split
    · exact taken_told_keepsQueue s _ _
    case h_2 judged =>
      have kept := judgeSupervisor_keepsQueue s r
      rw [judged] at kept
      exact kept

theorem onSegment_keepsQueue {act : State → SegNo → Segment → Taken} (h : ∀ s n g, (act s n g).KeepsQueue s) (seg : Byte)
    (s : State) : (onSegment seg act s).KeepsQueue s := by
  unfold onSegment
  split
  · exact tell_keepsQueue s _
  · split
    · exact tell_keepsQueue s _
    · exact h s _ _

theorem unlessBusy_keepsQueue {s change : State} (h : change.pending = s.pending) : (unlessBusy s change).KeepsQueue s := by
  unfold unlessBusy
  split <;> simp [h]

theorem modeTaken_keepsQueue (s : State) (code : Byte) : (modeTaken s code).KeepsQueue s := by
  unfold modeTaken
  split
  · exact modeTold_keepsQueue s _ _
  unfold modeTo
  split
  · exact modeTold_keepsQueue s _ _
  split
  case h_1 =>
    unfold runTaken
    split <;> simp
  case h_2 | h_3 => exact switchService_pending s _
  case h_4 => exact unlessBusy_keepsQueue (enterQuiet_pending s)
  case h_5 => exact wake_pending s false
  case h_6 | h_7 | h_8 => exact unlessBusy_keepsQueue (enterConfigure_pending s)
  case h_9 => exact modeTold_keepsQueue s _ _

theorem setRewashLimit_keepsQueue (s : State) (v : Nat) : (setRewashLimit s v).KeepsQueue s := by
  unfold setRewashLimit
  split
  · exact tell_keepsQueue s _
  · split <;> simp

theorem setGrace_keepsQueue (s : State) (v : Nat) : (setGrace s v).KeepsQueue s := by
  unfold setGrace
  split_ifs <;> simp

theorem setParamTaken_keepsQueue (s : State) (id : Byte) (v : Nat) : (setParamTaken s id v).KeepsQueue s := by
  unfold setParamTaken
  split
  case h_5 => exact setGrace_keepsQueue s v
  case h_6 => exact setRewashLimit_keepsQueue s v
  case h_10 => exact tell_keepsQueue s _
  all_goals split_ifs <;> simp

theorem ackNodeTaken_keepsQueue (s : State) (address : Byte) : (ackNodeTaken s address).KeepsQueue s := by
  unfold ackNodeTaken
  split
  · exact tell_keepsQueue s _
  · split_ifs <;> simp

theorem admitTaken_keepsQueue (s : State) (t : Tag) (seg : Byte) : (admitTaken s t seg).KeepsQueue s := by
  unfold admitTaken
  split
  case h_4 =>
    unfold admitInto
    split
    · exact tell_keepsQueue s _
    · exact tell_keepsQueue s _
    · split_ifs <;> simp [State.admitAt]
  all_goals simp

theorem retireTaken_keepsQueue (s : State) (t : Tag) : (retireTaken s t).KeepsQueue s := by
  unfold retireTaken
  split
  · exact tell_keepsQueue s _
  · split
    · exact tell_keepsQueue s _
    · split_ifs <;> simp

theorem restoreInto_keepsQueue (s : State) (e : EntryNo) (x : Entry) (n : SegNo) (g : Segment) (clean : Bool) :
    (restoreInto s e x n g clean).KeepsQueue s := by
  unfold restoreInto
  split_ifs <;> simp

theorem restoreTaken_keepsQueue (s : State) (t : Tag) (seg clean : Byte) : (restoreTaken s t seg clean).KeepsQueue s := by
  unfold restoreTaken
  split
  case h_2 => exact tell_keepsQueue s _
  split
  · exact tell_keepsQueue s _
  split
  · exact tell_keepsQueue s _
  split
  · exact restoreInto_keepsQueue s _ _ _ _ _
  · exact tell_keepsQueue s _

theorem defineTaken_keepsQueue (s : State) (n : SegNo) (f : SegFields) : (defineTaken s n f).KeepsQueue s := by
  unfold defineTaken
  split
  · exact tell_keepsQueue s _
  split
  · exact tell_keepsQueue s _
  split
  · exact putSeg_pending s n _
  · split <;> simp

theorem undefineTaken_keepsQueue (s : State) (n : SegNo) : (undefineTaken s n).KeepsQueue s := by
  unfold undefineTaken
  split_ifs <;> simp

theorem stepTaken_keepsQueue (s : State) (n : SegNo) (g : Segment) : (stepTaken s n g).KeepsQueue s := by
  unfold stepTaken
  split
  · exact tell_keepsQueue s _
  · split <;> simp

theorem clearStrangerTaken_keepsQueue (s : State) (n : SegNo) (g : Segment) : (clearStrangerTaken s n g).KeepsQueue s := by
  unfold clearStrangerTaken
  split
  · exact tell_keepsQueue s _
  · split <;> simp

theorem defineTunnelTaken_keepsQueue (s : State) (f : RawTunnel) : (defineTunnelTaken s f).KeepsQueue s := by
  unfold defineTunnelTaken
  split
  · exact tell_keepsQueue s _
  · split_ifs <;> simp

theorem defineNodeTaken_keepsQueue (s : State) (n : NodeNo) (role : Role) : (defineNodeTaken s n role).KeepsQueue s := by
  unfold defineNodeTaken
  split
  · simp
  · split_ifs <;> simp

theorem undefineNodeTaken_keepsQueue (s : State) (n : NodeNo) : (undefineNodeTaken s n).KeepsQueue s := by
  unfold undefineNodeTaken
  split_ifs <;> simp

theorem nodeTaken_keepsQueue (s : State) (address : Byte) (fields : Option RawNode) : (nodeTaken s address fields).KeepsQueue s := by
  unfold nodeTaken
  split
  · exact tell_keepsQueue s _
  · split
    · exact tell_keepsQueue s _
    · exact undefineNodeTaken_keepsQueue s _
  split
  · exact tell_keepsQueue s _
  split
  · exact tell_keepsQueue s _
  split
  · exact tell_keepsQueue s _
  · exact defineNodeTaken_keepsQueue s _ _

theorem steerTaken_keepsQueue (s : State) (on : Byte) : (steerTaken s on).KeepsQueue s := by
  unfold steerTaken
  split
  · exact tell_keepsQueue s _
  · exact steerOff_pending s
  · split <;> simp

/-! ### Endings -/

/-- A command that begins in `s` answers a next state, with the queue of `s`. -/
def Completes (s : State) (o : Host.Outcome State Fault Refusal) : Prop := ∃ t, o = .next t ∧ t.pending = s.pending

@[simp] theorem completes_next {s t : State} : Completes s (.next t) ↔ t.pending = s.pending := by
  refine ⟨?_, fun h => ⟨t, rfl, h⟩⟩
  rintro ⟨_, ⟨⟩, h⟩
  exact h

@[simp] theorem completes_done {before s u : State} : Completes s (done before u) ↔ u.pending = s.pending := by
  rw [done_next, completes_next, refreshOutputs_pending, settle_pending]

theorem completes_portDo {c : Instr} {act : State → Taken} (h : ∀ s, (act s).KeepsQueue s) (s : State) :
    Completes s (portDo c act s) := by
  have kept := h (s.beginTransaction (portBytes c)).touchIdle
  unfold portDo
  split
  · simp
  · dsimp only
    split
    · simp
    · simp
    case h_3 did =>
      rw [did, taken_did_keepsQueue] at kept
      simp [kept]

theorem completes_portRead (c : Instr) (read : State → Result × List Byte) (s : State) : Completes s (portRead c read s) := by
  unfold portRead
  split <;> simp

theorem completes_rackCommand (c : Instr) (src : Source) (q : RackRequest) (s : State) :
    Completes s (rackCommand c src q s) := by
  cases src with
  | supervisor more => exact completes_portDo (supervisorTaken_keepsQueue q) s
  | station n =>
    unfold rackCommand
    dsimp only
    split <;> simp

/-! ### Commands that are no request of the port -/

theorem completes_powerOn (b : Bool) (s : State) : Completes s (execPowerOn b s) := by
  unfold execPowerOn
  dsimp only
  split <;> simp

theorem completes_nop (s : State) (more : List Byte) : Completes s (execNop s more) := by
  unfold execNop
  split <;> simp

theorem completes_ack (sources : Half) (s : State) (more : List Byte) : Completes s (execAck sources s more) := by
  unfold execAck
  split <;> simp [State.ack]

theorem completes_badCheckMessage (bytes : List Byte) (s : State) : Completes s (execBadCheckMessage bytes s) := by
  unfold execBadCheckMessage
  split
  · simp
  · split <;> simp

theorem completes_unknownRequest (bytes : List Byte) (s : State) : Completes s (execUnknownRequest bytes s) := by
  unfold execUnknownRequest
  split
  · simp
  · split <;> simp

theorem completes_tooSoonTransaction (bytes : List Byte) (s : State) : Completes s (execTooSoonTransaction bytes s) := by
  unfold execTooSoonTransaction
  split <;> simp

theorem completes_roundStart (s : State) : Completes s (execRoundStart s) := by
  unfold execRoundStart
  split <;> simp

theorem completes_headerSent (s : State) : Completes s (execHeaderSent s) := by
  have delivered := forEach_pending fun (u : State) (p : StationAnswer × Bool) => deliver_pending u p.1
  unfold execHeaderSent
  split <;> simp [delivered]

theorem completes_roundEnd (s : State) : Completes s (execRoundEnd s) := by
  unfold execRoundEnd
  split <;> simp

theorem completes_windowRunsOut (n : SegNo) (s : State) : Completes s (execSightingWindowRunOut n s) := by
  unfold execSightingWindowRunOut
  split
  case h_1 ranOut => exact completes_done.2 (windowRunsOut_pending ranOut)
  case h_2 => simp

theorem completes_windowEnd (n : NodeNo) (seen : List (Branch × WindowActivity)) (s : State) :
    Completes s (execWindowEnd n seen s) := by
  unfold execWindowEnd
  split
  · split
    · split <;> simp
    · simp
  · simp

theorem completes_validReply (window : Nat) (br : Branch) (reply : Reply) (s : State) :
    Completes s (execValidReply window br reply s) := by
  unfold execValidReply
  split
  · split <;> simp
  · simp

theorem completes_branchWake (br : Branch) (s : State) : Completes s (execBranchWake br s) := by
  unfold execBranchWake
  split <;> simp

theorem completes_resetPulseEnd (s : State) : Completes s (execResetPulseEnd s) := by
  unfold execResetPulseEnd
  split <;> simp

theorem completes_eyeBlock (i : LineNo) (s : State) : Completes s (execEyeBlock i s) := by
  have judged := eyeEvent_pending outer_eyeBlocks s (s.eyes.set i true) (s.readersOf i)
  unfold execEyeBlock
  split
  · simp
  · dsimp only
    split <;> simp [judged]

theorem completes_eyeClear (i : LineNo) (s : State) : Completes s (execEyeClear i s) := by
  have judged := eyeEvent_pending outer_eyeClears s (s.eyes.set i false) (s.readersOf i)
  unfold execEyeClear
  split
  · dsimp only
    split <;> simp [judged]
  · simp

theorem completes_gateOpen (n : SegNo) (s : State) : Completes s (execGateOpen n s) := by
  unfold execGateOpen
  split <;> simp

theorem completes_jam (n : SegNo) (s : State) : Completes s (execJam n s) := by
  unfold execJam
  split <;> simp

theorem completes_safeStop (b : Bool) (s : State) : Completes s (execSafeStop b s) := by
  unfold execSafeStop
  split <;> simp

theorem completes_secondsTick (s : State) : Completes s (execSecondsTick s) := by
  simp [execSecondsTick]

theorem completes_stale (e : EntryNo) (s : State) : Completes s (execStale e s) := by
  unfold execStale
  split
  · dsimp only
    split <;> simp
  · simp

theorem completes_promotion (n : NodeNo) (k : Kind) (s : State) : Completes s (execPromotion n k s) := by
  unfold execPromotion
  split
  · dsimp only
    split <;> simp
  · simp

theorem completes_autoQuiet (s : State) : Completes s (execAutoQuiet s) := by
  unfold execAutoQuiet
  split
  · dsimp only
    split <;> simp
  · simp

theorem completes_paceTick (s : State) : Completes s (execPaceTick s) := by
  unfold execPaceTick
  split <;> simp

theorem completes_paceCounterZero (s : State) : Completes s (execPaceCounterZero s) := by
  unfold execPaceCounterZero
  split <;> simp

theorem completes_exitEyeBlock (s : State) : Completes s (execExitEyeBlock s) := by
  unfold execExitEyeBlock
  split
  · simp
  · dsimp only
    split
    · split <;> simp
    · simp

theorem completes_rinseOkAssert (s : State) : Completes s (execRinseOkAssert s) := by
  unfold execRinseOkAssert
  split <;> simp

theorem completes_dropout (e : EntryNo) (s : State) : Completes s (execDropout e s) := by
  unfold execDropout
  split
  · simp
  · split
    · split <;> simp
    · simp

theorem completes_dwellMillisecond (s : State) : Completes s (execDwellMillisecond s) := by
  simp [execDwellMillisecond]

/-! ### The requests of the port whose rule stands in the command itself -/

theorem completes_setAttention (settings : List Byte) (s : State) (more : List Byte) :
    Completes s (execSetAttention settings s more) := by
  refine completes_portDo (fun u => ?_) s
  split <;> simp [State.setAttention]

theorem completes_clearTable (s : State) (more : List Byte) : Completes s (execClearTable s more) := by
  refine completes_portDo (fun u => ?_) s
  split <;> simp

theorem completes_segmentHold (seg : Byte) (s : State) (more : List Byte) : Completes s (execSegmentHold seg s more) :=
  completes_portDo (onSegment_keepsQueue (fun u n _ => taken_did_keepsQueue.2 (updSeg_pending u n _)) seg) s

theorem completes_segmentRelease (seg : Byte) (s : State) (more : List Byte) :
    Completes s (execSegmentRelease seg s more) :=
  completes_portDo (onSegment_keepsQueue (fun u n _ => taken_did_keepsQueue.2 (updSeg_pending u n _)) seg) s

theorem completes_step (seg : Byte) (s : State) (more : List Byte) : Completes s (execStep seg s more) := by
  refine completes_portDo (fun u => ?_) s
  split
  · exact tell_keepsQueue u _
  · exact onSegment_keepsQueue stepTaken_keepsQueue seg u

theorem completes_clearTunnelFault (s : State) (more : List Byte) : Completes s (execClearTunnelFault s more) := by
  refine completes_portDo (fun u => ?_) s
  split <;> simp

theorem completes_linkReset (s : State) (more : List Byte) : Completes s (execLinkReset s more) :=
  completes_portDo (fun u => taken_did_keepsQueue.2 (linkReset_pending u)) s

theorem completes_defineSegment (number : Byte) (fields : Option RawSegment) (s : State) (more : List Byte) :
    Completes s (execDefineSegment number fields s more) := by
  refine completes_portDo (fun u => ?_) s
  split
  · exact tell_keepsQueue u _
  · exact undefineTaken_keepsQueue u _
  · split
    · exact tell_keepsQueue u _
    · exact defineTaken_keepsQueue u _ _

/-! ### Every command -/

theorem completes_exec (c : Instr) (s : State) : Completes s (exec c s) := by
  cases c with
  | powerOn b => exact completes_powerOn b s
  | nop more => exact completes_nop s more
  | ack sources more => exact completes_ack sources s more
  | readCounts | readEntry | readSegment | readTunnel | readNode | readDemand | readAttention =>
    unfold exec
    exact completes_portRead _ _ s
  | mode code => exact completes_portDo (fun u => modeTaken_keepsQueue u code) s
  | setParam id value => exact completes_portDo (fun u => setParamTaken_keepsQueue u id value.toNat) s
  | setAttention settings more => exact completes_setAttention settings s more
  | ackNode address => exact completes_portDo (fun u => ackNodeTaken_keepsQueue u address) s
  | admitRack tag seg => exact completes_portDo (fun u => admitTaken_keepsQueue u tag seg) s
  | retire tag => exact completes_portDo (fun u => retireTaken_keepsQueue u tag) s
  | restore tag seg clean => exact completes_portDo (fun u => restoreTaken_keepsQueue u tag seg clean) s
  | clearTable more => exact completes_clearTable s more
  | defineSegment number fields more => exact completes_defineSegment number fields s more
  | segmentHold seg more => exact completes_segmentHold seg s more
  | segmentRelease seg more => exact completes_segmentRelease seg s more
  | stepGate seg more => exact completes_step seg s more
  | clearStranger seg => exact completes_portDo (onSegment_keepsQueue clearStrangerTaken_keepsQueue seg) s
  | defineTunnel fields => exact completes_portDo (fun u => defineTunnelTaken_keepsQueue u fields) s
  | clearTunnelFault more => exact completes_clearTunnelFault s more
  | defineNode address fields => exact completes_portDo (fun u => nodeTaken_keepsQueue u address fields) s
  | linkReset more => exact completes_linkReset s more
  | steer on => exact completes_portDo (fun u => steerTaken_keepsQueue u on) s
  | clearJam src | resume src | lookup src | send src | claim src | unloadDone src | rewash src | release src | hold src
  | unhold src | forceRelease src =>
    exact completes_rackCommand _ src _ s
  | badCheckMessage bytes => exact completes_badCheckMessage bytes s
  | unknownRequest bytes => exact completes_unknownRequest bytes s
  | tooSoonTransaction bytes => exact completes_tooSoonTransaction bytes s
  | roundStart => exact completes_roundStart s
  | headerSent => exact completes_headerSent s
  | roundEnd => exact completes_roundEnd s
  | sightingWindowRunOut seg => exact completes_windowRunsOut seg s
  | windowEnd node seen => exact completes_windowEnd node seen s
  | validReply window branch reply => exact completes_validReply window branch reply s
  | branchWake branch => exact completes_branchWake branch s
  | resetPulseEnd => exact completes_resetPulseEnd s
  | eyeBlock input => exact completes_eyeBlock input s
  | eyeClear input => exact completes_eyeClear input s
  | gateOpen seg => exact completes_gateOpen seg s
  | jam seg => exact completes_jam seg s
  | safeStop asserted => exact completes_safeStop asserted s
  | secondsTick => exact completes_secondsTick s
  | stale entry => exact completes_stale entry s
  | promotion node kind => exact completes_promotion node kind s
  | autoQuiet => exact completes_autoQuiet s
  | paceTick => exact completes_paceTick s
  | paceCounterZero => exact completes_paceCounterZero s
  | encoderCount => exact completes_done.2 (count1_pending s)
  | exitEyeBlock => exact completes_exitEyeBlock s
  | rinseOkAssert => exact completes_rinseOkAssert s
  | dropout entry => exact completes_dropout entry s
  | dwellMillisecond => exact completes_dwellMillisecond s
  | turnaroundEnd | pitchReached | exitEyeClear | machineLineChange | rinseOkDeassert => exact ⟨_, rfl, rfl⟩

end Sys2Proof.Machine

/-- Settles O3: `Completes` holds of each command. -/
theorem everyCommandCompletes : Obligations.EveryCommandCompletes := completes_exec
end
